-- ==== Sys2Proof/Word.lean ====
section
/-! DEFINITION. The widths in which the ports, the pixel stream and the store carry values. -/

namespace Sys2Proof

/-- One byte of a command frame, a reply, a slot page or a store page. -/
abbrev Byte := BitVec 8

/-- A 16-bit value: a pixel input code, a declared width or height. -/
abbrev Half := BitVec 16

/-- A 32-bit value: an EDIT value as carried, a frame number, a calibration id. -/
abbrev Word := BitVec 32

end Sys2Proof
end

