-- ==== Sys2Proof/Syntax.lean ====
section
/-! DEFINITION. The commands of the block: one constructor per row of spec/opcode_table.json, with the arguments
that R178 gives a port command, the contents that the pixel stream gives a marker or a pixel (chapter 1), and, for a
row that ends an operation of the store, what the storage cells did (R138). -/

namespace Sys2Proof

/-- Port C and Port S: "a port" of the manual. -/
inductive Port where
  | c | s
deriving DecidableEq, Repr

/-- The three select lines. -/
inductive SelectLine where
  | c | s | r
deriving DecidableEq, Repr

/-- A request of a port to the Context Arbiter (R106). -/
inductive Request where
  | edit (fieldId : Byte) (value : Word)
  | editClose (fieldId : Byte) (value : Word)
  | groupOpen
  | groupClose
  | groupAbandon
deriving DecidableEq, Repr

/-- The moments of a record's transfer up to its end (R160, R161). -/
inductive TransferMoment where
  /-- So many further bytes have been shifted out; the last byte of the record is not among them. -/
  | shifting (count : Nat)
  /-- The last byte has been shifted out; no transfer of a next record has begun. -/
  | lastByte
  /-- The byte after it is due: the transfer of the next record begins, or fill. -/
  | nextByte
  /-- The one and then the other, with nothing between them. -/
  | lastAndNext
deriving DecidableEq, Repr

/-- The moments of a selection up to its end, as its select line and its serial clock give them (R165, R166). -/
inductive SelectionMoment where
  /-- The select line falls. -/
  | fall
  /-- These bits are taken on clock edges, one an edge, while the bits of the reply go out. -/
  | clocked (bits : List Bool)
  /-- The select line rises. -/
  | rise
deriving DecidableEq, Repr

/-- A command: one row of the opcode table. The operand `beside` of a request is the request of the other port that waits
for the arbiter at the same moment, if one does (R106, R184; assumption log 3). -/
inductive Instr where
  /-- RESET_ASSERT. `acts`: how many acts the save or erase in progress, if any, had completed (R152). -/
  | resetAssert (acts : Nat)
  /-- RESET_RELEASE. `decayed`: store pages whose check value no longer matches their bytes (R138, R141). -/
  | resetRelease (decayed : List Nat)
  /-- START_UP_COMPLETION. `decayed`: as above, met by the reads start-up makes after the scan (R141). -/
  | startUpCompletion (decayed : List Nat)
  /-- FRAME_START with the declared width and height (R5). -/
  | frameStart (width height : Half)
  /-- PIXEL with its three input codes. -/
  | pixel (red green blue : Half)
  /-- FRAME_END. -/
  | frameEnd
  /-- INPUT_LOST: the expiry of the input-lost timer. `elapsed`: the milliseconds that have passed on that timer since it
  was last advanced or restarted (R8; assumption log 4). -/
  | inputLost (elapsed : Nat)
  /-- EVALUATION_COMPLETION (R73). -/
  | evaluationCompletion
  /-- TRACKER_SUBMISSION: the arbiter takes the tracker's waiting submission (R118). -/
  | trackerSubmission
  /-- GROUP_EXPIRY: the expiry of the inactivity timer. `elapsed`: the milliseconds that have passed on that timer since it
  was last advanced or restarted (R115, R117; assumption log 4). -/
  | groupExpiry (elapsed : Nat)
  | readStatus (p : Port)
  | readField (p : Port) (fieldId : Byte)
  | readDerived (p : Port)
  | readTracker (p : Port)
  | readZones (p : Port)
  | edit (p : Port) (fieldId : Byte) (value : Word) (beside : Option Request)
  | editClose (p : Port) (fieldId : Byte) (value : Word) (beside : Option Request)
  | groupOpen (p : Port) (beside : Option Request)
  | groupClose (p : Port) (beside : Option Request)
  | groupAbandon (p : Port) (beside : Option Request)
  | slotOpen (p : Port) (slot : Byte)
  | slotWrite (p : Port) (slot page offset : Byte) (data : List Byte)
  | slotFinish (p : Port) (slot : Byte)
  | slotDiscard (p : Port) (slot : Byte)
  | slotRead (p : Port) (slot page : Byte)
  | slotInfo (p : Port) (slot : Byte)
  | writeEnable (p : Port)
  | writeDisable (p : Port)
  | recall (p : Port) (sector slot : Byte)
  /-- RECALL_COMPLETION. `decayed`: pages whose check value is found not to match (R144). -/
  | recallCompletion (decayed : List Nat)
  | save (p : Port) (slot sector : Byte) (name : List Byte) (selector : Byte)
  /-- SAVE_COMPLETION. `failedAct`: the act that met a verify failure, if one did (R147). -/
  | saveCompletion (failedAct : Option Nat)
  | erase (p : Port) (sector complement : Byte)
  /-- ERASE_COMPLETION. `failedAct`: the act that met a verify failure, if one did (R149). -/
  | eraseCompletion (failedAct : Option Nat)
  | readSector (p : Port) (sector : Byte)
  /-- FRAMING: a selection of the port that is not well formed: the whole bytes it received, and the bits of a part byte
  (R166, R167). -/
  | framing (p : Port) (received : List Byte) (part : List Bool)
  /-- UNKNOWN: a selection of whole bytes whose first is no command of Ports C and S (R167, R169). -/
  | unknown (p : Port) (received : List Byte)
  /-- SUPPLY_LOW_ASSERT. `acts`: how many acts the operation it cuts had completed (R150). -/
  | supplyLowAssert (acts : Nat)
  | supplyLowDeassert
  | calibrationProtectChange (asserted : Bool)
  | portRReadStatus
  /-- READ_RECORDS. `begun`: whether the byte after the command byte is due at once, and with it the first transfer begun
  (R160). -/
  | readRecords (begun : Bool)
  /-- READ_RECORDS_STREAM. `begun`: as above. -/
  | readRecordsStream (begun : Bool)
  | streamSelection
  | streamExit
  | portRUnknownByte (code : Byte)
  /-- RECORD_TRANSFER_END. `moment`: which of its moments comes (R160). -/
  | recordTransferEnd (moment : TransferMoment)
  /-- TRANSFER_CUT_OFF. `shifted`: how many whole bytes of the record had been shifted out (R161). -/
  | transferCutOff (shifted : Nat)
  /-- SELECTION_END. `moment`: which of the moments of a selection comes (R165, R166; assumption log 26). -/
  | selectionEnd (line : SelectLine) (moment : SelectionMoment)
deriving DecidableEq, Repr

end Sys2Proof
end

