-- ==== Sys2Proof/Decode.lean ====
section
/-! DEFINITION. The command that the bytes of a selection of Port C or S are, by the tests of R167 with the codes and lengths of
R178. And the command that a word spells by the bits of the opcode table: none, since no row gives bits. -/

namespace Sys2Proof

/-- The command whose bits, as the opcode table numbers them, are `w`: none, since no row of the table gives bits. -/
def decodeTableWord (_nbits _w : Nat) : Option Instr := none

/-! ## Codes and lengths (R178) -/

/-- The code of SLOT WRITE, the one command of no fixed length (R178). -/
def slotWriteCode : Byte := 0x32

/-- The number of argument bytes of a command of Ports C and S, by its code: for SLOT WRITE of those before its data bytes.
None: no command of these ports (R178). -/
def argumentLength (code : Byte) : Option Nat :=
  match code.toNat with
  | 0x0C | 0x12 | 0x14 | 0x15 | 0x28 | 0x29 | 0x2A | 0x41 | 0x42 => some 0
  | 0x11 | 0x31 | 0x33 | 0x34 | 0x36 | 0x4C => some 1
  | 0x35 | 0x48 | 0x4A => some 2
  | 0x32 => some 3
  | 0x21 | 0x22 => some 5
  | 0x49 => some 19
  | _ => none

/-- The codes of the read commands (R168, R178). -/
def readCodes : List Byte := [0x0C, 0x11, 0x12, 0x14, 0x15, 0x35, 0x36, 0x4C]

/-- The command codes of Port R (R178). -/
def portRCommandCodes : List Byte := [0x0C, 0x61, 0x62]

/-- The word that bytes spell, most significant first (R177). -/
def wordOfBytes (bytes : List Byte) : Word := BitVec.ofNat 32 (bytes.foldl (fun acc b => 256 * acc + b.toNat) 0)

/-- The byte of eight bits, the first taken the most significant (R165). -/
def byteOfBits (bits : List Bool) : Byte := BitVec.ofNat 8 (bits.foldl (fun acc b => 2 * acc + b.toNat) 0)

/-! ## Commands and frames -/

/-- The command of a code with its arguments, which are as many as R178 gives. -/
def commandOfCode (p : Port) (code : Byte) (arguments : List Byte) : Instr :=
  let argument (k : Nat) : Byte := arguments.getD k 0
  match code.toNat with
  | 0x0C => .readStatus p
  | 0x11 => .readField p (argument 0)
  | 0x12 => .readDerived p
  | 0x14 => .readTracker p
  | 0x15 => .readZones p
  | 0x21 => .edit p (argument 0) (wordOfBytes (arguments.drop 1)) none
  | 0x22 => .editClose p (argument 0) (wordOfBytes (arguments.drop 1)) none
  | 0x28 => .groupOpen p none
  | 0x29 => .groupClose p none
  | 0x2A => .groupAbandon p none
  | 0x31 => .slotOpen p (argument 0)
  | 0x32 => .slotWrite p (argument 0) (argument 1) (argument 2) (arguments.drop 3)
  | 0x33 => .slotFinish p (argument 0)
  | 0x34 => .slotDiscard p (argument 0)
  | 0x35 => .slotRead p (argument 0) (argument 1)
  | 0x36 => .slotInfo p (argument 0)
  | 0x41 => .writeEnable p
  | 0x42 => .writeDisable p
  | 0x48 => .recall p (argument 0) (argument 1)
  | 0x49 => .save p (argument 0) (argument 1) ((arguments.drop 2).take 16) (argument 18)
  | 0x4A => .erase p (argument 0) (argument 1)
  | 0x4C => .readSector p (argument 0)
  | _ => .unknown p (code :: arguments)

/-- What a selection of Port C or S is by what it received (R167, R168). -/
inductive Frame where
  | framing
  | unknown
  | command (c : Instr)
deriving DecidableEq, Repr

/-- Whether the bytes after a command byte are as many as its length, for SLOT WRITE with one data byte or more (R167). -/
def lengthFits (code : Byte) (length received : Nat) : Bool :=
  if code = slotWriteCode then decide (length < received) else decide (received = length)

/-- The tests of R167 in their order, on the whole bytes received and the bits of a part byte. A read is executed when its last
argument byte has been received, and what follows is not examined (R168). -/
def judgeFrame (p : Port) (received : List Byte) (part : List Bool) : Frame :=
  match received with
  | [] => .framing
  | code :: rest =>
    match argumentLength code with
    | none => if part.isEmpty then .unknown else .framing
    | some n =>
      if readCodes.contains code && decide (n ≤ rest.length) then .command (commandOfCode p code (rest.take n))
      else if !part.isEmpty then .framing
      else if lengthFits code n rest.length then .command (commandOfCode p code rest)
      else .framing

/-- The read whose last byte, of its arguments or of its command, is the last byte received: it is executed then (R168). -/
def completedRead (p : Port) (received : List Byte) : Option Instr :=
  match received with
  | [] => none
  | code :: arguments =>
    if readCodes.contains code && decide (argumentLength code = some arguments.length) then
      some (commandOfCode p code arguments)
    else none

end Sys2Proof
end

