-- ==== Sys2Proof/Config.lean ====
section
/-! DEFINITION. The free values: what the manual leaves open while the part goes on. Each is an opaque constant
without a body, so nothing in Lean can evaluate it; each is applied to the plain counter `freeIndex` of State. -/

namespace Sys2Proof

/-- The byte at a position of a page that a save or an erase wrote and that did not read back as written (R138):
the manual does not say what such a page holds. First argument: the fresh index; second: the position in the page.
Assumption log 5. -/
opaque Config.failedPageByte : Nat → Nat → Byte

/-- Whether the check value of such a page fails to match its bytes afterwards (R138). Assumption log 5. -/
opaque Config.failedPageMismatch : Nat → Bool

/-- The action byte that READ TRACKER shows between the completion of an evaluation and the arbiter's answer to the
step it submitted (R73, R82 name no code for it). Assumption log 9. -/
opaque Config.unansweredAction : Nat → Byte

end Sys2Proof
end

