-- ==== Sys2Proof/Machine/State.lean ====
section
/-! DEFINITION. Everything the manual says the processor holds, block by block, as plain data; the outcomes of a
command; and the state after reset. Each field cites the rule that names it. -/

namespace Sys2Proof.Machine

/-! ## Containers -/

/-- A table of exactly `n` items: the working slots, the zone records, the Sector Directory. -/
structure Tab (α : Type) (n : Nat) where
  list : List α
  len : list.length = n
deriving DecidableEq, Repr

/-- `n` copies of one item. -/
def Tab.replicate {α : Type} (n : Nat) (x : α) : Tab α n := ⟨List.replicate n x, List.length_replicate⟩

/-- Addressed bytes: a list of (address, byte), addresses strictly rising, none listed that equals what an unlisted
address reads as. A slot's unlisted bytes read 0 (R123), the store's 0xFF (R138). -/
abbrev Memory := List Host.Cell

/-- What a slot byte that is not listed reads as: every value 0 after reset and after a discard (R123, R130). -/
def slotFill : Byte := 0x00

/-- What a store byte that is not listed reads as: erased (R138). -/
def storeFill : Byte := 0xFF

/-! ## Pixel Engine (chapter 1) -/

/-- The engine's frame state (R2). -/
inductive FrameState where
  | starting | noInput | betweenFrames | inFrame
deriving DecidableEq, Repr

/-- Nine coefficients, row-major, in units of 1/4096. -/
structure Mat3 where
  m11 : Int
  m12 : Int
  m13 : Int
  m21 : Int
  m22 : Int
  m23 : Int
  m31 : Int
  m32 : Int
  m33 : Int
deriving DecidableEq, Repr

/-- 4,096 on the diagonal, 0 elsewhere. -/
def Mat3.identity : Mat3 := ⟨4096, 0, 0, 0, 4096, 0, 0, 0, 4096⟩

/-- The values from which every pixel of a frame is computed (R3). -/
structure FrameContext where
  blackR : Nat
  blackG : Nat
  blackB : Nat
  highlight : Nat
  gainR : Nat
  gainG : Nat
  gainB : Nat
  matrix : Mat3
  programmeTone : Fin 4
  monitorTone : Fin 4
  monitorLattice : Option (Fin 4)
deriving DecidableEq, Repr

/-- What an output carries: a marker passed on or a pixel's three codes (R4, R6, R7, R22, R37). -/
inductive VideoItem where
  | frameStart (width height : Half)
  | frameEnd
  | pixel (red green blue : Nat)
deriving DecidableEq, Repr

/-- The state of R2. `programmeOut` and `monitorOut` are the model's: what the most recent event of the pixel stream put
on the two outputs, if anything. -/
structure PixelEngine where
  frameState : FrameState
  frameNumber : Word
  width : Half
  height : Half
  geometryValid : Bool
  pixelIndex : Nat
  context : FrameContext
  clippedCount : Nat
  gainClampCount : Nat
  matrixClampCount : Nat
  /-- Stopped, or running with the milliseconds passed, toward 500 (R8). -/
  inputLostTimer : Option Nat
  programmeOut : Option VideoItem
  monitorOut : Option VideoItem
deriving DecidableEq, Repr

/-! ## Zone Statistics Accumulator and Illuminant Tracker (chapter 4) -/

/-- One zone's pixel count, qualifying count and sums (R59). -/
structure ZoneRecord where
  pixelCount : Nat
  qualifying : Nat
  sumR : Nat
  sumG : Nat
  sumB : Nat
deriving DecidableEq, Repr

/-- A zone record of zeros. -/
def ZoneRecord.zero : ZoneRecord := ⟨0, 0, 0, 0, 0⟩

/-- The gathering state (R59). -/
inductive GatherState where
  | idle | gathering | notGathering
deriving DecidableEq, Repr

/-- The state of R59. -/
structure ZoneAccumulator where
  state : GatherState
  frameNumber : Word
  width : Half
  height : Half
  darkFloor : Nat
  zones : Tab ZoneRecord 48
deriving DecidableEq, Repr

/-- The tracker's modes (section 4.3). -/
inductive TrackerMode where
  | auto | hold | manual
deriving DecidableEq, Repr

/-- The tracker's substates (section 4.3). -/
inductive Substate where
  | settled | gliding
deriving DecidableEq, Repr

/-- An evaluation in flight: what it took at its start (R66). -/
structure Evaluation where
  frameNumber : Word
  zones : Tab ZoneRecord 48
  darkFloor : Nat
  acceptRadius : Nat
  minVotes : Nat
  bias : Int
deriving DecidableEq, Repr

/-- The action of a completed evaluation (R73). -/
inductive TrackerAction where
  | noAction | notSubmitted | submitted | refusedHeld | refusedFull
deriving DecidableEq, Repr

/-- The last evaluation summary (R73). `action` is `none` while the arbiter has not yet answered the submission. -/
structure EvaluationSummary where
  frameNumber : Word
  darkFloor : Nat
  acceptRadius : Nat
  minVotes : Nat
  bias : Int
  usableZones : Nat
  votes : Nat
  median : Option Nat
  estimate : Option Nat
  starved : Bool
  action : Option TrackerAction
  valueSubmitted : Option Nat
deriving DecidableEq, Repr

/-- One zone's outcome in the last zone results (R73). -/
structure ZoneResult where
  handed : ZoneRecord
  usable : Bool
  ratioR : Nat
  ratioB : Nat
  nearest : Nat
  distance : Nat
  voted : Bool
  vote16 : Nat
deriving DecidableEq, Repr

/-- The last zone results with the frame number and dark floor that precede them (R83). -/
structure ZoneResults where
  frameNumber : Word
  darkFloor : Nat
  zones : Tab ZoneResult 48
deriving DecidableEq, Repr

/-- A step the tracker has submitted: the MIRED value and the substate that its acceptance makes effective (R79). -/
structure Submission where
  value : Nat
  proposed : Substate
deriving DecidableEq, Repr

/-- The state of R65, and the submission that waits for the arbiter (R106). -/
structure Tracker where
  mode : TrackerMode
  substate : Substate
  target : Nat
  evaluation : Option Evaluation
  summary : Option EvaluationSummary
  zoneResults : Option ZoneResults
  waiting : Option Submission
deriving DecidableEq, Repr

/-! ## Context Unit (chapters 3 and 5) -/

/-- One locus entry: mired, and the ratios in units of 1/4096 (R40). -/
structure LocusEntry where
  mired : Nat
  rg : Nat
  bg : Nat
deriving DecidableEq, Repr

/-- The calibration set in use (R40). The locus count N is the length of `locus`. -/
structure CalibrationSet where
  id : Word
  warmMired : Nat
  coolMired : Nat
  warmMatrix : Mat3
  coolMatrix : Mat3
  locus : List LocusEntry
  defaultMired : Nat
  defaultToneSector : Option (Fin 64)
deriving DecidableEq, Repr

/-- The derived values (R46). -/
structure Derived where
  applied : Nat
  interval : Nat
  ratioRg : Nat
  ratioBg : Nat
  gainR : Nat
  gainG : Nat
  gainB : Nat
  weight : Nat
  interpolated : Mat3
  effective : Mat3
  trimSaturated : Bool
  exposureSaturated : Bool
deriving DecidableEq, Repr

/-- The 26 editable fields by name (R84). -/
inductive Field where
  | blackR | blackG | blackB | highlight | mired | tint | exposure
  | trim11 | trim12 | trim13 | trim21 | trim22 | trim23 | trim31 | trim32 | trim33
  | trackerMode | glideRate | deadBand | minVotes | acceptRadius | bias | darkFloor
  | programmeTone | monitorTone | monitorLattice
deriving DecidableEq, Repr

/-- The Live Colour Context (R84). -/
structure Fields where
  blackR : Nat
  blackG : Nat
  blackB : Nat
  highlight : Nat
  mired : Nat
  tint : Int
  exposure : Int
  trim : Mat3
  trackerMode : TrackerMode
  glideRate : Nat
  deadBand : Nat
  minVotes : Nat
  acceptRadius : Nat
  bias : Int
  darkFloor : Nat
  programmeTone : Fin 4
  monitorTone : Fin 4
  monitorLattice : Option (Fin 4)
deriving DecidableEq, Repr

/-- The parties that submit entries (R86, R106). -/
inductive Requester where
  | portC | portS | tracker
deriving DecidableEq, Repr

/-- An entry's group mark (R86). -/
inductive GroupMark where
  | ungrouped | openGroup | closedGroup
deriving DecidableEq, Repr

/-- One accepted edit (R86). -/
structure Entry where
  source : Requester
  field : Field
  value : Int
  mark : GroupMark
deriving DecidableEq, Repr

/-- The outcome of an entry's application (R91). -/
inductive EntryOutcome where
  | applied | discarded
deriving DecidableEq, Repr

/-- One item of the applied-change list (R101). -/
structure AppliedItem where
  source : Requester
  field : Field
  outcome : EntryOutcome
deriving DecidableEq, Repr

/-- What the Context Unit holds (R40, R43, R46, R84, R86, R101). -/
structure ContextUnit where
  /-- Absent from the release of reset until the calibration load (R40). -/
  calibration : Option CalibrationSet
  calFallback : Bool
  derived : Derived
  fields : Fields
  queue : List Entry
  appliedChanges : List AppliedItem
deriving DecidableEq, Repr

/-! ## Context Arbiter (chapter 6) -/

/-- A port's standing with respect to groups (R105). -/
inductive GroupOutcome where
  | noGroup | opened | expired
deriving DecidableEq, Repr

/-- The state of R105. `owner` is the group state: absent for FREE. -/
structure Arbiter where
  owner : Option Port
  /-- Stopped, or running with the milliseconds passed, toward 200 (R114). -/
  inactivityTimer : Option Nat
  outcomeC : GroupOutcome
  outcomeS : GroupOutcome
  /-- Least recently granted first. -/
  grantOrder : List Requester
  expiryNote : Bool
deriving DecidableEq, Repr

/-! ## Working Slot Memory (chapter 7) -/

/-- A slot's state; the owner is present exactly while OPEN (R123). -/
inductive SlotState where
  | empty | opened (owner : Port) | loading | ready
deriving DecidableEq, Repr

/-- Where a slot's content came from (R123). -/
inductive Origin where
  | sector (number : Fin 64) | port (p : Port) | builtIn | noOrigin
deriving DecidableEq, Repr

/-- One slot's record and content (R123, R124). -/
structure Slot where
  state : SlotState
  generation : Half
  origin : Origin
  bound : Bool
  references : Nat
  saving : Bool
  content : Memory
deriving DecidableEq, Repr

/-- A slot after reset (R123). -/
def Slot.reset : Slot :=
  { state := .empty, generation := 0, origin := .noOrigin, bound := false, references := 0, saving := false, content := [] }

/-! ## Look Store (chapter 8) -/

/-- The kinds of sector content (R139). -/
inductive SectorKind where
  | calibration | lattice | tone
deriving DecidableEq, Repr

/-- What the directory holds of a VALID sector (R140). The calibration id is present for kind CALIBRATION. -/
structure SectorInfo where
  kind : SectorKind
  contentLength : Nat
  name : List Byte
  calibrationId : Option Word
deriving DecidableEq, Repr

/-- One entry of the Sector Directory (R140). -/
inductive SectorEntry where
  | blank | valid (info : SectorInfo) | torn | programming | erasing | eraseSuspended
deriving DecidableEq, Repr

/-- The non-volatile bytes (address 32,768 × sector + 256 × page + position), and the pages whose stored check value does
not match their bytes (page number 128 × sector + page), rising (R138). -/
structure Store where
  bytes : Memory
  mismatched : List Nat
deriving DecidableEq, Repr

/-- What a save in progress was asked for (R146). -/
structure SaveJob where
  slot : Fin 8
  calibration : Bool
  name : List Byte
deriving DecidableEq, Repr

/-- The controller state (R142) with what the operation in progress needs. `begun` tells a suspended erase that had been
running from one that began suspended (R145, R150). -/
inductive ControllerState where
  | idle | programming (job : SaveJob) | erasing | eraseSuspended (begun : Bool)
deriving DecidableEq, Repr

/-- The outcome of a store operation (R142). -/
inductive StoreOutcome where
  | completed | failed | cut
deriving DecidableEq, Repr

/-- The store controller (R142). -/
structure Controller where
  state : ControllerState
  sector : Option (Fin 64)
  outcome : Option StoreOutcome
deriving DecidableEq, Repr

/-- The recall state, with the state the slot had before the recall in flight (R134, R142). -/
inductive RecallState where
  | idle | recalling (prior : SlotState)
deriving DecidableEq, Repr

/-- The recall engine (R142). -/
structure RecallEngine where
  state : RecallState
  slot : Option (Fin 8)
  sector : Option (Fin 64)
  outcome : Option StoreOutcome
deriving DecidableEq, Repr

/-! ## Record Ring (chapter 9) -/

/-- A binding in a record: the slot within its kind, its generation and its origin (R155). -/
structure RecordBinding where
  slot : Fin 4
  generation : Half
  origin : Origin
deriving DecidableEq, Repr

/-- What a record takes at its opening (R156). -/
structure OpenRecord where
  frameNumber : Word
  noStats : Bool
  deriveSat : Bool
  groupExpired : Bool
  calFallback : Bool
  width : Half
  height : Half
  blackR : Nat
  blackG : Nat
  blackB : Nat
  highlight : Nat
  mired : Nat
  tint : Int
  exposure : Int
  gainR : Nat
  gainG : Nat
  gainB : Nat
  effective : Mat3
  trim : Mat3
  programmeTone : RecordBinding
  monitorTone : RecordBinding
  monitorLattice : Option RecordBinding
  appliedChanges : List AppliedItem
  calibrationId : Word
deriving DecidableEq, Repr

/-- The counts block (R155). -/
structure CountsBlock where
  clipped : Nat
  gainClamp : Nat
  matrixClamp : Nat
  qualifying : Nat
deriving DecidableEq, Repr

/-- A complete record: its opening, the tracker items of R81, EVAL_SKIPPED, and the counts block, whose absence is
TRUNCATED (R155, R157, R158). -/
structure FrameRecord where
  opening : OpenRecord
  evalSkipped : Bool
  trackerMode : TrackerMode
  substate : Substate
  target : Nat
  votes : Nat
  estimate : Option Nat
  counts : Option CountsBlock
deriving DecidableEq, Repr

/-- The record being transferred on Port R and the number of its bytes already shifted out (R154). -/
structure ReadBuffer where
  record : FrameRecord
  position : Nat
deriving DecidableEq, Repr

/-- Port R's mode (R154). -/
inductive PortRMode where
  | command | stream
deriving DecidableEq, Repr

/-- The state of R154. -/
structure RecordRing where
  openRecord : Option OpenRecord
  ring : List FrameRecord
  readBuffer : Option ReadBuffer
  mode : PortRMode
  fill : Bool
deriving DecidableEq, Repr

/-! ## Command ports (chapter 10) -/

/-- Result codes (R171, R179). -/
inductive Result where
  | done | clamped | started | held | full | late | noGroup | inUse | notReady | owned | notOpen | badField | badSlot
  | badPage | badSector | wrongKind | notValid | notBlank | protected_ | notEnabled | storeBusy | bankBusy | recallBusy
  | supplyLow | starting | framing | unknown
deriving DecidableEq, Repr

/-- The selection state: the bytes received so far and the bits of any part byte (R166). -/
inductive Selection where
  | idle | selected (received : List Byte) (partBits : List Bool)
deriving DecidableEq, Repr

/-- A read in progress: the reply, whether it is repeated, and its position (R166, R168). -/
structure Reading where
  reply : List Byte
  repeated : Bool
  position : Nat
deriving DecidableEq, Repr

/-- What each of Ports C and S holds (R166); the group outcome is the arbiter's. `shifted` (the whole bytes that the selection in
progress has shifted out, R165) is the model's. -/
structure PortState where
  selection : Selection
  reading : Option Reading
  shifted : List Byte
  lastResult : Result
  writeEnable : Bool
deriving DecidableEq, Repr

/-- A port after reset (R166). -/
def PortState.reset : PortState :=
  { selection := .idle, reading := none, shifted := [], lastResult := .done, writeEnable := false }

/-- What Port R holds (R166); its mode is the Record Ring's. `firstByteTaken` (whether the selection's first whole byte
has been judged, R175) and `shifted` (the whole bytes the latest selection has shifted out) are the model's. -/
structure PortRState where
  selection : Selection
  reading : Option Reading
  firstByteTaken : Bool
  shifted : List Byte
deriving DecidableEq, Repr

/-! ## The whole processor -/

/-- Everything the processor holds, the lines as they stand, the queue of commands that wait, and the plain counter that
the free values read. -/
structure State where
  pending : List Instr
  /-- Whether the reset line is asserted (R2). -/
  resetLine : Bool
  /-- Whether the calibration protect line is asserted (R151). -/
  protectLine : Bool
  /-- Whether the supply-low line is asserted (R150). -/
  supplyLowLine : Bool
  pe : PixelEngine
  zsa : ZoneAccumulator
  it : Tracker
  cu : ContextUnit
  ca : Arbiter
  slots : Tab Slot 8
  store : Store
  /-- Absent from the release of reset until the scan has built it (R140). -/
  directory : Option (Tab SectorEntry 64)
  controller : Controller
  recallEngine : RecallEngine
  rr : RecordRing
  portC : PortState
  portS : PortState
  portR : PortRState
  /-- The model's: the index of the next free value. -/
  freeIndex : Nat
deriving DecidableEq, Repr

/-- No command of this block stops the machine with a fault: every row of the table has an effect in every state. -/
inductive Fault where
deriving DecidableEq, Repr

/-- The reasons a command has no meaning. -/
inductive Refusal where
  /-- Raised by exec for a command whose meaning is not written yet; safe. No command of this model is refused. -/
  | notModelled (mnemonic : String)
deriving DecidableEq, Repr

/-! ## Reset -/

/-- The frame context after reset (R3). -/
def FrameContext.reset : FrameContext :=
  { blackR := 256, blackG := 256, blackB := 256, highlight := 65535, gainR := 4096, gainG := 4096, gainB := 4096,
    matrix := Mat3.identity, programmeTone := 0, monitorTone := 0, monitorLattice := none }

/-- The Pixel Engine after reset (R2). -/
def PixelEngine.reset : PixelEngine :=
  { frameState := .starting, frameNumber := 0, width := 0, height := 0, geometryValid := false, pixelIndex := 0,
    context := FrameContext.reset, clippedCount := 0, gainClampCount := 0, matrixClampCount := 0, inputLostTimer := none,
    programmeOut := none, monitorOut := none }

/-- The ZSA after reset (R59). -/
def ZoneAccumulator.reset : ZoneAccumulator :=
  { state := .idle, frameNumber := 0, width := 0, height := 0, darkFloor := 512, zones := Tab.replicate 48 ZoneRecord.zero }

/-- The IT after reset; the target holds 0 until start-up (R65). -/
def Tracker.reset : Tracker :=
  { mode := .auto, substate := .settled, target := 0, evaluation := none, summary := none, zoneResults := none, waiting := none }

/-- The derived values after reset (R46). -/
def Derived.reset : Derived :=
  { applied := 0, interval := 0, ratioRg := 4096, ratioBg := 4096, gainR := 4096, gainG := 4096, gainB := 4096, weight := 0,
    interpolated := Mat3.identity, effective := Mat3.identity, trimSaturated := false, exposureSaturated := false }

/-- The fields' defaults, with MIRED at the value given (R84). -/
def Fields.default (mired : Nat) : Fields :=
  { blackR := 256, blackG := 256, blackB := 256, highlight := 65535, mired := mired, tint := 0, exposure := 0,
    trim := Mat3.identity, trackerMode := .auto, glideRate := 4, deadBand := 5, minVotes := 12, acceptRadius := 410,
    bias := 0, darkFloor := 512, programmeTone := 0, monitorTone := 0, monitorLattice := none }

/-- The Context Unit after reset (R102). -/
def ContextUnit.reset : ContextUnit :=
  { calibration := none, calFallback := false, derived := Derived.reset, fields := Fields.default 0, queue := [],
    appliedChanges := [] }

/-- The Context Arbiter after reset (R105). -/
def Arbiter.reset : Arbiter :=
  { owner := none, inactivityTimer := none, outcomeC := .noGroup, outcomeS := .noGroup,
    grantOrder := [.portS, .tracker, .portC], expiryNote := false }

/-- The store controller after reset (R142). -/
def Controller.reset : Controller := { state := .idle, sector := none, outcome := none }

/-- The recall engine after reset (R142). -/
def RecallEngine.reset : RecallEngine := { state := .idle, slot := none, sector := none, outcome := none }

/-- The Record Ring after reset (R154). -/
def RecordRing.reset : RecordRing := { openRecord := none, ring := [], readBuffer := none, mode := .command, fill := false }

/-- Port R after reset (R166). -/
def PortRState.reset : PortRState := { selection := .idle, reading := none, firstByteTaken := false, shifted := [] }

/-- The processor right after reset: the line released, the scan not yet made, every item at its reset value. The store
is non-volatile and has no reset value: it is all erased here (assumption log 1). The two guard lines are deasserted
(assumption log 2). -/
def State.reset : State :=
  { pending := [], resetLine := false, protectLine := false, supplyLowLine := false, pe := PixelEngine.reset,
    zsa := ZoneAccumulator.reset, it := Tracker.reset, cu := ContextUnit.reset, ca := Arbiter.reset,
    slots := Tab.replicate 8 Slot.reset, store := { bytes := [], mismatched := [] }, directory := none,
    controller := Controller.reset, recallEngine := RecallEngine.reset, rr := RecordRing.reset, portC := PortState.reset,
    portS := PortState.reset, portR := PortRState.reset, freeIndex := 0 }

end Sys2Proof.Machine
end

