-- ==== Sys2Proof/Machine/Ops.lean ====
section
/-! DEFINITION. The named operations over tables, byte memories, ports, slots and store pages. Every read and write of
these goes through here. -/

namespace Sys2Proof.Machine

/-! ## Tables -/

/-- Item `i` of a table. -/
def Tab.get {α : Type} {n : Nat} (t : Tab α n) (i : Fin n) : α :=
  t.list[i.val]'(by rw [t.len]; exact i.isLt)

/-- The table with item `i` replaced. -/
def Tab.set {α : Type} {n : Nat} (t : Tab α n) (i : Fin n) (x : α) : Tab α n :=
  ⟨t.list.set i.val x, by rw [List.length_set, t.len]⟩

/-- The table with every item mapped. -/
def Tab.map {α β : Type} {n : Nat} (f : α → β) (t : Tab α n) : Tab β n :=
  ⟨t.list.map f, by rw [List.length_map, t.len]⟩

/-- The table whose item `i` is `f i`. -/
def Tab.ofFn {α : Type} {n : Nat} (f : Fin n → α) : Tab α n := ⟨List.ofFn f, List.length_ofFn⟩

/-! ## Byte memories -/

/-- The byte at an address; an address not listed reads as `fill`. -/
def Memory.read (fill : Byte) : Memory → Nat → Byte
  | [], _ => fill
  | (a, b) :: rest, x => if a = x then b else Memory.read fill rest x

/-- The cells of a run of bytes from `base` on, those that equal `fill` left out. -/
def Memory.ofRun (fill : Byte) : Nat → List Byte → Memory
  | _, [] => []
  | base, b :: rest =>
    if b = fill then Memory.ofRun fill (base + 1) rest else (base, b) :: Memory.ofRun fill (base + 1) rest

/-- The memory with the bytes from `base` on replaced by a run of bytes. -/
def Memory.writeRun (fill : Byte) (m : Memory) (base : Nat) (bytes : List Byte) : Memory :=
  m.filter (fun c => decide (c.1 < base)) ++ Memory.ofRun fill base bytes ++
    m.filter (fun c => decide (base + bytes.length ≤ c.1))

/-- The memory with one byte replaced. -/
def Memory.write (fill : Byte) (m : Memory) (a : Nat) (b : Byte) : Memory := Memory.writeRun fill m a [b]

/-- The memory with `count` bytes from `base` on back at what an unlisted address reads as. -/
def Memory.clearRun (m : Memory) (base count : Nat) : Memory :=
  m.filter fun c => decide (c.1 < base) || decide (base + count ≤ c.1)

/-- `count` bytes from `base` on. -/
def Memory.readRun (fill : Byte) (m : Memory) (base count : Nat) : List Byte :=
  (List.range count).map fun k => Memory.read fill m (base + k)

/-- The canonical form: addresses strictly rising, and no entry equal to what an unlisted address reads as. -/
abbrev Memory.wf (fill : Byte) (m : Memory) : Prop :=
  m.Pairwise (fun c d => c.1 < d.1) ∧ ∀ c ∈ m, c.2 ≠ fill

/-! ## Pages whose check value does not match (R138) -/

/-- A page number put into a rising list once. -/
def insertPage (page : Nat) : List Nat → List Nat
  | [] => [page]
  | p :: rest => if page < p then page :: p :: rest else if page = p then p :: rest else p :: insertPage page rest

/-- The store with the pages listed no longer matching their check values. -/
def Store.decay (pages : List Nat) (st : Store) : Store :=
  { st with mismatched := pages.foldl (fun acc p => insertPage p acc) st.mismatched }

/-- Whether a read of a page meets a verify failure. -/
def Store.pageFails (st : Store) (page : Nat) : Bool := st.mismatched.contains page

/-- The first address of a sector (R138). -/
def sectorBase (sector : Fin 64) : Nat := 32768 * sector.val

/-- The number of a page of a sector among the pages of the store. -/
def sectorPage (sector : Fin 64) (page : Nat) : Nat := 128 * sector.val + page

/-- The byte at an offset of a sector. -/
def Store.byte (st : Store) (sector : Fin 64) (offset : Nat) : Byte :=
  Memory.read storeFill st.bytes (sectorBase sector + offset)

/-- Bytes programmed at an offset of a sector. -/
def Store.program (st : Store) (sector : Fin 64) (offset : Nat) (bytes : List Byte) : Store :=
  { st with bytes := Memory.writeRun storeFill st.bytes (sectorBase sector + offset) bytes }

/-- The check value of a page written with its bytes (R138). -/
def Store.sealPage (st : Store) (sector : Fin 64) (page : Nat) : Store :=
  { st with mismatched := st.mismatched.filter fun p => decide (p ≠ sectorPage sector page) }

/-- A page erased: every byte 0xFF, with the erased check value (R138). -/
def Store.erasePage (st : Store) (sector : Fin 64) (page : Nat) : Store :=
  Store.sealPage { st with bytes := Memory.clearRun st.bytes (sectorBase sector + 256 * page) 256 } sector page

/-- A page left by a write that did not read back as written: its bytes and its check are free (assumption log 5). -/
def Store.spoilPage (st : Store) (fresh : Nat) (sector : Fin 64) (page : Nat) : Store :=
  let spoiled :=
    Store.sealPage (st.program sector (256 * page) ((List.range 256).map (Config.failedPageByte fresh))) sector page
  if Config.failedPageMismatch fresh then spoiled.decay [sectorPage sector page] else spoiled

/-! ## Ports -/

/-- The state of Port C or Port S. -/
def State.port (s : State) : Port → PortState
  | .c => s.portC
  | .s => s.portS

/-- The processor with the state of Port C or Port S replaced. -/
def State.setPort (s : State) (p : Port) (ps : PortState) : State :=
  match p with
  | .c => { s with portC := ps }
  | .s => { s with portS := ps }

/-- The port's last result set (R171). -/
def State.setLastResult (s : State) (p : Port) (r : Result) : State :=
  s.setPort p { s.port p with lastResult := r }

/-- The port's write enable latch set or cleared (R173). -/
def State.setWriteEnable (s : State) (p : Port) (b : Bool) : State :=
  s.setPort p { s.port p with writeEnable := b }

/-- The port as a requester (R106). -/
def portRequester : Port → Requester
  | .c => .portC
  | .s => .portS

/-- The other of Ports C and S. -/
def otherPort : Port → Port
  | .c => .s
  | .s => .c

/-- The select line of a port (R165). -/
def portLine : Port → SelectLine
  | .c => .c
  | .s => .s

/-- A port's group outcome (R105). -/
def Arbiter.outcome (a : Arbiter) : Port → GroupOutcome
  | .c => a.outcomeC
  | .s => a.outcomeS

/-- The arbiter with a port's group outcome replaced. -/
def Arbiter.setOutcome (a : Arbiter) (p : Port) (o : GroupOutcome) : Arbiter :=
  match p with
  | .c => { a with outcomeC := o }
  | .s => { a with outcomeS := o }

/-- Whether the part is in STARTING (R25, R172). -/
def State.isStarting (s : State) : Bool := decide (s.pe.frameState = .starting)

/-- Whether the Pixel Engine is in NO_INPUT. -/
def State.isNoInput (s : State) : Bool := decide (s.pe.frameState = .noInput)

/-! ## Selections (R165, R166, R114) -/

/-- The end of a selection of a port restarts the inactivity timer when the port owns the open group (R114). -/
def State.restartInactivity (s : State) (p : Port) : State :=
  if s.ca.owner = some p then { s with ca := { s.ca with inactivityTimer := some 0 } } else s

/-- The port at IDLE, with no read in progress (R166). -/
def State.deselect (s : State) (p : Port) : State :=
  s.setPort p { s.port p with selection := .idle, reading := none, shifted := [] }

/-- The rise of the select line of Port C or Port S: the port returns to IDLE (R166), and the timer restarts when the
port owns the group (R114). -/
def State.endSelection (s : State) (p : Port) : State := (s.deselect p).restartInactivity p

/-- The port at IDLE before a command that names its selection whole. A selection in which a read was executed has ended. A
selection still being received is the one that the command names: its end is the command's (assumption log 8). -/
def State.closeSelection (s : State) (p : Port) : State :=
  if (s.port p).selection = .idle ∨ (s.port p).reading = none then s.deselect p else s.endSelection p

/-! ## Slots -/

/-- A slot's record and content. -/
def State.slot (s : State) (i : Fin 8) : Slot := s.slots.get i

/-- The processor with one slot replaced. -/
def State.setSlot (s : State) (i : Fin 8) (x : Slot) : State := { s with slots := s.slots.set i x }

/-- A slot is in use while it is bound, referenced or saving (R125). -/
def Slot.inUse (x : Slot) : Bool := x.bound || decide (0 < x.references) || x.saving

/-- The tone slot a tone binding names: T0 is slot 4 (R126). -/
def toneSlot (t : Fin 4) : Fin 8 := ⟨t.val + 4, by omega⟩

/-- The lattice slot a lattice binding names (R126). -/
def latticeSlot (l : Fin 4) : Fin 8 := ⟨l.val, by omega⟩

/-- Whether a slot is a lattice slot (R126). -/
def isLatticeSlot (i : Fin 8) : Bool := decide (i.val < 4)

/-- The number of values in a slot: 4,913 nodes of three values, or 833 entries (R123). -/
def slotValueCount (i : Fin 8) : Nat := if isLatticeSlot i then 14739 else 833

/-- The number of bytes in a slot (R124). -/
def slotByteCount (i : Fin 8) : Nat := 2 * slotValueCount i

/-- The number of pages of a slot: 116 or 7 (R124). -/
def slotPageCount (i : Fin 8) : Nat := if isLatticeSlot i then 116 else 7

/-- Value `k` of a slot's content, most significant byte first (R124, R177, R182). -/
def slotValue (content : Memory) (k : Nat) : Nat :=
  256 * (Memory.read slotFill content (2 * k)).toNat + (Memory.read slotFill content (2 * k + 1)).toNat

/-- The content whose `count` values are `f 0`, `f 1`, … (R124). -/
def slotContent (count : Nat) (f : Nat → Nat) : Memory :=
  Memory.ofRun slotFill 0 ((List.range count).flatMap fun k => [BitVec.ofNat 8 (f k / 256), BitVec.ofNat 8 (f k)])

/-! ## Sector Directory -/

/-- The directory entry of a sector (R140). -/
def State.sectorEntry (s : State) (sector : Fin 64) : SectorEntry :=
  match s.directory with
  | some d => d.get sector
  | none => .torn

/-- The processor with one directory entry replaced. -/
def State.setSectorEntry (s : State) (sector : Fin 64) (e : SectorEntry) : State :=
  { s with directory := s.directory.map fun d => d.set sector e }

/-- The bank of a sector (R138). -/
def bankOf (sector : Fin 64) : Nat := sector.val / 16

end Sys2Proof.Machine
end

