-- ==== Sys2Proof/Machine/Operands.lean ====
section
/-! DEFINITION. What the arguments of a command and the items of a reply stand for: rounding, byte order, field ids and
ranges, slot and sector numbers, and the codes of chapter 11. -/

namespace Sys2Proof.Machine

/-! ## Rounding and clamping (R1) -/

/-- Round half up of `n / d`, on a non-negative quantity. -/
def roundHalfUp (n d : Nat) : Nat := (2 * n + d) / (2 * d)

/-- Round half away from zero of `n / d`. -/
def roundHalfAway (n : Int) (d : Nat) : Int := n.sign * ((2 * n.natAbs + d) / (2 * d) : Nat)

/-- Clamp a signed value to a range. -/
def clampInt (low high x : Int) : Int := if x < low then low else if high < x then high else x

/-- Clamp an unsigned value to a range. -/
def clampNat (low high x : Nat) : Nat := if x < low then low else if high < x then high else x

/-- Saturation to a signed 16-bit coefficient (R54, R56). -/
def saturate16 (x : Int) : Int := clampInt (-32768) 32767 x

/-! ## Byte order (R177) -/

/-- An unsigned value in `k` bytes, most significant byte first. -/
def natBytes (k n : Nat) : List Byte := (List.range k).map fun i => BitVec.ofNat 8 (n / 256 ^ (k - 1 - i))

/-- A signed value in `k` bytes, two's complement, most significant byte first. -/
def intBytes (k : Nat) (x : Int) : List Byte := natBytes k (x % (256 ^ k : Nat)).toNat

/-- The unsigned value of bytes, most significant first. -/
def bytesNat (bytes : List Byte) : Nat := bytes.foldl (fun acc b => 256 * acc + b.toNat) 0

/-- The signed value of bytes, most significant first. -/
def bytesInt (bytes : List Byte) : Int :=
  let n := bytesNat bytes
  if 2 * n < 256 ^ bytes.length then (n : Int) else (n : Int) - (256 ^ bytes.length : Nat)

/-- A yes/no item. -/
def boolByte (b : Bool) : Byte := if b then 1 else 0

/-- Nine signed 16-bit coefficients, row-major. -/
def Mat3.bytes (m : Mat3) : List Byte :=
  [m.m11, m.m12, m.m13, m.m21, m.m22, m.m23, m.m31, m.m32, m.m33].flatMap (intBytes 2)

/-! ## Fields (R84) -/

/-- The field of a field id, if it is one of R84. -/
def fieldOfId (b : Byte) : Option Field :=
  match b.toNat with
  | 0x01 => some .blackR
  | 0x02 => some .blackG
  | 0x03 => some .blackB
  | 0x04 => some .highlight
  | 0x08 => some .mired
  | 0x09 => some .tint
  | 0x0A => some .exposure
  | 0x10 => some .trim11
  | 0x11 => some .trim12
  | 0x12 => some .trim13
  | 0x13 => some .trim21
  | 0x14 => some .trim22
  | 0x15 => some .trim23
  | 0x16 => some .trim31
  | 0x17 => some .trim32
  | 0x18 => some .trim33
  | 0x20 => some .trackerMode
  | 0x21 => some .glideRate
  | 0x22 => some .deadBand
  | 0x23 => some .minVotes
  | 0x24 => some .acceptRadius
  | 0x25 => some .bias
  | 0x26 => some .darkFloor
  | 0x30 => some .programmeTone
  | 0x31 => some .monitorTone
  | 0x32 => some .monitorLattice
  | _ => none

/-- The field id of a field. -/
def Field.id : Field → Byte
  | .blackR => 0x01
  | .blackG => 0x02
  | .blackB => 0x03
  | .highlight => 0x04
  | .mired => 0x08
  | .tint => 0x09
  | .exposure => 0x0A
  | .trim11 => 0x10
  | .trim12 => 0x11
  | .trim13 => 0x12
  | .trim21 => 0x13
  | .trim22 => 0x14
  | .trim23 => 0x15
  | .trim31 => 0x16
  | .trim32 => 0x17
  | .trim33 => 0x18
  | .trackerMode => 0x20
  | .glideRate => 0x21
  | .deadBand => 0x22
  | .minVotes => 0x23
  | .acceptRadius => 0x24
  | .bias => 0x25
  | .darkFloor => 0x26
  | .programmeTone => 0x30
  | .monitorTone => 0x31
  | .monitorLattice => 0x32

/-- The binding fields, 0x30 to 0x32 (R84). -/
def Field.isBinding : Field → Bool
  | .programmeTone | .monitorTone | .monitorLattice => true
  | _ => false

/-- The fields that derivation reads: MIRED, TINT, EXPOSURE and the nine TRIM fields (R47). -/
def Field.isDerivation : Field → Bool
  | .mired | .tint | .exposure | .trim11 | .trim12 | .trim13 | .trim21 | .trim22 | .trim23 | .trim31 | .trim32 | .trim33 => true
  | _ => false

/-- The code of a tracker mode (R179). -/
def TrackerMode.code : TrackerMode → Nat
  | .auto => 0
  | .hold => 1
  | .manual => 2

/-- The tracker mode of a TRACKER_MODE value (R84). -/
def trackerModeOf (v : Int) : TrackerMode := if v = 0 then .auto else if v = 1 then .hold else .manual

/-- The slot within its kind that a binding value 0..3 names. -/
def slotWithinKind (v : Int) : Fin 4 := Fin.ofNat 4 v.toNat

/-- The lattice binding of a MONITOR_LATTICE value: 255 is NONE (R84). -/
def latticeBindingOf (v : Int) : Option (Fin 4) := if v = 255 then none else some (slotWithinKind v)

/-- The MONITOR_LATTICE value of a lattice binding (R103). -/
def latticeBindingValue : Option (Fin 4) → Int
  | none => 255
  | some l => (l.val : Int)

/-- A field's value, as READ FIELD returns it (R103). -/
def Fields.get (f : Fields) : Field → Int
  | .blackR => f.blackR
  | .blackG => f.blackG
  | .blackB => f.blackB
  | .highlight => f.highlight
  | .mired => f.mired
  | .tint => f.tint
  | .exposure => f.exposure
  | .trim11 => f.trim.m11
  | .trim12 => f.trim.m12
  | .trim13 => f.trim.m13
  | .trim21 => f.trim.m21
  | .trim22 => f.trim.m22
  | .trim23 => f.trim.m23
  | .trim31 => f.trim.m31
  | .trim32 => f.trim.m32
  | .trim33 => f.trim.m33
  | .trackerMode => f.trackerMode.code
  | .glideRate => f.glideRate
  | .deadBand => f.deadBand
  | .minVotes => f.minVotes
  | .acceptRadius => f.acceptRadius
  | .bias => f.bias
  | .darkFloor => f.darkFloor
  | .programmeTone => f.programmeTone.val
  | .monitorTone => f.monitorTone.val
  | .monitorLattice => latticeBindingValue f.monitorLattice

/-- A field set to a value (R95). -/
def Fields.set (f : Fields) (x : Field) (v : Int) : Fields :=
  match x with
  | .blackR => { f with blackR := v.toNat }
  | .blackG => { f with blackG := v.toNat }
  | .blackB => { f with blackB := v.toNat }
  | .highlight => { f with highlight := v.toNat }
  | .mired => { f with mired := v.toNat }
  | .tint => { f with tint := v }
  | .exposure => { f with exposure := v }
  | .trim11 => { f with trim := { f.trim with m11 := v } }
  | .trim12 => { f with trim := { f.trim with m12 := v } }
  | .trim13 => { f with trim := { f.trim with m13 := v } }
  | .trim21 => { f with trim := { f.trim with m21 := v } }
  | .trim22 => { f with trim := { f.trim with m22 := v } }
  | .trim23 => { f with trim := { f.trim with m23 := v } }
  | .trim31 => { f with trim := { f.trim with m31 := v } }
  | .trim32 => { f with trim := { f.trim with m32 := v } }
  | .trim33 => { f with trim := { f.trim with m33 := v } }
  | .trackerMode => { f with trackerMode := trackerModeOf v }
  | .glideRate => { f with glideRate := v.toNat }
  | .deadBand => { f with deadBand := v.toNat }
  | .minVotes => { f with minVotes := v.toNat }
  | .acceptRadius => { f with acceptRadius := v.toNat }
  | .bias => { f with bias := v }
  | .darkFloor => { f with darkFloor := v.toNat }
  | .programmeTone => { f with programmeTone := slotWithinKind v }
  | .monitorTone => { f with monitorTone := slotWithinKind v }
  | .monitorLattice => { f with monitorLattice := latticeBindingOf v }

/-- The mired of the first locus entry (R40). -/
def CalibrationSet.firstMired (c : CalibrationSet) : Nat := (c.locus.head?.map LocusEntry.mired).getD 0

/-- The mired of the last locus entry (R40). -/
def CalibrationSet.lastMired (c : CalibrationSet) : Nat := (c.locus.getLast?.map LocusEntry.mired).getD 0

/-- The MIRED range in mired16, lowest and highest value (R44). -/
def miredRange : Option CalibrationSet → Nat × Nat
  | some c => (16 * c.firstMired, 16 * c.lastMired)
  | none => (0, 0)

/-- The range of a numeric field (R84). -/
def Field.range (cal : Option CalibrationSet) : Field → Int × Int
  | .blackR | .blackG | .blackB => (0, 4095)
  | .highlight => (0, 262143)
  | .mired => ((miredRange cal).1, (miredRange cal).2)
  | .tint => (-32, 32)
  | .exposure => (-64, 64)
  | .trim11 | .trim12 | .trim13 | .trim21 | .trim22 | .trim23 | .trim31 | .trim32 | .trim33 => (-32768, 32767)
  | .trackerMode => (0, 2)
  | .glideRate => (1, 255)
  | .deadBand => (0, 50)
  | .minVotes => (1, 48)
  | .acceptRadius => (1, 4095)
  | .bias => (-100, 100)
  | .darkFloor => (0, 65535)
  | .programmeTone | .monitorTone => (0, 3)
  | .monitorLattice => (0, 255)

/-- The value an entry stands with: a numeric field's value clamped into its range, a binding value as sent (R88). -/
def Field.clampValue (cal : Option CalibrationSet) (x : Field) (v : Int) : Int :=
  if x.isBinding then v else clampInt (x.range cal).1 (x.range cal).2 v

/-- Whether a binding value names a slot of the field's kind, or NONE for the lattice (R87). -/
def Field.namesSlot (x : Field) (v : Int) : Bool :=
  decide (0 ≤ v ∧ v ≤ 3) || (decide (x = .monitorLattice) && decide (v = 255))

/-- The slot that a binding value names, if it names one (R89, R126). -/
def Field.boundSlot : Field → Int → Option (Fin 8)
  | .programmeTone, v => some (toneSlot (slotWithinKind v))
  | .monitorTone, v => some (toneSlot (slotWithinKind v))
  | .monitorLattice, v => (latticeBindingOf v).map latticeSlot
  | _, _ => none

/-! ## Slot and sector numbers (R126, R143) -/

/-- The slot of a slot identifier 0..7. -/
def slotOfId (b : Byte) : Option (Fin 8) := if h : b.toNat < 8 then some ⟨b.toNat, h⟩ else none

/-- The sector of a sector number 0..63. -/
def sectorOfNumber (b : Byte) : Option (Fin 64) := if h : b.toNat < 64 then some ⟨b.toNat, h⟩ else none

/-- The content pages of a sector of a kind (R139). -/
def SectorKind.pages : SectorKind → Nat
  | .calibration => 1
  | .lattice => 116
  | .tone => 7

/-- The kind of table a slot holds (R143, R147). -/
def slotKind (i : Fin 8) : SectorKind := if isLatticeSlot i then .lattice else .tone

/-! ## Codes (R178, R179) -/

/-- The code of a result. -/
def Result.code : Result → Byte
  | .done => 0x00
  | .clamped => 0x01
  | .started => 0x02
  | .held => 0x10
  | .full => 0x11
  | .late => 0x12
  | .noGroup => 0x13
  | .inUse => 0x20
  | .notReady => 0x21
  | .owned => 0x22
  | .notOpen => 0x23
  | .badField => 0x30
  | .badSlot => 0x31
  | .badPage => 0x32
  | .badSector => 0x33
  | .wrongKind => 0x40
  | .notValid => 0x41
  | .notBlank => 0x42
  | .protected_ => 0x43
  | .notEnabled => 0x44
  | .storeBusy => 0x45
  | .bankBusy => 0x46
  | .recallBusy => 0x47
  | .supplyLow => 0x48
  | .starting => 0x50
  | .framing => 0x51
  | .unknown => 0x52

/-- The code of a store or recall outcome; 0 is none. -/
def outcomeCode : Option StoreOutcome → Byte
  | none => 0
  | some .completed => 1
  | some .failed => 2
  | some .cut => 3

/-- The code of the engine frame state. -/
def FrameState.code : FrameState → Byte
  | .starting => 0
  | .noInput => 1
  | .betweenFrames => 2
  | .inFrame => 3

/-- The code of a substate. -/
def Substate.code : Substate → Byte
  | .settled => 0
  | .gliding => 1

/-- The code of the store controller's state. -/
def ControllerState.code : ControllerState → Byte
  | .idle => 0
  | .programming _ => 1
  | .erasing => 2
  | .eraseSuspended _ => 3

/-- The code of the recall engine's state. -/
def RecallState.code : RecallState → Byte
  | .idle => 0
  | .recalling _ => 1

/-- The code of a slot's state. -/
def SlotState.code : SlotState → Byte
  | .empty => 0
  | .opened _ => 1
  | .loading => 2
  | .ready => 3

/-- The code of a slot's owner; 0 is none. -/
def SlotState.ownerCode : SlotState → Byte
  | .opened .c => 1
  | .opened .s => 2
  | _ => 0

/-- The code of an origin. -/
def Origin.code : Origin → Byte
  | .sector n => BitVec.ofNat 8 n.val
  | .port .c => 0x40
  | .port .s => 0x41
  | .builtIn => 0x42
  | .noOrigin => 0xFF

/-- The code of a sector's state. -/
def SectorEntry.code : SectorEntry → Byte
  | .blank => 0
  | .valid _ => 1
  | .torn => 2
  | .programming => 3
  | .erasing => 4
  | .eraseSuspended => 5

/-- The code of a sector's kind; 0 is absent. -/
def SectorKind.code : SectorKind → Byte
  | .calibration => 1
  | .lattice => 2
  | .tone => 3

/-- The kind of a kind code. -/
def sectorKindOfCode (b : Byte) : Option SectorKind :=
  if b = 1 then some .calibration else if b = 2 then some .lattice else if b = 3 then some .tone else none

/-- The code of an entry's source. -/
def Requester.code : Requester → Byte
  | .portC => 0
  | .portS => 1
  | .tracker => 2

/-- The code of an entry's outcome. -/
def EntryOutcome.code : EntryOutcome → Byte
  | .applied => 0
  | .discarded => 1

/-- The code of a tracker action. -/
def TrackerAction.code : TrackerAction → Byte
  | .noAction => 0
  | .notSubmitted => 1
  | .submitted => 2
  | .refusedHeld => 3
  | .refusedFull => 4

/-- The code of Port R's mode. -/
def PortRMode.code : PortRMode → Byte
  | .command => 0
  | .stream => 1

/-- A sector number, or 0xFF for none (R177). -/
def sectorByte : Option (Fin 64) → Byte
  | none => 0xFF
  | some n => BitVec.ofNat 8 n.val

/-- A slot identifier, or 0xFF for none (R177). -/
def slotByte : Option (Fin 8) → Byte
  | none => 0xFF
  | some n => BitVec.ofNat 8 n.val

end Sys2Proof.Machine
end

