-- ==== Sys2Proof/Machine/Flags.lean ====
section
/-! DEFINITION. The counts that hold at their end, the saturation indicator, and the flag and presence bytes of the
status record, the replies and the frame record. -/

namespace Sys2Proof.Machine

/-- The largest value of a saturation count and of the pixel index (R12, R23). -/
def countLimit : Nat := 4294967295

/-- A count advanced by one when a condition holds; it holds at its limit rather than wrapping (R12, R23). -/
def countWhen (condition : Bool) (n : Nat) : Nat := if condition then min (n + 1) countLimit else n

/-- Whether a value was changed by saturation to 16 bits (R57). -/
def saturates16 (x : Int) : Bool := decide (saturate16 x ≠ x)

/-- DERIVE_SAT: the summary of the saturation indicator (R57). -/
def Derived.deriveSat (d : Derived) : Bool := d.trimSaturated || d.exposureSaturated

/-- A byte from its low bits, bit 0 first. The manual names the low bits of these bytes alone; the others are 0, which is the
model's choice (R180, R181; assumption log 27). -/
def bitsByte (bits : List Bool) : Byte := BitVec.ofNat 8 (bits.foldr (fun b acc => 2 * acc + b.toNat) 0)

/-- The saturation byte of READ DERIVED: bit 0 trim, bit 1 exposure (R180). -/
def Derived.saturationByte (d : Derived) : Byte := bitsByte [d.trimSaturated, d.exposureSaturated]

/-- The lines byte of the status record: bit 0 calibration protect, bit 1 supply low (R180). -/
def State.linesByte (s : State) : Byte := bitsByte [s.protectLine, s.supplyLowLine]

/-- The flags byte of the status record: bit 0 CAL_FALLBACK, bit 1 DERIVE_SAT (R180). -/
def State.statusFlagsByte (s : State) : Byte := bitsByte [s.cu.calFallback, s.cu.derived.deriveSat]

/-- The presence byte of READ TRACKER: bit 0 median, bit 1 estimate, bit 2 starved (R180). -/
def EvaluationSummary.presenceByte (x : EvaluationSummary) : Byte :=
  bitsByte [x.median.isSome, x.estimate.isSome, x.starved]

/-- The flag byte of a zone in READ ZONES: bit 0 usable, bit 1 voted (R180). -/
def ZoneResult.flagsByte (z : ZoneResult) : Byte := bitsByte [z.usable, z.voted]

/-- TRUNCATED: the record was completed without a frame end, and has no counts block (R155). -/
def FrameRecord.truncated (r : FrameRecord) : Bool := r.counts.isNone

/-- The flags byte of a frame record (R181). -/
def FrameRecord.flagsByte (r : FrameRecord) : Byte :=
  bitsByte [r.truncated, r.opening.noStats, r.evalSkipped, r.opening.deriveSat, r.opening.groupExpired, r.opening.calFallback]

/-- The presence byte of a frame record: bit 0 estimate, bit 1 monitor lattice binding (R181). -/
def FrameRecord.presenceByte (r : FrameRecord) : Byte :=
  bitsByte [r.estimate.isSome, r.opening.monitorLattice.isSome]

/-- The group outcome a port's status record shows (R119). -/
def Arbiter.shownOutcome (a : Arbiter) (p : Port) : Byte :=
  match a.outcome p with
  | .expired => 3
  | .opened => 1
  | .noGroup => match a.owner with
    | none => 0
    | some _ => 2

/-- The part state: STARTING until start-up completion (R172). -/
def State.partStateByte (s : State) : Byte := boolByte (!s.isStarting)

end Sys2Proof.Machine
end

