-- ==== Sys2Proof/Machine/Derivation.lean ====
section
/-! DEFINITION. The calibration set: its page, its validation and its fallback (R40 to R44, R182); and derivation, the
computation of the gains and the effective matrix (R46 to R57). -/

namespace Sys2Proof.Machine

/-! ## The calibration set -/

/-- The fallback calibration (R43). -/
def fallbackCalibration : CalibrationSet :=
  { id := 0, warmMired := 350, coolMired := 150, warmMatrix := Mat3.identity, coolMatrix := Mat3.identity,
    locus := [⟨150, 4096, 4096⟩, ⟨350, 4096, 4096⟩], defaultMired := 154, defaultToneSector := none }

/-- `count` bytes of a page from a position. -/
def pageField (page : Nat → Byte) (position count : Nat) : List Byte :=
  (List.range count).map fun k => page (position + k)

/-- Nine signed coefficients of a page (R182). -/
def pageMatrix (page : Nat → Byte) (position : Nat) : Mat3 :=
  let e (k : Nat) : Int := bytesInt (pageField page (position + 2 * k) 2)
  ⟨e 0, e 1, e 2, e 3, e 4, e 5, e 6, e 7, e 8⟩

/-- Locus entry `e` of a page (R182). -/
def pageLocusEntry (page : Nat → Byte) (e : Nat) : LocusEntry :=
  ⟨bytesNat (pageField page (48 + 6 * e) 2), bytesNat (pageField page (50 + 6 * e) 2), bytesNat (pageField page (52 + 6 * e) 2)⟩

/-- The calibration set that a calibration content page spells; entries beyond N − 1 are not read (R42, R182). The
default tone sector is none when it lies above 63 (R44). -/
def pageCalibration (page : Nat → Byte) : CalibrationSet :=
  { id := BitVec.ofNat 32 (bytesNat (pageField page 0 4))
    warmMired := bytesNat (pageField page 4 2)
    coolMired := bytesNat (pageField page 6 2)
    warmMatrix := pageMatrix page 8
    coolMatrix := pageMatrix page 26
    locus := (List.range (page 44).toNat).map (pageLocusEntry page)
    defaultMired := bytesNat (pageField page 45 2)
    defaultToneSector := sectorOfNumber (page 47) }

/-- A mired inside 50..650 (R42). -/
def miredInRange (m : Nat) : Bool := decide (50 ≤ m) && decide (m ≤ 650)

/-- The content tests of R42: N in 2..32, mireds in range and strictly increasing, ratios at least 256, m_L above m_H. -/
def CalibrationSet.acceptable (c : CalibrationSet) : Bool :=
  decide (2 ≤ c.locus.length) && decide (c.locus.length ≤ 32) &&
    c.locus.all (fun e => miredInRange e.mired && decide (256 ≤ e.rg) && decide (256 ≤ e.bg)) &&
    decide (c.locus.Pairwise fun d e => d.mired < e.mired) &&
    miredInRange c.warmMired && miredInRange c.coolMired && decide (c.coolMired < c.warmMired)

/-- The set with its default mired clamped into the locus range (R44). -/
def CalibrationSet.withDefaultClamped (c : CalibrationSet) : CalibrationSet :=
  { c with defaultMired := clampNat c.firstMired c.lastMired c.defaultMired }

/-! ## Derivation -/

/-- Locus entry `i`. -/
def CalibrationSet.entry (c : CalibrationSet) (i : Nat) : LocusEntry := c.locus.getD i ⟨0, 0, 0⟩

/-- The lower entry of the locus interval: the greatest i in 0..N − 2 with 16 × m_i ≤ A (R48). -/
def locusInterval (c : CalibrationSet) (a : Nat) : Nat :=
  (((List.range (c.locus.length - 1)).filter fun i => decide (16 * (c.entry i).mired ≤ a)).getLast?).getD 0

/-- A ratio interpolated between the two entries of an interval (R49). -/
def interpolatedRatio (low high : Nat) (lowMired highMired a : Nat) : Nat :=
  ((low : Int) + roundHalfAway (((high : Int) - low) * ((a : Int) - 16 * lowMired)) (16 * (highMired - lowMired))).toNat

/-- The reciprocal of a ratio as a gain, held at 65,535 (R50). -/
def ratioGain (ratio : Nat) : Nat := min 65535 (roundHalfUp 16777216 ratio)

/-- The green gain (R51). -/
def greenGain (tint : Int) : Nat := (4096 + 8 * tint).toNat

/-- The matrix weight f (R52). -/
def matrixWeight (c : CalibrationSet) (a : Nat) : Nat :=
  if a < 16 * c.coolMired then 0
  else min 256 (roundHalfUp (256 * (a - 16 * c.coolMired)) (16 * (c.warmMired - c.coolMired)))

/-- One coefficient of the interpolated matrix (R53). -/
def blend (f : Nat) (warm cool : Int) : Int := roundHalfAway (f * warm + (256 - (f : Int)) * cool) 256

/-- Two matrices combined coefficient by coefficient. -/
def Mat3.zip (op : Int → Int → Int) (a b : Mat3) : Mat3 :=
  ⟨op a.m11 b.m11, op a.m12 b.m12, op a.m13 b.m13, op a.m21 b.m21, op a.m22 b.m22, op a.m23 b.m23, op a.m31 b.m31,
    op a.m32 b.m32, op a.m33 b.m33⟩

/-- A matrix mapped coefficient by coefficient. -/
def Mat3.map (op : Int → Int) (a : Mat3) : Mat3 :=
  ⟨op a.m11, op a.m12, op a.m13, op a.m21, op a.m22, op a.m23, op a.m31, op a.m32, op a.m33⟩

/-- Whether some coefficient has a property. -/
def Mat3.any (test : Int → Bool) (a : Mat3) : Bool :=
  test a.m11 || test a.m12 || test a.m13 || test a.m21 || test a.m22 || test a.m23 || test a.m31 || test a.m32 || test a.m33

/-- The trim product before saturation (R54): trim times matrix, each exact sum divided by 4,096. -/
def trimProduct (u m : Mat3) : Mat3 :=
  let dot (a b c x y z : Int) : Int := roundHalfAway (a * x + b * y + c * z) 4096
  ⟨dot u.m11 u.m12 u.m13 m.m11 m.m21 m.m31, dot u.m11 u.m12 u.m13 m.m12 m.m22 m.m32, dot u.m11 u.m12 u.m13 m.m13 m.m23 m.m33,
    dot u.m21 u.m22 u.m23 m.m11 m.m21 m.m31, dot u.m21 u.m22 u.m23 m.m12 m.m22 m.m32, dot u.m21 u.m22 u.m23 m.m13 m.m23 m.m33,
    dot u.m31 u.m32 u.m33 m.m11 m.m21 m.m31, dot u.m31 u.m32 u.m33 m.m12 m.m22 m.m32, dot u.m31 u.m32 u.m33 m.m13 m.m23 m.m33⟩

/-- The mantissas 4,096 × 2^(n/16) (R55). -/
def mantissas : List Int :=
  [4096, 4277, 4467, 4664, 4871, 5087, 5312, 5547, 5793, 6049, 6317, 6597, 6889, 7194, 7512, 7845]

/-- The whole stops s of an exposure: the floor of E / 16 (R55). -/
def exposureStops (e : Int) : Int := e / 16

/-- The mantissa of an exposure's sixteenth-stop step n = E − 16 × s (R55). -/
def exposureMantissa (e : Int) : Int := mantissas.getD (e % 16).toNat 4096

/-- One coefficient folded by the exposure, before saturation (R56). -/
def exposureFold (e p : Int) : Int :=
  if 0 ≤ exposureStops e then roundHalfAway (p * exposureMantissa e * 2 ^ (exposureStops e).toNat) 4096
  else roundHalfAway (p * exposureMantissa e) (4096 * 2 ^ (-exposureStops e).toNat)

/-- Derivation: gains, interpolated matrix, trim product, exposure fold (R47 to R57). -/
def derive (c : CalibrationSet) (f : Fields) : Derived :=
  let i := locusInterval c f.mired
  let low := c.entry i
  let high := c.entry (i + 1)
  let rg := interpolatedRatio low.rg high.rg low.mired high.mired f.mired
  let bg := interpolatedRatio low.bg high.bg low.mired high.mired f.mired
  let weight := matrixWeight c f.mired
  let interpolated := Mat3.zip (blend weight) c.warmMatrix c.coolMatrix
  let product := trimProduct f.trim interpolated
  let folded := Mat3.map (exposureFold f.exposure) (Mat3.map saturate16 product)
  { applied := f.mired, interval := i, ratioRg := rg, ratioBg := bg, gainR := ratioGain rg, gainG := greenGain f.tint,
    gainB := ratioGain bg, weight := weight, interpolated := interpolated, effective := Mat3.map saturate16 folded,
    trimSaturated := Mat3.any saturates16 product, exposureSaturated := Mat3.any saturates16 folded }

/-- Derivation from the calibration set in use; without one the derived values are kept (R40, R47). -/
def rederive (cal : Option CalibrationSet) (f : Fields) (old : Derived) : Derived :=
  match cal with
  | some c => derive c f
  | none => old

end Sys2Proof.Machine
end

