-- ==== Sys2Proof/Machine/Context.lean ====
section
/-! DEFINITION. The Context Unit: the application of entries, the end of a pass, and the acceptance of a submission
(chapter 5). -/

namespace Sys2Proof.Machine

/-! ## References and bound marks (R89, R99) -/

/-- The slot an entry holds a reference on, if it names one (R89). -/
def Entry.boundSlot (e : Entry) : Option (Fin 8) := e.field.boundSlot e.value

/-- A slot's reference count raised by one (R89). -/
def raiseReference (slots : Tab Slot 8) : Option (Fin 8) → Tab Slot 8
  | none => slots
  | some i => slots.set i { slots.get i with references := (slots.get i).references + 1 }

/-- A slot's reference count lowered by one (R89). -/
def lowerReference (slots : Tab Slot 8) : Option (Fin 8) → Tab Slot 8
  | none => slots
  | some i => slots.set i { slots.get i with references := (slots.get i).references - 1 }

/-- The references of entries that leave the queue released (R91). -/
def releaseReferences (slots : Tab Slot 8) (entries : List Entry) : Tab Slot 8 :=
  entries.foldl (fun acc e => lowerReference acc e.boundSlot) slots

/-- Whether a binding field names a slot (R99, R125). -/
def Fields.binds (f : Fields) (i : Fin 8) : Bool :=
  decide (toneSlot f.programmeTone = i) || decide (toneSlot f.monitorTone = i) ||
    decide (f.monitorLattice.map latticeSlot = some i)

/-- The bound mark of every slot as the binding fields name them (R99). -/
def markBound (f : Fields) (slots : Tab Slot 8) : Tab Slot 8 :=
  Tab.ofFn fun i => { slots.get i with bound := f.binds i }

/-! ## The application of one entry (R95 to R99) -/

/-- The two kinds of pass that differ: at a frame start, or in NO_INPUT (R92). -/
inductive PassKind where
  | frameStart | noInput
deriving DecidableEq, Repr

/-- What a pass carries from entry to entry: the fields, the applied-change list, and what its end needs to know. -/
structure Pass where
  fields : Fields
  items : List AppliedItem
  /-- A field that derivation reads was applied (R47). -/
  derives : Bool
  /-- A TRACKER MIRED entry was applied (R80). -/
  trackerMired : Bool
  /-- A port's MIRED entry was applied (R80). -/
  portMired : Bool
  /-- A TRACKER_MODE entry of value AUTO was applied (R76). -/
  autoApplied : Bool
deriving DecidableEq, Repr

/-- An item added to the applied-change list, which keeps the 32 most recent (R101). -/
def pushItem (items : List AppliedItem) (x : AppliedItem) : List AppliedItem :=
  (items ++ [x]).drop (items.length + 1 - 32)

/-- Whether an entry is a MIRED entry of the tracker. -/
def Entry.isTrackerMired (e : Entry) : Bool := decide (e.field = .mired) && decide (e.source = .tracker)

/-- Whether an entry is discarded at its turn: a TRACKER MIRED entry in NO_INPUT, or one that meets a mode other than
AUTO (R80, R97). -/
def discards (kind : PassKind) (f : Fields) (e : Entry) : Bool :=
  e.isTrackerMired && (decide (kind = .noInput) || decide (f.trackerMode ≠ .auto))

/-- The fields after an applied entry: a port's MIRED entry also sets MANUAL (R95, R96, R97, R98, R99). -/
def applyField (f : Fields) (e : Entry) : Fields :=
  if e.field = .mired ∧ e.source ≠ .tracker then { f.set .mired e.value with trackerMode := .manual }
  else f.set e.field e.value

/-- One entry applied or discarded at its turn in a pass (R92). -/
def applyEntry (kind : PassKind) (w : Pass) (e : Entry) : Pass :=
  if discards kind w.fields e then { w with items := pushItem w.items ⟨e.source, e.field, .discarded⟩ }
  else
    { fields := applyField w.fields e
      items := pushItem w.items ⟨e.source, e.field, .applied⟩
      derives := w.derives || e.field.isDerivation
      trackerMired := w.trackerMired || e.isTrackerMired
      portMired := w.portMired || (decide (e.field = .mired) && decide (e.source ≠ .tracker))
      autoApplied := w.autoApplied || (decide (e.field = .trackerMode) && decide (trackerModeOf e.value = .auto)) }

/-- The pass before its first entry. -/
def Pass.begin (cu : ContextUnit) : Pass :=
  { fields := cu.fields, items := cu.appliedChanges, derives := false, trackerMired := false, portMired := false,
    autoApplied := false }

/-- The due entries: those before the first OPEN_GROUP entry (R92). -/
def dueEntries (queue : List Entry) : List Entry := queue.takeWhile fun e => decide (e.mark ≠ .openGroup)

/-- The entries a pass leaves in the queue (R92). -/
def waitingEntries (queue : List Entry) : List Entry := queue.dropWhile fun e => decide (e.mark ≠ .openGroup)

/-- The due entries applied in queue order (R92). -/
def applyDue (kind : PassKind) (cu : ContextUnit) : Pass := (dueEntries cu.queue).foldl (applyEntry kind) (Pass.begin cu)

/-! ## The end of a pass (R100) -/

/-- The glide bound: A moved more than GLIDE_RATE by the tracker alone is set to the bound nearer its value (R80). -/
def glideBound (before : Nat) (w : Pass) : Fields :=
  let f := w.fields
  if w.trackerMired && !w.portMired then
    if before + f.glideRate < f.mired then { f with mired := before + f.glideRate }
    else if f.mired + f.glideRate < before then { f with mired := before - f.glideRate }
    else f
  else f

/-- The fields as a pass leaves them; the bound acts on a frame-start pass only (R80, R100). -/
def passFields (kind : PassKind) (before : Nat) (w : Pass) : Fields :=
  match kind with
  | .frameStart => glideBound before w
  | .noInput => w.fields

/-- The frame context formed from the fields and the derived values (R100). -/
def formContext (f : Fields) (d : Derived) : FrameContext :=
  { blackR := f.blackR, blackG := f.blackG, blackB := f.blackB, highlight := f.highlight, gainR := d.gainR,
    gainG := d.gainG, gainB := d.gainB, matrix := d.effective, programmeTone := f.programmeTone,
    monitorTone := f.monitorTone, monitorLattice := f.monitorLattice }

/-- The tracker as the end of a pass leaves it: the mode taken (R75), and the restart from rest (R76). -/
def trackerAfterPass (it : Tracker) (f : Fields) (autoApplied : Bool) : Tracker :=
  if autoApplied && decide (f.trackerMode = .auto) then
    { it with mode := f.trackerMode, target := f.mired, substate := .settled }
  else { it with mode := f.trackerMode }

/-- An application pass, whole: the due entries, the glide bound, derivation, the frame context and its adoption by the
engine (R3), the bound marks, and the tracker's mode (R92 to R100). -/
def runPass (kind : PassKind) (s : State) : State :=
  let w := applyDue kind s.cu
  let fields := passFields kind s.cu.fields.mired w
  let derived := if w.derives then rederive s.cu.calibration fields s.cu.derived else s.cu.derived
  { s with
    cu := { s.cu with fields := fields, derived := derived, queue := waitingEntries s.cu.queue, appliedChanges := w.items }
    slots := markBound fields (releaseReferences s.slots (dueEntries s.cu.queue))
    pe := { s.pe with context := formContext fields derived }
    it := trackerAfterPass s.it fields w.autoApplied }

/-! ## Acceptance (R87, R88) -/

/-- The capacity of the Change Queue (R86). -/
def queueCapacity : Nat := 32

/-- The first test of R87 that a submission fails, or the field of one that passes every test. -/
def judgeSubmission (s : State) (fieldId : Byte) (v : Int) : Except Result Field :=
  match fieldOfId fieldId with
  | none => .error .badField
  | some x =>
    if x.isBinding && !x.namesSlot v then .error .badSlot
    else if x.isBinding && ((x.boundSlot v).any fun i => decide ((s.slot i).state ≠ .ready)) then .error .notReady
    else if queueCapacity ≤ s.cu.queue.length then .error .full
    else .ok x

/-- An accepted entry joined to the tail of the queue, with its slot reference (R87, R89). -/
def enqueue (s : State) (e : Entry) : State :=
  { s with cu := { s.cu with queue := s.cu.queue ++ [e] }, slots := raiseReference s.slots e.boundSlot }

/-- A submission judged, and accepted or refused. An UNGROUPED entry accepted in NO_INPUT is applied at once (R93). -/
def submit (source : Requester) (mark : GroupMark) (fieldId : Byte) (v : Int) (s : State) : Result × State :=
  match judgeSubmission s fieldId v with
  | .error r => (r, s)
  | .ok x =>
    let value := x.clampValue s.cu.calibration v
    let queued := enqueue s ⟨source, x, value, mark⟩
    let result : Result := if value = v then .done else .clamped
    if mark = .ungrouped ∧ s.isNoInput then (result, runPass .noInput queued) else (result, queued)

/-- Every OPEN_GROUP entry marked CLOSED_GROUP, in its place (R90). -/
def closeGroupEntries (s : State) : State :=
  { s with cu := { s.cu with queue := s.cu.queue.map fun e => if e.mark = .openGroup then { e with mark := .closedGroup } else e } }

/-- Every OPEN_GROUP entry removed, releasing its reference (R90, R91). -/
def removeGroupEntries (s : State) : State :=
  { s with
    cu := { s.cu with queue := s.cu.queue.filter fun e => decide (e.mark ≠ .openGroup) }
    slots := releaseReferences s.slots (s.cu.queue.filter fun e => decide (e.mark = .openGroup)) }

end Sys2Proof.Machine
end

