-- ==== Sys2Proof/Machine/Ports.lean ====
section
/-! DEFINITION. The port's own share of a command: the selection, the refusal during start-up, the last result, the end
of the selection, and the replies (chapter 10). -/

namespace Sys2Proof.Machine

/-- A command other than a read, executed at the rise of select with its answer as the last result (R167, R171, R174).
While the reset line is asserted no selection is taken (assumption log 12). -/
def portCommand (p : Port) (body : State → Result × State) (s : State) : State :=
  if s.resetLine then s
  else
    let begun := s.closeSelection p
    let answered := if begun.isStarting then (Result.starting, begun) else body begun
    (answered.2.setLastResult p answered.1).restartInactivity p

/-- A selection that is discarded: no effect on any block but the restart of the timer (R114, R167, R169). -/
def discardSelection (p : Port) (r : Result) (s : State) : State :=
  if s.resetLine then s else ((s.closeSelection p).setLastResult p r).restartInactivity p

/-- A reply that is shifted out once, then zeros (R168). -/
def Reading.once (bytes : List Byte) : Reading := { reply := bytes, repeated := false, position := 0 }

/-- A reply that is repeated for as long as the selection lasts (R168). -/
def Reading.repeating (bytes : List Byte) : Reading := { reply := bytes, repeated := true, position := 0 }

/-- The byte that a read shifts out next: of its reply, from its first byte again if it is repeated; 0 after a reply that is not
(R168). -/
def Reading.out (r : Reading) : Byte := r.reply.getD (if r.repeated then r.position % r.reply.length else r.position) 0

/-- The read after its next byte has been shifted out (R168). -/
def Reading.advance (r : Reading) : Reading :=
  { r with
    position := if r.repeated then (r.position + 1) % r.reply.length else min (r.position + 1) r.reply.length }

/-- A port at the moment a read is executed: what it has shifted out while the command came are zeros, and the reply goes out from
the next byte on (R168, R169). -/
def PortState.replying (x : PortState) (received : List Byte) (r : Reading) : PortState :=
  { x with selection := .selected received [], reading := some r, shifted := List.replicate received.length 0 }

/-- A read, executed when its last argument byte is received: the last result is set, and the reply is formed whole, of no bytes
if the read is refused, so that zeros go out. The port stays selected until the rise of select (R168, R171, R174). -/
def portRead (p : Port) (received : List Byte) (body : State → Except Result (List Byte)) (s : State) : State :=
  if s.resetLine then s
  else
    let begun := s.closeSelection p
    let answer := if begun.isStarting then .error .starting else body begun
    match answer with
    | .ok bytes => begun.setPort p { (begun.port p).replying received (Reading.once bytes) with lastResult := .done }
    | .error r => begun.setPort p { (begun.port p).replying received (Reading.once []) with lastResult := r }

/-- The 16 bytes of a port's status record (R172, R180). -/
def State.statusBytes (s : State) (p : Port) : List Byte :=
  [(s.port p).lastResult.code, s.ca.shownOutcome p, boolByte (s.port p).writeEnable, s.pe.frameState.code,
   BitVec.ofNat 8 s.it.mode.code, s.it.substate.code, BitVec.ofNat 8 s.cu.queue.length, s.controller.state.code,
   sectorByte s.controller.sector, outcomeCode s.controller.outcome, s.recallEngine.state.code,
   slotByte s.recallEngine.slot, outcomeCode s.recallEngine.outcome, s.linesByte, s.statusFlagsByte, s.partStateByte]

/-- READ STATUS: the record is formed and repeated; the last result is left as it stood (R168, R171, R172, R174). -/
def portStatus (p : Port) (s : State) : State :=
  if s.resetLine then s
  else
    let begun := s.closeSelection p
    begun.setPort p ((begun.port p).replying [0x0C] (Reading.repeating (begun.statusBytes p)))

end Sys2Proof.Machine
end

