-- ==== Sys2Proof/Machine/Arbiter.lean ====
section
/-! DEFINITION. The Context Arbiter: requests, the edit group, its expiry, and the tracker as a requester (chapter 6);
and the meanings of the edit and group commands. -/

namespace Sys2Proof.Machine

/-! ## Grants (R106) -/

/-- The grant order after a grant: the requester moves to the end (R106). -/
def grantTo (r : Requester) (order : List Requester) : List Requester := order.filter (fun x => decide (x ≠ r)) ++ [r]

/-- The processor after a grant. -/
def State.granted (s : State) (r : Requester) : State :=
  { s with ca := { s.ca with grantOrder := grantTo r s.ca.grantOrder } }

/-- Of two requesters waiting together, whether the first stands before the second in the grant order (R106). -/
def standsBefore (order : List Requester) (a b : Requester) : Bool :=
  decide (order.find? (fun x => decide (x = a) || decide (x = b)) = some a)

/-! ## The tracker's submission (R79, R118) -/

/-- The tracker after the arbiter's answer: the action, and on acceptance the proposed substate (R79). The substate takes
effect whatever the mode has become while the submission waited: the model's choice, assumption log 24 (R75, R76, R96). -/
def trackerAnswered (it : Tracker) (w : Submission) (r : Result) : Tracker :=
  let action : TrackerAction := match r with
    | .held => .refusedHeld
    | .full => .refusedFull
    | _ => .submitted
  { it with
    waiting := none
    substate := if action = .submitted then w.proposed else it.substate
    summary := it.summary.map fun x => { x with action := some action } }

/-- The tracker's waiting submission taken and answered: HELD while a group is open, else passed on as UNGROUPED (R118).
The substate takes effect with the answer; a pass in NO_INPUT that follows leaves it (R79, R93). That a submission still waiting
when a pass has set HOLD or MANUAL, or restarted the tracker, is answered as any other is the model's choice (assumption
log 24). -/
def takeSubmission (s : State) : State :=
  match s.it.waiting with
  | none => s
  | some w =>
    let g := s.granted .tracker
    if g.ca.owner.isSome then { g with it := trackerAnswered g.it w .held }
    else
      let answered := submit .tracker .ungrouped (Field.id .mired) w.value g
      { answered.2 with it := trackerAnswered answered.2.it w answered.1 }

/-- A port's request taken by the arbiter. A submission of the tracker that waits at the same moment is taken first when
the tracker stands first in the grant order (R106, R118, R184). -/
def takeRequest (p : Port) (body : State → Result × State) (s : State) : Result × State :=
  let s1 := if s.it.waiting.isSome && standsBefore s.ca.grantOrder .tracker (portRequester p) then takeSubmission s else s
  body (s1.granted (portRequester p))

/-! ## Edits and the group (R108 to R116) -/

/-- EDIT as the arbiter answers it (R108, R110, R116). -/
def editRequest (p : Port) (fieldId : Byte) (value : Word) (s : State) : Result × State :=
  if s.ca.outcome p = .expired then (.late, s)
  else if s.ca.owner = some p then submit (portRequester p) .openGroup fieldId value.toInt s
  else if s.ca.owner.isSome then (.held, s)
  else submit (portRequester p) .ungrouped fieldId value.toInt s

/-- The group ended for its owner: the timer stops, the group is FREE, and the owner's outcome is as given. -/
def State.freeGroup (s : State) (p : Port) (o : GroupOutcome) : State :=
  { s with ca := { s.ca.setOutcome p o with owner := none, inactivityTimer := none } }

/-- The owner's group closed; in NO_INPUT its entries are applied at once (R90, R94, R111). -/
def closeGroup (p : Port) (s : State) : State :=
  let closed := (closeGroupEntries s).freeGroup p .noGroup
  if s.isNoInput then runPass .noInput closed else closed

/-- EDIT CLOSE as the arbiter answers it (R112, R116). -/
def editCloseRequest (p : Port) (fieldId : Byte) (value : Word) (s : State) : Result × State :=
  if s.ca.outcome p = .expired then (.late, s)
  else if s.ca.owner = some p then
    match submit (portRequester p) .openGroup fieldId value.toInt s with
    | (.done, queued) => (.done, closeGroup p queued)
    | (.clamped, queued) => (.clamped, closeGroup p queued)
    | refused => refused
  else (.noGroup, s)

/-- GROUP OPEN as the arbiter answers it (R109, R116). -/
def groupOpenRequest (p : Port) (s : State) : Result × State :=
  if s.ca.owner.isSome then (.held, s)
  else (.done, { s with ca := { s.ca.setOutcome p .opened with owner := some p, inactivityTimer := some 0 } })

/-- GROUP CLOSE as the arbiter answers it (R111, R116). -/
def groupCloseRequest (p : Port) (s : State) : Result × State :=
  if s.ca.outcome p = .expired then (.late, s)
  else if s.ca.owner = some p then (.done, closeGroup p s)
  else (.noGroup, s)

/-- GROUP ABANDON as the arbiter answers it (R113, R116). -/
def groupAbandonRequest (p : Port) (s : State) : Result × State :=
  if s.ca.outcome p = .expired then (.done, { s with ca := s.ca.setOutcome p .noGroup })
  else if s.ca.owner = some p then (.done, (removeGroupEntries s).freeGroup p .noGroup)
  else (.noGroup, s)

/-- The expiry of the open group; without an open group the timer is stopped and nothing expires (R115, log 10). -/
def expireGroup (s : State) : State :=
  match s.ca.owner with
  | none => s
  | some p =>
    let freed := (removeGroupEntries s).freeGroup p .expired
    { freed with ca := { freed.ca with expiryNote := true } }

/-- Where the inactivity timer expires, in milliseconds (R115). -/
def inactivityLimit : Nat := 200

/-- Milliseconds pass on a running inactivity timer: where it reaches 200 the group expires. A timer that a request taken
before has restarted does not reach it, and that expiry does not happen (R114, R115, R117; assumption log 4). -/
def elapseGroup (milliseconds : Nat) (s : State) : State :=
  match s.ca.inactivityTimer with
  | none => s
  | some t =>
    if inactivityLimit ≤ t + milliseconds then expireGroup s
    else { s with ca := { s.ca with inactivityTimer := some (t + milliseconds) } }

/-! ## Requests, alone and together (R106, R184) -/

/-- A port's request as the arbiter answers it (R108 to R113, R116). -/
def answerRequest (p : Port) : Request → State → Result × State
  | .edit fieldId value => editRequest p fieldId value
  | .editClose fieldId value => editCloseRequest p fieldId value
  | .groupOpen => groupOpenRequest p
  | .groupClose => groupCloseRequest p
  | .groupAbandon => groupAbandonRequest p

/-- A port's request taken, with the end of its selection, which is taken together with it (R106, R114, R117). -/
def portRequest (p : Port) (r : Request) (s : State) : State := portCommand p (takeRequest p (answerRequest p r)) s

/-- A port's request, with the request of the other port that waits at the same moment, if one does: the one whose port
stands first in the grant order is taken first (R106, R184; assumption log 3). -/
def portRequests (p : Port) (r : Request) (beside : Option Request) (s : State) : State :=
  match beside with
  | none => portRequest p r s
  | some o =>
    if standsBefore s.ca.grantOrder (portRequester (otherPort p)) (portRequester p) then
      portRequest p r (portRequest (otherPort p) o s)
    else portRequest (otherPort p) o (portRequest p r s)

/-! ## Meanings -/

/-- EDIT (R108). -/
def execEdit (p : Port) (fieldId : Byte) (value : Word) (beside : Option Request) (s : State) : Host.Outcome State Fault Refusal :=
  .next (portRequests p (.edit fieldId value) beside s)

/-- EDIT CLOSE (R112). -/
def execEditClose (p : Port) (fieldId : Byte) (value : Word) (beside : Option Request) (s : State) :
    Host.Outcome State Fault Refusal :=
  .next (portRequests p (.editClose fieldId value) beside s)

/-- GROUP OPEN (R109). -/
def execGroupOpen (p : Port) (beside : Option Request) (s : State) : Host.Outcome State Fault Refusal :=
  .next (portRequests p .groupOpen beside s)

/-- GROUP CLOSE (R111). -/
def execGroupClose (p : Port) (beside : Option Request) (s : State) : Host.Outcome State Fault Refusal :=
  .next (portRequests p .groupClose beside s)

/-- GROUP ABANDON (R113). -/
def execGroupAbandon (p : Port) (beside : Option Request) (s : State) : Host.Outcome State Fault Refusal :=
  .next (portRequests p .groupAbandon beside s)

/-- The expiry of the inactivity timer (R115, R117). -/
def execGroupExpiry (elapsed : Nat) (s : State) : Host.Outcome State Fault Refusal := .next (elapseGroup elapsed s)

/-- The tracker's waiting submission taken (R118). -/
def execTrackerSubmission (s : State) : Host.Outcome State Fault Refusal := .next (takeSubmission s)

end Sys2Proof.Machine
end

