-- ==== Sys2Proof/Machine/Records.lean ====
section
/-! DEFINITION. Frame colour records: their opening, completion, byte layout, and the ring (chapter 9, R181). -/

namespace Sys2Proof.Machine

/-! ## Opening (R156) -/

/-- A tone binding as a record carries it (R137, R155). -/
def toneBinding (s : State) (t : Fin 4) : RecordBinding :=
  { slot := t, generation := (s.slot (toneSlot t)).generation, origin := (s.slot (toneSlot t)).origin }

/-- A lattice binding as a record carries it (R137, R155). -/
def latticeBinding (s : State) (l : Fin 4) : RecordBinding :=
  { slot := l, generation := (s.slot (latticeSlot l)).generation, origin := (s.slot (latticeSlot l)).origin }

/-- The calibration id in use; 0 without a set (R43, R155). -/
def calibrationIdOf (s : State) : Word := (s.cu.calibration.map CalibrationSet.id).getD 0

/-- The record opened from what the blocks hand for a frame start, once its pass is done (R156). -/
def openingOf (s : State) : OpenRecord :=
  let c := s.pe.context
  let f := s.cu.fields
  { frameNumber := s.pe.frameNumber, noStats := !s.pe.geometryValid, deriveSat := s.cu.derived.deriveSat,
    groupExpired := s.ca.expiryNote, calFallback := s.cu.calFallback, width := s.pe.width, height := s.pe.height,
    blackR := c.blackR, blackG := c.blackG, blackB := c.blackB, highlight := c.highlight, mired := f.mired,
    tint := f.tint, exposure := f.exposure, gainR := c.gainR, gainG := c.gainG, gainB := c.gainB, effective := c.matrix,
    trim := f.trim, programmeTone := toneBinding s c.programmeTone, monitorTone := toneBinding s c.monitorTone,
    monitorLattice := c.monitorLattice.map (latticeBinding s), appliedChanges := s.cu.appliedChanges,
    calibrationId := calibrationIdOf s }

/-! ## Completion (R157, R158) -/

/-- A record completed with the tracker's standing, EVAL_SKIPPED, and the counts block or its absence (R81, R157, R158). -/
def completed (o : OpenRecord) (it : Tracker) (evalSkipped : Bool) (counts : Option CountsBlock) : FrameRecord :=
  { opening := o, evalSkipped := evalSkipped, trackerMode := it.mode, substate := it.substate, target := it.target,
    votes := (it.summary.map EvaluationSummary.votes).getD 0, estimate := it.summary.bind EvaluationSummary.estimate,
    counts := counts }

/-- The capacity of the Record Ring (R154). -/
def ringCapacity : Nat := 64

/-- A completed record joins the ring at its tail; a full ring first loses its oldest (R159). -/
def joinRing (ring : List FrameRecord) (r : FrameRecord) : List FrameRecord :=
  if ringCapacity ≤ ring.length then ring.drop 1 ++ [r] else ring ++ [r]

/-- The open record, if there is one, completed and joined to the ring (R157, R158, R159). -/
def completeOpenRecord (evalSkipped : Bool) (counts : Option CountsBlock) (s : State) : State :=
  match s.rr.openRecord with
  | none => s
  | some o => { s with rr := { s.rr with openRecord := none, ring := joinRing s.rr.ring (completed o s.it evalSkipped counts) } }

/-- The open record completed as TRUNCATED (R158). -/
def truncateRecord (s : State) : State := completeOpenRecord false none s

/-- The counts block of a frame that ended whole (R24, R63). -/
def countsBlock (s : State) (qualifying : Nat) : CountsBlock :=
  { clipped := s.pe.clippedCount, gainClamp := s.pe.gainClampCount, matrixClamp := s.pe.matrixClampCount,
    qualifying := qualifying }

/-! ## The byte layout (R181) -/

/-- A binding's four bytes. -/
def RecordBinding.bytes (b : RecordBinding) : List Byte :=
  BitVec.ofNat 8 b.slot.val :: (natBytes 2 b.generation.toNat ++ [b.origin.code])

/-- An applied change's three bytes. -/
def AppliedItem.bytes (x : AppliedItem) : List Byte := [x.source.code, x.field.id, x.outcome.code]

/-- The counts block's sixteen bytes. -/
def CountsBlock.bytes (c : CountsBlock) : List Byte :=
  natBytes 4 c.clipped ++ natBytes 4 c.gainClamp ++ natBytes 4 c.matrixClamp ++ natBytes 4 c.qualifying

/-- The length of a record: 86 bytes and the parts present (R181). -/
def FrameRecord.length (r : FrameRecord) : Nat :=
  86 + (if r.estimate.isSome then 2 else 0) + (if r.opening.monitorLattice.isSome then 4 else 0) +
    3 * r.opening.appliedChanges.length + (if r.counts.isSome then 16 else 0)

/-- The 73 bytes at fixed positions. -/
def FrameRecord.fixedBytes (r : FrameRecord) : List Byte :=
  let o := r.opening
  natBytes 2 r.length ++ natBytes 4 o.frameNumber.toNat ++ [r.flagsByte, r.presenceByte] ++
    natBytes 2 o.width.toNat ++ natBytes 2 o.height.toNat ++
    natBytes 2 o.blackR ++ natBytes 2 o.blackG ++ natBytes 2 o.blackB ++ natBytes 4 o.highlight ++
    natBytes 2 o.mired ++ intBytes 1 o.tint ++ intBytes 1 o.exposure ++
    natBytes 2 o.gainR ++ natBytes 2 o.gainG ++ natBytes 2 o.gainB ++ o.effective.bytes ++
    [BitVec.ofNat 8 r.trackerMode.code, r.substate.code] ++ natBytes 2 r.target ++ [BitVec.ofNat 8 r.votes] ++ o.trim.bytes

/-- The variable parts in their order. -/
def FrameRecord.variableBytes (r : FrameRecord) : List Byte :=
  let o := r.opening
  (match r.estimate with | some e => natBytes 2 e | none => []) ++ o.programmeTone.bytes ++ o.monitorTone.bytes ++
    (match o.monitorLattice with | some b => b.bytes | none => []) ++
    [BitVec.ofNat 8 o.appliedChanges.length] ++ o.appliedChanges.flatMap AppliedItem.bytes ++
    (match r.counts with | some c => c.bytes | none => []) ++ natBytes 4 o.calibrationId.toNat

/-- A record's bytes, from its length to its calibration id (R160, R181). -/
def FrameRecord.bytes (r : FrameRecord) : List Byte := r.fixedBytes ++ r.variableBytes

end Sys2Proof.Machine
end

