-- ==== Sys2Proof/Machine/Pixel.lean ====
section
/-! DEFINITION. The pixel arithmetic: from input codes to the programme and monitor codes (chapters 1 and 2). Every
division is exact and rounded as its rule states. -/

namespace Sys2Proof.Machine

/-- Three values, one per colour. -/
structure Rgb where
  r : Nat
  g : Nat
  b : Nat
deriving DecidableEq, Repr

/-- The same value in all three colours. -/
def Rgb.grey (v : Nat) : Rgb := ⟨v, v, v⟩

/-- The front end's clip marker (R14). -/
def clipMarker : Half := 65535

/-- A pixel with the clip marker in any colour is a clipped pixel (R14). -/
def isClipped (vr vg vb : Half) : Bool := decide (vr = clipMarker) || decide (vg = clipMarker) || decide (vb = clipMarker)

/-- The black-subtracted value max(v − BLACK, 0) (R15). -/
def blackSubtract (v : Half) (black : Nat) : Nat := v.toNat - black

/-- The top of the working scale (R16, R18). -/
def workingLimit : Nat := 262143

/-- The gained value before its clamp: rounded half up (R16). -/
def gained (x gain : Nat) : Nat := (x * gain + 2048) / 4096

/-- The gained value (R16). -/
def gainStage (x gain : Nat) : Nat := min (gained x gain) workingLimit

/-- Whether the clamp reduced the gained value; 262,143 itself is not clamped (R16). -/
def gainClamps (x gain : Nat) : Bool := decide (workingLimit < gained x gain)

/-- The rounded matrix output of one row: exact sum, divided by 4,096, half away from zero (R17). -/
def matrixRow (e1 e2 e3 : Int) (p : Rgb) : Int := roundHalfAway (e1 * p.r + e2 * p.g + e3 * p.b) 4096

/-- A rounded matrix output clamped to the working scale (R18). -/
def matrixClampValue (w : Int) : Nat := (clampInt 0 workingLimit w).toNat

/-- Whether a rounded matrix output lay outside the working scale (R18). -/
def matrixClamps (w : Int) : Bool := decide (w < 0) || decide ((workingLimit : Int) < w)

/-- What the front stage makes of a pixel: the working values, the black-subtracted values, and its marks. -/
structure FrontStage where
  working : Rgb
  subtracted : Rgb
  clipped : Bool
  gainClamped : Bool
  matrixClamped : Bool
deriving DecidableEq, Repr

/-- The front stage (R14 to R18). -/
def frontStage (c : FrameContext) (vr vg vb : Half) : FrontStage :=
  if isClipped vr vg vb then
    { working := Rgb.grey c.highlight, subtracted := Rgb.grey 0, clipped := true, gainClamped := false,
      matrixClamped := false }
  else
    let x : Rgb := ⟨blackSubtract vr c.blackR, blackSubtract vg c.blackG, blackSubtract vb c.blackB⟩
    let p : Rgb := ⟨gainStage x.r c.gainR, gainStage x.g c.gainG, gainStage x.b c.gainB⟩
    let w1 := matrixRow c.matrix.m11 c.matrix.m12 c.matrix.m13 p
    let w2 := matrixRow c.matrix.m21 c.matrix.m22 c.matrix.m23 p
    let w3 := matrixRow c.matrix.m31 c.matrix.m32 c.matrix.m33 p
    { working := ⟨matrixClampValue w1, matrixClampValue w2, matrixClampValue w3⟩
      subtracted := x
      clipped := false
      gainClamped := gainClamps x.r c.gainR || gainClamps x.g c.gainG || gainClamps x.b c.gainB
      matrixClamped := matrixClamps w1 || matrixClamps w2 || matrixClamps w3 }

/-- The tone stage over a table T (R19, R20): exact below 128, then 64 entries a stop with linear interpolation, the
floor toward minus infinity. -/
def toneOutput (table : Nat → Nat) (v : Nat) : Nat :=
  if v < 128 then table v
  else
    let k := Nat.log2 v
    let q := 2 ^ (k - 6)
    let m := v / q - 64
    let r := v - (m + 64) * q
    let t := 64 + (k - 6) * 64 + m
    let low : Int := table t
    let high : Int := table (t + 1)
    (clampInt 0 4095 (low + ((high - low) * r + (q / 2 : Nat)) / (q : Int))).toNat

/-- The tone stage on three working values (R22, R27). -/
def toneStage (content : Memory) (w : Rgb) : Rgb :=
  let table := slotValue content
  ⟨toneOutput table w.r, toneOutput table w.g, toneOutput table w.b⟩

/-- The index of a lattice node (R28). -/
def nodeIndex (a b c : Nat) : Nat := a * 289 + b * 17 + c

/-- One output channel (0 red, 1 green, 2 blue) of a lattice node (R28, R182). -/
def nodeValue (content : Memory) (a b c channel : Nat) : Nat := slotValue content (3 * nodeIndex a b c + channel)

/-- The intermediate corners n1 and n2 of the tetrahedron as cell steps, and the fractions f1, f2, f3 (R31). -/
structure Path where
  n1 : Rgb
  n2 : Rgb
  f1 : Nat
  f2 : Nat
  f3 : Nat
deriving DecidableEq, Repr

/-- The tetrahedron of three fractions: the first condition that holds, in table order (R31). -/
def tetrahedron (fr fg fb : Nat) : Path :=
  if fr ≥ fg ∧ fg ≥ fb then ⟨⟨1, 0, 0⟩, ⟨1, 1, 0⟩, fr, fg, fb⟩
  else if fr ≥ fb ∧ fb ≥ fg then ⟨⟨1, 0, 0⟩, ⟨1, 0, 1⟩, fr, fb, fg⟩
  else if fb ≥ fr ∧ fr ≥ fg then ⟨⟨0, 0, 1⟩, ⟨1, 0, 1⟩, fb, fr, fg⟩
  else if fg ≥ fr ∧ fr ≥ fb then ⟨⟨0, 1, 0⟩, ⟨1, 1, 0⟩, fg, fr, fb⟩
  else if fg ≥ fb ∧ fb ≥ fr then ⟨⟨0, 1, 0⟩, ⟨0, 1, 1⟩, fg, fb, fr⟩
  else ⟨⟨0, 0, 1⟩, ⟨0, 1, 1⟩, fb, fg, fr⟩

/-- The weighted sum of R32 rounded by its floor, clamped to 0..4,095. -/
def latticeRound (c000 n1 n2 c111 : Int) (f1 f2 f3 : Nat) : Nat :=
  (clampInt 0 4095 ((256 * c000 + f1 * (n1 - c000) + f2 * (n2 - n1) + f3 * (c111 - n2) + 128) / 256)).toNat

/-- One channel of the lattice stage for a pixel's codes (R29 to R32). -/
def latticeChannel (content : Memory) (c : Rgb) (channel : Nat) : Nat :=
  let path := tetrahedron (c.r % 256) (c.g % 256) (c.b % 256)
  let corner (step : Rgb) : Int := nodeValue content (c.r / 256 + step.r) (c.g / 256 + step.g) (c.b / 256 + step.b) channel
  latticeRound (corner ⟨0, 0, 0⟩) (corner path.n1) (corner path.n2) (corner ⟨1, 1, 1⟩) path.f1 path.f2 path.f3

/-- The lattice stage (R32). -/
def latticeStage (content : Memory) (c : Rgb) : Rgb :=
  ⟨latticeChannel content c 0, latticeChannel content c 1, latticeChannel content c 2⟩

/-- The monitor conversion to 10 bits, held at 1,023 (R37). -/
def monitorCode (out : Nat) : Nat := min ((out + 2) / 4) 1023

/-- The programme codes of working values (R21, R22). -/
def programmeCodes (s : State) (w : Rgb) : Rgb := toneStage (s.slot (toneSlot s.pe.context.programmeTone)).content w

/-- The monitor codes of working values: monitor tone, lattice or bypass, conversion (R26, R27, R34, R35, R37). -/
def monitorCodes (s : State) (w : Rgb) : Rgb :=
  let c := toneStage (s.slot (toneSlot s.pe.context.monitorTone)).content w
  let out := match s.pe.context.monitorLattice with
    | none => c
    | some l => latticeStage (s.slot (latticeSlot l)).content c
  ⟨monitorCode out.r, monitorCode out.g, monitorCode out.b⟩

/-- A pixel on an output. -/
def Rgb.item (c : Rgb) : VideoItem := .pixel c.r c.g c.b

end Sys2Proof.Machine
end

