-- ==== Sys2Proof/Machine/Zones.lean ====
section
/-! DEFINITION. The Zone Statistics Accumulator (section 4.1): zones, gathering, and the offer at a frame end. -/

namespace Sys2Proof.Machine

/-- Whether declared geometry lies within the gathering ranges (R5). -/
def geometryInRange (w h : Half) : Bool :=
  decide (64 ≤ w.toNat) && decide (w.toNat ≤ 4096) && decide (48 ≤ h.toNat) && decide (h.toNat ≤ 2304)

/-- Of `count` zones along an axis of a given extent, the one that covers a position: zone j begins at
floor(j × extent / count) (R60). -/
def zoneAlong (count extent position : Nat) : Nat :=
  (List.range (count - 1)).countP fun j => decide ((j + 1) * extent / count ≤ position)

/-- The zone index of a pixel: 8 × zone row + zone column (R60). -/
def zoneIndex (width height : Half) (column row : Nat) : Fin 48 :=
  Fin.ofNat 48 (8 * zoneAlong 6 height.toNat row + zoneAlong 8 width.toNat column)

/-- Whether a pixel qualifies: not clipped, and its green at least the dark floor (R62). -/
def qualifies (darkFloor : Nat) (f : FrontStage) : Bool := !f.clipped && decide (darkFloor ≤ f.subtracted.g)

/-- A zone record with one pixel added (R62). -/
def ZoneRecord.add (z : ZoneRecord) (darkFloor : Nat) (f : FrontStage) : ZoneRecord :=
  if qualifies darkFloor f then
    { pixelCount := z.pixelCount + 1, qualifying := z.qualifying + 1, sumR := z.sumR + f.subtracted.r,
      sumG := z.sumG + f.subtracted.g, sumB := z.sumB + f.subtracted.b }
  else { z with pixelCount := z.pixelCount + 1 }

/-- A pixel handed over: gathered in GATHERING, and in no other state (R62). -/
def ZoneAccumulator.gather (z : ZoneAccumulator) (column row : Nat) (f : FrontStage) : ZoneAccumulator :=
  if z.state = .gathering then
    let i := zoneIndex z.width z.height column row
    { z with zones := z.zones.set i ((z.zones.get i).add z.darkFloor f) }
  else z

/-- Zone records of zeros. -/
def emptyZones : Tab ZoneRecord 48 := Tab.replicate 48 ZoneRecord.zero

/-- A frame that ends in the ZSA without a frame end: its partial records are discarded (R64; assumption log 16). -/
def ZoneAccumulator.discard (z : ZoneAccumulator) : ZoneAccumulator :=
  if z.state = .idle then z else { z with state := .idle, zones := emptyZones }

/-- A new frame taken at its frame start, with DARK_FLOOR as the pass leaves it (R61). -/
def ZoneAccumulator.begin (number : Word) (w h : Half) (darkFloor : Nat) : ZoneAccumulator :=
  { state := if geometryInRange w h then .gathering else .notGathering
    frameNumber := number, width := w, height := h, darkFloor := darkFloor, zones := emptyZones }

/-- The frame's qualifying pixel count: the sum of n over the zones in GATHERING, and 0 for a NO_STATS frame (R63). -/
def ZoneAccumulator.qualifyingCount (z : ZoneAccumulator) : Nat :=
  if z.state = .gathering then (z.zones.list.map ZoneRecord.qualifying).sum else 0

/-- Whether the frame's sums are offered and refused, the tracker having an evaluation in flight (R63). -/
def offerRefused (s : State) : Bool := decide (s.zsa.state = .gathering) && s.it.evaluation.isSome

/-- The evaluation that begins when the tracker takes the offer (R66). -/
def beginEvaluation (z : ZoneAccumulator) (f : Fields) : Evaluation :=
  { frameNumber := z.frameNumber, zones := z.zones, darkFloor := z.darkFloor, acceptRadius := f.acceptRadius,
    minVotes := f.minVotes, bias := f.bias }

/-- The frame end in the ZSA and the tracker: the offer, taken or refused, and IDLE (R63, R66). -/
def offerZones (s : State) : State :=
  match s.zsa.state with
  | .idle => s
  | .notGathering => { s with zsa := { s.zsa with state := .idle } }
  | .gathering =>
    if s.it.evaluation.isSome then { s with zsa := { s.zsa with state := .idle, zones := emptyZones } }
    else
      { s with
        zsa := { s.zsa with state := .idle }
        it := { s.it with evaluation := some (beginEvaluation s.zsa s.cu.fields) } }

end Sys2Proof.Machine
end

