-- ==== Sys2Proof/Machine/Frames.lean ====
section
/-! DEFINITION. The frame events: frame start, pixel, frame end and input loss, each across the blocks that answer it (95),
and their meanings. -/

namespace Sys2Proof.Machine

/-- The same item on both outputs. -/
def PixelEngine.emit (pe : PixelEngine) (programme monitor : Option VideoItem) : PixelEngine :=
  { pe with programmeOut := programme, monitorOut := monitor }

/-- An event of the pixel stream that gives nothing out. -/
def emitNothing (s : State) : State := { s with pe := s.pe.emit none none }

/-- A pixel given out as code 0 on both outputs (R2, R4). -/
def emitBlack (s : State) : State := { s with pe := s.pe.emit (some (.pixel 0 0 0)) (some (.pixel 0 0 0)) }

/-! ## Frame start (R6) -/

/-- The announcement that the current frame is truncated: its record is completed, its partial zone records discarded
(R6, R64, R158). -/
def truncateFrame (s : State) : State :=
  let t := truncateRecord s
  { t with zsa := t.zsa.discard }

/-- The engine's own part of a new frame: number, geometry, index, counts, timer (R5, R6, R9, R23). -/
def PixelEngine.startFrame (pe : PixelEngine) (w h : Half) : PixelEngine :=
  { pe with
    frameState := .inFrame, frameNumber := pe.frameNumber + 1, width := w, height := h,
    geometryValid := geometryInRange w h, pixelIndex := 0, clippedCount := 0, gainClampCount := 0, matrixClampCount := 0,
    inputLostTimer := some 0, programmeOut := some (.frameStart w h), monitorOut := some (.frameStart w h) }

/-- The record opened, and what it was handed emptied: the applied-change list and the expiry note (R101, R122, R156). -/
def openRecord (s : State) : State :=
  { s with
    rr := { s.rr with openRecord := some (openingOf s) }
    cu := { s.cu with appliedChanges := [] }
    ca := { s.ca with expiryNote := false } }

/-- A frame start taken outside STARTING (R6): the engine's part, the pass, the ZSA's new frame, the new record. -/
def startFrame (w h : Half) (s : State) : State :=
  let t := if s.pe.frameState = .inFrame then truncateFrame s else s
  let passed := runPass .frameStart { t with pe := t.pe.startFrame w h }
  openRecord { passed with zsa := ZoneAccumulator.begin passed.pe.frameNumber w h passed.cu.fields.darkFloor }

/-- FRAME_START (R6). In STARTING, and while the reset line is asserted, it is not acted on (R2, R4). -/
def execFrameStart (width height : Half) (s : State) : Host.Outcome State Fault Refusal :=
  .next (if s.resetLine || s.isStarting then emitNothing s else startFrame width height s)

/-! ## Pixel (R10, R12, R13, R23) -/

/-- A pixel handed to the ZSA, if the geometry is valid and the pixel lies inside it (R12, R13). -/
def handPixel (s : State) (f : FrontStage) : ZoneAccumulator :=
  let w := s.pe.width.toNat
  if s.pe.geometryValid && decide (s.pe.pixelIndex < w * s.pe.height.toNat) then
    s.zsa.gather (s.pe.pixelIndex % w) (s.pe.pixelIndex / w) f
  else s.zsa

/-- A pixel of a frame: one programme pixel, one monitor pixel, the counts, the zone record (R10, R22, R23, R26). -/
def transformPixel (vr vg vb : Half) (s : State) : State :=
  let f := frontStage s.pe.context vr vg vb
  { s with
    zsa := handPixel s f
    pe := { s.pe with
      pixelIndex := countWhen true s.pe.pixelIndex
      clippedCount := countWhen f.clipped s.pe.clippedCount
      gainClampCount := countWhen f.gainClamped s.pe.gainClampCount
      matrixClampCount := countWhen f.matrixClamped s.pe.matrixClampCount
      programmeOut := some (programmeCodes s f.working).item
      monitorOut := some (monitorCodes s f.working).item } }

/-- PIXEL (R10): transformed in IN_FRAME, given out as code 0 in STARTING or under reset, else discarded. -/
def execPixel (red green blue : Half) (s : State) : Host.Outcome State Fault Refusal :=
  .next (
    if s.resetLine || s.isStarting then emitBlack s
    else if s.pe.frameState = .inFrame then transformPixel red green blue s
    else emitNothing s)

/-! ## Frame end (R7) -/

/-- A frame end in IN_FRAME: the record takes its counts and the tracker's standing and joins the ring; the sums are
offered; the engine enters BETWEEN_FRAMES, its timer running on (R7, R24, R63, R157). -/
def endFrame (s : State) : State :=
  let recorded := completeOpenRecord (offerRefused s) (some (countsBlock s s.zsa.qualifyingCount)) s
  let offered := offerZones recorded
  { offered with
    pe := { offered.pe with frameState := .betweenFrames, programmeOut := some .frameEnd, monitorOut := some .frameEnd } }

/-- FRAME_END (R7): ignored outside IN_FRAME. -/
def execFrameEnd (s : State) : Host.Outcome State Fault Refusal :=
  .next (if !s.resetLine && decide (s.pe.frameState = .inFrame) then endFrame s else emitNothing s)

/-! ## Input loss (R8) -/

/-- The expiry of the running input-lost timer: truncation of a frame in progress, NO_INPUT, and the input-loss pass
(R8, R64, R94, R158). -/
def loseInput (s : State) : State :=
  let t := if s.pe.frameState = .inFrame then truncateFrame s else s
  runPass .noInput { t with pe := { t.pe with frameState := .noInput, inputLostTimer := none } }

/-- The input-lost timer runs in BETWEEN_FRAMES and IN_FRAME (R8). -/
def inputTimerRuns (s : State) : Bool :=
  !s.resetLine && (decide (s.pe.frameState = .betweenFrames) || decide (s.pe.frameState = .inFrame))

/-- Where the input-lost timer expires, in milliseconds (R8). -/
def inputLostLimit : Nat := 500

/-- Milliseconds pass on a running input-lost timer: where it reaches 500 the input is lost. A timer that a frame start taken
before has restarted does not reach it, and that expiry does not happen; a stopped timer does not expire (R8; assumption
logs 4, 10). -/
def elapseInput (milliseconds : Nat) (s : State) : State :=
  match s.pe.inputLostTimer with
  | none => s
  | some t =>
    if !inputTimerRuns s then s
    else if inputLostLimit ≤ t + milliseconds then loseInput s
    else { s with pe := { s.pe with inputLostTimer := some (t + milliseconds) } }

/-- INPUT_LOST (R8). -/
def execInputLost (elapsed : Nat) (s : State) : Host.Outcome State Fault Refusal := .next (elapseInput elapsed s)

end Sys2Proof.Machine
end

