-- ==== Sys2Proof/Machine/PortR.lean ====
section
/-! DEFINITION. Port R: its selections, record transfers, STREAM mode and status (section 9.4, section 10.6), and the
meanings of its commands. A selection of the port implies that the one before it has ended (assumption log 8); while the
reset line is asserted none is taken (assumption log 12). -/

namespace Sys2Proof.Machine

/-! ## Selections -/

/-- The rise of Port R's select line: IDLE, the fill marker clear, the read buffer emptied without removing anything from
the ring (R160, R161, R166). -/
def State.endSelectionR (s : State) : State :=
  { s with
    rr := { s.rr with readBuffer := none, fill := false }
    portR := { s.portR with selection := .idle, reading := none, firstByteTaken := false } }

/-- The end that a new selection implies. -/
def State.closeSelectionR (s : State) : State := if s.portR.selection = .idle then s else s.endSelectionR

/-- The bytes that Port R's selection has received and the bits of a part byte (R166). -/
def State.receivedR (s : State) (received : List Byte) (part : List Bool) : State :=
  { s with portR := { s.portR with selection := .selected received part } }

/-! ## Transfers (R160) -/

/-- The read in progress of a record read: its bytes come from the read buffer, and as zeros once fill has begun. -/
def Reading.records : Reading := Reading.once []

/-- The read in progress of a record read taken in STARTING: zeros to the end of the selection, whatever happens meanwhile
(R164). -/
def Reading.fillAlone : Reading := Reading.repeating [0]

/-- The read in progress of a record read, by whether the part is in STARTING when it is taken (R160, R164). -/
def Reading.ofRecordRead (starting : Bool) : Reading := if starting then Reading.fillAlone else Reading.records

/-- A record's transfer due to begin: the oldest record copied into the read buffer at position 0, or fill (R160). -/
def RecordRing.startTransfer (rr : RecordRing) : RecordRing :=
  match rr.ring with
  | [] => { rr with readBuffer := none, fill := true }
  | r :: _ => { rr with readBuffer := some { record := r, position := 0 } }

/-- What begins with the next byte due of a record read: a transfer, or fill; fill alone for a read taken in STARTING
(R160, R164). -/
def RecordRing.startReading (fillAlone : Bool) (rr : RecordRing) : RecordRing :=
  if fillAlone then { rr with readBuffer := none, fill := true } else rr.startTransfer

/-- A selection that shifts out records, with the bytes it has received. Its first transfer, or fill, begins with the byte that
is due; until that byte is due, none has begun (R160, R162). A read taken in STARTING stays one of fill alone (R164). -/
def recordSelection (received : List Byte) (begun : Bool) (s : State) : State :=
  { s with
    rr := if begun then s.rr.startReading s.isStarting else { s.rr with readBuffer := none, fill := false }
    portR := { selection := .selected received [], reading := some (Reading.ofRecordRead s.isStarting),
               firstByteTaken := !received.isEmpty, shifted := List.replicate received.length 0 } }

/-- Bytes of the record in transfer shifted out, at most all but its last: the position counts them (R154, R160). In fill the
bytes are zeros. With neither, no byte of a record is shifted (assumption logs 10, 11). -/
def shiftBytes (count : Nat) (s : State) : State :=
  let taken := s.portR.firstByteTaken || decide (0 < count)
  match s.rr.readBuffer with
  | none =>
    if s.rr.fill then
      { s with portR := { s.portR with firstByteTaken := taken, shifted := s.portR.shifted ++ List.replicate count 0 } }
    else s
  | some b =>
    let position := min (b.position + count) (b.record.length - 1)
    { s with
      rr := { s.rr with readBuffer := some { b with position := position } }
      portR := { s.portR with
        firstByteTaken := taken, shifted := s.portR.shifted ++ (b.record.bytes.take position).drop b.position } }

/-- The record in the read buffer leaves the ring if it is still there: it can only stand at the head (R159, R160). -/
def removeTransferred (ring : List FrameRecord) (r : FrameRecord) : List FrameRecord :=
  match ring with
  | [] => []
  | h :: rest => if h.opening.frameNumber = r.opening.frameNumber then rest else h :: rest

/-- The last byte of the buffered record shifted out: the record removed if it is still there, the read buffer emptied. No
transfer of a next record has begun (R160, R161). With no transfer in progress nothing ends (assumption log 10). -/
def transferEnds (s : State) : State :=
  match s.rr.readBuffer with
  | none => s
  | some b =>
    { s with
      rr := { s.rr with ring := removeTransferred s.rr.ring b.record, readBuffer := none }
      portR := { s.portR with firstByteTaken := true, shifted := s.portR.shifted ++ b.record.bytes.drop b.position } }

/-- Whether the read in progress is a record read (R160, R164). -/
def readsRecords (s : State) : Bool :=
  decide (s.portR.reading = some Reading.records) || decide (s.portR.reading = some Reading.fillAlone)

/-- Whether a record read in progress stands between transfers: none has begun, and no fill (R160, R161). -/
def transferDue (s : State) : Bool :=
  decide (s.portR.selection ≠ .idle) && readsRecords s && s.rr.readBuffer.isNone && !s.rr.fill

/-- The next byte of a record read is due: between transfers the next one begins, of the record that is the oldest then, or
fill; fill if the read was taken in STARTING, though start-up has completed since (R160, R164). Within a transfer or fill it
begins none. -/
def transferBegins (s : State) : State :=
  if transferDue s then { s with rr := s.rr.startReading (decide (s.portR.reading = some Reading.fillAlone)) } else s

/-- The moments of a transfer (R160, R161; assumption log 11). -/
def transferMoment (moment : TransferMoment) (s : State) : State :=
  match moment with
  | .shifting count => shiftBytes count s
  | .lastByte => transferEnds s
  | .nextByte => transferBegins s
  | .lastAndNext => transferBegins (transferEnds s)

/-- The rise of select inside a transfer after `count` whole bytes of the record, those already shifted out among them
(R161): at most all but its last. -/
def transferCut (count : Nat) (s : State) : State :=
  match s.rr.readBuffer with
  | none => s
  | some b =>
    { s with
      portR := { s.portR with
        shifted := s.portR.shifted ++ (b.record.bytes.take (min count (b.record.length - 1))).drop b.position } }.endSelectionR

/-! ## The first byte (R162, R175) -/

/-- The stream-exit code (R162). -/
def streamExitCode : Byte := 0xE5

/-- The exit code taken as the first byte of a selection in STREAM mode: COMMAND mode, the transfer cut off after its first
byte, and zeros to the end of the selection (R162). -/
def takeExit (s : State) : State :=
  { s with
    rr := { s.rr with mode := .command, readBuffer := none }
    portR :=
      { selection := .selected [streamExitCode] [], reading := none, firstByteTaken := true,
        shifted := (s.rr.readBuffer.map fun b => b.record.bytes.take 1).getD [0] } }

/-- A selection that executes nothing and shifts out zeros (R175). -/
def silentSelection (code : Byte) (s : State) : State :=
  { s with portR := { selection := .selected [code] [], reading := none, firstByteTaken := true, shifted := [0] } }

/-! ## Status (R163) -/

/-- Port R's four status bytes (R163, R180). -/
def State.statusBytesR (s : State) : List Byte :=
  [BitVec.ofNat 8 s.rr.ring.length,
   BitVec.ofNat 8 ((s.rr.ring.head?.map fun r => r.opening.frameNumber.toNat).getD 0),
   s.rr.mode.code, boolByte s.isStarting]

/-- READ STATUS taken in COMMAND mode (R163). -/
def statusSelection (s : State) : State :=
  { s with
    portR := { selection := .selected [0x0C] [], reading := some (Reading.repeating s.statusBytesR), firstByteTaken := true,
               shifted := [0] } }

/-- READ RECORDS STREAM taken in COMMAND mode: records, and STREAM mode outside STARTING (R162, R164). -/
def streamCommand (begun : Bool) (s : State) : State :=
  let t := recordSelection [0x62] begun s
  if s.isStarting then t else { t with rr := { t.rr with mode := .stream } }

/-! ## A selection by its first byte (R162, R175, R178) -/

/-- The first byte of a selection in COMMAND mode: a command of Port R, or a selection that executes nothing (R175, R178). -/
def commandSelection (code : Byte) (begun : Bool) (s : State) : State :=
  match code.toNat with
  | 0x0C => statusSelection s
  | 0x61 => recordSelection [0x61] begun s
  | 0x62 => streamCommand begun s
  | _ => silentSelection code s

/-- A selection of Port R whose first byte is `code`: in COMMAND mode judged as a command; in STREAM mode a read from its first
byte on, with one byte shifted out while that byte came, or the exit (R162, R175). -/
def selectionR (code : Byte) (begun : Bool) (s : State) : State :=
  if s.resetLine then s
  else
    let ended := s.closeSelectionR
    match ended.rr.mode with
    | .command => commandSelection code begun ended
    | .stream => if code = streamExitCode then takeExit (recordSelection [] true ended)
      else (shiftBytes 1 (recordSelection [] true ended)).receivedR [code] []

/-! ## A selection by its bits (R165, R166) -/

/-- The fall of Port R's select line: in COMMAND mode a selection with no bytes received; in STREAM mode a read, whose first
transfer, or fill, begins with it (R162, R166). -/
def State.beginSelectionR (s : State) : State :=
  match s.rr.mode with
  | .command => { s with portR := { selection := .selected [] [], reading := none, firstByteTaken := false, shifted := [] } }
  | .stream => recordSelection [] true s

/-- One byte shifted out on Port R: of the record in transfer, of fill, of the status, or 0 (R160, R163, R175). -/
def shiftOutR (s : State) : State :=
  match s.rr.readBuffer with
  | some b => if b.position + 1 < b.record.length then shiftBytes 1 s else transferEnds s
  | none =>
    if s.rr.fill then shiftBytes 1 s
    else
      { s with
        portR := { s.portR with
          reading := s.portR.reading.map Reading.advance, firstByteTaken := true,
          shifted := s.portR.shifted ++ [(s.portR.reading.map Reading.out).getD 0] } }

/-- A whole byte received on Port R, while one went out: the first is judged, in COMMAND mode as a command, in STREAM mode for
the exit code alone; no later one is examined (R162, R175). -/
def byteOnR (code : Byte) (received : List Byte) (s : State) : State :=
  if s.portR.firstByteTaken then (shiftOutR s).receivedR (received ++ [code]) []
  else
    match s.rr.mode with
    | .command => commandSelection code false s
    | .stream =>
      if code = streamExitCode then takeExit s else (shiftOutR s).receivedR (received ++ [code]) []

/-- One bit taken by Port R; unselected, it takes none. A transfer that is due begins with the first bit of its byte (R160,
R165). -/
def bitOnR (bit : Bool) (s : State) : State :=
  match s.portR.selection with
  | .idle => s
  | .selected received part =>
    let begun := if part.isEmpty then transferBegins s else s
    if part.length < 7 then begun.receivedR received (part ++ [bit])
    else byteOnR (byteOfBits (part ++ [bit])) received begun

/-! ## Meanings -/

/-- READ STATUS on Port R (R163). -/
def execPortRReadStatus (s : State) : Host.Outcome State Fault Refusal := .next (selectionR 0x0C true s)

/-- READ RECORDS (R160). -/
def execReadRecords (begun : Bool) (s : State) : Host.Outcome State Fault Refusal := .next (selectionR 0x61 begun s)

/-- READ RECORDS STREAM (R162). -/
def execReadRecordsStream (begun : Bool) (s : State) : Host.Outcome State Fault Refusal := .next (selectionR 0x62 begun s)

/-- A new selection in STREAM mode, its first byte not yet received (R162). In COMMAND mode a selection begins with its
command byte, and this is no event (assumption log 15). -/
def execStreamSelection (s : State) : Host.Outcome State Fault Refusal :=
  .next (if s.resetLine || decide (s.rr.mode = .command) then s else recordSelection [] true s.closeSelectionR)

/-- The first byte 0xE5 (R162): of the selection in progress if its first byte is still due, else of a new selection
(assumption log 15). -/
def execStreamExit (s : State) : Host.Outcome State Fault Refusal :=
  .next (
    if !s.resetLine && decide (s.rr.mode = .stream) && decide (s.portR.selection ≠ .idle) && !s.portR.firstByteTaken then
      takeExit s
    else selectionR streamExitCode true s)

/-- A first byte given as such: one that is no command of Port R executes nothing (R175). -/
def execPortRUnknownByte (code : Byte) (s : State) : Host.Outcome State Fault Refusal :=
  .next (selectionR code true s)

/-- The bytes of a record's transfer, its end, and the beginning of what follows it (R160). -/
def execRecordTransferEnd (moment : TransferMoment) (s : State) : Host.Outcome State Fault Refusal :=
  .next (transferMoment moment s)

/-- The rise of select inside a record transfer (R161). -/
def execTransferCutOff (shifted : Nat) (s : State) : Host.Outcome State Fault Refusal := .next (transferCut shifted s)

end Sys2Proof.Machine
end

