-- ==== Sys2Proof/Machine/Slots.lean ====
section
/-! DEFINITION. The slot commands (chapter 7) and their meanings. -/

namespace Sys2Proof.Machine

/-- A command on a slot identifier: above 7 it is refused with BAD_SLOT before any other test (R126). -/
def onSlot (id : Byte) (body : Fin 8 → State → Result × State) (s : State) : Result × State :=
  match slotOfId id with
  | none => (.badSlot, s)
  | some i => body i s

/-- SLOT OPEN on a slot (R127). -/
def openSlot (p : Port) (i : Fin 8) (s : State) : Result × State :=
  let x := s.slot i
  match x.state with
  | .empty => (.done, s.setSlot i { x with state := .opened p })
  | .ready => if x.inUse then (.inUse, s) else (.done, s.setSlot i { x with state := .opened p })
  | .opened owner => if owner = p then (.done, s) else (.owned, s)
  | .loading => (.notReady, s)

/-- A page's data bytes written one after the other, each at position (offset + k) modulo 256; a byte aimed beyond the
used part of the last page is discarded (R124, R128). -/
def writePage (i : Fin 8) (page offset : Nat) (data : List Byte) (content : Memory) : Memory :=
  (data.foldl
    (fun acc b =>
      let address := 256 * page + acc.2 % 256
      (if address < slotByteCount i then Memory.write slotFill acc.1 address b else acc.1, acc.2 + 1))
    (content, offset)).1

/-- SLOT WRITE on a slot (R128). -/
def writeSlot (p : Port) (page offset : Byte) (data : List Byte) (i : Fin 8) (s : State) : Result × State :=
  let x := s.slot i
  match x.state with
  | .opened owner =>
    if owner ≠ p then (.owned, s)
    else if slotPageCount i ≤ page.toNat then (.badPage, s)
    else (.done, s.setSlot i { x with content := writePage i page.toNat offset.toNat data x.content })
  | _ => (.notOpen, s)

/-- Whether some value of a slot is above 4,095 (R129). -/
def exceeds4095 (i : Fin 8) (content : Memory) : Bool :=
  (List.range (slotValueCount i)).any fun k => decide (4095 < slotValue content k)

/-- A slot's content with every value above 4,095 as 4,095 (R129). -/
def clampContent (i : Fin 8) (content : Memory) : Memory :=
  slotContent (slotValueCount i) fun k => min (slotValue content k) 4095

/-- SLOT FINISH on a slot (R129). -/
def finishSlot (p : Port) (i : Fin 8) (s : State) : Result × State :=
  let x := s.slot i
  match x.state with
  | .opened owner =>
    if owner ≠ p then (.owned, s)
    else
      (if exceeds4095 i x.content then .clamped else .done,
       s.setSlot i { x with state := .ready, generation := x.generation + 1, origin := .port p, content := clampContent i x.content })
  | _ => (.notOpen, s)

/-- A slot emptied; the generation is kept (R130). -/
def Slot.emptied (x : Slot) : Slot := { x with state := .empty, origin := .noOrigin, content := [] }

/-- SLOT DISCARD on a slot (R130). -/
def discardSlot (i : Fin 8) (s : State) : Result × State :=
  let x := s.slot i
  match x.state with
  | .empty => (.done, s)
  | .opened _ => (.done, s.setSlot i x.emptied)
  | .ready => if x.inUse then (.inUse, s) else (.done, s.setSlot i x.emptied)
  | .loading => (.notReady, s)

/-! ## Meanings -/

/-- SLOT OPEN (R127). -/
def execSlotOpen (p : Port) (slot : Byte) (s : State) : Host.Outcome State Fault Refusal :=
  .next (portCommand p (onSlot slot (openSlot p)) s)

/-- SLOT WRITE (R128); without a data byte the frame is not well formed and is discarded (R167). -/
def execSlotWrite (p : Port) (slot page offset : Byte) (data : List Byte) (s : State) : Host.Outcome State Fault Refusal :=
  .next (if data.isEmpty then discardSelection p .framing s else portCommand p (onSlot slot (writeSlot p page offset data)) s)

/-- SLOT FINISH (R129). -/
def execSlotFinish (p : Port) (slot : Byte) (s : State) : Host.Outcome State Fault Refusal :=
  .next (portCommand p (onSlot slot (finishSlot p)) s)

/-- SLOT DISCARD (R130). -/
def execSlotDiscard (p : Port) (slot : Byte) (s : State) : Host.Outcome State Fault Refusal :=
  .next (portCommand p (onSlot slot discardSlot) s)

end Sys2Proof.Machine
end

