-- ==== Sys2Proof/Machine/Reads.lean ====
section
/-! DEFINITION. The replies of the read commands of Ports C and S (R168, R180), and their meanings. -/

namespace Sys2Proof.Machine

/-- READ FIELD: four bytes, signed (R103, R177). -/
def fieldReply (fieldId : Byte) (s : State) : Except Result (List Byte) :=
  match fieldOfId fieldId with
  | none => .error .badField
  | some x => .ok (intBytes 4 (s.cu.fields.get x))

/-- READ DERIVED: 57 bytes (R58, R180). -/
def derivedReply (s : State) : List Byte :=
  let d := s.cu.derived
  natBytes 2 d.applied ++ [BitVec.ofNat 8 d.interval] ++ natBytes 2 d.ratioRg ++ natBytes 2 d.ratioBg ++
    natBytes 2 d.gainR ++ natBytes 2 d.gainG ++ natBytes 2 d.gainB ++ natBytes 2 d.weight ++ d.interpolated.bytes ++
    d.effective.bytes ++ [d.saturationByte] ++
    natBytes 4 ((s.cu.calibration.map CalibrationSet.id).getD 0).toNat ++ [boolByte s.cu.calFallback]

/-- The 20 bytes of the last evaluation summary in READ TRACKER; zeros while it is empty (R82, R180). The action byte is
free while the arbiter has not answered (assumption log 9). -/
def summaryBytes (freeIndex : Nat) : Option EvaluationSummary → List Byte
  | none => List.replicate 20 0
  | some x =>
    natBytes 4 x.frameNumber.toNat ++ natBytes 2 x.darkFloor ++ natBytes 2 x.acceptRadius ++
      [BitVec.ofNat 8 x.minVotes] ++ intBytes 1 x.bias ++ [BitVec.ofNat 8 x.usableZones, BitVec.ofNat 8 x.votes, x.presenceByte] ++
      natBytes 2 (x.median.getD 0) ++ natBytes 2 (x.estimate.getD 0) ++
      [(x.action.map TrackerAction.code).getD (Config.unansweredAction freeIndex)] ++ natBytes 2 (x.valueSubmitted.getD 0)

/-- READ TRACKER: 33 bytes (R82, R180). -/
def trackerReply (s : State) : List Byte :=
  let f := s.cu.fields
  [BitVec.ofNat 8 s.it.mode.code, s.it.substate.code] ++ natBytes 2 s.it.target ++ natBytes 2 f.mired ++
    [BitVec.ofNat 8 f.deadBand, BitVec.ofNat 8 f.glideRate, boolByte s.it.evaluation.isSome] ++
    natBytes 4 ((s.it.evaluation.map Evaluation.frameNumber).getD 0).toNat ++ summaryBytes s.freeIndex s.it.summary

/-- The 38 bytes of a zone in READ ZONES (R83, R180). -/
def ZoneResult.bytes (z : ZoneResult) : List Byte :=
  natBytes 4 z.handed.pixelCount ++ natBytes 4 z.handed.qualifying ++ natBytes 6 z.handed.sumR ++ natBytes 6 z.handed.sumG ++
    natBytes 6 z.handed.sumB ++ [z.flagsByte] ++ natBytes 2 z.ratioR ++ natBytes 2 z.ratioB ++
    [BitVec.ofNat 8 z.nearest] ++ natBytes 4 z.distance ++ natBytes 2 z.vote16

/-- READ ZONES: 1,830 bytes; zeros before the first evaluation (R83, R180). -/
def zonesReply (s : State) : List Byte :=
  match s.it.zoneResults with
  | none => List.replicate 1830 0
  | some r => natBytes 4 r.frameNumber.toNat ++ natBytes 2 r.darkFloor ++ r.zones.list.flatMap ZoneResult.bytes

/-- A position of a page of a slot; beyond the used part of the last page it reads 0 (R124, R132). -/
def pageByte (i : Fin 8) (content : Memory) (address : Nat) : Byte :=
  if address < slotByteCount i then Memory.read slotFill content address else 0

/-- SLOT READ: the 256 bytes of a page (R132). -/
def slotPageReply (slot page : Byte) (s : State) : Except Result (List Byte) :=
  match slotOfId slot with
  | none => .error .badSlot
  | some i =>
    if slotPageCount i ≤ page.toNat then .error .badPage
    else .ok ((List.range 256).map fun k => pageByte i (s.slot i).content (256 * page.toNat + k))

/-- SLOT INFO: 9 bytes (R133, R180). -/
def slotInfoReply (slot : Byte) (s : State) : Except Result (List Byte) :=
  match slotOfId slot with
  | none => .error .badSlot
  | some i =>
    let x := s.slot i
    .ok ([slot, x.state.code, x.state.ownerCode] ++ natBytes 2 x.generation.toNat ++
      [x.origin.code, boolByte x.bound, BitVec.ofNat 8 x.references, boolByte x.saving])

/-- What READ SECTOR shows of a directory entry beyond its state: zeros unless VALID (R153). -/
def sectorInfoBytes : SectorEntry → List Byte
  | .valid info =>
    [info.kind.code, BitVec.ofNat 8 info.contentLength] ++ info.name ++ natBytes 4 (info.calibrationId.getD 0).toNat
  | _ => List.replicate 22 0

/-- READ SECTOR: 24 bytes (R153, R180). -/
def sectorReply (sector : Byte) (s : State) : Except Result (List Byte) :=
  match sectorOfNumber sector with
  | none => .error .badSector
  | some n => .ok ([sector, (s.sectorEntry n).code] ++ sectorInfoBytes (s.sectorEntry n))

/-! ## Meanings -/

/-- READ STATUS (R172). -/
def execReadStatus (p : Port) (s : State) : Host.Outcome State Fault Refusal := .next (portStatus p s)

/-- READ FIELD (R103). -/
def execReadField (p : Port) (fieldId : Byte) (s : State) : Host.Outcome State Fault Refusal :=
  .next (portRead p [0x11, fieldId] (fieldReply fieldId) s)

/-- READ DERIVED (R58). -/
def execReadDerived (p : Port) (s : State) : Host.Outcome State Fault Refusal :=
  .next (portRead p [0x12] (fun t => .ok (derivedReply t)) s)

/-- READ TRACKER (R82). -/
def execReadTracker (p : Port) (s : State) : Host.Outcome State Fault Refusal :=
  .next (portRead p [0x14] (fun t => .ok (trackerReply t)) s)

/-- READ ZONES (R83). -/
def execReadZones (p : Port) (s : State) : Host.Outcome State Fault Refusal :=
  .next (portRead p [0x15] (fun t => .ok (zonesReply t)) s)

/-- SLOT READ (R132). -/
def execSlotRead (p : Port) (slot page : Byte) (s : State) : Host.Outcome State Fault Refusal :=
  .next (portRead p [0x35, slot, page] (slotPageReply slot page) s)

/-- SLOT INFO (R133). -/
def execSlotInfo (p : Port) (slot : Byte) (s : State) : Host.Outcome State Fault Refusal :=
  .next (portRead p [0x36, slot] (slotInfoReply slot) s)

/-- READ SECTOR (R153). -/
def execReadSector (p : Port) (sector : Byte) (s : State) : Host.Outcome State Fault Refusal :=
  .next (portRead p [0x4C, sector] (sectorReply sector) s)

end Sys2Proof.Machine
end

