-- ==== Sys2Proof/Machine/Store.lean ====
section
/-! DEFINITION. The look store: the scan, recall, save, erase, the latch, the cut, and their meanings (chapter 8, R173). -/

namespace Sys2Proof.Machine

/-! ## Sector layout and the scan (R139, R141, R182) -/

/-- The validity marker (R182). -/
def validityMarker : List Byte := [0xA5, 0x3C]

/-- Bytes of a sector. -/
def Store.sectorBytes (st : Store) (sector : Fin 64) (offset count : Nat) : List Byte :=
  (List.range count).map fun k => st.byte sector (offset + k)

/-- Whether a read of some of a sector's pages meets a verify failure. -/
def Store.anyPageFails (st : Store) (sector : Fin 64) (first count : Nat) : Bool :=
  (List.range count).any fun k => st.pageFails (sectorPage sector (first + k))

/-- What a directory entry takes from a header (R140, R141). -/
def Store.headerInfo (st : Store) (sector : Fin 64) (kind : SectorKind) : SectorInfo :=
  { kind := kind, contentLength := kind.pages, name := st.sectorBytes sector 4 16,
    calibrationId := if kind = .calibration then some (BitVec.ofNat 32 (bytesNat (st.sectorBytes sector 20 4))) else none }

/-- The entry of a sector that holds a whole table: marker present, kind one of the three, its content length, and the
header and every content page readable (R141). -/
def Store.validEntry (st : Store) (sector : Fin 64) : Option SectorInfo :=
  if st.sectorBytes sector 254 2 = validityMarker then
    match sectorKindOfCode (st.byte sector 2) with
    | none => none
    | some kind =>
      if (st.byte sector 3).toNat = kind.pages && !st.anyPageFails sector 0 (kind.pages + 1) then
        some (st.headerInfo sector kind)
      else none
  else none

/-- Whether every byte of a sector is erased (R138, R141). -/
def Store.sectorErased (st : Store) (sector : Fin 64) : Bool :=
  st.bytes.all fun c =>
    decide (c.1 < sectorBase sector) || decide (sectorBase sector + 32768 ≤ c.1) || decide (c.2 = storeFill)

/-- What the start-up scan sets a sector's entry to (R141). -/
def Store.scanSector (st : Store) (sector : Fin 64) : SectorEntry :=
  match st.validEntry sector with
  | some info => .valid info
  | none => if st.sectorErased sector then .blank else .torn

/-- The directory that the scan builds (R141). -/
def Store.scan (st : Store) : Tab SectorEntry 64 := Tab.ofFn st.scanSector

/-! ## Write enable (R173) -/

/-- A latch command: the latch set or cleared, with result DONE. -/
def setLatch (p : Port) (b : Bool) (s : State) : Result × State := (.done, s.setWriteEnable p b)

/-! ## Recall (R143, R144, R145) -/

/-- Whether the controller programs a sector of a bank (R143). -/
def programsBank (s : State) (sector : Fin 64) : Bool :=
  match s.controller.state, s.controller.sector with
  | .programming _, some t => decide (bankOf t = bankOf sector)
  | _, _ => false

/-- Whether the recall engine reads a sector of a bank (R146, R148). -/
def readsBank (s : State) (sector : Fin 64) : Bool :=
  match s.recallEngine.state, s.recallEngine.sector with
  | .recalling _, some t => decide (bankOf t = bankOf sector)
  | _, _ => false

/-- The first test of R143 that a recall fails, or the slot and sector of one that passes. -/
def judgeRecall (sectorNumber slotId : Byte) (s : State) : Except Result (Fin 8 × Fin 64) :=
  match slotOfId slotId with
  | none => .error .badSlot
  | some i =>
    match sectorOfNumber sectorNumber with
    | none => .error .badSector
    | some n =>
      match s.sectorEntry n with
      | .valid info =>
        if info.kind ≠ slotKind i then .error .wrongKind
        else if s.recallEngine.state ≠ .idle then .error .recallBusy
        else match (s.slot i).state with
          | .opened _ => .error .owned
          | _ =>
            if (s.slot i).inUse then .error .inUse
            else if programsBank s n then .error .bankBusy
            else .ok (i, n)
      | _ => .error .notValid

/-- An erase running in the bank of an accepted recall is suspended; it keeps its progress (R145). -/
def suspendErase (sector : Fin 64) (s : State) : State :=
  match s.controller.state, s.controller.sector with
  | .erasing, some t =>
    if bankOf t = bankOf sector then
      { s.setSectorEntry t .eraseSuspended with controller := { s.controller with state := .eraseSuspended true } }
    else s
  | _, _ => s

/-- RECALL (R143): STARTED with the slot LOADING, or a refusal. -/
def recallRequest (sectorNumber slotId : Byte) (s : State) : Result × State :=
  match judgeRecall sectorNumber slotId s with
  | .error r => (r, s)
  | .ok (i, n) =>
    let x := s.slot i
    let loading := suspendErase n (s.setSlot i { x with state := .loading })
    (.started, { loading with recallEngine := { s.recallEngine with state := .recalling x.state, slot := some i, sector := some n } })

/-- The content of a table sector as a slot takes it: any value above 4,095 taken as 4,095 (R134, R136). -/
def recalledContent (st : Store) (i : Fin 8) (sector : Fin 64) : Memory :=
  clampContent i (Memory.ofRun slotFill 0 (st.sectorBytes sector 256 (slotByteCount i)))

/-- A suspended erase resumes when the recall in its bank ends (R145). -/
def resumeErase (sector : Fin 64) (s : State) : State :=
  match s.controller.state, s.controller.sector with
  | .eraseSuspended _, some t =>
    if bankOf t = bankOf sector then
      { s.setSectorEntry t .erasing with controller := { s.controller with state := .erasing } }
    else s
  | _, _ => s

/-- The end of the recall in flight: COMPLETED with the slot filled, or FAILED with the slot as before and the sector TORN
(R134, R144). -/
def endRecall (prior : SlotState) (i : Fin 8) (n : Fin 64) (s : State) : State :=
  let x := s.slot i
  let ended :=
    if s.store.anyPageFails n 1 (slotKind i).pages then
      { (s.setSlot i { x with state := prior }).setSectorEntry n .torn with
        recallEngine := { s.recallEngine with state := .idle, outcome := some .failed } }
    else
      { s.setSlot i { x with
          state := .ready, generation := x.generation + 1, origin := .sector n, content := recalledContent s.store i n } with
        recallEngine := { s.recallEngine with state := .idle, outcome := some .completed } }
  resumeErase n ended

/-- RECALL_COMPLETION (R144); with no recall in flight only the decay stands (assumption logs 7, 10). -/
def recallCompletes (decayed : List Nat) (s : State) : State :=
  let s1 := { s with store := s.store.decay decayed }
  match s1.recallEngine.state, s1.recallEngine.slot, s1.recallEngine.sector with
  | .recalling prior, some i, some n => endRecall prior i n s1
  | _, _, _ => s1

/-! ## Save (R146, R147, R183) -/

/-- Whether a sector may not be altered: bank 0 while the calibration protect line is asserted (R151). -/
def isProtected (s : State) (sector : Fin 64) : Bool := decide (bankOf sector = 0) && s.protectLine

/-- The bank a save's kind selector requires: bank 0 for CALIBRATION, banks 1 to 3 for TABLE (R146). -/
def bankAllowed (calibration : Bool) (sector : Fin 64) : Bool := decide (bankOf sector = 0) == calibration

/-- The first test of R146 that a save fails, or the slot and sector of one that passes. -/
def judgeSave (enabled calibration : Bool) (slotId sectorNumber : Byte) (s : State) : Except Result (Fin 8 × Fin 64) :=
  if !enabled then .error .notEnabled
  else match slotOfId slotId with
    | none => .error .badSlot
    | some i =>
      match sectorOfNumber sectorNumber with
      | none => .error .badSector
      | some n =>
        if !bankAllowed calibration n then .error .badSector
        else if calibration && isLatticeSlot i then .error .wrongKind
        else if s.supplyLowLine then .error .supplyLow
        else if isProtected s n then .error .protected_
        else if s.controller.state ≠ .idle then .error .storeBusy
        else if readsBank s n then .error .bankBusy
        else if s.sectorEntry n ≠ .blank then .error .notBlank
        else if (s.slot i).state ≠ .ready then .error .notReady
        else .ok (i, n)

/-- SAVE (R146): the latch is cleared as it is judged; STARTED with the sector PROGRAMMING and the slot saving. A kind
selector other than 1 is TABLE (R183). -/
def saveRequest (p : Port) (slotId sectorNumber : Byte) (name : List Byte) (selector : Byte) (s : State) : Result × State :=
  let calibration := decide (selector = 1)
  let unlatched := s.setWriteEnable p false
  match judgeSave (s.port p).writeEnable calibration slotId sectorNumber s with
  | .error r => (r, unlatched)
  | .ok (i, n) =>
    (.started,
      { (unlatched.setSlot i { s.slot i with saving := true }).setSectorEntry n .programming with
        controller := { s.controller with state := .programming ⟨i, calibration, name⟩, sector := some n } })

/-- The kind of sector a save writes (R147). -/
def SaveJob.kind (j : SaveJob) : SectorKind := if j.calibration then .calibration else slotKind j.slot

/-- The 192 bytes a calibration save forms from entries T[0] to T[127]: three bytes a pair (R183). -/
def calibrationPage (content : Memory) : List Byte :=
  (List.range 64).flatMap fun k =>
    let a := slotValue content (2 * k)
    let b := slotValue content (2 * k + 1)
    [BitVec.ofNat 8 (a / 16), BitVec.ofNat 8 (a % 16 * 16 + b / 256 % 16), BitVec.ofNat 8 b]

/-- The content bytes a save programs from page 1 on (R139, R147, R183). -/
def SaveJob.content (j : SaveJob) (x : Slot) : List Byte :=
  if j.calibration then calibrationPage x.content else Memory.readRun slotFill x.content 0 (slotByteCount j.slot)

/-- The calibration id of the header: bytes 0 to 3 of the content for a calibration set, else 0 (R139, R183). -/
def SaveJob.idBytes (j : SaveJob) (x : Slot) : List Byte :=
  if j.calibration then (j.content x).take 4 else [0, 0, 0, 0]

/-- The acts of a save: 1 the claim field, then one act a content page, then the rest of the header (R147). -/
def SaveJob.acts (j : SaveJob) : Nat := j.kind.pages + 2

/-- The claim field programmed (R147, R182). -/
def programClaim (n : Fin 64) (st : Store) : Store := (st.program n 0 [0, 0]).sealPage n 0

/-- Content page `k`, counted from 1, programmed (R147). -/
def programContentPage (n : Fin 64) (content : List Byte) (st : Store) (k : Nat) : Store :=
  (st.program n (256 * k) ((content.drop (256 * (k - 1))).take 256)).sealPage n k

/-- The rest of the header programmed, the validity marker last (R147, R182). -/
def programHeader (n : Fin 64) (j : SaveJob) (x : Slot) (st : Store) : Store :=
  ((st.program n 2 ([j.kind.code, BitVec.ofNat 8 j.kind.pages] ++ j.name ++ j.idBytes x)).program n 254 validityMarker).sealPage n 0

/-- The store after the first `acts` acts of a save (R147). -/
def saveActs (n : Fin 64) (j : SaveJob) (x : Slot) (acts : Nat) (st : Store) : Store :=
  if acts = 0 then st
  else
    let paged := (List.range (min (acts - 1) j.kind.pages)).foldl
      (fun acc k => programContentPage n (j.content x) acc (k + 1)) (programClaim n st)
    if j.acts ≤ acts then programHeader n j x paged else paged

/-- The page that an act of a save writes (R147). -/
def savePageOfAct (j : SaveJob) (act : Nat) : Nat := if act ≤ 1 ∨ j.acts ≤ act then 0 else act - 1

/-- What the directory shows after a save that completed (R147). -/
def SaveJob.info (j : SaveJob) (x : Slot) : SectorInfo :=
  { kind := j.kind, contentLength := j.kind.pages, name := j.name,
    calibrationId := if j.calibration then some (BitVec.ofNat 32 (bytesNat (j.idBytes x))) else none }

/-- The end of a save in the controller, the directory and the slot (R135, R147). -/
def finishSave (j : SaveJob) (n : Fin 64) (e : SectorEntry) (o : StoreOutcome) (s : State) : State :=
  { (s.setSlot j.slot { s.slot j.slot with saving := false }).setSectorEntry n e with
    controller := { s.controller with state := .idle, outcome := some o } }

/-- The end of the save in progress: COMPLETED, or FAILED at an act (R147; assumption log 5). -/
def endSave (j : SaveJob) (n : Fin 64) (failedAct : Option Nat) (s : State) : State :=
  let x := s.slot j.slot
  match failedAct with
  | none =>
    finishSave j n (.valid (j.info x)) .completed { s with store := saveActs n j x j.acts s.store }
  | some k =>
    let act := clampNat 1 j.acts k
    finishSave j n .torn .failed
      { s with
        store := (saveActs n j x (act - 1) s.store).spoilPage s.freeIndex n (savePageOfAct j act)
        freeIndex := s.freeIndex + 1 }

/-- SAVE_COMPLETION (R147); with no save in progress nothing ends (assumption log 10). -/
def saveCompletes (failedAct : Option Nat) (s : State) : State :=
  match s.controller.state, s.controller.sector with
  | .programming j, some n => endSave j n failedAct s
  | _, _ => s

/-! ## Erase (R148, R149) -/

/-- The first test of R148 that an erase fails, or the sector of one that passes. -/
def judgeErase (enabled : Bool) (sectorNumber complement : Byte) (s : State) : Except Result (Fin 64) :=
  if !enabled then .error .notEnabled
  else match sectorOfNumber sectorNumber with
    | none => .error .badSector
    | some n =>
      if complement.toNat ≠ 63 - n.val then .error .badSector
      else if s.supplyLowLine then .error .supplyLow
      else if isProtected s n then .error .protected_
      else if s.controller.state ≠ .idle then .error .storeBusy
      else .ok n

/-- ERASE (R148): the latch is cleared as it is judged; STARTED, running or beginning suspended (R145). -/
def eraseRequest (p : Port) (sectorNumber complement : Byte) (s : State) : Result × State :=
  let unlatched := s.setWriteEnable p false
  match judgeErase (s.port p).writeEnable sectorNumber complement s with
  | .error r => (r, unlatched)
  | .ok n =>
    if readsBank s n then
      (.started,
        { unlatched.setSectorEntry n .eraseSuspended with
          controller := { s.controller with state := .eraseSuspended false, sector := some n } })
    else
      (.started,
        { unlatched.setSectorEntry n .erasing with
          controller := { s.controller with state := .erasing, sector := some n } })

/-- The acts of an erase that change the store: 1 cancels the marker, 2 erases the header page, then one act a page for
pages 1 to 127 (R149). -/
def eraseActCount : Nat := 129

/-- The marker and the claim field programmed to cancel the marker (R149, R182). -/
def cancelMarker (n : Fin 64) (st : Store) : Store := ((st.program n 0 [0, 0]).program n 254 [0, 0]).sealPage n 0

/-- The store after the first `acts` acts of an erase (R149). -/
def eraseActs (n : Fin 64) (acts : Nat) (st : Store) : Store :=
  if acts = 0 then st
  else (List.range (min (acts - 1) 128)).foldl (fun acc k => acc.erasePage n k) (cancelMarker n st)

/-- The page that an act of an erase writes; acts from 130 on read the pages back one by one (R149). -/
def erasePageOfAct (act : Nat) : Nat :=
  if act ≤ 2 then 0 else if act ≤ eraseActCount then act - 2 else act - eraseActCount - 1

/-- The end of an erase in the controller and the directory (R149). -/
def finishErase (n : Fin 64) (e : SectorEntry) (o : StoreOutcome) (s : State) : State :=
  { s.setSectorEntry n e with controller := { s.controller with state := .idle, outcome := some o } }

/-- The end of the running erase: COMPLETED, or FAILED at an act (R149; assumption log 5). -/
def endErase (n : Fin 64) (failedAct : Option Nat) (s : State) : State :=
  match failedAct with
  | none => finishErase n .blank .completed { s with store := eraseActs n eraseActCount s.store }
  | some k =>
    let act := clampNat 1 (eraseActCount + 128) k
    finishErase n .torn .failed
      { s with
        store := (eraseActs n (act - 1) s.store).spoilPage s.freeIndex n (erasePageOfAct act)
        freeIndex := s.freeIndex + 1 }

/-- ERASE_COMPLETION (R149); a suspended erase, or none, does not complete (R145; assumption log 10). -/
def eraseCompletes (failedAct : Option Nat) (s : State) : State :=
  match s.controller.state, s.controller.sector with
  | .erasing, some n => endErase n failedAct s
  | _, _ => s

/-! ## The cut (R150, R152) -/

/-- The store as a cut finds it: the save or erase in progress leaves the acts it had completed. A save cut before its end
has not made its last act, and a suspended erase that never ran has made none (R150; assumption log 6). -/
def cutStore (acts : Nat) (s : State) : Store :=
  match s.controller.state, s.controller.sector with
  | .programming j, some n => saveActs n j (s.slot j.slot) (min acts (j.acts - 1)) s.store
  | .erasing, some n => eraseActs n (min acts eraseActCount) s.store
  | .eraseSuspended true, some n => eraseActs n (min acts eraseActCount) s.store
  | _, _ => s.store

/-- A save or erase in progress ended CUT (R150). -/
def cutOperation (acts : Nat) (s : State) : State :=
  let cut := { s with store := cutStore acts s }
  match s.controller.state, s.controller.sector with
  | .programming j, some n => finishSave j n .torn .cut cut
  | .erasing, some n => finishErase n .torn .cut cut
  | .eraseSuspended _, some n => finishErase n .torn .cut cut
  | _, _ => s

/-! ## Meanings -/

/-- WRITE ENABLE (R173). -/
def execWriteEnable (p : Port) (s : State) : Host.Outcome State Fault Refusal := .next (portCommand p (setLatch p true) s)

/-- WRITE DISABLE (R173). -/
def execWriteDisable (p : Port) (s : State) : Host.Outcome State Fault Refusal := .next (portCommand p (setLatch p false) s)

/-- RECALL (R143). -/
def execRecall (p : Port) (sector slot : Byte) (s : State) : Host.Outcome State Fault Refusal :=
  .next (portCommand p (recallRequest sector slot) s)

/-- The end of a recall (R144). -/
def execRecallCompletion (decayed : List Nat) (s : State) : Host.Outcome State Fault Refusal :=
  .next (recallCompletes decayed s)

/-- SAVE (R146); a name that is not 16 bytes is a frame of another length, and is discarded (R167, R178). -/
def execSave (p : Port) (slot sector : Byte) (name : List Byte) (selector : Byte) (s : State) : Host.Outcome State Fault Refusal :=
  .next (
    if name.length = 16 then portCommand p (saveRequest p slot sector name selector) s
    else discardSelection p .framing s)

/-- The end of a save (R147). -/
def execSaveCompletion (failedAct : Option Nat) (s : State) : Host.Outcome State Fault Refusal :=
  .next (saveCompletes failedAct s)

/-- ERASE (R148). -/
def execErase (p : Port) (sector complement : Byte) (s : State) : Host.Outcome State Fault Refusal :=
  .next (portCommand p (eraseRequest p sector complement) s)

/-- The end of an erase (R149). -/
def execEraseCompletion (failedAct : Option Nat) (s : State) : Host.Outcome State Fault Refusal :=
  .next (eraseCompletes failedAct s)

/-- SUPPLY_LOW_ASSERT (R150). -/
def execSupplyLowAssert (acts : Nat) (s : State) : Host.Outcome State Fault Refusal :=
  .next { cutOperation acts s with supplyLowLine := true }

/-- SUPPLY_LOW_DEASSERT (R150). -/
def execSupplyLowDeassert (s : State) : Host.Outcome State Fault Refusal := .next { s with supplyLowLine := false }

/-- CALIBRATION_PROTECT_CHANGE (R151). -/
def execCalibrationProtectChange (asserted : Bool) (s : State) : Host.Outcome State Fault Refusal :=
  .next { s with protectLine := asserted }

end Sys2Proof.Machine
end

