-- ==== Sys2Proof/Machine/Selections.lean ====
section
/-! DEFINITION. A selection of Port C or S taken as the bytes it received: the tests of R167 decide what it is, and a frame that
passes them is executed as its command. A selection of any port by its moments: the fall of select, the bits, the rise. The
meanings of FRAMING, UNKNOWN and SELECTION_END. -/

namespace Sys2Proof.Machine

/-- The command of a frame of Ports C and S, executed (R167, R168). Any other command is no frame. -/
def frameMeaning (c : Instr) (s : State) : Host.Outcome State Fault Refusal :=
  match c with
  | .readStatus p => execReadStatus p s
  | .readField p fieldId => execReadField p fieldId s
  | .readDerived p => execReadDerived p s
  | .readTracker p => execReadTracker p s
  | .readZones p => execReadZones p s
  | .edit p fieldId value beside => execEdit p fieldId value beside s
  | .editClose p fieldId value beside => execEditClose p fieldId value beside s
  | .groupOpen p beside => execGroupOpen p beside s
  | .groupClose p beside => execGroupClose p beside s
  | .groupAbandon p beside => execGroupAbandon p beside s
  | .slotOpen p slot => execSlotOpen p slot s
  | .slotWrite p slot page offset data => execSlotWrite p slot page offset data s
  | .slotFinish p slot => execSlotFinish p slot s
  | .slotDiscard p slot => execSlotDiscard p slot s
  | .slotRead p slot page => execSlotRead p slot page s
  | .slotInfo p slot => execSlotInfo p slot s
  | .writeEnable p => execWriteEnable p s
  | .writeDisable p => execWriteDisable p s
  | .recall p sector slot => execRecall p sector slot s
  | .save p slot sector name selector => execSave p slot sector name selector s
  | .erase p sector complement => execErase p sector complement s
  | .readSector p sector => execReadSector p sector s
  | _ => .next s

/-- The rise of select after a command was executed: a read in progress ends; after any other the port is IDLE already. While
the reset line is asserted no selection is in progress (R166, R168, R176). -/
def riseAfterCommand (p : Port) (s : State) : State :=
  if s.resetLine || decide ((s.port p).selection = .idle) then s else s.endSelection p

/-- A whole selection of a port, up to the rise of select: discarded, or its command executed; a read ends at the rise
(R167, R168, R169). -/
def takeSelection (p : Port) (f : Frame) (s : State) : Host.Outcome State Fault Refusal :=
  match f with
  | .framing => .next (discardSelection p .framing s)
  | .unknown => .next (discardSelection p .unknown s)
  | .command c =>
    match frameMeaning c s with
    | .next t => .next (riseAfterCommand p t)
    | stopped => stopped

/-! ## A selection by its moments (R165 to R169) -/

/-- The fall of a port's select line: SELECTED, with no bytes received (R166). -/
def State.beginSelection (s : State) (p : Port) : State :=
  s.setPort p { s.port p with selection := .selected [] [], reading := none, shifted := [] }

/-- The port with a whole byte received and the byte that went out at the same time: of the reply in progress, or 0 (R165, R168,
R169). -/
def PortState.takeByte (x : PortState) (received : List Byte) : PortState :=
  { x with
    selection := .selected received [], reading := x.reading.map Reading.advance,
    shifted := x.shifted ++ [(x.reading.map Reading.out).getD 0] }

/-- A whole byte received on a port: a read is executed with the last byte that it has; what follows a read is not examined, and
any other command waits for the rise (R167, R168). -/
def byteOnPort (p : Port) (received : List Byte) (s : State) : Host.Outcome State Fault Refusal :=
  let t := s.setPort p ((s.port p).takeByte received)
  if (s.port p).reading.isSome then .next t
  else
    match completedRead p received with
    | some c => frameMeaning c t
    | none => .next t

/-- One bit taken by a port; unselected, it takes none (R165, R166). -/
def bitOnPort (p : Port) (bit : Bool) (s : State) : Host.Outcome State Fault Refusal :=
  match (s.port p).selection with
  | .idle => .next s
  | .selected received part =>
    if part.length < 7 then .next (s.setPort p { s.port p with selection := .selected received (part ++ [bit]) })
    else byteOnPort p (received ++ [byteOfBits (part ++ [bit])]) s

/-- The rise of a port's select line: a read executed in the selection ends, and any other selection is judged by the bytes and
bits it received (R166, R167, R168). -/
def riseOnPort (p : Port) (s : State) : Host.Outcome State Fault Refusal :=
  match (s.port p).selection with
  | .idle => .next s
  | .selected received part =>
    if (s.port p).reading.isSome then .next (s.endSelection p) else takeSelection p (judgeFrame p received part) s

/-- The rise of a select line. -/
def riseOfSelect : SelectLine → State → Host.Outcome State Fault Refusal
  | .c, s => riseOnPort .c s
  | .s, s => riseOnPort .s s
  | .r, s => .next s.closeSelectionR

/-- The fall of a select line that is high. -/
def fallOfSelect : SelectLine → State → State
  | .c, s => s.beginSelection .c
  | .s, s => s.beginSelection .s
  | .r, s => s.beginSelectionR

/-- One bit on a port. -/
def bitOnLine : SelectLine → Bool → State → Host.Outcome State Fault Refusal
  | .c, bit, s => bitOnPort .c bit s
  | .s, bit, s => bitOnPort .s bit s
  | .r, bit, s => .next (bitOnR bit s)

/-- Bits on a port, one after the other. -/
def bitsOnLine (line : SelectLine) : List Bool → State → Host.Outcome State Fault Refusal
  | [], s => .next s
  | bit :: rest, s =>
    match bitOnLine line bit s with
    | .next t => bitsOnLine line rest t
    | stopped => stopped

/-- A moment of a selection. A fall of a line that has not risen implies the rise (assumption log 26). While the reset line is
asserted no selection is taken (R166, R176). -/
def selectionMoment (line : SelectLine) (moment : SelectionMoment) (s : State) : Host.Outcome State Fault Refusal :=
  if s.resetLine then .next s
  else
    match moment with
    | .fall =>
      match riseOfSelect line s with
      | .next t => .next (fallOfSelect line t)
      | stopped => stopped
    | .clocked bits => bitsOnLine line bits s
    | .rise => riseOfSelect line s

/-! ## Meanings -/

/-- FRAMING: the selection of the bytes received, which the tests of R167 find not well formed. -/
def execFraming (p : Port) (received : List Byte) (part : List Bool) (s : State) : Host.Outcome State Fault Refusal :=
  takeSelection p (judgeFrame p received part) s

/-- UNKNOWN: the selection of the bytes received, whose first the tests of R167 find to be no command (R169). -/
def execUnknown (p : Port) (received : List Byte) (s : State) : Host.Outcome State Fault Refusal :=
  takeSelection p (judgeFrame p received []) s

/-- SELECTION_END: the rise of a select line, and the moments of the selection up to it (R165, R166, R168). -/
def execSelectionEnd (line : SelectLine) (moment : SelectionMoment) (s : State) : Host.Outcome State Fault Refusal :=
  selectionMoment line moment s

end Sys2Proof.Machine
end

