-- ==== Sys2Proof/Machine/System.lean ====
section
/-! DEFINITION. Reset, start-up and the passing of time, with their meanings. -/

namespace Sys2Proof.Machine

/-! ## Reset (R11, R74, R102, R121, R152, R164, R176) -/

/-- The reset line asserted: every block at its reset values. The store keeps its bytes, as the acts of an operation in
progress left them (R138, R152); the other lines stand (assumption logs 1, 2, 6). -/
def assertReset (acts : Nat) (s : State) : State :=
  { State.reset with
    pending := s.pending, resetLine := true, protectLine := s.protectLine, supplyLowLine := s.supplyLowLine,
    store := cutStore acts s, freeIndex := s.freeIndex }

/-- The start-up scan (R141). -/
def scanStore (s : State) : State := { s with directory := some s.store.scan }

/-- The pages given lose their check value (R138; assumption log 7). -/
def State.decayed (s : State) (pages : List Nat) : State := { s with store := s.store.decay pages }

/-- The release of the reset line and the scan (R141). With the line released and the scan made, it is no event
(assumption logs 10, 13). -/
def releaseReset (pages : List Nat) (s : State) : State :=
  if s.resetLine || s.directory.isNone then scanStore { s.decayed pages with resetLine := false } else s

/-! ## Start-up (R4, R41 to R44, R136) -/

/-- A verify failure met by a start-up read makes the sector TORN (R141). The read takes the content pages of the sector's own
kind, also at the calibration load of a sector 0 that is VALID and not of kind CALIBRATION: the model's choice, assumption
log 25 (R41). -/
def tearUnreadable (s : State) (sector : Fin 64) : State :=
  match s.sectorEntry sector with
  | .valid info => if s.store.anyPageFails sector 1 info.kind.pages then s.setSectorEntry sector .torn else s
  | _ => s

/-- The calibration content page of sector 0 (R182). -/
def calibrationContent (st : Store) (position : Nat) : Byte := st.byte 0 (256 + position)

/-- The calibration set of sector 0, if R42 does not refuse it. -/
def loadedCalibration (s : State) : Option CalibrationSet :=
  match s.sectorEntry 0 with
  | .valid info =>
    let c := pageCalibration (calibrationContent s.store)
    if info.kind = .calibration && c.acceptable then some c else none
  | _ => none

/-- The calibration load (R41, R43, R44). -/
def loadCalibration (s : State) : State :=
  let t := tearUnreadable s 0
  match loadedCalibration t with
  | some c => { t with cu := { t.cu with calibration := some c.withDefaultClamped, calFallback := false } }
  | none => { t with cu := { t.cu with calibration := some fallbackCalibration.withDefaultClamped, calFallback := true } }

/-- The built-in identity lattice (R36). -/
def identityLattice : Memory :=
  slotContent 14739 fun k =>
    let node := k / 3
    min 4095 (256 * (if k % 3 = 0 then node / 289 else if k % 3 = 1 then node / 17 % 17 else node % 17))

/-- The fallback ramp (R136). -/
def fallbackRamp : Memory := slotContent 833 fun t => (8190 * t + 832) / 1664

/-- A slot filled at start-up: READY, generation 1 (R136). -/
def Slot.filled (x : Slot) (origin : Origin) (content : Memory) : Slot :=
  { x with state := .ready, generation := 1, origin := origin, content := content }

/-- The default tone sector of the calibration set in use (R41). -/
def defaultToneSector (s : State) : Option (Fin 64) := s.cu.calibration.bind CalibrationSet.defaultToneSector

/-- Whether a directory entry is of a VALID tone table (R136). -/
def SectorEntry.isTone : SectorEntry → Bool
  | .valid info => decide (info.kind = SectorKind.tone)
  | _ => false

/-- Slot T0 filled: the default tone sector's table if the sector is VALID, of kind TONE and readable, else the ramp
(R136, R141). -/
def fillT0 (s : State) : State :=
  match defaultToneSector s with
  | none => s.setSlot 4 ((s.slot 4).filled .builtIn fallbackRamp)
  | some n =>
    let t : State := if (s.sectorEntry n).isTone then tearUnreadable s n else s
    if (t.sectorEntry n).isTone then t.setSlot 4 ((t.slot 4).filled (.sector n) (recalledContent t.store 4 n))
    else t.setSlot 4 ((t.slot 4).filled .builtIn fallbackRamp)

/-- Slots L0 and T0 filled (R136). -/
def fillSlots (s : State) : State := fillT0 (s.setSlot 0 ((s.slot 0).filled .builtIn identityLattice))

/-- The default mired of the calibration set in use, in mired16 (R44). -/
def defaultMired16 (s : State) : Nat := 16 * (s.cu.calibration.map CalibrationSet.defaultMired).getD 0

/-- The fields at their defaults, the start-up derivation, the target, and the engine's entry to NO_INPUT with the frame
context formed (R4, R47, R65, R84, R99). -/
def adoptDefaults (s : State) : State :=
  let fields := Fields.default (defaultMired16 s)
  let derived := rederive s.cu.calibration fields s.cu.derived
  { s with
    cu := { s.cu with fields := fields, derived := derived }
    it := { s.it with target := fields.mired }
    slots := markBound fields s.slots
    pe := { s.pe with context := formContext fields derived, frameState := .noInput, inputLostTimer := none } }

/-- The scan if it has not been made yet (assumption log 13). -/
def ensureScanned (s : State) : State := if s.directory.isNone then scanStore s else s

/-- The whole of start-up after the scan, ending in start-up completion (R4, R41). Outside STARTING, or with the reset line
asserted, start-up does not complete (assumption log 10). -/
def completeStartUp (pages : List Nat) (s : State) : State :=
  if s.resetLine || !s.isStarting then s
  else adoptDefaults (fillSlots (loadCalibration ((ensureScanned s).decayed pages)))

/-! ## Time (R8, R115) -/

/-- A millisecond passes with no command waiting (assumption log 4). -/
def passMillisecond (s : State) : State := if s.resetLine then s else elapseInput 1 (elapseGroup 1 s)

/-! ## Meanings -/

/-- RESET_ASSERT (R11). -/
def execResetAssert (acts : Nat) (s : State) : Host.Outcome State Fault Refusal := .next (assertReset acts s)

/-- RESET_RELEASE (R141). -/
def execResetRelease (decayed : List Nat) (s : State) : Host.Outcome State Fault Refusal := .next (releaseReset decayed s)

/-- START_UP_COMPLETION (R4). -/
def execStartUpCompletion (decayed : List Nat) (s : State) : Host.Outcome State Fault Refusal :=
  .next (completeStartUp decayed s)

end Sys2Proof.Machine
end

