-- ==== Sys2Proof/Machine/Tracker.lean ====
section
/-! DEFINITION. The Illuminant Tracker's evaluation, vote and glide (sections 4.2 and 4.3), and the meaning of the
completion of an evaluation. -/

namespace Sys2Proof.Machine

/-- Whether a zone is usable: at least one pixel in sixteen qualified, and its green sum is above 0 (R67). -/
def ZoneRecord.usable (z : ZoneRecord) : Bool := decide (z.pixelCount ≤ 16 * z.qualifying) && decide (0 < z.sumG)

/-- A ratio of a zone's sums in units of 1/4096, held at 65,535 (R68). -/
def zoneRatio (sum sumG : Nat) : Nat := min 65535 ((sum * 4096 + sumG / 2) / sumG)

/-- The distance of two ratios from a locus entry (R69). -/
def locusDistance (ratioR ratioB : Nat) (e : LocusEntry) : Nat :=
  ((ratioR : Int) - e.rg).natAbs + ((ratioB : Int) - e.bg).natAbs

/-- The index of the nearest locus entry; of equals, the one with the lower index (R69). -/
def nearestEntry (locus : List LocusEntry) (ratioR ratioB : Nat) : Nat :=
  let d (i : Nat) : Nat := locusDistance ratioR ratioB (locus.getD i ⟨0, 0, 0⟩)
  (List.range locus.length).foldl (fun best i => if d i < d best then i else best) 0

/-- The neighbour with which a vote is refined (R70). -/
def neighbourEntry (locus : List LocusEntry) (ratioR ratioB e : Nat) : Nat :=
  let d (i : Nat) : Nat := locusDistance ratioR ratioB (locus.getD i ⟨0, 0, 0⟩)
  if e = 0 then 1
  else if e + 1 = locus.length then e - 1
  else if d (e + 1) < d (e - 1) then e + 1
  else e - 1

/-- The refined vote in mired16 from the nearest entry's mired and distance and the neighbour's (R70). -/
def refinedVote (mE dE mN dN : Nat) : Nat :=
  if dE + dN = 0 then 16 * mE else roundHalfUp (16 * (dN * mE + dE * mN)) (dE + dN)

/-- A voting zone's vote (R70). -/
def zoneVote (locus : List LocusEntry) (ratioR ratioB e : Nat) : Nat :=
  let n := neighbourEntry locus ratioR ratioB e
  let entryE := locus.getD e ⟨0, 0, 0⟩
  let entryN := locus.getD n ⟨0, 0, 0⟩
  refinedVote entryE.mired (locusDistance ratioR ratioB entryE) entryN.mired (locusDistance ratioR ratioB entryN)

/-- One zone judged (R67 to R70). A zone that is not usable reports zeros. -/
def judgeZone (locus : List LocusEntry) (acceptRadius : Nat) (z : ZoneRecord) : ZoneResult :=
  if z.usable then
    let ratioR := zoneRatio z.sumR z.sumG
    let ratioB := zoneRatio z.sumB z.sumG
    let e := nearestEntry locus ratioR ratioB
    let distance := locusDistance ratioR ratioB (locus.getD e ⟨0, 0, 0⟩)
    let voted := decide (distance ≤ acceptRadius)
    { handed := z, usable := true, ratioR := ratioR, ratioB := ratioB, nearest := e, distance := distance, voted := voted,
      vote16 := if voted then zoneVote locus ratioR ratioB e else 0 }
  else
    { handed := z, usable := false, ratioR := 0, ratioB := 0, nearest := 0, distance := 0, voted := false, vote16 := 0 }

/-- A value put into an ascending list, equal values kept. -/
def insertVote (v : Nat) : List Nat → List Nat
  | [] => [v]
  | x :: rest => if v ≤ x then v :: x :: rest else x :: insertVote v rest

/-- The vote list: the votes in ascending order (R71). -/
def voteList (results : List ZoneResult) : List Nat :=
  ((results.filter ZoneResult.voted).map ZoneResult.vote16).foldr insertVote []

/-- The median of a vote list; none when it is empty (R71). -/
def medianVote (votes : List Nat) : Option Nat :=
  let v := votes.length
  if v = 0 then none
  else if v % 2 = 1 then votes[(v + 1) / 2 - 1]?
  else some ((votes.getD (v / 2 - 1) 0 + votes.getD (v / 2) 0) / 2)

/-- The estimate of an unstarved evaluation: the median plus 16 × BIAS, clamped into the MIRED range (R72). -/
def estimateOf (cal : Option CalibrationSet) (bias : Int) (median : Nat) : Nat :=
  (clampInt (miredRange cal).1 (miredRange cal).2 ((median : Int) + 16 * bias)).toNat

/-- The zone results of an evaluation (R73). -/
def zoneResultsOf (cal : Option CalibrationSet) (e : Evaluation) : ZoneResults :=
  { frameNumber := e.frameNumber, darkFloor := e.darkFloor,
    zones := e.zones.map (judgeZone ((cal.map CalibrationSet.locus).getD []) e.acceptRadius) }

/-- The summary of an evaluation, before its action is known (R71 to R73). -/
def summaryOf (cal : Option CalibrationSet) (e : Evaluation) (z : ZoneResults) : EvaluationSummary :=
  let votes := voteList z.zones.list
  let median := medianVote votes
  let starved := decide (votes.length < e.minVotes)
  { frameNumber := e.frameNumber, darkFloor := e.darkFloor, acceptRadius := e.acceptRadius, minVotes := e.minVotes,
    bias := e.bias, usableZones := z.zones.list.countP ZoneResult.usable, votes := votes.length, median := median,
    estimate := if starved then none else median.map (estimateOf cal e.bias), starved := starved,
    action := some .noAction, valueSubmitted := none }

/-- The distance between the target and the applied A. -/
def glideDistance (target a : Nat) : Nat := ((target : Int) - a).natAbs

/-- Whether a step is due: beyond the dead band in SETTLED (R77), at any distance in GLIDING (R78). -/
def stepDue (substate : Substate) (target a deadBand : Nat) : Bool :=
  match substate with
  | .settled => decide (16 * deadBand < glideDistance target a)
  | .gliding => decide (target ≠ a)

/-- The step toward the target: the MIRED value submitted and the substate proposed (R77, R78, R79). -/
def glideStep (target a glideRate : Nat) : Submission :=
  let step := min glideRate (glideDistance target a)
  { value := if a < target then a + step else a - step
    proposed := if step = glideDistance target a then .settled else .gliding }

/-- The tracker after an evaluation in AUTO with the engine out of NO_INPUT: the target, then a step submitted or none
due (R77, R78). -/
def glide (it : Tracker) (f : Fields) (summary : EvaluationSummary) : Tracker :=
  let target := summary.estimate.getD it.target
  if stepDue it.substate target f.mired f.deadBand then
    let w := glideStep target f.mired f.glideRate
    { it with target := target, waiting := some w, summary := some { summary with action := none, valueSubmitted := some w.value } }
  else { it with target := target, substate := .settled, summary := some summary }

/-- The tracker after an evaluation that submits nothing: in HOLD or MANUAL, or in AUTO with the engine in NO_INPUT, where
an unstarved estimate still sets the target (R73). -/
def reportOnly (it : Tracker) (f : Fields) (summary : EvaluationSummary) : Tracker :=
  let judged := summary.estimate.getD it.target
  let action : TrackerAction := if stepDue it.substate judged f.mired f.deadBand then .notSubmitted else .noAction
  { it with
    target := if it.mode = .auto then judged else it.target
    summary := some { summary with action := some action } }

/-- The completion of an evaluation: results and summary replaced whole, the estimate acted on, and IDLE (R73). -/
def completeEvaluation (e : Evaluation) (s : State) : State :=
  let z := zoneResultsOf s.cu.calibration e
  let summary := summaryOf s.cu.calibration e z
  let it := { s.it with evaluation := none, zoneResults := some z }
  { s with
    it := if it.mode = .auto ∧ ¬ s.isNoInput then glide it s.cu.fields summary else reportOnly it s.cu.fields summary }

/-- EVALUATION_COMPLETION (R73). A submission still waiting is answered first, since the tracker makes one at a time (R106;
assumption log 9). With no evaluation in flight nothing completes (assumption log 10). -/
def evaluationCompletes (s : State) : State :=
  match s.it.evaluation with
  | none => s
  | some e => completeEvaluation e (takeSubmission s)

/-- The meaning of EVALUATION_COMPLETION (R73). -/
def execEvaluationCompletion (s : State) : Host.Outcome State Fault Refusal := .next (evaluationCompletes s)

end Sys2Proof.Machine
end

