-- ==== Sys2Proof/Machine/Dispatch.lean ====
section
/-! DEFINITION. One arm per command: the meaning it calls. -/

namespace Sys2Proof.Machine

def exec (i : Instr) (s : State) : Host.Outcome State Fault Refusal :=
  match i with
  | .resetAssert acts => Sys2Proof.Machine.execResetAssert acts s
  | .resetRelease decayed => Sys2Proof.Machine.execResetRelease decayed s
  | .startUpCompletion decayed => Sys2Proof.Machine.execStartUpCompletion decayed s
  | .frameStart width height => Sys2Proof.Machine.execFrameStart width height s
  | .pixel red green blue => Sys2Proof.Machine.execPixel red green blue s
  | .frameEnd => Sys2Proof.Machine.execFrameEnd s
  | .inputLost elapsed => Sys2Proof.Machine.execInputLost elapsed s
  | .evaluationCompletion => Sys2Proof.Machine.execEvaluationCompletion s
  | .trackerSubmission => Sys2Proof.Machine.execTrackerSubmission s
  | .groupExpiry elapsed => Sys2Proof.Machine.execGroupExpiry elapsed s
  | .readStatus p => Sys2Proof.Machine.execReadStatus p s
  | .readField p fieldId => Sys2Proof.Machine.execReadField p fieldId s
  | .readDerived p => Sys2Proof.Machine.execReadDerived p s
  | .readTracker p => Sys2Proof.Machine.execReadTracker p s
  | .readZones p => Sys2Proof.Machine.execReadZones p s
  | .edit p fieldId value beside => Sys2Proof.Machine.execEdit p fieldId value beside s
  | .editClose p fieldId value beside => Sys2Proof.Machine.execEditClose p fieldId value beside s
  | .groupOpen p beside => Sys2Proof.Machine.execGroupOpen p beside s
  | .groupClose p beside => Sys2Proof.Machine.execGroupClose p beside s
  | .groupAbandon p beside => Sys2Proof.Machine.execGroupAbandon p beside s
  | .slotOpen p slot => Sys2Proof.Machine.execSlotOpen p slot s
  | .slotWrite p slot page offset data => Sys2Proof.Machine.execSlotWrite p slot page offset data s
  | .slotFinish p slot => Sys2Proof.Machine.execSlotFinish p slot s
  | .slotDiscard p slot => Sys2Proof.Machine.execSlotDiscard p slot s
  | .slotRead p slot page => Sys2Proof.Machine.execSlotRead p slot page s
  | .slotInfo p slot => Sys2Proof.Machine.execSlotInfo p slot s
  | .writeEnable p => Sys2Proof.Machine.execWriteEnable p s
  | .writeDisable p => Sys2Proof.Machine.execWriteDisable p s
  | .recall p sector slot => Sys2Proof.Machine.execRecall p sector slot s
  | .recallCompletion decayed => Sys2Proof.Machine.execRecallCompletion decayed s
  | .save p slot sector name selector => Sys2Proof.Machine.execSave p slot sector name selector s
  | .saveCompletion failedAct => Sys2Proof.Machine.execSaveCompletion failedAct s
  | .erase p sector complement => Sys2Proof.Machine.execErase p sector complement s
  | .eraseCompletion failedAct => Sys2Proof.Machine.execEraseCompletion failedAct s
  | .readSector p sector => Sys2Proof.Machine.execReadSector p sector s
  | .framing p received part => Sys2Proof.Machine.execFraming p received part s
  | .unknown p received => Sys2Proof.Machine.execUnknown p received s
  | .supplyLowAssert acts => Sys2Proof.Machine.execSupplyLowAssert acts s
  | .supplyLowDeassert => Sys2Proof.Machine.execSupplyLowDeassert s
  | .calibrationProtectChange asserted => Sys2Proof.Machine.execCalibrationProtectChange asserted s
  | .portRReadStatus => Sys2Proof.Machine.execPortRReadStatus s
  | .readRecords begun => Sys2Proof.Machine.execReadRecords begun s
  | .readRecordsStream begun => Sys2Proof.Machine.execReadRecordsStream begun s
  | .streamSelection => Sys2Proof.Machine.execStreamSelection s
  | .streamExit => Sys2Proof.Machine.execStreamExit s
  | .portRUnknownByte code => Sys2Proof.Machine.execPortRUnknownByte code s
  | .recordTransferEnd moment => Sys2Proof.Machine.execRecordTransferEnd moment s
  | .transferCutOff shifted => Sys2Proof.Machine.execTransferCutOff shifted s
  | .selectionEnd line moment => Sys2Proof.Machine.execSelectionEnd line moment s

end Sys2Proof.Machine
end

