-- ==== Sys2Proof/Machine/Step.lean ====
section
/-! DEFINITION. One step: the command at the front of the queue, whole; with no command waiting, a millisecond passes. -/

namespace Sys2Proof.Machine

/-- One step of the processor (assumption log 4 for the empty queue). -/
def step (s : State) : Host.Outcome State Fault Refusal :=
  match s.pending with
  | [] => .next (passMillisecond s)
  | c :: rest => exec c { s with pending := rest }

/-- The command a word spells put at the front of the queue; no word spells one (assumption log 18). -/
def State.withFetchWord (s : State) (nbits w : Nat) : State :=
  match decodeTableWord nbits w with
  | none => s
  | some c => { s with pending := c :: s.pending }

end Sys2Proof.Machine
end

