-- ==== Sys2Proof/Safety.lean ====
section
/-! DEFINITION. What every good state obeys: laws that each step keeps, each citing the rules it follows from; and the parts
of the state, by which a statement says what a command leaves unchanged. -/

namespace Sys2Proof.Machine

/-! ## What a command leaves unchanged -/

/-- The parts into which a frame condition divides the state. The queue of waiting commands is no part: no command changes
it. -/
inductive Part where
  /-- The reset line. -/
  | resetLine
  /-- The two guard lines (R150, R151). -/
  | guardLines
  /-- The Pixel Engine but its frame context, its counts and its outputs. -/
  | engine
  /-- The pixel index and the three saturation counts. -/
  | counts
  /-- The frame context. -/
  | frameContext
  /-- What the last event of the pixel stream put on the outputs. -/
  | outputs
  | zones
  | tracker
  /-- The calibration set in use and CAL_FALLBACK. -/
  | calibration
  | derived
  | fields
  | queue
  | appliedChanges
  /-- Group state, outcomes and expiry note. -/
  | group
  | inactivityTimer
  | grantOrder
  | slots
  | store
  | directory
  | controller
  | recallEngine
  /-- The open record and the ring. -/
  | records
  /-- The read buffer, the mode, the fill marker, and Port R. -/
  | portR
  | port (p : Port)
  | freeIndex
deriving DecidableEq, Repr

/-- Two states agree on a part. -/
def State.agrees (s t : State) : Part → Prop
  | .resetLine => t.resetLine = s.resetLine
  | .guardLines => t.protectLine = s.protectLine ∧ t.supplyLowLine = s.supplyLowLine
  | .engine => t.pe.frameState = s.pe.frameState ∧ t.pe.frameNumber = s.pe.frameNumber ∧ t.pe.width = s.pe.width ∧
      t.pe.height = s.pe.height ∧ t.pe.geometryValid = s.pe.geometryValid ∧ t.pe.inputLostTimer = s.pe.inputLostTimer
  | .counts => t.pe.pixelIndex = s.pe.pixelIndex ∧ t.pe.clippedCount = s.pe.clippedCount ∧
      t.pe.gainClampCount = s.pe.gainClampCount ∧ t.pe.matrixClampCount = s.pe.matrixClampCount
  | .frameContext => t.pe.context = s.pe.context
  | .outputs => t.pe.programmeOut = s.pe.programmeOut ∧ t.pe.monitorOut = s.pe.monitorOut
  | .zones => t.zsa = s.zsa
  | .tracker => t.it = s.it
  | .calibration => t.cu.calibration = s.cu.calibration ∧ t.cu.calFallback = s.cu.calFallback
  | .derived => t.cu.derived = s.cu.derived
  | .fields => t.cu.fields = s.cu.fields
  | .queue => t.cu.queue = s.cu.queue
  | .appliedChanges => t.cu.appliedChanges = s.cu.appliedChanges
  | .group => t.ca.owner = s.ca.owner ∧ t.ca.outcomeC = s.ca.outcomeC ∧ t.ca.outcomeS = s.ca.outcomeS ∧
      t.ca.expiryNote = s.ca.expiryNote
  | .inactivityTimer => t.ca.inactivityTimer = s.ca.inactivityTimer
  | .grantOrder => t.ca.grantOrder = s.ca.grantOrder
  | .slots => t.slots = s.slots
  | .store => t.store = s.store
  | .directory => t.directory = s.directory
  | .controller => t.controller = s.controller
  | .recallEngine => t.recallEngine = s.recallEngine
  | .records => t.rr.openRecord = s.rr.openRecord ∧ t.rr.ring = s.rr.ring
  | .portR => t.rr.readBuffer = s.rr.readBuffer ∧ t.rr.mode = s.rr.mode ∧ t.rr.fill = s.rr.fill ∧ t.portR = s.portR
  | .port p => t.port p = s.port p
  | .freeIndex => t.freeIndex = s.freeIndex

/-- Every part but those listed is as it was. -/
def State.unchangedBut (s t : State) (changed : List Part) : Prop :=
  t.pending = s.pending ∧ ∀ part, part ∉ changed → s.agrees t part

/-- The state of a port after a command other than a read was answered: deselected, nothing being read, with its result
(R166, R171). -/
def State.answered (s t : State) (p : Port) (r : Result) : Prop :=
  (t.port p).selection = .idle ∧ (t.port p).lastResult = r ∧ (t.port p).writeEnable = (s.port p).writeEnable ∧
    (t.port p).reading = none ∧ (t.port p).shifted = []

/-- The inactivity timer after a selection of a port has ended: at 0 when the port owns the group, else as it was (R114). -/
def State.timerAfter (s : State) (p : Port) : Option Nat :=
  if s.ca.owner = some p then some 0 else s.ca.inactivityTimer

/-- Whether the part takes commands: the reset line released and start-up complete. -/
def State.operating (s : State) : Prop := s.resetLine = false ∧ s.pe.frameState ≠ .starting

/-- A command of a port other than a read was answered: its selection ended, its result stands, and of the rest only the
parts listed may differ (R107, R114, R166, R171). -/
def State.answers (s t : State) (p : Port) (r : Result) (changed : List Part) : Prop :=
  s.answered t p r ∧ t.ca.inactivityTimer = s.timerAfter p ∧ s.unchangedBut t (.port p :: .inactivityTimer :: changed)

/-- A SAVE or an ERASE of a port was judged by the store: as an answered command, with the write enable latch cleared (R146,
R148, R173). -/
def State.judged (s t : State) (p : Port) (r : Result) (changed : List Part) : Prop :=
  (t.port p).selection = .idle ∧ (t.port p).lastResult = r ∧ (t.port p).writeEnable = false ∧
    (t.port p).reading = none ∧ (t.port p).shifted = [] ∧ t.ca.inactivityTimer = s.timerAfter p ∧
    s.unchangedBut t (.port p :: .inactivityTimer :: changed)

/-- The first test of a table that fails gives this result. -/
def firstFailing : List (Prop × Result) → Result → Prop
  | [], _ => False
  | (test, result) :: rest, r => (¬ test ∧ r = result) ∨ (test ∧ firstFailing rest r)

/-- Every test of a table passes. -/
def allPass : List (Prop × Result) → Prop
  | [] => True
  | (test, _) :: rest => test ∧ allPass rest

/-- The recall engine is reading a sector of a sector's bank (R146, R148). -/
def State.recallReads (s : State) (n : Fin 64) : Prop :=
  ∃ prior m, s.recallEngine.state = .recalling prior ∧ s.recallEngine.sector = some m ∧ m.val / 16 = n.val / 16

/-- The tests of a RECALL of a sector number into a slot identifier, in their order, each with its result when it fails
(R143). -/
def State.recallTests (s : State) (number id : Byte) : List (Prop × Result) :=
  let i : Fin 8 := Fin.ofNat 8 id.toNat
  let n : Fin 64 := Fin.ofNat 64 number.toNat
  let x := s.slot i
  [(id.toNat ≤ 7, .badSlot), (number.toNat ≤ 63, .badSector), (∃ info, s.sectorEntry n = .valid info, .notValid),
   (∃ info, s.sectorEntry n = .valid info ∧ info.kind = (if i.val < 4 then .lattice else .tone), .wrongKind),
   (s.recallEngine.state = .idle, .recallBusy), (∀ q, x.state ≠ .opened q, .owned),
   (x.bound = false ∧ x.references = 0 ∧ x.saving = false, .inUse),
   (¬ ∃ j m, s.controller.state = .programming j ∧ s.controller.sector = some m ∧ m.val / 16 = n.val / 16, .bankBusy)]

/-- The tests of a SAVE of a port, in their order (R146). -/
def State.saveTests (s : State) (p : Port) (id number : Byte) (calibration : Bool) : List (Prop × Result) :=
  let i : Fin 8 := Fin.ofNat 8 id.toNat
  let n : Fin 64 := Fin.ofNat 64 number.toNat
  [((s.port p).writeEnable = true, .notEnabled), (id.toNat ≤ 7, .badSlot),
   (number.toNat ≤ 63 ∧ (calibration = true ↔ number.toNat ≤ 15), .badSector),
   (calibration = true → 4 ≤ id.toNat, .wrongKind), (s.supplyLowLine = false, .supplyLow),
   (16 ≤ number.toNat ∨ s.protectLine = false, .protected_), (s.controller.state = .idle, .storeBusy),
   (¬ s.recallReads n, .bankBusy), (s.sectorEntry n = .blank, .notBlank), ((s.slot i).state = .ready, .notReady)]

/-- The tests of an ERASE of a port, in their order (R148). -/
def State.eraseTests (s : State) (p : Port) (number complement : Byte) : List (Prop × Result) :=
  [((s.port p).writeEnable = true, .notEnabled), (number.toNat ≤ 63 ∧ complement.toNat + number.toNat = 63, .badSector),
   (s.supplyLowLine = false, .supplyLow), (16 ≤ number.toNat ∨ s.protectLine = false, .protected_),
   (s.controller.state = .idle, .storeBusy)]

/-- A read of a port was executed: the port stays selected, with the bytes received, the zeros shifted out meanwhile, the read in
progress and the result given; nothing else differs. Only the end of an earlier selection in which a read was executed, which the
new one implies (assumption log 8), restarts the timer (R114, R166, R168, R169). -/
def State.readAnswered (s t : State) (p : Port) (received : List Byte) (reading : Option Reading) (r : Result) : Prop :=
  t.port p =
      { selection := .selected received [], reading := reading, shifted := List.replicate received.length 0, lastResult := r,
        writeEnable := (s.port p).writeEnable } ∧
    t.ca.inactivityTimer =
      (if (s.port p).selection = .idle ∨ (s.port p).reading = none then s.ca.inactivityTimer else s.timerAfter p) ∧
    s.unchangedBut t [.port p, .inactivityTimer]

/-- The bits of a byte in the order in which a port takes them, the most significant first (R165). -/
def byteBits (b : Byte) : List Bool := (List.range 8).map b.getMsbD

/-- The command of a port's request, with the request of the other port that waits at the same moment, if one does. -/
def requestCommand (p : Port) (r : Request) (beside : Option Request) : Instr :=
  match r with
  | .edit fieldId value => .edit p fieldId value beside
  | .editClose fieldId value => .editClose p fieldId value beside
  | .groupOpen => .groupOpen p beside
  | .groupClose => .groupClose p beside
  | .groupAbandon => .groupAbandon p beside

/-- Whether a command is two requests, one of each port (R106). -/
def isTwoRequests : Instr → Bool
  | .edit _ _ _ beside | .editClose _ _ _ beside | .groupOpen _ beside | .groupClose _ beside | .groupAbandon _ beside =>
    beside.isSome
  | _ => false

/-- The port of a command other than a read that is executed at the rise of its select line alone (R167). -/
def commandPort : Instr → Option Port
  | .edit p _ _ none | .editClose p _ _ none | .groupOpen p none | .groupClose p none | .groupAbandon p none | .slotOpen p _
  | .slotWrite p _ _ _ _ | .slotFinish p _ | .slotDiscard p _ | .writeEnable p | .writeDisable p | .recall p _ _
  | .save p _ _ _ _ | .erase p _ _ => some p
  | _ => none

/-- The port and the received bytes of a read other than READ STATUS (R168, R178). -/
def readPort : Instr → Option (Port × List Byte)
  | .readField p fieldId => some (p, [0x11, fieldId])
  | .readDerived p => some (p, [0x12])
  | .readTracker p => some (p, [0x14])
  | .readZones p => some (p, [0x15])
  | .slotRead p slot page => some (p, [0x35, slot, page])
  | .slotInfo p slot => some (p, [0x36, slot])
  | .readSector p sector => some (p, [0x4C, sector])
  | _ => none

/-- Whether a command is one request of a port to the Context Arbiter, and whose (R106). -/
def requestPort : Instr → Option Port
  | .edit p _ _ none | .editClose p _ _ none | .groupOpen p none | .groupClose p none | .groupAbandon p none => some p
  | _ => none

/-- A request of a port is taken at once: no submission of the tracker that waits at the same moment stands before it in the
grant order (R106). -/
def State.portFirst (s : State) (p : Port) : Prop :=
  s.it.waiting.isSome = true → standsBefore s.ca.grantOrder .tracker (portRequester p) = false

/-- Coefficient `j`, `k` of a matrix, rows and columns counted from 0. -/
def Mat3.coeff (m : Mat3) (j k : Fin 3) : Int :=
  match j, k with
  | 0, 0 => m.m11
  | 0, 1 => m.m12
  | 0, 2 => m.m13
  | 1, 0 => m.m21
  | 1, 1 => m.m22
  | 1, 2 => m.m23
  | 2, 0 => m.m31
  | 2, 1 => m.m32
  | 2, 2 => m.m33

/-! ## What an application pass leaves (R92 to R100) -/

/-- An application pass over a queue was made on a state: the entries before the first OPEN_GROUP entry applied one after the
other from the fields as they stood; A held within GLIDE_RATE of its value before the pass when a frame-start pass applied
tracker steps and no port's MIRED (R80); derivation run when an entry it reads was applied (R47); the frame context formed
and adopted (R3, R100); the bound marks (R99) and the tracker's mode and restart from rest (R75, R76). -/
def State.passMade (kind : PassKind) (queue : List Entry) (s t : State) : Prop :=
  let pass := (queue.takeWhile fun e => decide (e.mark ≠ .openGroup)).foldl (applyEntry kind) (Pass.begin s.cu)
  let before := s.cu.fields.mired
  let rate := pass.fields.glideRate
  t.cu.queue = queue.dropWhile (fun e => decide (e.mark ≠ .openGroup)) ∧
    t.cu.fields = { pass.fields with
      mired :=
        if kind = .frameStart ∧ pass.trackerMired = true ∧ pass.portMired = false then
          (if before + rate < pass.fields.mired then before + rate
          else if pass.fields.mired + rate < before then before - rate
          else pass.fields.mired)
        else pass.fields.mired } ∧
    (∀ c, s.cu.calibration = some c → t.cu.derived = if pass.derives then derive c t.cu.fields else s.cu.derived) ∧
    t.pe.context =
      { blackR := t.cu.fields.blackR, blackG := t.cu.fields.blackG, blackB := t.cu.fields.blackB,
        highlight := t.cu.fields.highlight, gainR := t.cu.derived.gainR, gainG := t.cu.derived.gainG,
        gainB := t.cu.derived.gainB, matrix := t.cu.derived.effective, programmeTone := t.cu.fields.programmeTone,
        monitorTone := t.cu.fields.monitorTone, monitorLattice := t.cu.fields.monitorLattice } ∧
    (∀ i, (t.slot i).bound = true ↔
      toneSlot t.cu.fields.programmeTone = i ∨ toneSlot t.cu.fields.monitorTone = i ∨
        ∃ l, t.cu.fields.monitorLattice = some l ∧ latticeSlot l = i) ∧
    (∀ i, (t.slot i).state = (s.slot i).state ∧ (t.slot i).generation = (s.slot i).generation ∧
      (t.slot i).origin = (s.slot i).origin ∧ (t.slot i).saving = (s.slot i).saving ∧
      (t.slot i).content = (s.slot i).content) ∧
    t.it =
      if pass.autoApplied = true ∧ t.cu.fields.trackerMode = .auto then
        { s.it with mode := .auto, target := t.cu.fields.mired, substate := .settled }
      else { s.it with mode := t.cu.fields.trackerMode }

/-- How many entries of a list name a slot (R89). -/
def namingCount (entries : List Entry) (i : Fin 8) : Nat := entries.countP fun e => decide (e.boundSlot = some i)

/-! ## What the storage cells hold -/

/-- A sector holds a whole table of a kind: the marker present, the kind's code and content length, and the header page and
every content page read without a verify failure (R141, R182). -/
def Store.holdsTable (st : Store) (n : Fin 64) (kind : SectorKind) : Prop :=
  st.byte n 254 = 0xA5 ∧ st.byte n 255 = 0x3C ∧ st.byte n 2 = kind.code ∧ (st.byte n 3).toNat = kind.pages ∧
    ∀ k ≤ kind.pages, sectorPage n k ∉ st.mismatched

/-- Every byte of a sector is erased (R138, R141). -/
def Store.erased (st : Store) (n : Fin 64) : Prop := ∀ k < 32768, st.byte n k = 0xFF

/-- The tests of R42 on the items of a calibration set, one by one. -/
def CalibrationSet.passes (c : CalibrationSet) : Prop :=
  2 ≤ c.locus.length ∧ c.locus.length ≤ 32 ∧
    (∀ i < c.locus.length, 50 ≤ (c.entry i).mired ∧ (c.entry i).mired ≤ 650 ∧ 256 ≤ (c.entry i).rg ∧ 256 ≤ (c.entry i).bg) ∧
    (∀ i j, i < j → j < c.locus.length → (c.entry i).mired < (c.entry j).mired) ∧
    50 ≤ c.warmMired ∧ c.warmMired ≤ 650 ∧ 50 ≤ c.coolMired ∧ c.coolMired ≤ 650 ∧ c.coolMired < c.warmMired

/-- A sector is the default tone sector of the calibration set in use, and the directory shows it VALID and of kind TONE
(R136). -/
def State.fillsT0 (s : State) (n : Fin 64) : Prop :=
  s.cu.calibration.bind CalibrationSet.defaultToneSector = some n ∧
    ∃ info, s.sectorEntry n = .valid info ∧ info.kind = .tone

/-! ## Byte memories -/

/-- Every byte memory has its canonical form, and the pages that fail their check are listed rising. -/
def State.memoriesCanonical (s : State) : Prop :=
  Memory.wf storeFill s.store.bytes ∧ s.store.mismatched.Pairwise (· < ·) ∧ ∀ i, Memory.wf slotFill (s.slot i).content

/-! ## Start-up -/

/-- In STARTING every block but the store, the ports and the outputs still stands at its reset values, and the reset line
is asserted in no other frame state (R2, R59, R65, R102, R121, R123, R142, R164, R174). -/
def State.startingLaw (s : State) : Prop :=
  (s.resetLine = true → s.pe.frameState = .starting) ∧
    (s.pe.frameState = .starting →
      s.pe = { PixelEngine.reset with programmeOut := s.pe.programmeOut, monitorOut := s.pe.monitorOut } ∧
      s.zsa = ZoneAccumulator.reset ∧ s.it = Tracker.reset ∧ s.cu = ContextUnit.reset ∧ s.ca = Arbiter.reset ∧
      s.slots = Tab.replicate 8 Slot.reset ∧ s.controller = Controller.reset ∧ s.recallEngine = RecallEngine.reset ∧
      s.rr = { RecordRing.reset with fill := s.rr.fill }) ∧
    (s.pe.frameState ≠ .starting → s.cu.calibration.isSome = true ∧ s.directory.isSome = true)

/-! ## The arbiter and the queue -/

/-- A port's outcome is OPEN exactly while it owns the group, the inactivity timer runs exactly while a group is open, and
the grant order is an ordering of the three requesters (R105). -/
def State.arbiterLaw (s : State) : Prop :=
  (∀ p : Port, s.ca.owner = some p ↔ s.ca.outcome p = .opened) ∧
    (s.ca.inactivityTimer.isSome = s.ca.owner.isSome) ∧
    s.ca.grantOrder.Perm [.portS, .tracker, .portC]

/-- The queue holds at most 32 entries. The entries from the first OPEN_GROUP on are the open group's, all OPEN_GROUP and all
of its owner. In NO_INPUT no other entry waits (R86, R90, R92 to R94). -/
def State.queueLaw (s : State) : Prop :=
  s.cu.queue.length ≤ queueCapacity ∧
    (∀ e ∈ waitingEntries s.cu.queue, e.mark = .openGroup ∧ s.ca.owner.map portRequester = some e.source) ∧
    (s.pe.frameState = .noInput → dueEntries s.cu.queue = [])

/-! ## Values in their ranges -/

/-- Whether a value is one that its field can hold: in the range of a numeric field, or naming a slot or NONE for a
binding field (R84, R87, R88). -/
def Field.holds (cal : Option CalibrationSet) (x : Field) (v : Int) : Prop :=
  if x.isBinding then x.namesSlot v = true else (x.range cal).1 ≤ v ∧ v ≤ (x.range cal).2

/-- The fields whose defaults lie in their ranges at every moment: all but MIRED, whose range the calibration gives. -/
def allFields : List Field :=
  [.blackR, .blackG, .blackB, .highlight, .mired, .tint, .exposure, .trim11, .trim12, .trim13, .trim21, .trim22, .trim23,
   .trim31, .trim32, .trim33, .trackerMode, .glideRate, .deadBand, .minVotes, .acceptRadius, .bias, .darkFloor,
   .programmeTone, .monitorTone, .monitorLattice]

/-- Every waiting entry and every field holds a value of its range, and the calibration set in use passes the tests of R42
with its default mired between its first and last (R40, R44, R84, R88). -/
def State.rangeLaw (s : State) : Prop :=
  (∀ e ∈ s.cu.queue, e.field.holds s.cu.calibration e.value) ∧
    (∀ x ∈ allFields, x.holds s.cu.calibration (s.cu.fields.get x)) ∧
    (∀ c, s.cu.calibration = some c →
      c.acceptable = true ∧ c.firstMired ≤ c.defaultMired ∧ c.defaultMired ≤ c.lastMired)

/-- Between commands the derived values are those of the calibration set in use and the fields, and the frame context is
formed from them and the fields; both stand at their reset values in STARTING (R46, R47, R100, R104). -/
def State.derivedLaw (s : State) : Prop :=
  s.pe.frameState ≠ .starting →
    (∀ c, s.cu.calibration = some c → s.cu.derived = derive c s.cu.fields) ∧
      s.pe.context = formContext s.cu.fields s.cu.derived

/-! ## Slots -/

/-- Every value of a slot lies in 0..4,095 (R123, R129, R134, R136). -/
def finishedContent (i : Fin 8) (content : Memory) : Prop := ∀ k < slotValueCount i, slotValue content k ≤ 4095

/-- The slot that the recall in flight fills, with the state it had before (R134, R142). -/
def RecallEngine.target (r : RecallEngine) : Option (Fin 8 × SlotState) :=
  match r.state, r.slot with
  | .recalling prior, some i => some (i, prior)
  | _, _ => none

/-- The slot that the save in progress reads (R135). -/
def Controller.savingSlot (c : Controller) : Option (Fin 8) :=
  match c.state with
  | .programming j => some j.slot
  | _ => none

/-- A slot's marks agree with who uses it, and a slot in use is READY (R89, R99, R125, R134, R135). -/
def State.slotLaw (s : State) : Prop :=
  ∀ i : Fin 8,
    (s.slot i).references = namingCount s.cu.queue i ∧
    ((s.slot i).bound = true ↔ s.pe.frameState ≠ .starting ∧ s.cu.fields.binds i = true) ∧
    ((s.slot i).saving = true ↔ s.controller.savingSlot = some i) ∧
    ((s.slot i).state = .loading ↔ ∃ prior, s.recallEngine.target = some (i, prior)) ∧
    ((s.slot i).inUse = true → (s.slot i).state = .ready)

/-- Every value in a READY slot lies in 0..4,095, also in one that was READY before a recall in flight; the state before a
recall was EMPTY or READY (R134, and the closing paragraph of section 7.5). -/
def State.contentLaw (s : State) : Prop :=
  (∀ i, (s.slot i).state = .ready → finishedContent i (s.slot i).content) ∧
    ∀ i prior, s.recallEngine.target = some (i, prior) →
      prior = .empty ∨ (prior = .ready ∧ finishedContent i (s.slot i).content)

/-! ## The store -/

/-- The controller is IDLE exactly when no sector is PROGRAMMING, ERASING or ERASE_SUSPENDED, and otherwise the one such
sector is its own; a recall in flight shares no bank with a running erase or save, and an erase is suspended only for one in
its bank; the name of a save in progress is 16 bytes (R140, R142, R143, R145, R146, R178). -/
def State.storeLaw (s : State) : Prop :=
  (∀ n : Fin 64, s.sectorEntry n = .programming ↔ (∃ j, s.controller.state = .programming j) ∧ s.controller.sector = some n) ∧
    (∀ n : Fin 64, s.sectorEntry n = .erasing ↔ s.controller.state = .erasing ∧ s.controller.sector = some n) ∧
    (∀ n : Fin 64, s.sectorEntry n = .eraseSuspended ↔
      (∃ b, s.controller.state = .eraseSuspended b) ∧ s.controller.sector = some n) ∧
    (s.controller.state ≠ .idle → s.controller.sector.isSome = true) ∧
    (∀ j, s.controller.state = .programming j → j.name.length = 16) ∧
    (s.recallEngine.state ≠ .idle → s.recallEngine.slot.isSome = true ∧ s.recallEngine.sector.isSome = true) ∧
    (∀ n, s.controller.sector = some n →
      ((∃ j, s.controller.state = .programming j) ∨ s.controller.state = .erasing → readsBank s n = false) ∧
      ((∃ b, s.controller.state = .eraseSuspended b) → readsBank s n = true))

/-! ## Records -/

/-- The number of the last frame that is over (R9). -/
def PixelEngine.lastFrameOver (pe : PixelEngine) : Word :=
  if pe.frameState = .inFrame then pe.frameNumber - 1 else pe.frameNumber

/-- The open record is present exactly in IN_FRAME and is of the current frame; the ring holds at most 64 records, their
frame numbers consecutive up to the last frame that is over; fill and a transfer exclude one another, and neither outlasts
its selection; a transfer is of a record read, and its last byte is not yet shifted out; in COMMAND mode nothing is read before
the first byte (R154, R159, R160, R161, R162, R166). -/
def State.recordLaw (s : State) : Prop :=
  (s.rr.openRecord.isSome = true ↔ s.pe.frameState = .inFrame) ∧
    (∀ o, s.rr.openRecord = some o → o.frameNumber = s.pe.frameNumber) ∧
    s.rr.ring.length ≤ ringCapacity ∧
    (∀ k, ∀ r, s.rr.ring.reverse[k]? = some r → r.opening.frameNumber = s.pe.lastFrameOver - BitVec.ofNat 32 k) ∧
    (s.rr.fill = true → s.rr.readBuffer = none) ∧
    (s.rr.fill = true ∨ s.rr.readBuffer.isSome = true → s.portR.selection ≠ .idle) ∧
    (s.rr.readBuffer.isSome = true → s.portR.reading = some Reading.records) ∧
    (∀ b, s.rr.readBuffer = some b → b.position < b.record.length) ∧
    (s.rr.mode = .command → s.portR.firstByteTaken = false → s.portR.reading = none ∧ s.rr.fill = false)

/-- The zone accumulator gathers only in IN_FRAME, for the current frame, and is IDLE otherwise; the timer runs exactly in
BETWEEN_FRAMES and IN_FRAME (R8, R59, R61). -/
def State.frameLaw (s : State) : Prop :=
  (s.zsa.state ≠ .idle ↔ s.pe.frameState = .inFrame) ∧
    (s.zsa.state = .gathering → s.pe.geometryValid = true) ∧
    (s.zsa.state ≠ .idle → s.zsa.frameNumber = s.pe.frameNumber ∧ s.zsa.width = s.pe.width ∧ s.zsa.height = s.pe.height) ∧
    (s.pe.inputLostTimer.isSome = true ↔ s.pe.frameState = .betweenFrames ∨ s.pe.frameState = .inFrame) ∧
    (s.cu.appliedChanges.length ≤ 32)

/-- The tracker's mode is the field's; a submission waits only in AUTO-made evaluations, with the summary it belongs to (R65,
R75, R79). -/
def State.trackerLaw (s : State) : Prop :=
  s.it.mode = s.cu.fields.trackerMode ∧ (s.it.waiting.isSome = true → ∃ x, s.it.summary = some x ∧ x.action = none) ∧
    (∀ x, s.it.summary = some x → x.action = none → s.it.waiting.isSome = true)

/-- All the laws together. -/
def State.lawful (s : State) : Prop :=
  s.memoriesCanonical ∧ s.startingLaw ∧ s.arbiterLaw ∧ s.queueLaw ∧ s.rangeLaw ∧ s.derivedLaw ∧ s.slotLaw ∧ s.contentLaw ∧
    s.storeLaw ∧ s.recordLaw ∧ s.frameLaw ∧ s.trackerLaw

end Sys2Proof.Machine
end

