-- ==== Sys2Proof/WellFormed.lean ====
section
/-! DEFINITION. Which commands the outside can send: the checks that the argument types do not make. A command that
fails its check is still given a meaning (R167 discards such a frame); well-formedness says it does not arise. -/

namespace Sys2Proof

/-- The number of pages of the look store: 64 sectors of 128 pages (R138). -/
def storePageCount : Nat := 8192

/-- Every page named lies in the store. -/
def pagesExist (decayed : List Nat) : Bool := decayed.all (· < storePageCount)

/-- A verify failure is met at an act, and acts are counted from 1 (R147, R149). -/
def actExists : Option Nat → Bool
  | none => true
  | some act => decide (1 ≤ act)

/-- The check of one command. -/
def Instr.wellFormed : Instr → Bool
  | .resetRelease decayed => pagesExist decayed
  | .startUpCompletion decayed => pagesExist decayed
  | .recallCompletion decayed => pagesExist decayed
  | .saveCompletion failedAct => actExists failedAct
  | .eraseCompletion failedAct => actExists failedAct
  | .slotWrite _ _ _ _ data => !data.isEmpty
  | .save _ _ _ name _ => name.length == 16
  | .framing p received part => decide (part.length < 8) && decide (judgeFrame p received part = .framing)
  | .unknown p received => decide (judgeFrame p received [] = .unknown)
  | .portRUnknownByte code => !portRCommandCodes.contains code
  | .resetAssert _ | .frameStart _ _ | .pixel _ _ _ | .frameEnd | .inputLost _ | .evaluationCompletion
  | .trackerSubmission | .groupExpiry _ | .readStatus _ | .readField _ _ | .readDerived _ | .readTracker _
  | .readZones _ | .edit _ _ _ _ | .editClose _ _ _ _ | .groupOpen _ _ | .groupClose _ _ | .groupAbandon _ _
  | .slotOpen _ _ | .slotFinish _ _ | .slotDiscard _ _ | .slotRead _ _ _ | .slotInfo _ _ | .writeEnable _
  | .writeDisable _ | .recall _ _ _ | .erase _ _ _ | .readSector _ _ | .supplyLowAssert _
  | .supplyLowDeassert | .calibrationProtectChange _ | .portRReadStatus | .readRecords _ | .readRecordsStream _
  | .streamSelection | .streamExit | .recordTransferEnd _ | .transferCutOff _ | .selectionEnd _ _ => true

end Sys2Proof
end

