-- ==== Sys2Proof/Certificates/Slice0/Obligations.lean ====
section
/-! DEFINITION. The statements for the provers. Each follows the rules of spec/ that its entry of OBLIGATIONS.json cites. -/

open Sys2Proof Sys2Proof.Machine

/-! ## The queue of commands and the passing of time -/

/-- A step takes the command at the front of the queue and runs it on the queue's rest. -/
def Obligations.StepRunsFrontCommand : Prop :=
  ∀ (c : Instr) (rest : List Instr) (s : State),
    step { s with pending := c :: rest } = exec c { s with pending := rest }

/-- With no command waiting a millisecond passes (the model's choice, assumption log 4): a running inactivity timer advances
or at 200 expires, and a running input-lost timer advances or at 500 expires. Where both run the inactivity timer comes first,
in each of the four cases. -/
def Obligations.EmptyQueuePassesTime : Prop :=
  ∀ s : State, s.pending = [] →
    (s.resetLine = true → step s = .next s) ∧
    (s.resetLine = false → s.ca.inactivityTimer = none → s.pe.inputLostTimer = none → step s = .next s) ∧
    (∀ j, s.resetLine = false → s.ca.inactivityTimer = some j → s.pe.inputLostTimer = none →
      step s = if j + 1 < 200 then .next { s with ca := { s.ca with inactivityTimer := some (j + 1) } }
        else exec (.groupExpiry 1) s) ∧
    (∀ k, s.resetLine = false → s.frameLaw → s.ca.inactivityTimer = none → s.pe.inputLostTimer = some k →
      step s = if k + 1 < 500 then .next { s with pe := { s.pe with inputLostTimer := some (k + 1) } }
        else exec (.inputLost 1) s) ∧
    (∀ j k, s.resetLine = false → s.frameLaw → s.ca.inactivityTimer = some j → s.pe.inputLostTimer = some k →
      (j + 1 < 200 →
        let u : State := { s with ca := { s.ca with inactivityTimer := some (j + 1) } }
        step s = if k + 1 < 500 then .next { u with pe := { u.pe with inputLostTimer := some (k + 1) } }
          else exec (.inputLost 1) u) ∧
      (200 ≤ j + 1 → ∃ u, exec (.groupExpiry 1) s = .next u ∧ u.pe = s.pe ∧
        step s = if k + 1 < 500 then .next { u with pe := { u.pe with inputLostTimer := some (k + 1) } }
          else exec (.inputLost 1) u))

/-! ## Reset and start-up -/

/-- The values the tables of the manual give for reset. -/
def Obligations.ResetValues : Prop :=
  let s := State.reset
  (s.pe.frameState = .starting ∧ s.pe.frameNumber = 0 ∧ s.pe.width = 0 ∧ s.pe.height = 0 ∧ s.pe.geometryValid = false ∧
    s.pe.pixelIndex = 0 ∧ s.pe.clippedCount = 0 ∧ s.pe.gainClampCount = 0 ∧ s.pe.matrixClampCount = 0 ∧
    s.pe.inputLostTimer = none) ∧
  s.pe.context =
    { blackR := 256, blackG := 256, blackB := 256, highlight := 65535, gainR := 4096, gainG := 4096, gainB := 4096,
      matrix := ⟨4096, 0, 0, 0, 4096, 0, 0, 0, 4096⟩, programmeTone := 0, monitorTone := 0, monitorLattice := none } ∧
  (s.zsa.state = .idle ∧ s.zsa.frameNumber = 0 ∧ s.zsa.width = 0 ∧ s.zsa.height = 0 ∧ s.zsa.darkFloor = 512 ∧
    ∀ z, s.zsa.zones.get z = ⟨0, 0, 0, 0, 0⟩) ∧
  (s.it.mode = .auto ∧ s.it.substate = .settled ∧ s.it.target = 0 ∧ s.it.evaluation = none ∧ s.it.summary = none ∧
    s.it.zoneResults = none) ∧
  (s.cu.calibration = none ∧ s.cu.calFallback = false ∧ s.cu.queue = [] ∧ s.cu.appliedChanges = []) ∧
  s.cu.derived =
    { applied := 0, interval := 0, ratioRg := 4096, ratioBg := 4096, gainR := 4096, gainG := 4096, gainB := 4096, weight := 0,
      interpolated := ⟨4096, 0, 0, 0, 4096, 0, 0, 0, 4096⟩, effective := ⟨4096, 0, 0, 0, 4096, 0, 0, 0, 4096⟩,
      trimSaturated := false, exposureSaturated := false } ∧
  s.cu.fields =
    { blackR := 256, blackG := 256, blackB := 256, highlight := 65535, mired := 0, tint := 0, exposure := 0,
      trim := ⟨4096, 0, 0, 0, 4096, 0, 0, 0, 4096⟩, trackerMode := .auto, glideRate := 4, deadBand := 5, minVotes := 12,
      acceptRadius := 410, bias := 0, darkFloor := 512, programmeTone := 0, monitorTone := 0, monitorLattice := none } ∧
  (s.ca.owner = none ∧ s.ca.inactivityTimer = none ∧ s.ca.outcomeC = .noGroup ∧ s.ca.outcomeS = .noGroup ∧
    s.ca.grantOrder = [.portS, .tracker, .portC] ∧ s.ca.expiryNote = false) ∧
  (∀ i, (s.slot i).state = .empty ∧ (s.slot i).generation = 0 ∧ (s.slot i).origin = .noOrigin ∧ (s.slot i).bound = false ∧
    (s.slot i).references = 0 ∧ (s.slot i).saving = false ∧ ∀ k, slotValue (s.slot i).content k = 0) ∧
  (s.directory = none ∧ s.controller = { state := .idle, sector := none, outcome := none } ∧
    s.recallEngine = { state := .idle, slot := none, sector := none, outcome := none }) ∧
  (s.rr.openRecord = none ∧ s.rr.ring = [] ∧ s.rr.readBuffer = none ∧ s.rr.mode = .command ∧ s.rr.fill = false) ∧
  (∀ p, (s.port p).selection = .idle ∧ (s.port p).reading = none ∧ (s.port p).lastResult = .done ∧
    (s.port p).writeEnable = false) ∧
  s.portR.selection = .idle ∧ s.portR.reading = none

/-- An assertion of the reset line, in any state: every block and port at its reset values. The store keeps every byte but
those of the sector whose save or erase it ends. -/
def Obligations.ResetAssertResets : Prop :=
  ∀ (acts : Nat) (s : State), ∃ t, exec (.resetAssert acts) s = .next t ∧
    t.resetLine = true ∧ t.pe = State.reset.pe ∧ t.zsa = State.reset.zsa ∧ t.it = State.reset.it ∧ t.cu = State.reset.cu ∧
    t.ca = State.reset.ca ∧ t.slots = State.reset.slots ∧ t.directory = none ∧ t.controller = State.reset.controller ∧
    t.recallEngine = State.reset.recallEngine ∧ t.rr = State.reset.rr ∧ (∀ p, t.port p = State.reset.port p) ∧
    t.portR = State.reset.portR ∧ (s.controller.state = .idle → t.store = s.store) ∧
    (s.storeLaw → ∀ n k, k < 32768 → s.controller.sector ≠ some n → t.store.byte n k = s.store.byte n k) ∧
    s.agrees t .guardLines ∧ s.agrees t .freeIndex

/-- The release of the reset line, or the first event after power-on: the scan sets every directory entry by the first row of
the table of R141 that applies. Once it is made, a further release changes nothing (assumption logs 10, 13). -/
def Obligations.ResetReleaseScans : Prop :=
  ∀ (decayed : List Nat) (s : State), Memory.wf storeFill s.store.bytes →
    ((s.resetLine = true ∨ s.directory = none) →
      ∃ t, exec (.resetRelease decayed) s = .next t ∧ t.resetLine = false ∧ t.store.bytes = s.store.bytes ∧
        (∀ page, page ∈ t.store.mismatched ↔ page ∈ s.store.mismatched ∨ page ∈ decayed) ∧
        (∀ n kind, t.store.holdsTable n kind →
          ∃ info, t.sectorEntry n = .valid info ∧ info.kind = kind ∧ info.contentLength = kind.pages ∧
            info.name = (List.range 16).map (fun k => t.store.byte n (4 + k)) ∧
            (kind ≠ .calibration → info.calibrationId = none) ∧
            (kind = .calibration → info.calibrationId.map BitVec.toNat =
              some (bytesNat ((List.range 4).map fun k => t.store.byte n (20 + k))))) ∧
        (∀ n, (∀ kind, ¬ t.store.holdsTable n kind) → t.store.erased n → t.sectorEntry n = .blank) ∧
        (∀ n, (∀ kind, ¬ t.store.holdsTable n kind) → ¬ t.store.erased n → t.sectorEntry n = .torn) ∧
        s.unchangedBut t [.resetLine, .store, .directory]) ∧
    (s.resetLine = false → s.directory.isSome = true → exec (.resetRelease decayed) s = .next s)

/-- Start-up completion: the engine adopts the frame context formed by the start-up derivation from the default fields and
enters NO_INPUT, its timer stopped and its frame number kept. Outside STARTING, or with the reset line asserted, it is no
event (assumption log 10). -/
def Obligations.StartUpCompletes : Prop :=
  ∀ (decayed : List Nat) (s : State),
    (s.resetLine = false → s.pe.frameState = .starting →
      ∃ t c, exec (.startUpCompletion decayed) s = .next t ∧ t.pe.frameState = .noInput ∧ t.pe.inputLostTimer = none ∧
        t.pe.frameNumber = s.pe.frameNumber ∧ t.cu.calibration = some c ∧
        c.firstMired ≤ c.defaultMired ∧ c.defaultMired ≤ c.lastMired ∧
        t.cu.fields = Fields.default (16 * c.defaultMired) ∧ t.cu.derived = derive c t.cu.fields ∧
        t.pe.context = formContext t.cu.fields t.cu.derived ∧ t.it = { s.it with target := 16 * c.defaultMired } ∧
        t.directory.isSome = true ∧
        s.unchangedBut t
          [.engine, .frameContext, .tracker, .calibration, .derived, .fields, .slots, .store, .directory] ∧
        t.store.bytes = s.store.bytes) ∧
    ((s.resetLine = true ∨ s.pe.frameState ≠ .starting) → exec (.startUpCompletion decayed) s = .next s)

/-- The calibration load: the set that the content page of sector 0 spells in the layout of R182, when the directory entry is
VALID and of kind CALIBRATION, the page is read without a verify failure and the set passes every test of R42; else the
fallback calibration, with CAL_FALLBACK set. -/
def Obligations.CalibrationLoaded : Prop :=
  ∀ (decayed : List Nat) (s : State) (d : Tab SectorEntry 64),
    s.resetLine = false → s.pe.frameState = .starting → s.directory = some d →
    ∃ t, exec (.startUpCompletion decayed) s = .next t ∧
      let at_ (position : Nat) : Nat := (s.store.byte 0 (256 + position)).toNat
      let unsigned (position : Nat) : Nat := 256 * at_ position + at_ (position + 1)
      let signed (position : Nat) : Int :=
        if unsigned position < 32768 then (unsigned position : Int) else (unsigned position : Int) - 65536
      let matrix (position : Nat) : Mat3 :=
        ⟨signed position, signed (position + 2), signed (position + 4), signed (position + 6), signed (position + 8),
          signed (position + 10), signed (position + 12), signed (position + 14), signed (position + 16)⟩
      let page : CalibrationSet :=
        { id := BitVec.ofNat 32 (65536 * unsigned 0 + unsigned 2), warmMired := unsigned 4, coolMired := unsigned 6,
          warmMatrix := matrix 8, coolMatrix := matrix 26,
          locus := (List.range (at_ 44)).map fun e => ⟨unsigned (48 + 6 * e), unsigned (50 + 6 * e), unsigned (52 + 6 * e)⟩,
          defaultMired := unsigned 45, defaultToneSector := if h : at_ 47 < 64 then some ⟨at_ 47, h⟩ else none }
      let loads := (∃ info, d.get 0 = .valid info ∧ info.kind = .calibration) ∧
        sectorPage 0 1 ∉ s.store.mismatched ∧ sectorPage 0 1 ∉ decayed ∧ page.passes
      (loads → t.cu.calFallback = false ∧
        t.cu.calibration = some { page with defaultMired := clampNat page.firstMired page.lastMired page.defaultMired }) ∧
      (¬ loads → t.cu.calFallback = true ∧
        t.cu.calibration = some
          { id := 0, warmMired := 350, coolMired := 150, warmMatrix := Mat3.identity, coolMatrix := Mat3.identity,
            locus := [⟨150, 4096, 4096⟩, ⟨350, 4096, 4096⟩], defaultMired := 154, defaultToneSector := none })

/-- The slots and the directory at start-up completion: L0 with the identity lattice; T0 with the default tone sector's table,
values above 4,095 taken as 4,095, or with the ramp; both READY with generation 1; T0 bound; the other slots as after reset. The
directory is the scan's, but that sector 0 and the default tone sector of kind TONE are TORN where one of their content pages does
not read back. That every content page of a sector 0 of another kind is read is the model's choice (assumption log 25), and so are
the pages that the row names (assumption log 7) and the scan made here where none has been (assumption log 13). -/
def Obligations.StartUpFillsSlots : Prop :=
  ∀ (decayed : List Nat) (s : State), s.resetLine = false → s.pe.frameState = .starting → s.startingLaw →
    let found := s.directory.getD s.store.scan
    let fails (n : Fin 64) (page : Nat) : Prop := sectorPage n page ∈ s.store.mismatched ∨ sectorPage n page ∈ decayed
    let unread (n : Fin 64) : Prop := ∃ info page, found.get n = .valid info ∧ 1 ≤ page ∧
      page ≤ (match info.kind with | .lattice => 116 | .tone => 7 | .calibration => 1) ∧ fails n page
    ∃ t, exec (.startUpCompletion decayed) s = .next t ∧
      let isDefaultTone (n : Fin 64) : Prop := t.cu.calibration.bind CalibrationSet.defaultToneSector = some n ∧
        ∃ info, found.get n = .valid info ∧ info.kind = .tone
      let fills (n : Fin 64) : Prop := isDefaultTone n ∧ ∀ page, 1 ≤ page → page ≤ 7 → ¬ fails n page
      ((t.slot 0).state = .ready ∧ (t.slot 0).origin = .builtIn ∧ (t.slot 0).generation = 1 ∧ (t.slot 0).bound = false ∧
        ∀ a b c, a ≤ 16 → b ≤ 16 → c ≤ 16 →
          nodeValue (t.slot 0).content a b c 0 = min 4095 (256 * a) ∧
          nodeValue (t.slot 0).content a b c 1 = min 4095 (256 * b) ∧
          nodeValue (t.slot 0).content a b c 2 = min 4095 (256 * c)) ∧
      ((t.slot 4).state = .ready ∧ (t.slot 4).generation = 1 ∧ (t.slot 4).bound = true) ∧
      ((∀ n, fills n → (t.slot 4).origin = .sector n ∧
          (∀ page, 1 ≤ page → page ≤ 7 → sectorPage n page ∉ t.store.mismatched) ∧
          ∀ k ≤ 832, slotValue (t.slot 4).content k =
            min 4095 (256 * (s.store.byte n (256 + 2 * k)).toNat + (s.store.byte n (257 + 2 * k)).toNat)) ∧
        ((∀ n, ¬ fills n) → (t.slot 4).origin = .builtIn ∧
          ∀ k ≤ 832, slotValue (t.slot 4).content k = (8190 * k + 832) / 1664)) ∧
      (∀ i, i ≠ 0 → i ≠ 4 → t.slot i = Slot.reset) ∧
      (∀ i, (t.slot i).references = 0 ∧ (t.slot i).saving = false) ∧
      ∀ n, (n = 0 ∨ isDefaultTone n → unread n → t.sectorEntry n = .torn) ∧
        (¬ ((n = 0 ∨ isDefaultTone n) ∧ unread n) → t.sectorEntry n = found.get n) ∧ (t.fillsT0 n ↔ fills n)

/-! ## Frames -/

/-- A frame start taken outside STARTING: the frame number advances, the geometry is stored and judged, the counts and the
pixel index are 0, the timer restarts, both outputs carry the marker, and the zone accumulator takes the frame with
DARK_FLOOR as the pass leaves it. In IN_FRAME the truncation of the frame in progress comes first (FrameTruncated). -/
def Obligations.FrameStartTaken : Prop :=
  ∀ (w h : Half) (s : State), s.operating → ∃ t, exec (.frameStart w h) s = .next t ∧
    t.pe.frameState = .inFrame ∧ t.pe.frameNumber = s.pe.frameNumber + 1 ∧ t.pe.width = w ∧ t.pe.height = h ∧
    (t.pe.geometryValid = true ↔ 64 ≤ w.toNat ∧ w.toNat ≤ 4096 ∧ 48 ≤ h.toNat ∧ h.toNat ≤ 2304) ∧
    t.pe.pixelIndex = 0 ∧ t.pe.clippedCount = 0 ∧ t.pe.gainClampCount = 0 ∧ t.pe.matrixClampCount = 0 ∧
    t.pe.inputLostTimer = some 0 ∧ t.pe.programmeOut = some (.frameStart w h) ∧ t.pe.monitorOut = some (.frameStart w h) ∧
    t.zsa.state = (if t.pe.geometryValid then .gathering else .notGathering) ∧ t.zsa.frameNumber = t.pe.frameNumber ∧
    t.zsa.width = w ∧ t.zsa.height = h ∧ t.zsa.darkFloor = t.cu.fields.darkFloor ∧
    (∀ z, t.zsa.zones.get z = ⟨0, 0, 0, 0, 0⟩) ∧
    t.ca.owner = s.ca.owner ∧ t.ca.outcomeC = s.ca.outcomeC ∧ t.ca.outcomeS = s.ca.outcomeS ∧
    s.unchangedBut t
      [.engine, .counts, .frameContext, .outputs, .zones, .tracker, .derived, .fields, .queue, .appliedChanges, .group, .slots,
       .records]

/-- The passes at a frame start and at input loss: the due entries applied whole, the frame context adopted, the entries'
references released. -/
def Obligations.PassMade : Prop :=
  ∀ s : State,
    (∀ w h, s.operating → ∃ t, exec (.frameStart w h) s = .next t ∧ s.passMade .frameStart s.cu.queue t ∧
      t.cu.appliedChanges = [] ∧
      ∀ i, (t.slot i).references =
        (s.slot i).references - namingCount (s.cu.queue.takeWhile fun e => decide (e.mark ≠ .openGroup)) i) ∧
    (∀ k ms, s.resetLine = false → s.pe.frameState = .betweenFrames ∨ s.pe.frameState = .inFrame →
      s.pe.inputLostTimer = some k → 500 ≤ k + ms → ∃ t, exec (.inputLost ms) s = .next t ∧ s.passMade .noInput s.cu.queue t ∧
        t.cu.appliedChanges =
          ((s.cu.queue.takeWhile fun e => decide (e.mark ≠ .openGroup)).foldl (applyEntry .noInput) (Pass.begin s.cu)).items ∧
        ∀ i, (t.slot i).references =
          (s.slot i).references - namingCount (s.cu.queue.takeWhile fun e => decide (e.mark ≠ .openGroup)) i)

/-- One entry at its turn in a pass. A numeric, mode or binding entry sets its field alone; a port's MIRED entry also sets
TRACKER_MODE to MANUAL; a tracker's MIRED entry is discarded in NO_INPUT and in a mode other than AUTO. The applied-change
list takes one item and keeps the 32 most recent. Each mark of the pass is set by the entries that R47, R76 and R80 name, and by
no other. -/
def Obligations.EntryApplied : Prop :=
  ∀ (kind : PassKind) (cal : Option CalibrationSet) (w : Pass) (e : Entry), e.field.holds cal e.value →
    let v := applyEntry kind w e
    let item (o : EntryOutcome) := ∃ dropped, dropped ++ v.items = w.items ++ [⟨e.source, e.field, o⟩] ∧
      v.items.length = min 32 (w.items.length + 1)
    (e.field ≠ .mired → v.fields.get e.field = e.value ∧ (∀ y, y ≠ e.field → v.fields.get y = w.fields.get y) ∧
      item .applied ∧ v.derives = (w.derives || e.field.isDerivation) ∧
      v.autoApplied = (w.autoApplied || decide (e.field = .trackerMode ∧ e.value = 0)) ∧
      v.trackerMired = w.trackerMired ∧ v.portMired = w.portMired) ∧
    (e.field = .mired → e.source ≠ .tracker → v.fields.get .mired = e.value ∧ v.fields.trackerMode = .manual ∧
      (∀ y, y ≠ .mired → y ≠ .trackerMode → v.fields.get y = w.fields.get y) ∧ item .applied ∧ v.derives = true ∧
      v.portMired = true ∧ v.trackerMired = w.trackerMired ∧ v.autoApplied = w.autoApplied) ∧
    (e.field = .mired → e.source = .tracker → kind = .noInput ∨ w.fields.trackerMode ≠ .auto →
      v.fields = w.fields ∧ item .discarded ∧ v.derives = w.derives ∧ v.trackerMired = w.trackerMired ∧
      v.portMired = w.portMired ∧ v.autoApplied = w.autoApplied) ∧
    (e.field = .mired → e.source = .tracker → kind = .frameStart → w.fields.trackerMode = .auto →
      v.fields.get .mired = e.value ∧ (∀ y, y ≠ .mired → v.fields.get y = w.fields.get y) ∧ item .applied ∧
      v.derives = true ∧ v.trackerMired = true ∧ v.portMired = w.portMired ∧ v.autoApplied = w.autoApplied)

/-- The record opened at a frame start: the adopted frame context, the fields, the bindings with their generations and
origins, the applied-change list of this pass and the NO_INPUT passes before it, the expiry note, which is then clear. -/
def Obligations.FrameStartOpensRecord : Prop :=
  ∀ (w h : Half) (s : State), s.operating → ∃ t o, exec (.frameStart w h) s = .next t ∧ t.rr.openRecord = some o ∧
    o.frameNumber = t.pe.frameNumber ∧ o.noStats = !t.pe.geometryValid ∧ o.width = w ∧ o.height = h ∧
    o.deriveSat = (t.cu.derived.trimSaturated || t.cu.derived.exposureSaturated) ∧ o.groupExpired = s.ca.expiryNote ∧
    o.calFallback = s.cu.calFallback ∧ (∀ c, s.cu.calibration = some c → o.calibrationId = c.id) ∧
    o.blackR = t.pe.context.blackR ∧ o.blackG = t.pe.context.blackG ∧ o.blackB = t.pe.context.blackB ∧
    o.highlight = t.pe.context.highlight ∧ o.gainR = t.pe.context.gainR ∧ o.gainG = t.pe.context.gainG ∧
    o.gainB = t.pe.context.gainB ∧ o.effective = t.pe.context.matrix ∧ o.mired = t.cu.fields.mired ∧
    o.tint = t.cu.fields.tint ∧ o.exposure = t.cu.fields.exposure ∧ o.trim = t.cu.fields.trim ∧
    o.programmeTone.slot = t.pe.context.programmeTone ∧
    o.programmeTone.generation = (t.slot (toneSlot o.programmeTone.slot)).generation ∧
    o.programmeTone.origin = (t.slot (toneSlot o.programmeTone.slot)).origin ∧
    o.monitorTone.slot = t.pe.context.monitorTone ∧
    o.monitorTone.generation = (t.slot (toneSlot o.monitorTone.slot)).generation ∧
    o.monitorTone.origin = (t.slot (toneSlot o.monitorTone.slot)).origin ∧
    o.monitorLattice.map RecordBinding.slot = t.pe.context.monitorLattice ∧
    (∀ b, o.monitorLattice = some b → b.generation = (t.slot (latticeSlot b.slot)).generation ∧
      b.origin = (t.slot (latticeSlot b.slot)).origin) ∧
    o.appliedChanges =
      ((s.cu.queue.takeWhile fun e => decide (e.mark ≠ .openGroup)).foldl (applyEntry .frameStart) (Pass.begin s.cu)).items ∧
    t.cu.appliedChanges = [] ∧ t.ca.expiryNote = false

/-- A frame start or the expiry of the input-lost timer taken in IN_FRAME completes the open record as TRUNCATED, without a counts
block and with EVAL_SKIPPED clear, from the tracker's standing before the pass; the record joins the ring, which at 64 first
loses its oldest. Taken elsewhere, no record joins. -/
def Obligations.FrameTruncated : Prop :=
  ∀ (s : State) (c : Instr),
    (∃ k ms, c = .inputLost ms ∧ s.pe.inputLostTimer = some k ∧ 500 ≤ k + ms) ∨ (∃ w h, c = .frameStart w h) →
    s.resetLine = false → s.pe.frameState ≠ .starting →
    ∃ t, exec c s = .next t ∧
      (∀ o, s.pe.frameState = .inFrame → s.rr.openRecord = some o → ∃ r,
        t.rr.ring = (if 64 ≤ s.rr.ring.length then s.rr.ring.drop 1 else s.rr.ring) ++ [r] ∧ r.opening = o ∧
        r.counts = none ∧ r.evalSkipped = false ∧ r.trackerMode = s.it.mode ∧ r.substate = s.it.substate ∧
        r.target = s.it.target ∧ (s.it.summary = none → r.votes = 0 ∧ r.estimate = none) ∧
        ∀ x, s.it.summary = some x → r.votes = x.votes ∧ r.estimate = x.estimate) ∧
      (s.pe.frameState ≠ .inFrame ∨ s.rr.openRecord = none → t.rr.ring = s.rr.ring) ∧
      ((∃ ms, c = .inputLost ms) → s.pe.frameState = .inFrame → t.rr.openRecord = none ∧ t.zsa.state = .idle)

/-- A pixel in IN_FRAME gives one programme pixel and one monitor pixel, advances the index and the counts, and, inside valid
geometry, is gathered in the one zone whose columns and rows hold it. -/
def Obligations.PixelTransformed : Prop :=
  ∀ (vr vg vb : Half) (s : State), s.resetLine = false → s.pe.frameState = .inFrame →
    ∃ t, exec (.pixel vr vg vb) s = .next t ∧
      let f := frontStage s.pe.context vr vg vb
      let content (i : Fin 8) := (s.slot i).content
      let programme := toneOutput (slotValue (content (toneSlot s.pe.context.programmeTone)))
      let monitor := toneOutput (slotValue (content (toneSlot s.pe.context.monitorTone)))
      let code (out : Nat) := min ((out + 2) / 4) 1023
      let c : Rgb := ⟨monitor f.working.r, monitor f.working.g, monitor f.working.b⟩
      let count (due : Bool) (n : Nat) := if due then min (n + 1) 4294967295 else n
      t.pe.programmeOut = some (.pixel (programme f.working.r) (programme f.working.g) (programme f.working.b)) ∧
      (s.pe.context.monitorLattice = none → t.pe.monitorOut = some (.pixel (code c.r) (code c.g) (code c.b))) ∧
      (∀ l, s.pe.context.monitorLattice = some l → t.pe.monitorOut =
        some (.pixel (code (latticeChannel (content (latticeSlot l)) c 0)) (code (latticeChannel (content (latticeSlot l)) c 1))
          (code (latticeChannel (content (latticeSlot l)) c 2)))) ∧
      t.pe.pixelIndex = min (s.pe.pixelIndex + 1) 4294967295 ∧ t.pe.clippedCount = count f.clipped s.pe.clippedCount ∧
      t.pe.gainClampCount = count f.gainClamped s.pe.gainClampCount ∧
      t.pe.matrixClampCount = count f.matrixClamped s.pe.matrixClampCount ∧
      (s.pe.geometryValid = false ∨ s.pe.width.toNat * s.pe.height.toNat ≤ s.pe.pixelIndex ∨ s.zsa.state ≠ .gathering →
        t.zsa = s.zsa) ∧
      (s.pe.geometryValid = true → s.pe.pixelIndex < s.pe.width.toNat * s.pe.height.toNat → s.zsa.state = .gathering →
        s.zsa.width = s.pe.width → s.zsa.height = s.pe.height → 8 ≤ s.pe.width.toNat → 6 ≤ s.pe.height.toNat →
        ∃ (z : Fin 48) (j k : Nat), j < 8 ∧ k < 6 ∧ z.val = 8 * k + j ∧
          j * s.pe.width.toNat / 8 ≤ s.pe.pixelIndex % s.pe.width.toNat ∧
          s.pe.pixelIndex % s.pe.width.toNat < (j + 1) * s.pe.width.toNat / 8 ∧
          k * s.pe.height.toNat / 6 ≤ s.pe.pixelIndex / s.pe.width.toNat ∧
          s.pe.pixelIndex / s.pe.width.toNat < (k + 1) * s.pe.height.toNat / 6 ∧
          t.zsa = { s.zsa with zones := t.zsa.zones } ∧ (∀ y, y ≠ z → t.zsa.zones.get y = s.zsa.zones.get y) ∧
          t.zsa.zones.get z =
            let r := s.zsa.zones.get z
            if f.clipped = false ∧ s.zsa.darkFloor ≤ f.subtracted.g then
              ⟨r.pixelCount + 1, r.qualifying + 1, r.sumR + f.subtracted.r, r.sumG + f.subtracted.g, r.sumB + f.subtracted.b⟩
            else ⟨r.pixelCount + 1, r.qualifying, r.sumR, r.sumG, r.sumB⟩) ∧
      s.unchangedBut t [.counts, .outputs, .zones]

/-- The front stage: a clipped pixel takes HIGHLIGHT in all three working values; any other is black-subtracted, gained and
put through the matrix, each stage rounded and clamped as its rule states, the clamps marked once a pixel. -/
def Obligations.FrontStageArithmetic : Prop :=
  ∀ (c : FrameContext) (vr vg vb : Half),
    let f := frontStage c vr vg vb
    (vr.toNat = 65535 ∨ vg.toNat = 65535 ∨ vb.toNat = 65535 →
      f = { working := ⟨c.highlight, c.highlight, c.highlight⟩, subtracted := ⟨0, 0, 0⟩, clipped := true, gainClamped := false,
            matrixClamped := false }) ∧
    (vr.toNat ≤ 65534 → vg.toNat ≤ 65534 → vb.toNat ≤ 65534 →
      let raised (x g : Nat) := (x * g + 2048) / 4096
      let held (p : Nat) := min p 262143
      let pr := raised f.subtracted.r c.gainR
      let pg := raised f.subtracted.g c.gainG
      let pb := raised f.subtracted.b c.gainB
      let sum (e1 e2 e3 : Int) : Int := e1 * held pr + e2 * held pg + e3 * held pb
      let rounded (x : Int) : Int := if 0 ≤ x then (x + 2048) / 4096 else -((-x + 2048) / 4096)
      let w1 := rounded (sum c.matrix.m11 c.matrix.m12 c.matrix.m13)
      let w2 := rounded (sum c.matrix.m21 c.matrix.m22 c.matrix.m23)
      let w3 := rounded (sum c.matrix.m31 c.matrix.m32 c.matrix.m33)
      f.clipped = false ∧
      (f.subtracted.r : Int) = max ((vr.toNat : Int) - c.blackR) 0 ∧ (f.subtracted.g : Int) = max ((vg.toNat : Int) - c.blackG) 0 ∧
      (f.subtracted.b : Int) = max ((vb.toNat : Int) - c.blackB) 0 ∧
      (f.gainClamped = true ↔ 262143 < pr ∨ 262143 < pg ∨ 262143 < pb) ∧
      (f.working.r : Int) = max 0 (min w1 262143) ∧ (f.working.g : Int) = max 0 (min w2 262143) ∧
      (f.working.b : Int) = max 0 (min w3 262143) ∧
      (f.matrixClamped = true ↔ w1 < 0 ∨ 262143 < w1 ∨ w2 < 0 ∨ 262143 < w2 ∨ w3 < 0 ∨ 262143 < w3))

/-- The tone stage over any table: exact below 128; above, an index and a remainder exist for every working value, and the
output interpolates with the floor toward minus infinity; between two entries of 0..4,095 it stays between them. -/
def Obligations.ToneStageInterpolates : Prop :=
  ∀ (table : Nat → Nat) (v : Nat),
    (v < 128 → toneOutput table v = table v) ∧
    (128 ≤ v → v ≤ 262143 → ∃ k q m r t : Nat,
      2 ^ k ≤ v ∧ v < 2 ^ (k + 1) ∧ 7 ≤ k ∧ k ≤ 17 ∧ q = 2 ^ (k - 6) ∧ m + 64 = v / q ∧ m ≤ 63 ∧ v = (m + 64) * q + r ∧ r < q ∧
      t = 64 + (k - 6) * 64 + m ∧ 128 ≤ t ∧ t ≤ 831 ∧
      (toneOutput table v : Int) =
        max 0 (min ((table t : Int) + (((table (t + 1) : Int) - table t) * r + (q / 2 : Nat)) / q) 4095) ∧
      (table t ≤ 4095 → table (t + 1) ≤ 4095 →
        (toneOutput table v : Int) = (table t : Int) + (((table (t + 1) : Int) - table t) * r + (q / 2 : Nat)) / q ∧
        min (table t) (table (t + 1)) ≤ toneOutput table v ∧ toneOutput table v ≤ max (table t) (table (t + 1)) ∧
        (r = 0 → toneOutput table v = table t)))

/-- The lattice stage: whichever tetrahedron of the table admits the three fractions, its weighted sum gives the output; so a
tie changes nothing. With the built-in identity lattice each code comes back exactly up to 3,968, and one less above. -/
def Obligations.LatticeStageInterpolates : Prop :=
  (∀ c : Rgb, c.r ≤ 4095 → c.g ≤ 4095 → c.b ≤ 4095 →
    let through (v : Nat) := if v ≤ 3968 then v else v - 1
    latticeStage identityLattice c = ⟨through c.r, through c.g, through c.b⟩) ∧
  ∀ (content : Memory) (c : Rgb) (channel : Nat),
    let fr := c.r % 256
    let fg := c.g % 256
    let fb := c.b % 256
    let at_ (x y z : Nat) : Int := nodeValue content (c.r / 256 + x) (c.g / 256 + y) (c.b / 256 + z) channel
    let gives (n1 n2 : Int) (f1 f2 f3 : Nat) : Prop := (latticeChannel content c channel : Int) =
      max 0 (min ((256 * at_ 0 0 0 + f1 * (n1 - at_ 0 0 0) + f2 * (n2 - n1) + f3 * (at_ 1 1 1 - n2) + 128) / 256) 4095)
    (fr ≥ fg → fg ≥ fb → gives (at_ 1 0 0) (at_ 1 1 0) fr fg fb) ∧
    (fr ≥ fb → fb ≥ fg → gives (at_ 1 0 0) (at_ 1 0 1) fr fb fg) ∧
    (fb ≥ fr → fr ≥ fg → gives (at_ 0 0 1) (at_ 1 0 1) fb fr fg) ∧
    (fg ≥ fr → fr ≥ fb → gives (at_ 0 1 0) (at_ 1 1 0) fg fr fb) ∧
    (fg ≥ fb → fb ≥ fr → gives (at_ 0 1 0) (at_ 0 1 1) fg fb fr) ∧
    (fb ≥ fg → fg ≥ fr → gives (at_ 0 0 1) (at_ 0 1 1) fb fg fr)

/-- The monitor conversion. -/
def Obligations.MonitorConversion : Prop :=
  (∀ out, monitorCode out = min ((out + 2) / 4) 1023) ∧ (∀ out, monitorCode out ≤ 1023) ∧
    (∀ out, out ≤ 1 → monitorCode out = 0) ∧ (∀ out, 2 ≤ out → out ≤ 5 → monitorCode out = 1) ∧
    (∀ out, 4090 ≤ out → out ≤ 4093 → monitorCode out = 1023) ∧ (∀ out, out = 4094 ∨ out = 4095 → monitorCode out = 1023)

/-- A frame end in IN_FRAME: BETWEEN_FRAMES, the timer running on; the record completed with the counts block, the tracker's
standing and EVAL_SKIPPED, and joined to the ring; the sums offered, taken by an idle tracker, refused by a busy one. -/
def Obligations.FrameEndTaken : Prop :=
  ∀ s : State, s.resetLine = false → s.pe.frameState = .inFrame → ∃ t, exec .frameEnd s = .next t ∧
    t.pe.frameState = .betweenFrames ∧ t.pe.frameNumber = s.pe.frameNumber ∧ t.pe.inputLostTimer = s.pe.inputLostTimer ∧
    t.pe.width = s.pe.width ∧ t.pe.height = s.pe.height ∧ t.pe.geometryValid = s.pe.geometryValid ∧
    t.pe.programmeOut = some .frameEnd ∧ t.pe.monitorOut = some .frameEnd ∧
    (∀ o, s.rr.openRecord = some o → ∃ r,
      t.rr.ring = (if 64 ≤ s.rr.ring.length then s.rr.ring.drop 1 else s.rr.ring) ++ [r] ∧ t.rr.openRecord = none ∧
      r.opening = o ∧ r.trackerMode = s.it.mode ∧ r.substate = s.it.substate ∧ r.target = s.it.target ∧
      (s.it.summary = none → r.votes = 0 ∧ r.estimate = none) ∧
      (∀ x, s.it.summary = some x → r.votes = x.votes ∧ r.estimate = x.estimate) ∧
      (r.evalSkipped = true ↔ s.zsa.state = .gathering ∧ s.it.evaluation.isSome = true) ∧
      ∃ k, r.counts = some k ∧ k.clipped = s.pe.clippedCount ∧ k.gainClamp = s.pe.gainClampCount ∧
        k.matrixClamp = s.pe.matrixClampCount ∧
        (s.zsa.state = .gathering → k.qualifying = ((List.finRange 48).map fun z => (s.zsa.zones.get z).qualifying).sum) ∧
        (s.zsa.state ≠ .gathering → k.qualifying = 0)) ∧
    (s.rr.openRecord = none → t.rr.openRecord = none ∧ t.rr.ring = s.rr.ring) ∧
    t.zsa.state = .idle ∧
    (s.zsa.state = .gathering → s.it.evaluation = none →
      ∃ e, t.it = { s.it with evaluation := some e } ∧ e.frameNumber = s.zsa.frameNumber ∧ e.zones = s.zsa.zones ∧
        e.darkFloor = s.zsa.darkFloor ∧ e.acceptRadius = s.cu.fields.acceptRadius ∧ e.minVotes = s.cu.fields.minVotes ∧
        e.bias = s.cu.fields.bias) ∧
    (s.zsa.state ≠ .gathering ∨ s.it.evaluation.isSome = true → t.it = s.it) ∧
    s.unchangedBut t [.engine, .outputs, .zones, .tracker, .records]

/-- The input-lost timer, where it runs. At 500 ms it expires: NO_INPUT, the timer stopped, the frame number kept, a frame in
progress ended in the zone accumulator without an offer; an evaluation in flight goes on. Before, only the timer advances; and
after a frame start taken first this expiry does not happen. -/
def Obligations.InputLostTaken : Prop :=
  ∀ (s : State) (k ms : Nat), s.resetLine = false → s.pe.frameState = .betweenFrames ∨ s.pe.frameState = .inFrame →
    s.pe.inputLostTimer = some k →
    (500 ≤ k + ms → ∃ t, exec (.inputLost ms) s = .next t ∧ t.pe.frameState = .noInput ∧ t.pe.inputLostTimer = none ∧
      t.pe.frameNumber = s.pe.frameNumber ∧ t.pe.width = s.pe.width ∧ t.pe.height = s.pe.height ∧
      t.pe.geometryValid = s.pe.geometryValid ∧ (s.pe.frameState = .inFrame → t.zsa.state = .idle ∧ t.rr.openRecord = none) ∧
      (s.pe.frameState = .betweenFrames → t.zsa = s.zsa ∧ t.rr = s.rr) ∧ t.it.evaluation = s.it.evaluation ∧
      t.it.waiting = s.it.waiting ∧ t.it.summary = s.it.summary ∧
      s.unchangedBut t
        [.engine, .frameContext, .zones, .tracker, .derived, .fields, .queue, .appliedChanges, .slots, .records]) ∧
    (k + ms < 500 → exec (.inputLost ms) s = .next { s with pe := { s.pe with inputLostTimer := some (k + ms) } }) ∧
    (∀ w h, ms < 500 → ∃ u, exec (.frameStart w h) s = .next u ∧
      exec (.inputLost ms) u = .next { u with pe := { u.pe with inputLostTimer := some ms } })

/-- Events of the stream that are not acted on: in STARTING or under reset a pixel is given out as code 0 and the markers are
ignored; outside a frame a pixel is discarded and a frame end ignored; a stopped timer does not expire (log 10). Nothing but
the outputs differs. -/
def Obligations.StreamEventsNotActedOn : Prop :=
  ∀ (s : State),
    (∀ c, ((s.resetLine = true ∨ s.pe.frameState ≠ .inFrame) ∧ c = .frameEnd) ∨
        ((s.resetLine = true ∨ s.pe.frameState = .starting) ∧ ∃ w h, c = .frameStart w h) ∨
        (s.resetLine = false ∧ (s.pe.frameState = .noInput ∨ s.pe.frameState = .betweenFrames) ∧
          ∃ r g b, c = .pixel r g b) →
      ∃ t, exec c s = .next t ∧ t.pe.programmeOut = none ∧ t.pe.monitorOut = none ∧ s.unchangedBut t [.outputs]) ∧
    (∀ r g b, s.resetLine = true ∨ s.pe.frameState = .starting → ∃ t, exec (.pixel r g b) s = .next t ∧
      t.pe.programmeOut = some (.pixel 0 0 0) ∧ t.pe.monitorOut = some (.pixel 0 0 0) ∧ s.unchangedBut t [.outputs]) ∧
    (∀ ms, s.resetLine = true ∨ s.pe.frameState = .starting ∨ s.pe.frameState = .noInput ∨ s.pe.inputLostTimer = none →
      exec (.inputLost ms) s = .next s)

/-! ## Derivation -/

/-- Derivation, every step from its inputs. -/
def Obligations.DerivationFollowsFormulas : Prop :=
  ∀ (c : CalibrationSet) (f : Fields), c.passes → 16 * c.firstMired ≤ f.mired → f.mired ≤ 16 * c.lastMired →
    -32 ≤ f.tint → f.tint ≤ 32 → -64 ≤ f.exposure → f.exposure ≤ 64 →
    let d := derive c f
    let i := d.interval
    let away (n : Int) (divisor : Nat) : Int := n.sign * ((n.natAbs + divisor / 2) / divisor : Nat)
    let ratio (low high : Nat) : Int :=
      low + away (((high : Int) - low) * ((f.mired : Int) - 16 * (c.entry i).mired))
        (16 * ((c.entry (i + 1)).mired - (c.entry i).mired))
    let held (x : Int) : Int := max (-32768) (min x 32767)
    let stops := f.exposure / 16
    let mantissa : Int :=
      [4096, 4277, 4467, 4664, 4871, 5087, 5312, 5547, 5793, 6049, 6317, 6597, 6889, 7194, 7512, 7845].getD
        (f.exposure - 16 * stops).toNat 0
    let product (j k : Fin 3) : Int :=
      away (f.trim.coeff j 0 * d.interpolated.coeff 0 k + f.trim.coeff j 1 * d.interpolated.coeff 1 k +
        f.trim.coeff j 2 * d.interpolated.coeff 2 k) 4096
    let folded (j k : Fin 3) : Int :=
      if 0 ≤ stops then away (held (product j k) * mantissa * 2 ^ stops.toNat) 4096
      else away (held (product j k) * mantissa) (4096 * 2 ^ (-stops).toNat)
    d.applied = f.mired ∧
    (i + 2 ≤ c.locus.length ∧ 16 * (c.entry i).mired ≤ f.mired ∧ f.mired ≤ 16 * (c.entry (i + 1)).mired ∧
      ∀ j, j + 2 ≤ c.locus.length → 16 * (c.entry j).mired ≤ f.mired → j ≤ i) ∧
    ((d.ratioRg : Int) = ratio (c.entry i).rg (c.entry (i + 1)).rg ∧
      (d.ratioBg : Int) = ratio (c.entry i).bg (c.entry (i + 1)).bg) ∧
    (d.gainR = min 65535 ((33554432 + d.ratioRg) / (2 * d.ratioRg)) ∧
      d.gainB = min 65535 ((33554432 + d.ratioBg) / (2 * d.ratioBg)) ∧ (d.gainG : Int) = 4096 + 8 * f.tint) ∧
    ((f.mired < 16 * c.coolMired → d.weight = 0) ∧
      (16 * c.coolMired ≤ f.mired → d.weight =
        min 256 ((256 * (f.mired - 16 * c.coolMired) + 8 * (c.warmMired - c.coolMired)) /
          (16 * (c.warmMired - c.coolMired))))) ∧
    (∀ j k, d.interpolated.coeff j k =
      away ((d.weight : Int) * c.warmMatrix.coeff j k + (256 - (d.weight : Int)) * c.coolMatrix.coeff j k) 256) ∧
    (∀ j k, d.effective.coeff j k = held (folded j k)) ∧
    (d.trimSaturated = true ↔ ∃ j k, held (product j k) ≠ product j k) ∧
    (d.exposureSaturated = true ↔ ∃ j k, held (folded j k) ≠ folded j k)

/-! ## The tracker -/

/-- One zone judged: usable or not, its ratios, its nearest locus entry (of equals the lower), and its vote refined with the
neighbour. -/
def Obligations.ZoneJudged : Prop :=
  ∀ (locus : List LocusEntry) (radius : Nat) (z : ZoneRecord), 2 ≤ locus.length →
    let r := judgeZone locus radius z
    let e (j : Nat) : LocusEntry := locus.getD j ⟨0, 0, 0⟩
    let d (j : Nat) : Nat := ((r.ratioR : Int) - (e j).rg).natAbs + ((r.ratioB : Int) - (e j).bg).natAbs
    let vote (n : Nat) : Nat :=
      if d r.nearest + d n = 0 then 16 * (e r.nearest).mired
      else (2 * 16 * (d n * (e r.nearest).mired + d r.nearest * (e n).mired) + (d r.nearest + d n)) /
        (2 * (d r.nearest + d n))
    r.handed = z ∧
    (16 * z.qualifying < z.pixelCount ∨ z.sumG = 0 →
      r.usable = false ∧ r.ratioR = 0 ∧ r.ratioB = 0 ∧ r.nearest = 0 ∧ r.distance = 0 ∧ r.voted = false ∧ r.vote16 = 0) ∧
    (z.pixelCount ≤ 16 * z.qualifying → 0 < z.sumG →
      r.usable = true ∧ r.ratioR = min 65535 ((z.sumR * 4096 + z.sumG / 2) / z.sumG) ∧
      r.ratioB = min 65535 ((z.sumB * 4096 + z.sumG / 2) / z.sumG) ∧ r.nearest < locus.length ∧ r.distance = d r.nearest ∧
      (∀ j < locus.length, d r.nearest ≤ d j ∧ (j < r.nearest → d r.nearest < d j)) ∧
      (r.voted = true ↔ r.distance ≤ radius) ∧ (r.voted = false → r.vote16 = 0) ∧
      (r.voted = true → r.nearest = 0 → r.vote16 = vote 1) ∧
      (r.voted = true → 0 < r.nearest → r.nearest + 1 = locus.length → r.vote16 = vote (r.nearest - 1)) ∧
      (r.voted = true → 0 < r.nearest → r.nearest + 1 < locus.length →
        r.vote16 = if d (r.nearest + 1) < d (r.nearest - 1) then vote (r.nearest + 1) else vote (r.nearest - 1)))

/-- The vote list and its median. -/
def Obligations.VoteListMedian : Prop :=
  ∀ zones : Tab ZoneResult 48,
    let votes := voteList zones.list
    let v := votes.length
    votes.Perm ((zones.list.filter fun z => z.voted).map fun z => z.vote16) ∧ votes.Pairwise (· ≤ ·) ∧ v ≤ 48 ∧
    (v = 0 → medianVote votes = none) ∧
    (v % 2 = 1 → medianVote votes = some (votes.getD ((v + 1) / 2 - 1) 0)) ∧
    (0 < v → v % 2 = 0 → medianVote votes = some ((votes.getD (v / 2 - 1) 0 + votes.getD (v / 2) 0) / 2))

/-- The completion of an evaluation: the zone results and the summary replaced whole, IDLE; the estimate of an unstarved one is
the median plus 16 x BIAS within the MIRED range. A submission still waiting is answered first (assumption log 9), and with no
evaluation in flight nothing completes (log 10). -/
def Obligations.EvaluationCompletes : Prop :=
  ∀ s : State,
    (∀ e c, s.it.evaluation = some e → s.it.waiting = none → s.cu.calibration = some c →
      ∃ t x z, exec .evaluationCompletion s = .next t ∧ t.it.evaluation = none ∧ t.it.mode = s.it.mode ∧
        t.it.zoneResults = some z ∧ z.frameNumber = e.frameNumber ∧ z.darkFloor = e.darkFloor ∧
        (∀ k, z.zones.get k = judgeZone c.locus e.acceptRadius (e.zones.get k)) ∧
        t.it.summary = some x ∧ x.frameNumber = e.frameNumber ∧ x.darkFloor = e.darkFloor ∧ x.acceptRadius = e.acceptRadius ∧
        x.minVotes = e.minVotes ∧ x.bias = e.bias ∧ x.usableZones = z.zones.list.countP (fun r => r.usable) ∧
        x.votes = (voteList z.zones.list).length ∧ x.median = medianVote (voteList z.zones.list) ∧
        (x.starved = true ↔ x.votes < e.minVotes) ∧ (x.starved = true → x.estimate = none) ∧
        (∀ m : Nat, c.firstMired ≤ c.lastMired → x.starved = false → x.median = some m → x.estimate =
          some (max (16 * (c.firstMired : Int)) (min ((m : Int) + 16 * e.bias) (16 * c.lastMired))).toNat) ∧
        s.unchangedBut t [.tracker]) ∧
    (∀ e, s.it.evaluation = some e → ∃ u, exec .trackerSubmission s = .next u ∧
      exec .evaluationCompletion s = exec .evaluationCompletion u) ∧
    (s.it.evaluation = none → exec .evaluationCompletion s = .next s)

/-- What the tracker does with a completed evaluation. In AUTO out of NO_INPUT the target follows an unstarved estimate, and a
step of at most GLIDE_RATE toward it is submitted: from SETTLED beyond 16 x DEAD_BAND, from GLIDING at any distance. In HOLD,
MANUAL or NO_INPUT nothing is submitted, and whether a step would have been due is reported. What the summary shows while a
submitted step still waits for its answer is the model's choice and no rule of the manual: no action (`x.action = none`,
assumption log 9) beside the value submitted (`x.valueSubmitted = some value`, assumption log 19). -/
def Obligations.GlideDecided : Prop :=
  ∀ (s : State) (e : Evaluation), s.it.evaluation = some e → s.it.waiting = none →
    ∃ t x, exec .evaluationCompletion s = .next t ∧ t.it.summary = some x ∧
      let a := s.cu.fields.mired
      let target := x.estimate.getD s.it.target
      let distance := ((target : Int) - a).natAbs
      let due := (s.it.substate = .settled ∧ 16 * s.cu.fields.deadBand < distance) ∨ (s.it.substate = .gliding ∧ target ≠ a)
      let step := min s.cu.fields.glideRate distance
      let value := if a < target then a + step else a - step
      (s.it.mode = .auto → s.pe.frameState ≠ .noInput → due →
        t.it.target = target ∧ t.it.substate = s.it.substate ∧ x.action = none ∧ x.valueSubmitted = some value ∧
        t.it.waiting = some ⟨value, if step = distance then .settled else .gliding⟩) ∧
      (s.it.mode = .auto → s.pe.frameState ≠ .noInput → ¬ due →
        t.it.target = target ∧ t.it.substate = .settled ∧ x.action = some .noAction ∧ x.valueSubmitted = none ∧
        t.it.waiting = none) ∧
      (s.it.mode ≠ .auto ∨ s.pe.frameState = .noInput →
        t.it.target = (if s.it.mode = .auto then target else s.it.target) ∧ t.it.substate = s.it.substate ∧
        t.it.waiting = none ∧ x.valueSubmitted = none ∧ (due → x.action = some .notSubmitted) ∧
        (¬ due → x.action = some .noAction))

/-- The arbiter's answer to the tracker's waiting submission: HELD while a group is open, FULL at 32 entries, else accepted
with the proposed substate; in NO_INPUT the entry is applied at once, and so discarded. Each is a grant. With none waiting
there is none to take (log 10). -/
def Obligations.TrackerSubmissionAnswered : Prop :=
  ∀ s : State,
    (∀ w x, s.it.waiting = some w → s.it.summary = some x →
      ∃ t, exec .trackerSubmission s = .next t ∧
        t.ca.grantOrder = s.ca.grantOrder.filter (fun r => decide (r ≠ .tracker)) ++ [.tracker] ∧
        let answeredAs (a : TrackerAction) : Tracker := { s.it with waiting := none, summary := some { x with action := some a } }
        (s.ca.owner.isSome = true → t.it = answeredAs .refusedHeld ∧ s.unchangedBut t [.tracker, .grantOrder]) ∧
        (s.ca.owner = none → 32 ≤ s.cu.queue.length →
          t.it = answeredAs .refusedFull ∧ s.unchangedBut t [.tracker, .grantOrder]) ∧
        (s.ca.owner = none → s.cu.queue.length < 32 → s.pe.frameState ≠ .noInput →
          t.it = { (answeredAs .submitted) with substate := w.proposed } ∧
          t.cu.queue = s.cu.queue ++
            [⟨.tracker, .mired, Field.mired.clampValue s.cu.calibration w.value, .ungrouped⟩] ∧
          s.unchangedBut t [.tracker, .grantOrder, .queue]) ∧
        (s.ca.owner = none → s.cu.queue = [] → s.pe.frameState = .noInput →
          t.it = { (answeredAs .submitted) with substate := w.proposed, mode := s.cu.fields.trackerMode } ∧
          t.cu.fields = s.cu.fields ∧ t.cu.queue = [] ∧ t.cu.derived = s.cu.derived ∧
          t.cu.appliedChanges.getLast? = some ⟨.tracker, .mired, .discarded⟩ ∧
          s.unchangedBut t [.tracker, .grantOrder, .appliedChanges, .slots, .frameContext])) ∧
    (s.it.waiting = none → exec .trackerSubmission s = .next s)

/-! ## Requests to the arbiter -/

/-- Every request of a port that is taken is a grant: the requester moves to the end of the grant order. A submission of the
tracker that waits at the same moment and stands before the port is taken first. Of the requests of both ports waiting at the
same moment, the one whose port stands first in the grant order is taken first, and the other is answered by what it left. -/
def Obligations.RequestsGranted : Prop :=
  (∀ (c : Instr) (p : Port) (s : State), requestPort c = some p → s.operating →
    (s.portFirst p → ∃ t, exec c s = .next t ∧
      t.ca.grantOrder = s.ca.grantOrder.filter (fun r => decide (r ≠ portRequester p)) ++ [portRequester p]) ∧
    (¬ s.portFirst p → ∃ u, exec .trackerSubmission s = .next u ∧ u.it.waiting = none ∧ exec c s = exec c u)) ∧
  ∀ (p : Port) (r o : Request) (s : State),
    let q := otherPort p
    let both := exec (requestCommand p r (some o)) s
    (s.ca.grantOrder.idxOf (portRequester q) < s.ca.grantOrder.idxOf (portRequester p) →
      ∃ u t, exec (requestCommand q o none) s = .next u ∧ exec (requestCommand p r none) u = .next t ∧ both = .next t) ∧
    (s.ca.grantOrder.idxOf (portRequester p) ≤ s.ca.grantOrder.idxOf (portRequester q) →
      ∃ u t, exec (requestCommand p r none) s = .next u ∧ exec (requestCommand q o none) u = .next t ∧ both = .next t)

/-- EDIT: LATE while the port's outcome is EXPIRED, HELD while the other port owns the group; else the Context Unit's tests in
their order, and an accepted one's entry, clamped, at the tail of the queue with its group mark and its slot reference. An
ungrouped one accepted in NO_INPUT: EditAppliedInNoInput. -/
def Obligations.EditJudged : Prop :=
  ∀ (p : Port) (id : Byte) (value : Word) (s : State), s.operating → s.portFirst p →
    let v := value.toInt
    let refused (r : Result) := ∃ t, exec (.edit p id value none) s = .next t ∧ s.answers t p r [.grantOrder]
    let passedOn : Prop := s.ca.outcome p ≠ .expired ∧ (s.ca.owner = none ∨ s.ca.owner = some p)
    (s.ca.outcome p = .expired → refused .late) ∧
    (s.ca.outcome p ≠ .expired → s.ca.owner ≠ some p → s.ca.owner ≠ none → refused .held) ∧
    (passedOn → fieldOfId id = none → refused .badField) ∧
    (passedOn → ∀ x, fieldOfId id = some x →
      let named : Prop := x.isBinding = true → (0 ≤ v ∧ v ≤ 3) ∨ (x = .monitorLattice ∧ v = 255)
      let ready : Prop := ∀ i, x.boundSlot v = some i → (s.slot i).state = .ready
      let entryValue := if x.isBinding then v else max (x.range s.cu.calibration).1 (min v (x.range s.cu.calibration).2)
      (¬ named → refused .badSlot) ∧
      (named → ¬ ready → refused .notReady) ∧
      (named → ready → 32 ≤ s.cu.queue.length → refused .full) ∧
      (named → ready → s.cu.queue.length < 32 → (s.ca.owner = none → s.pe.frameState ≠ .noInput) →
        s.rangeLaw → s.cu.calibration.isSome = true →
        ∃ t, exec (.edit p id value none) s = .next t ∧
          s.answers t p (if entryValue = v then .done else .clamped) [.grantOrder, .queue, .slots] ∧
          t.cu.queue = s.cu.queue ++
            [⟨portRequester p, x, entryValue, if s.ca.owner = some p then .openGroup else .ungrouped⟩] ∧
          ∀ i, t.slot i =
            if x.boundSlot v = some i then { s.slot i with references := (s.slot i).references + 1 } else s.slot i))

/-- In NO_INPUT an accepted ungrouped EDIT is applied before its result is given: a pass whose only due entry is that one, the
frame context adopted, the slot reference placed and released. -/
def Obligations.EditAppliedInNoInput : Prop :=
  ∀ (p : Port) (id : Byte) (value : Word) (s : State) (x : Field), s.operating → s.portFirst p → s.ca.outcome p ≠ .expired →
    s.ca.owner = none → s.pe.frameState = .noInput → s.cu.queue = [] → fieldOfId id = some x →
    (x.isBinding = true → x.namesSlot value.toInt = true) →
    (∀ i, x.boundSlot value.toInt = some i → (s.slot i).state = .ready) →
    ∃ t, exec (.edit p id value none) s = .next t ∧
      let entryValue := x.clampValue s.cu.calibration value.toInt
      s.answers t p (if entryValue = value.toInt then .done else .clamped)
        [.grantOrder, .appliedChanges, .derived, .fields, .slots, .tracker, .frameContext] ∧
      s.passMade .noInput [⟨portRequester p, x, entryValue, .ungrouped⟩] t ∧ t.cu.queue = [] ∧
      t.cu.appliedChanges.getLast? = some ⟨portRequester p, x, .applied⟩ ∧
      ∀ i, (t.slot i).references = (s.slot i).references

/-- GROUP OPEN: granted while the group is FREE, with the timer at 0 and an EXPIRED outcome cleared; otherwise HELD, the port's
own outcome unchanged. -/
def Obligations.GroupOpened : Prop :=
  ∀ (p : Port) (s : State), s.operating → s.portFirst p →
    (s.ca.owner = none → ∃ t, exec (.groupOpen p none) s = .next t ∧ s.answered t p .done ∧ t.ca.owner = some p ∧
      t.ca.outcome p = .opened ∧ (∀ q, q ≠ p → t.ca.outcome q = s.ca.outcome q) ∧ t.ca.inactivityTimer = some 0 ∧
      t.ca.expiryNote = s.ca.expiryNote ∧ s.unchangedBut t [.port p, .inactivityTimer, .grantOrder, .group]) ∧
    (s.ca.owner ≠ none → ∃ t, exec (.groupOpen p none) s = .next t ∧ s.answers t p .held [.grantOrder])

/-- GROUP CLOSE: the owner's entries marked CLOSED_GROUP in their places and the group FREE, in NO_INPUT with a pass at once
over the closed group, which leaves the queue with its items in the applied-change list and its references released; LATE from
a port whose group expired, NO_GROUP from one that owns none. -/
def Obligations.GroupClosed : Prop :=
  ∀ (p : Port) (s : State), s.operating → s.portFirst p →
    let closed := s.cu.queue.map fun e => if e.mark = .openGroup then { e with mark := .closedGroup } else e
    (s.ca.outcome p = .expired → ∃ t, exec (.groupClose p none) s = .next t ∧ s.answers t p .late [.grantOrder]) ∧
    (s.ca.outcome p ≠ .expired → s.ca.owner ≠ some p →
      ∃ t, exec (.groupClose p none) s = .next t ∧ s.answers t p .noGroup [.grantOrder]) ∧
    (s.ca.outcome p ≠ .expired → s.ca.owner = some p → ∃ t, exec (.groupClose p none) s = .next t ∧ s.answered t p .done ∧
      t.ca.owner = none ∧ t.ca.outcome p = .noGroup ∧ (∀ q, q ≠ p → t.ca.outcome q = s.ca.outcome q) ∧
      t.ca.inactivityTimer = none ∧ t.ca.expiryNote = s.ca.expiryNote ∧
      (s.pe.frameState ≠ .noInput → t.cu.queue = closed ∧
        s.unchangedBut t [.port p, .inactivityTimer, .grantOrder, .group, .queue]) ∧
      (s.pe.frameState = .noInput → s.passMade .noInput closed t ∧ t.cu.queue = [] ∧
        t.cu.appliedChanges = (closed.foldl (applyEntry .noInput) (Pass.begin s.cu)).items ∧
        (∀ i, (t.slot i).references = (s.slot i).references - namingCount closed i) ∧
        s.unchangedBut t
          [.port p, .inactivityTimer, .grantOrder, .group, .queue, .appliedChanges, .derived, .fields, .slots, .tracker,
           .frameContext]))

/-- EDIT CLOSE: LATE from a port whose group expired, NO_GROUP from one that owns none. From the owner it is EDIT and GROUP
CLOSE as one request: a refused one leaves what a refused EDIT leaves, the group open; an accepted one closes the group with
its entry in it, in NO_INPUT with the pass that GROUP CLOSE makes. -/
def Obligations.EditClosed : Prop :=
  ∀ (p : Port) (id : Byte) (value : Word) (s : State), s.operating → s.portFirst p →
    let refused (r : Result) := ∃ t, exec (.editClose p id value none) s = .next t ∧ s.answers t p r [.grantOrder]
    (s.ca.outcome p = .expired → refused .late) ∧
    (s.ca.outcome p ≠ .expired → s.ca.owner ≠ some p → refused .noGroup) ∧
    (s.ca.outcome p ≠ .expired → s.ca.owner = some p → ∃ u, exec (.edit p id value none) s = .next u ∧
      let r := (u.port p).lastResult
      let closed := u.cu.queue.map fun e => if e.mark = .openGroup then { e with mark := .closedGroup } else e
      (r ≠ .done → r ≠ .clamped → exec (.editClose p id value none) s = .next u) ∧
      (r = .done ∨ r = .clamped → ∃ t, exec (.editClose p id value none) s = .next t ∧ s.answered t p r ∧ t.ca.owner = none ∧
        t.ca.outcome p = .noGroup ∧ (∀ q, q ≠ p → t.ca.outcome q = s.ca.outcome q) ∧ t.ca.inactivityTimer = none ∧
        t.ca.expiryNote = s.ca.expiryNote ∧
        (s.pe.frameState ≠ .noInput → t.cu.queue = closed ∧ u.unchangedBut t [.inactivityTimer, .group, .queue]) ∧
        (s.pe.frameState = .noInput → u.passMade .noInput closed t ∧ t.cu.queue = [] ∧
          t.cu.appliedChanges = (closed.foldl (applyEntry .noInput) (Pass.begin u.cu)).items ∧
          (∀ i, (t.slot i).references = (u.slot i).references - namingCount closed i) ∧
          u.unchangedBut t
            [.inactivityTimer, .group, .queue, .appliedChanges, .derived, .fields, .slots, .tracker, .frameContext]))) ∧
    (s.ca.outcome p ≠ .expired → s.ca.owner = some p → ∀ x, fieldOfId id = some x →
      (x.isBinding = true → x.namesSlot value.toInt = true) →
      (∀ i, x.boundSlot value.toInt = some i → (s.slot i).state = .ready) → s.cu.queue.length < 32 →
      let v := x.clampValue s.cu.calibration value.toInt
      ∃ t, exec (.editClose p id value none) s = .next t ∧
        s.answered t p (if v = value.toInt then .done else .clamped) ∧ t.ca.owner = none ∧
        (s.pe.frameState ≠ .noInput → t.cu.queue =
          (s.cu.queue.map fun e => if e.mark = .openGroup then { e with mark := .closedGroup } else e) ++
            [⟨portRequester p, x, v, .closedGroup⟩]))

/-- The group ended without being applied, by its owner's GROUP ABANDON or by its expiry at 200 ms: its entries leave the queue
with their references; the group is FREE; the owner's outcome is NONE, or EXPIRED with the expiry note set. Before 200 ms the
timer only advances; after a command of the owner taken first this expiry does not happen. GROUP ABANDON also clears EXPIRED,
and is NO_GROUP from a port that owns none. With the timer stopped nothing expires (log 10). -/
def Obligations.GroupEndedUnapplied : Prop :=
  ∀ s : State,
    let kept := s.cu.queue.filter fun e => decide (e.mark ≠ .openGroup)
    let dropped := s.cu.queue.filter fun e => decide (e.mark = .openGroup)
    let released (t : State) := ∀ i, t.slot i =
      { s.slot i with references := (s.slot i).references - namingCount dropped i }
    (∀ p k ms, s.ca.owner = some p → s.ca.inactivityTimer = some k → 200 ≤ k + ms →
      ∃ t, exec (.groupExpiry ms) s = .next t ∧ t.cu.queue = kept ∧ released t ∧ t.ca.owner = none ∧
      t.ca.outcome p = .expired ∧ (∀ q, q ≠ p → t.ca.outcome q = s.ca.outcome q) ∧ t.ca.expiryNote = true ∧
      t.ca.inactivityTimer = none ∧ s.unchangedBut t [.queue, .slots, .group, .inactivityTimer]) ∧
    (∀ k ms, s.ca.inactivityTimer = some k → k + ms < 200 →
      exec (.groupExpiry ms) s = .next { s with ca := { s.ca with inactivityTimer := some (k + ms) } }) ∧
    (∀ ms, s.ca.inactivityTimer = none → exec (.groupExpiry ms) s = .next s) ∧
    (∀ p c ms, s.resetLine = false → s.ca.owner = some p →
      commandPort c = some p ∨ (c = .selectionEnd (portLine p) .rise ∧ (s.port p).selection ≠ .idle) → ms < 200 →
      ∃ u, exec c s = .next u ∧
        (u.ca.owner = some p → exec (.groupExpiry ms) u = .next { u with ca := { u.ca with inactivityTimer := some ms } }) ∧
        (u.ca.owner ≠ some p → u.ca.owner = none ∧ exec (.groupExpiry ms) u = .next u)) ∧
    (∀ p, s.operating → s.portFirst p →
      (s.ca.outcome p ≠ .expired → s.ca.owner = some p → ∃ t, exec (.groupAbandon p none) s = .next t ∧ s.answered t p .done ∧
        t.cu.queue = kept ∧ released t ∧ t.ca.owner = none ∧ t.ca.outcome p = .noGroup ∧
        (∀ q, q ≠ p → t.ca.outcome q = s.ca.outcome q) ∧ t.ca.expiryNote = s.ca.expiryNote ∧ t.ca.inactivityTimer = none ∧
        s.unchangedBut t [.port p, .grantOrder, .queue, .slots, .group, .inactivityTimer]) ∧
      (s.ca.outcome p = .expired → ∃ t, exec (.groupAbandon p none) s = .next t ∧
        s.answers t p .done [.grantOrder, .group] ∧ t.ca.owner = s.ca.owner ∧ t.ca.outcome p = .noGroup ∧
        (∀ q, q ≠ p → t.ca.outcome q = s.ca.outcome q) ∧ t.ca.expiryNote = s.ca.expiryNote) ∧
      (s.ca.outcome p ≠ .expired → s.ca.owner ≠ some p →
        ∃ t, exec (.groupAbandon p none) s = .next t ∧ s.answers t p .noGroup [.grantOrder]))

/-! ## Slots -/

/-- SLOT OPEN by the slot's state, and BAD_SLOT for an identifier above 7. -/
def Obligations.SlotOpened : Prop :=
  ∀ (p : Port) (id : Byte) (s : State), s.operating →
    let refused (r : Result) := ∃ t, exec (.slotOpen p id) s = .next t ∧ s.answers t p r []
    (8 ≤ id.toNat → refused .badSlot) ∧
    (∀ i : Fin 8, id.toNat = i.val →
      let x := s.slot i
      let inUse : Prop := x.bound = true ∨ 0 < x.references ∨ x.saving = true
      (x.state = .empty ∨ (x.state = .ready ∧ ¬ inUse) → ∃ t, exec (.slotOpen p id) s = .next t ∧
        s.answers t p .done [.slots] ∧ t.slot i = { x with state := .opened p } ∧ ∀ j, j ≠ i → t.slot j = s.slot j) ∧
      (x.state = .ready → inUse → refused .inUse) ∧ (∀ q, x.state = .opened q → q ≠ p → refused .owned) ∧
      (x.state = .opened p → refused .done) ∧ (x.state = .loading → refused .notReady))

/-- SLOT WRITE: its tests in order, and the bytes it writes: byte k of the data at position (offset + k) modulo 256 of the page,
the last written of those that meet standing, a position beyond the slot's bytes discarded, every other byte unchanged. -/
def Obligations.SlotWritten : Prop :=
  ∀ (p : Port) (id page offset : Byte) (data : List Byte) (s : State), s.operating → data ≠ [] →
    let refused (r : Result) := ∃ t, exec (.slotWrite p id page offset data) s = .next t ∧ s.answers t p r []
    (8 ≤ id.toNat → refused .badSlot) ∧
    (∀ i : Fin 8, id.toNat = i.val →
      let x := s.slot i
      let pages := if i.val < 4 then 116 else 7
      let size := if i.val < 4 then 29478 else 1666
      let at_ (k : Nat) := 256 * page.toNat + (offset.toNat + k) % 256
      ((∀ q, x.state ≠ .opened q) → refused .notOpen) ∧ (∀ q, x.state = .opened q → q ≠ p → refused .owned) ∧
      (x.state = .opened p → pages ≤ page.toNat → refused .badPage) ∧
      (x.state = .opened p → page.toNat < pages → ∃ t, exec (.slotWrite p id page offset data) s = .next t ∧
        s.answers t p .done [.slots] ∧ (∀ j, j ≠ i → t.slot j = s.slot j) ∧
        t.slot i = { x with content := (t.slot i).content } ∧
        (∀ k (hk : k < data.length), at_ k < size → (∀ m, k < m → m < data.length → at_ m ≠ at_ k) →
          Memory.read 0 (t.slot i).content (at_ k) = data[k]) ∧
        ∀ a, (size ≤ a ∨ ∀ k < data.length, at_ k ≠ a) → Memory.read 0 (t.slot i).content a = Memory.read 0 x.content a))

/-- SLOT FINISH and SLOT DISCARD by the slot's state: a finish clamps every value to 4,095, advances the generation and names
the port; a discard empties the slot, keeping the generation. -/
def Obligations.SlotFinishedOrDiscarded : Prop :=
  ∀ (p : Port) (id : Byte) (s : State), s.operating →
    let refused (c : Instr) (r : Result) := ∃ t, exec c s = .next t ∧ s.answers t p r []
    (8 ≤ id.toNat → refused (.slotFinish p id) .badSlot ∧ refused (.slotDiscard p id) .badSlot) ∧
    (∀ i : Fin 8, id.toNat = i.val →
      let x := s.slot i
      let values := if i.val < 4 then 14739 else 833
      let inUse : Prop := x.bound = true ∨ 0 < x.references ∨ x.saving = true
      ((∀ q, x.state ≠ .opened q) → refused (.slotFinish p id) .notOpen) ∧
      (∀ q, x.state = .opened q → q ≠ p → refused (.slotFinish p id) .owned) ∧
      (x.state = .opened p → ∃ t, exec (.slotFinish p id) s = .next t ∧ (∀ j, j ≠ i → t.slot j = s.slot j) ∧
        t.slot i = { x with state := .ready, generation := x.generation + 1, origin := .port p, content := (t.slot i).content } ∧
        (∀ k < values, slotValue (t.slot i).content k = min (slotValue x.content k) 4095) ∧
        ((∃ k < values, 4095 < slotValue x.content k) → s.answers t p .clamped [.slots]) ∧
        ((∀ k < values, slotValue x.content k ≤ 4095) → s.answers t p .done [.slots])) ∧
      (x.state = .empty → refused (.slotDiscard p id) .done) ∧
      ((∃ q, x.state = .opened q) ∨ (x.state = .ready ∧ ¬ inUse) → ∃ t, exec (.slotDiscard p id) s = .next t ∧
        s.answers t p .done [.slots] ∧ (∀ j, j ≠ i → t.slot j = s.slot j) ∧
        t.slot i = { x with state := .empty, origin := .noOrigin, content := [] } ∧
        ∀ k, slotValue (t.slot i).content k = 0) ∧
      (x.state = .ready → inUse → refused (.slotDiscard p id) .inUse) ∧
      (x.state = .loading → refused (.slotDiscard p id) .notReady))

/-! ## Reads -/

/-- READ STATUS, in STARTING too: the 16-byte status record, shifted out from its first byte again for as long as the selection
lasts, whatever the host sends meanwhile; the last result as it stood. That the unnamed bits of bytes 13 and 14 are 0 is the
model's choice (assumption log 27). -/
def Obligations.StatusRead : Prop :=
  ∀ (p : Port) (s : State), s.resetLine = false →
    ∃ t record, exec (.readStatus p) s = .next t ∧
      s.readAnswered t p [0x0C] (some { reply := record, repeated := true, position := 0 }) (s.port p).lastResult ∧
      record =
        [(s.port p).lastResult.code,
         (match s.ca.outcome p, s.ca.owner with
          | .expired, _ => 3 | .opened, _ => 1 | .noGroup, none => 0 | .noGroup, some _ => 2),
         if (s.port p).writeEnable then 1 else 0,
         (match s.pe.frameState with | .starting => 0 | .noInput => 1 | .betweenFrames => 2 | .inFrame => 3),
         (match s.it.mode with | .auto => 0 | .hold => 1 | .manual => 2),
         (match s.it.substate with | .settled => 0 | .gliding => 1),
         BitVec.ofNat 8 s.cu.queue.length,
         (match s.controller.state with | .idle => 0 | .programming _ => 1 | .erasing => 2 | .eraseSuspended _ => 3),
         (match s.controller.sector with | none => 0xFF | some n => BitVec.ofNat 8 n.val),
         (match s.controller.outcome with | none => 0 | some .completed => 1 | some .failed => 2 | some .cut => 3),
         (match s.recallEngine.state with | .idle => 0 | .recalling _ => 1),
         (match s.recallEngine.slot with | none => 0xFF | some i => BitVec.ofNat 8 i.val),
         (match s.recallEngine.outcome with | none => 0 | some .completed => 1 | some .failed => 2 | some .cut => 3),
         BitVec.ofNat 8 ((if s.protectLine then 1 else 0) + if s.supplyLowLine then 2 else 0),
         BitVec.ofNat 8
          ((if s.cu.calFallback then 1 else 0) +
            if s.cu.derived.trimSaturated || s.cu.derived.exposureSaturated then 2 else 0),
         if s.pe.frameState = .starting then 0 else 1] ∧
      ∀ sent : List Byte, ∃ u, exec (.selectionEnd (portLine p) (.clocked (sent.flatMap byteBits))) t = .next u ∧
        u.port p = { t.port p with
          selection := .selected (0x0C :: sent) [],
          reading := some { reply := record, repeated := true, position := sent.length % 16 },
          shifted := 0 :: (List.range sent.length).map fun k => record.getD (k % 16) 0 } ∧
        t.unchangedBut u [.port p]

/-- The other reads: the reply formed whole from the state as it stands, shifted out once and then zeros, whatever the host sends
meanwhile; DONE, or a refusal and zeros alone. That the unnamed bits of a flag or presence byte are 0 is the model's choice
(assumption log 27). -/
def Obligations.ReadsAnswered : Prop :=
  ∀ (p : Port) (s : State), s.operating →
    let once (bytes : List Byte) : Option Reading := some { reply := bytes, repeated := false, position := 0 }
    let shiftsOut (t : State) (received bytes : List Byte) : Prop := ∀ sent : List Byte,
      ∃ u, exec (.selectionEnd (portLine p) (.clocked (sent.flatMap byteBits))) t = .next u ∧
        u.port p = { t.port p with
          selection := .selected (received ++ sent) [],
          reading := some { reply := bytes, repeated := false, position := min sent.length bytes.length },
          shifted := List.replicate received.length 0 ++ (List.range sent.length).map fun k => bytes.getD k 0 } ∧
        t.unchangedBut u [.port p]
    let answersWith (c : Instr) (received bytes : List Byte) :=
      ∃ t, exec c s = .next t ∧ s.readAnswered t p received (once bytes) .done ∧ shiftsOut t received bytes
    let refuses (c : Instr) (received : List Byte) (r : Result) :=
      ∃ t, exec c s = .next t ∧ s.readAnswered t p received (once []) r ∧ shiftsOut t received []
    let flag (b : Bool) : Byte := if b then 1 else 0
    let d := s.cu.derived
    (∀ id, fieldOfId id = none → refuses (.readField p id) [0x11, id] .badField) ∧
    (∀ id x, fieldOfId id = some x → answersWith (.readField p id) [0x11, id] (intBytes 4 (s.cu.fields.get x))) ∧
    (∀ c, s.cu.calibration = some c → answersWith (.readDerived p) [0x12]
      (natBytes 2 d.applied ++ [BitVec.ofNat 8 d.interval] ++ natBytes 2 d.ratioRg ++ natBytes 2 d.ratioBg ++
        natBytes 2 d.gainR ++ natBytes 2 d.gainG ++ natBytes 2 d.gainB ++ natBytes 2 d.weight ++ d.interpolated.bytes ++
        d.effective.bytes ++ [flag d.trimSaturated + 2 * flag d.exposureSaturated] ++ natBytes 4 c.id.toNat ++
        [flag s.cu.calFallback])) ∧
    (∀ summary : List Byte,
      (s.it.summary = none → summary = List.replicate 20 0) →
      (∀ x a, s.it.summary = some x → x.action = some a → summary =
        natBytes 4 x.frameNumber.toNat ++ natBytes 2 x.darkFloor ++ natBytes 2 x.acceptRadius ++
          [BitVec.ofNat 8 x.minVotes] ++ intBytes 1 x.bias ++ [BitVec.ofNat 8 x.usableZones, BitVec.ofNat 8 x.votes,
           flag x.median.isSome + 2 * flag x.estimate.isSome + 4 * flag x.starved] ++
          natBytes 2 (x.median.getD 0) ++ natBytes 2 (x.estimate.getD 0) ++
          [(match a with
            | .noAction => 0 | .notSubmitted => 1 | .submitted => 2 | .refusedHeld => 3 | .refusedFull => 4 : Byte)] ++
          natBytes 2 (x.valueSubmitted.getD 0)) →
      (∀ x, s.it.summary = some x → x.action.isSome = true) →
      answersWith (.readTracker p) [0x14]
        ([BitVec.ofNat 8 s.it.mode.code, s.it.substate.code] ++ natBytes 2 s.it.target ++ natBytes 2 s.cu.fields.mired ++
          [BitVec.ofNat 8 s.cu.fields.deadBand, BitVec.ofNat 8 s.cu.fields.glideRate, flag s.it.evaluation.isSome] ++
          natBytes 4 ((s.it.evaluation.map fun e => e.frameNumber.toNat).getD 0) ++ summary)) ∧
    (∃ reply, reply.length = 33 ∧ answersWith (.readTracker p) [0x14] reply) ∧
    (s.it.zoneResults = none → answersWith (.readZones p) [0x15] (List.replicate 1830 0)) ∧
    (∀ z, s.it.zoneResults = some z → ∃ reply, reply.length = 1830 ∧ answersWith (.readZones p) [0x15] reply ∧
      reply.take 6 = natBytes 4 z.frameNumber.toNat ++ natBytes 2 z.darkFloor ∧
      ∀ k : Fin 48, (reply.drop (6 + 38 * k.val)).take 38 =
        let r := z.zones.get k
        natBytes 4 r.handed.pixelCount ++ natBytes 4 r.handed.qualifying ++ natBytes 6 r.handed.sumR ++
          natBytes 6 r.handed.sumG ++ natBytes 6 r.handed.sumB ++ [flag r.usable + 2 * flag r.voted] ++ natBytes 2 r.ratioR ++
          natBytes 2 r.ratioB ++ [BitVec.ofNat 8 r.nearest] ++ natBytes 4 r.distance ++ natBytes 2 r.vote16) ∧
    (∀ id page, 8 ≤ id.toNat → refuses (.slotRead p id page) [0x35, id, page] .badSlot) ∧
    (∀ (i : Fin 8) (id page : Byte), id.toNat = i.val →
      ((if i.val < 4 then 116 else 7) ≤ page.toNat → refuses (.slotRead p id page) [0x35, id, page] .badPage) ∧
      (page.toNat < (if i.val < 4 then 116 else 7) → answersWith (.slotRead p id page) [0x35, id, page]
        ((List.range 256).map fun k =>
          if 256 * page.toNat + k < (if i.val < 4 then 29478 else 1666) then
            Memory.read 0 (s.slot i).content (256 * page.toNat + k)
          else 0))) ∧
    (∀ id, 8 ≤ id.toNat → refuses (.slotInfo p id) [0x36, id] .badSlot) ∧
    (∀ (i : Fin 8) (id : Byte), id.toNat = i.val → answersWith (.slotInfo p id) [0x36, id]
      ([id, (s.slot i).state.code, (s.slot i).state.ownerCode] ++ natBytes 2 (s.slot i).generation.toNat ++
        [(s.slot i).origin.code, flag (s.slot i).bound, BitVec.ofNat 8 (s.slot i).references, flag (s.slot i).saving])) ∧
    (∀ n, 64 ≤ n.toNat → refuses (.readSector p n) [0x4C, n] .badSector) ∧
    (∀ (m : Fin 64) (n : Byte), n.toNat = m.val →
      (∀ info, s.sectorEntry m = .valid info → answersWith (.readSector p n) [0x4C, n]
        ([n, 1, info.kind.code, BitVec.ofNat 8 info.contentLength] ++ info.name ++
          natBytes 4 (info.calibrationId.getD 0).toNat)) ∧
      ((∀ info, s.sectorEntry m ≠ .valid info) → answersWith (.readSector p n) [0x4C, n]
        ([n, (s.sectorEntry m).code] ++ List.replicate 22 0)))

/-! ## Selections -/

/-- Selections that reach no block. FRAMING and UNKNOWN are discarded in every state, as are a SLOT WRITE without data and a
SAVE whose name is not 16 bytes; in STARTING every well-formed command but READ STATUS is refused. While the reset line is
asserted none is taken (assumption log 12). -/
def Obligations.SelectionsWithoutEffect : Prop :=
  ∀ (s : State) (p : Port),
    (s.resetLine = false →
      (∀ received part, judgeFrame p received part = .framing →
        ∃ t, exec (.framing p received part) s = .next t ∧ s.answers t p .framing []) ∧
      (∀ received, judgeFrame p received [] = .unknown →
        ∃ t, exec (.unknown p received) s = .next t ∧ s.answers t p .unknown []) ∧
      (∀ slot page offset, ∃ t, exec (.slotWrite p slot page offset []) s = .next t ∧ s.answers t p .framing []) ∧
      (∀ slot sector name selector, name.length ≠ 16 →
        ∃ t, exec (.save p slot sector name selector) s = .next t ∧ s.answers t p .framing []) ∧
      (∀ c, s.pe.frameState = .starting → c.wellFormed = true → commandPort c = some p →
        ∃ t, exec c s = .next t ∧ s.answers t p .starting []) ∧
      (∀ c received, s.pe.frameState = .starting → readPort c = some (p, received) →
        ∃ t, exec c s = .next t ∧
          s.readAnswered t p received (some { reply := [], repeated := false, position := 0 }) .starting)) ∧
    (s.resetLine = true → ∀ c, commandPort c = some p ∨ (∃ received, readPort c = some (p, received)) ∨ c = .readStatus p ∨
      (∃ r o, c = requestCommand p r (some o)) ∨ (∃ received part, c = .framing p received part) ∨
      (∃ received, c = .unknown p received) ∨ (∃ line moment, c = .selectionEnd line moment) → exec c s = .next s)

/-- A selection of Port C or S, from the fall of select to its rise. What its bytes are is judged by the tests of R167 in their
order, with the codes and lengths of R178; a read is executed when its last argument byte comes, and what follows is not
examined; any other frame is judged at the rise, and until then changes the received bytes and bits alone. Every byte taken
shifts one out: of a reply in progress, which no command but the port's own and a reset alters, or 0. At the rise the port is
IDLE and the inactivity timer restarts when the port owns the group; on an idle port bits and the rise are no events. That a
FRAMING or UNKNOWN row whose bytes are a command's frame is that command is a deduction of the model's (assumption log 17); that
a row of a whole selection, and a fall, imply the rise before them, and which bytes such a row names, are its choice (assumption
logs 8 and 26). -/
def Obligations.SelectionsEnd : Prop :=
  (∀ (p : Port) (code : Byte) (rest : List Byte) (part : List Bool),
    let lengths : List (Byte × Nat) :=
      [(0x0C, 0), (0x11, 1), (0x12, 0), (0x14, 0), (0x15, 0), (0x21, 5), (0x22, 5), (0x28, 0), (0x29, 0), (0x2A, 0), (0x31, 1),
       (0x32, 3), (0x33, 1), (0x34, 1), (0x35, 2), (0x36, 1), (0x41, 0), (0x42, 0), (0x48, 2), (0x49, 19), (0x4A, 2), (0x4C, 1)]
    let reads : List Byte := [0x0C, 0x11, 0x12, 0x14, 0x15, 0x35, 0x36, 0x4C]
    let judged := judgeFrame p (code :: rest) part
    let argumentsFit (n : Nat) : Prop := if code = 0x32 then n < rest.length else rest.length = n
    judgeFrame p [] part = .framing ∧
    ((∀ n, (code, n) ∉ lengths) → (part = [] → judged = .unknown) ∧ (part ≠ [] → judged = .framing)) ∧
    (∀ n, (code, n) ∈ lengths →
      (code ∈ reads → n ≤ rest.length → judged = judgeFrame p (code :: rest.take n) []) ∧
      (code ∈ reads → rest.length < n → judged = .framing) ∧
      (code ∉ reads → part ≠ [] → judged = .framing) ∧
      (code ∉ reads → part = [] → ¬ argumentsFit n → judged = .framing) ∧
      (code ∉ reads → part = [] → argumentsFit n → ∃ c, judged = .command c))) ∧
  (∀ (p : Port) (slot page offset sector complement selector id : Byte) (value : Word) (data name : List Byte),
    data ≠ [] → name.length = 16 →
    let frames : List (Instr × List Byte) :=
      [(.readStatus p, [0x0C]), (.readField p id, [0x11, id]), (.readDerived p, [0x12]), (.readTracker p, [0x14]),
       (.readZones p, [0x15]), (.edit p id value none, [0x21, id] ++ natBytes 4 value.toNat),
       (.editClose p id value none, [0x22, id] ++ natBytes 4 value.toNat), (.groupOpen p none, [0x28]),
       (.groupClose p none, [0x29]), (.groupAbandon p none, [0x2A]), (.slotOpen p slot, [0x31, slot]),
       (.slotWrite p slot page offset data, [0x32, slot, page, offset] ++ data), (.slotFinish p slot, [0x33, slot]),
       (.slotDiscard p slot, [0x34, slot]), (.slotRead p slot page, [0x35, slot, page]), (.slotInfo p slot, [0x36, slot]),
       (.writeEnable p, [0x41]), (.writeDisable p, [0x42]), (.recall p sector slot, [0x48, sector, slot]),
       (.save p slot sector name selector, [0x49, slot, sector] ++ name ++ [selector]),
       (.erase p sector complement, [0x4A, sector, complement]), (.readSector p sector, [0x4C, sector])]
    ∀ f ∈ frames, judgeFrame p f.2 [] = .command f.1) ∧
  ∀ (s : State) (p : Port), s.resetLine = false →
    let moment (m : SelectionMoment) : Instr := .selectionEnd (portLine p) m
    let bits (received : List Byte) (part : List Bool) : SelectionMoment := .clocked (received.flatMap byteBits ++ part)
    let whole (c : Instr) : Prop := commandPort c = some p ∨ (∃ received, readPort c = some (p, received)) ∨ c = .readStatus p ∨
      (∃ received part, c = .framing p received part) ∨ (∃ received, c = .unknown p received)
    let deselected : PortState := { s.port p with selection := .idle, reading := none, shifted := [] }
    (∀ received part c, judgeFrame p received part = .command c → ∃ u, exec c s = .next u ∧
      exec (.framing p received part) s = exec (moment .rise) u ∧
      (part = [] → exec (.unknown p received) s = exec (moment .rise) u)) ∧
    ((s.port p).selection = .idle →
      exec (moment .rise) s = .next s ∧ (∀ part, exec (moment (.clocked part)) s = .next s) ∧
      ∃ t, exec (moment .fall) s = .next t ∧ t.port p = { deselected with selection := .selected [] [] } ∧
        s.unchangedBut t [.port p] ∧
        (∀ received part, part.length < 8 → ∃ u, exec (moment (bits received part)) t = .next u ∧
          exec (moment .rise) u = exec (.framing p received part) s ∧
          ((∀ c, judgeFrame p received [] = .command c → commandPort c = some p) →
            u.port p = { deselected with
              selection := .selected received part, shifted := List.replicate received.length 0 } ∧
            s.unchangedBut u [.port p])) ∧
        ∀ c received, readPort c = some (p, received) ∨ (c = .readStatus p ∧ received = [0x0C]) →
          exec (moment (bits received [])) t = exec c s) ∧
    (∀ received part, (s.port p).selection = .selected received part →
      (∀ more, part.length + more.length < 8 → exec (moment (.clocked more)) s =
        .next (s.setPort p { s.port p with selection := .selected received (part ++ more) })) ∧
      (∀ first rest, ∃ t, exec (moment (.clocked first)) s = .next t ∧
        exec (moment (.clocked (first ++ rest))) s = exec (moment (.clocked rest)) t) ∧
      (∃ t, exec (moment .rise) s = .next t ∧ exec (moment .fall) s = exec (moment .fall) t) ∧
      ((s.port p).reading = none →
        exec (moment .rise) s = exec (.framing p received part) s ∧ ∀ c, whole c → exec c s = exec c (s.setPort p deselected)) ∧
      (∀ r, (s.port p).reading = some r →
        (∃ t, exec (moment .rise) s = .next t ∧ t.port p = deselected ∧ t.ca.inactivityTimer = s.timerAfter p ∧
          s.unchangedBut t [.port p, .inactivityTimer] ∧ ∀ c, whole c → exec c s = exec c t) ∧
        (∀ sent, part = [] → 0 < sent.length → exec (moment (bits sent [])) s =
          .next (s.setPort p { s.port p with
            selection := .selected (received ++ sent) [],
            reading := some { r with
              position :=
                if r.repeated then (r.position + sent.length) % r.reply.length
                else min (r.position + sent.length) r.reply.length },
            shifted := (s.port p).shifted ++ (List.range sent.length).map fun k =>
              r.reply.getD (if r.repeated then (r.position + k) % r.reply.length else r.position + k) 0 })) ∧
        ∀ c t, exec c s = .next t → ¬ whole c → isTwoRequests c = false → (∀ m, c ≠ moment m) →
          (∀ acts, c ≠ .resetAssert acts) → t.port p = s.port p))

/-- The inactivity timer: the end of every selection of the owner restarts it while the group stays open, and it stands stopped
once the group has ended; no other command touches it but a reset, time on it, and requests of both ports together, which
RequestsGranted takes apart. -/
def Obligations.InactivityTimerRestarted : Prop :=
  ∀ (s t : State) (c : Instr), exec c s = .next t →
    (∀ p, s.resetLine = false →
      commandPort c = some p ∨ (∃ received part, c = .framing p received part) ∨ (∃ received, c = .unknown p received) ∨
        (c = .selectionEnd (portLine p) .rise ∧ (s.port p).selection ≠ .idle) →
      s.ca.owner = some p → (t.ca.owner = some p ∧ t.ca.inactivityTimer = some 0) ∨
        (t.ca.owner = none ∧ t.ca.inactivityTimer = none)) ∧
    (∀ p, s.ca.owner = some p → (∀ acts, c ≠ .resetAssert acts) → (∀ ms, c ≠ .groupExpiry ms) → isTwoRequests c = false →
      commandPort c ≠ some p → (∀ received, readPort c ≠ some (p, received)) → c ≠ .readStatus p →
      (∀ received part, c ≠ .framing p received part) → (∀ received, c ≠ .unknown p received) →
      (∀ moment, c ≠ .selectionEnd (portLine p) moment) → t.ca.owner = some p ∧ t.ca.inactivityTimer = s.ca.inactivityTimer)

/-- The write enable latch: set and cleared by its own commands with DONE, and changed by nothing else but a SAVE or an ERASE of
its port and a reset. The rise or the fall that ends a selection still being received is taken apart, since it may execute one of
these (SelectionsEnd). -/
def Obligations.WriteEnableLatch : Prop :=
  (∀ (p : Port) (s : State) (set : Bool), s.operating →
    ∃ t, exec (if set then .writeEnable p else .writeDisable p) s = .next t ∧ (t.port p).writeEnable = set ∧
      (t.port p).lastResult = .done ∧ (t.port p).selection = .idle ∧ t.ca.inactivityTimer = s.timerAfter p ∧
      s.unchangedBut t [.port p, .inactivityTimer]) ∧
  (∀ (p : Port) (s t : State) (c : Instr), c.wellFormed = true → exec c s = .next t → c ≠ .writeEnable p → c ≠ .writeDisable p →
    (∀ slot sector name selector, c ≠ .save p slot sector name selector) → (∀ n k, c ≠ .erase p n k) →
    (∀ acts, c ≠ .resetAssert acts) →
    (∀ moment, c = .selectionEnd (portLine p) moment →
      (∃ bits, moment = .clocked bits) ∨ (s.port p).selection = .idle ∨ (s.port p).reading ≠ none) →
    (t.port p).writeEnable = (s.port p).writeEnable)

/-! ## The store -/

/-- RECALL: the tests in their order; accepted, the slot LOADING, the engine RECALLING, and an erase running in the bank
suspended. -/
def Obligations.RecallJudged : Prop :=
  ∀ (p : Port) (number id : Byte) (s : State), s.operating →
    let i : Fin 8 := Fin.ofNat 8 id.toNat
    let n : Fin 64 := Fin.ofNat 64 number.toNat
    let x := s.slot i
    let tests := s.recallTests number id
    (∀ r, firstFailing tests r → ∃ t, exec (.recall p number id) s = .next t ∧ s.answers t p r []) ∧
    (allPass tests → ∃ t, exec (.recall p number id) s = .next t ∧
      s.answers t p .started [.slots, .recallEngine, .controller, .directory] ∧
      t.recallEngine =
        { state := .recalling x.state, slot := some i, sector := some n, outcome := s.recallEngine.outcome } ∧
      t.slot i = { x with state := .loading } ∧ (∀ j, j ≠ i → t.slot j = s.slot j) ∧
      (∀ m, s.controller.state = .erasing → s.controller.sector = some m → m.val / 16 = n.val / 16 →
        t.controller = { s.controller with state := .eraseSuspended true } ∧ t.sectorEntry m = .eraseSuspended ∧
        ∀ k, k ≠ m → t.sectorEntry k = s.sectorEntry k) ∧
      ((s.controller.state = .erasing → ∀ m, s.controller.sector = some m → m.val / 16 ≠ n.val / 16) →
        t.controller = s.controller ∧ t.directory = s.directory))

/-- The completion of a recall: COMPLETED with the slot filled, values above 4,095 taken as 4,095, or FAILED with the slot as it
was and the sector TORN; an erase suspended in the bank resumes. Without a recall in flight only the decay of the storage
cells stands (assumption logs 7, 10). -/
def Obligations.RecallCompleted : Prop :=
  ∀ (decayed : List Nat) (s : State),
    (∀ prior i n, s.recallEngine.state = .recalling prior → s.recallEngine.slot = some i → s.recallEngine.sector = some n →
      s.directory.isSome = true →
      ∃ t, exec (.recallCompletion decayed) s = .next t ∧ t.store.bytes = s.store.bytes ∧
        (∀ page, page ∈ t.store.mismatched ↔ page ∈ s.store.mismatched ∨ page ∈ decayed) ∧
        let x := s.slot i
        let fails : Prop := ∃ q, 1 ≤ q ∧ q ≤ (if i.val < 4 then 116 else 7) ∧ sectorPage n q ∈ t.store.mismatched
        let resumes (m : Fin 64) : Prop :=
          (∃ b, s.controller.state = .eraseSuspended b) ∧ s.controller.sector = some m ∧ m.val / 16 = n.val / 16
        (¬ fails → t.recallEngine = { s.recallEngine with state := .idle, outcome := some .completed } ∧
          t.slot i = { x with
            state := .ready, generation := x.generation + 1, origin := .sector n, content := (t.slot i).content } ∧
          (∀ k < (if i.val < 4 then 14739 else 833), slotValue (t.slot i).content k =
            min 4095 (256 * (s.store.byte n (256 + 2 * k)).toNat + (s.store.byte n (257 + 2 * k)).toNat)) ∧
          ∀ m, ¬ resumes m → t.sectorEntry m = s.sectorEntry m) ∧
        (fails → t.recallEngine = { s.recallEngine with state := .idle, outcome := some .failed } ∧
          t.slot i = { x with state := prior } ∧ (¬ resumes n → t.sectorEntry n = .torn) ∧
          ∀ m, m ≠ n → ¬ resumes m → t.sectorEntry m = s.sectorEntry m) ∧
        (∀ j, j ≠ i → t.slot j = s.slot j) ∧
        (∀ m, resumes m → t.sectorEntry m = .erasing ∧ t.controller = { s.controller with state := .erasing }) ∧
        ((∀ m, ¬ resumes m) → t.controller = s.controller) ∧
        s.unchangedBut t [.store, .slots, .directory, .controller, .recallEngine]) ∧
    (s.recallEngine.state = .idle → ∃ t, exec (.recallCompletion decayed) s = .next t ∧ t.store.bytes = s.store.bytes ∧
      s.unchangedBut t [.store])

/-- SAVE: the latch cleared as it is judged, the tests in their order; accepted, the controller PROGRAMMING, the sector's entry
PROGRAMMING and the slot saving. -/
def Obligations.SaveJudged : Prop :=
  ∀ (p : Port) (id number selector : Byte) (name : List Byte) (s : State), s.operating → name.length = 16 →
    let i : Fin 8 := Fin.ofNat 8 id.toNat
    let n : Fin 64 := Fin.ofNat 64 number.toNat
    let calibration : Bool := decide (selector = 1)
    let tests := s.saveTests p id number calibration
    (∀ r, firstFailing tests r → ∃ t, exec (.save p id number name selector) s = .next t ∧ s.judged t p r []) ∧
    (allPass tests → ∃ t, exec (.save p id number name selector) s = .next t ∧
      s.judged t p .started [.slots, .controller, .directory] ∧
      t.controller =
        { state := .programming ⟨i, calibration, name⟩, sector := some n, outcome := s.controller.outcome } ∧
      t.sectorEntry n = .programming ∧ (∀ m, m ≠ n → t.sectorEntry m = s.sectorEntry m) ∧
      t.slot i = { s.slot i with saving := true } ∧ ∀ j, j ≠ i → t.slot j = s.slot j)

/-- The end of a save. COMPLETED: the claim field, the content as the slot holds it (for a calibration set three bytes a pair
of entries), the header and the marker stand in the sector, which is VALID. FAILED, at any act: TORN. Either way the controller
is IDLE and the saving mark clear. What the failed page holds is free (assumption log 5). With no save in progress nothing
ends (log 10). -/
def Obligations.SaveCompleted : Prop :=
  ∀ s : State,
    (∀ j n, s.controller.state = .programming j → s.controller.sector = some n → j.name.length = 16 → s.directory.isSome = true →
      let x := s.slot j.slot
      let kind : SectorKind := if j.calibration then .calibration else if j.slot.val < 4 then .lattice else .tone
      let size := if j.calibration then 192 else if j.slot.val < 4 then 29478 else 1666
      let ends (t : State) (o : StoreOutcome) : Prop :=
        t.controller = { state := .idle, sector := some n, outcome := some o } ∧ t.slot j.slot = { x with saving := false } ∧
        (∀ i, i ≠ j.slot → t.slot i = s.slot i) ∧ (∀ m, m ≠ n → t.sectorEntry m = s.sectorEntry m) ∧
        (∀ m k, m ≠ n → k < 32768 → t.store.byte m k = s.store.byte m k)
      (∃ t, exec (.saveCompletion none) s = .next t ∧ ends t .completed ∧
        (t.store.byte n 0 = 0 ∧ t.store.byte n 1 = 0 ∧ t.store.byte n 2 = kind.code ∧ (t.store.byte n 3).toNat = kind.pages ∧
          (∀ k (hk : k < j.name.length), t.store.byte n (4 + k) = j.name[k]) ∧
          (∀ k < 4, t.store.byte n (20 + k) = if j.calibration then t.store.byte n (256 + k) else 0) ∧
          t.store.byte n 254 = 0xA5 ∧ t.store.byte n 255 = 0x3C) ∧
        (j.calibration = false → ∀ k < size, t.store.byte n (256 + k) = Memory.read 0 x.content k) ∧
        (j.calibration = true → ∀ k < 64,
          t.store.byte n (256 + 3 * k) = BitVec.ofNat 8 (slotValue x.content (2 * k) / 16) ∧
          t.store.byte n (257 + 3 * k) =
            BitVec.ofNat 8 (slotValue x.content (2 * k) % 16 * 16 + slotValue x.content (2 * k + 1) / 256 % 16) ∧
          t.store.byte n (258 + 3 * k) = BitVec.ofNat 8 (slotValue x.content (2 * k + 1))) ∧
        (∀ k < 32768, (24 ≤ k ∧ k ≤ 253) ∨ 256 + size ≤ k → t.store.byte n k = s.store.byte n k) ∧
        t.store.holdsTable n kind ∧
        (∃ info, t.sectorEntry n = .valid info ∧ info.kind = kind ∧ info.contentLength = kind.pages ∧ info.name = j.name ∧
          (j.calibration = false → info.calibrationId = none) ∧
          (j.calibration = true → info.calibrationId.map BitVec.toNat =
            some (bytesNat ((List.range 4).map fun k => t.store.byte n (256 + k))))) ∧
        s.unchangedBut t [.store, .directory, .controller, .slots]) ∧
      ∀ act, ∃ t, exec (.saveCompletion (some act)) s = .next t ∧ ends t .failed ∧ t.sectorEntry n = .torn ∧
        s.unchangedBut t [.store, .directory, .controller, .slots, .freeIndex]) ∧
    ((∀ j, s.controller.state ≠ .programming j) → ∀ failed, exec (.saveCompletion failed) s = .next s)

/-- ERASE: the latch cleared as it is judged, the tests in their order; accepted, ERASING, or beginning suspended when the recall
engine reads in the bank. -/
def Obligations.EraseJudged : Prop :=
  ∀ (p : Port) (number complement : Byte) (s : State), s.operating → s.directory.isSome = true →
    let n : Fin 64 := Fin.ofNat 64 number.toNat
    let reading : Prop := s.recallReads n
    let tests := s.eraseTests p number complement
    (∀ r, firstFailing tests r → ∃ t, exec (.erase p number complement) s = .next t ∧ s.judged t p r []) ∧
    (allPass tests → ∃ t, exec (.erase p number complement) s = .next t ∧
      s.judged t p .started [.controller, .directory] ∧ (∀ m, m ≠ n → t.sectorEntry m = s.sectorEntry m) ∧
      (reading → t.controller = { state := .eraseSuspended false, sector := some n, outcome := s.controller.outcome } ∧
        t.sectorEntry n = .eraseSuspended) ∧
      (¬ reading → t.controller = { state := .erasing, sector := some n, outcome := s.controller.outcome } ∧
        t.sectorEntry n = .erasing))

/-- The end of a running erase. COMPLETED: every byte of the sector erased and the sector BLANK. FAILED, at any act: TORN; what
the failed page holds is free (assumption log 5). A suspended erase, or none, does not end (log 10). -/
def Obligations.EraseCompleted : Prop :=
  ∀ s : State,
    (∀ n, s.controller.state = .erasing → s.controller.sector = some n → s.directory.isSome = true →
      let ends (t : State) (o : StoreOutcome) : Prop :=
        t.controller = { state := .idle, sector := some n, outcome := some o } ∧
        (∀ m, m ≠ n → t.sectorEntry m = s.sectorEntry m) ∧
        (∀ m k, m ≠ n → k < 32768 → t.store.byte m k = s.store.byte m k)
      (∃ t, exec (.eraseCompletion none) s = .next t ∧ ends t .completed ∧ t.store.erased n ∧ t.sectorEntry n = .blank ∧
        (∀ q < 128, sectorPage n q ∉ t.store.mismatched) ∧ s.unchangedBut t [.store, .directory, .controller]) ∧
      ∀ act, ∃ t, exec (.eraseCompletion (some act)) s = .next t ∧ ends t .failed ∧ t.sectorEntry n = .torn ∧
        s.unchangedBut t [.store, .directory, .controller, .freeIndex]) ∧
    (s.controller.state ≠ .erasing → ∀ failed, exec (.eraseCompletion failed) s = .next s)

/-- The guard lines. Supply low cuts a save or erase in progress, a suspended one too: TORN, IDLE, CUT, the saving mark clear,
the sector as the acts completed left it (none: as it stood; a save's first: the claim field programmed and no marker; an
erase's last: erased; how many were completed is the command's operand, assumption log 6). The other changes only move the
lines. -/
def Obligations.GuardLinesChange : Prop :=
  ∀ s : State,
    (∀ acts, ∃ t, exec (.supplyLowAssert acts) s = .next t ∧ t.supplyLowLine = true ∧ t.protectLine = s.protectLine ∧
      (s.controller.state = .idle → s.unchangedBut t [.guardLines]) ∧
      (∀ n, s.controller.state ≠ .idle → s.controller.sector = some n → s.directory.isSome = true →
        t.controller = { state := .idle, sector := some n, outcome := some .cut } ∧ t.sectorEntry n = .torn ∧
        (∀ m, m ≠ n → t.sectorEntry m = s.sectorEntry m) ∧
        s.unchangedBut t [.guardLines, .controller, .directory, .slots, .store] ∧ (acts = 0 → t.store = s.store) ∧
        (∀ j, s.controller.state = .programming j → t.slot j.slot = { s.slot j.slot with saving := false } ∧
          (∀ i, i ≠ j.slot → t.slot i = s.slot i) ∧
          (j.name.length = 16 → 0 < acts → t.store.byte n 0 = 0 ∧ t.store.byte n 1 = 0 ∧
            t.store.byte n 254 = s.store.byte n 254 ∧ t.store.byte n 255 = s.store.byte n 255)) ∧
        ((∀ j, s.controller.state ≠ .programming j) → t.slots = s.slots) ∧
        (s.controller.state = .eraseSuspended false → t.store = s.store) ∧
        (s.controller.state = .erasing ∨ s.controller.state = .eraseSuspended true →
          (0 < acts → t.store.byte n 254 ≠ 0xA5) ∧ (129 ≤ acts → t.store.erased n)))) ∧
    (∃ t, exec .supplyLowDeassert s = .next t ∧ t.supplyLowLine = false ∧ t.protectLine = s.protectLine ∧
      s.unchangedBut t [.guardLines]) ∧
    (∀ b, ∃ t, exec (.calibrationProtectChange b) s = .next t ∧ t.protectLine = b ∧ t.supplyLowLine = s.supplyLowLine ∧
      s.unchangedBut t [.guardLines])

/-! ## Port R -/

/-- The commands of Port R in COMMAND mode, judged by the first byte: the status repeated; records from the oldest, or fill, once
the byte after the command is due, and until then no transfer begun; READ RECORDS STREAM also sets STREAM mode; any other byte,
0xE5 among them, executes nothing, and the zero that went out with the byte stands alone. The same by the fall of select and the
bits of the first byte, of which fewer than eight execute nothing. In STARTING the read is one of fill alone, whatever comes before its next byte, and the mode
stays. How such a read is held, and that a row says whether the next byte is due, is the model's choice (assumption log 11). -/
def Obligations.PortRCommands : Prop :=
  ∀ s : State, s.resetLine = false → s.rr.mode = .command → s.portR.selection = .idle →
    let reads (t : State) (code : Byte) (begun : Bool) : Prop :=
      t.portR.selection = .selected [code] [] ∧
      t.portR.reading = (if s.pe.frameState = .starting then some { reply := [0], repeated := true, position := 0 }
        else some { reply := [], repeated := false, position := 0 }) ∧
      t.portR.shifted = [0] ∧ t.rr.ring = s.rr.ring ∧ s.unchangedBut t [.portR] ∧
      (begun = false → t.rr.fill = false ∧ t.rr.readBuffer = none) ∧
      (begun = true → s.pe.frameState = .starting ∨ s.rr.ring = [] → t.rr.fill = true ∧ t.rr.readBuffer = none) ∧
      (∀ r rest, begun = true → s.pe.frameState ≠ .starting → s.rr.ring = r :: rest →
        t.rr.readBuffer = some { record := r, position := 0 } ∧ t.rr.fill = s.rr.fill)
    let silent (c : Instr) (code : Byte) : Prop := ∃ t, exec c s = .next t ∧ t.rr = s.rr ∧
      t.portR.selection = .selected [code] [] ∧ t.portR.reading = none ∧ t.portR.shifted = [0] ∧ s.unchangedBut t [.portR]
    (∃ t, exec .portRReadStatus s = .next t ∧ t.rr = s.rr ∧ t.portR.selection = .selected [0x0C] [] ∧
      t.portR.reading = some
        { reply :=
            [BitVec.ofNat 8 s.rr.ring.length, BitVec.ofNat 8 ((s.rr.ring.head?.map fun r => r.opening.frameNumber.toNat).getD 0),
             0, if s.pe.frameState = .starting then 1 else 0],
          repeated := true, position := 0 } ∧
      t.portR.shifted = [0] ∧ s.unchangedBut t [.portR]) ∧
    (∀ begun, ∃ t, exec (.readRecords begun) s = .next t ∧ reads t 0x61 begun ∧ t.rr.mode = .command) ∧
    (∀ begun, ∃ t, exec (.readRecordsStream begun) s = .next t ∧ reads t 0x62 begun ∧
      t.rr.mode = if s.pe.frameState = .starting then .command else .stream) ∧
    (∀ code, code ≠ 0x0C → code ≠ 0x61 → code ≠ 0x62 → silent (.portRUnknownByte code) code) ∧
    exec (.portRUnknownByte 0x0C) s = exec .portRReadStatus s ∧
    exec (.portRUnknownByte 0x61) s = exec (.readRecords true) s ∧
    exec (.portRUnknownByte 0x62) s = exec (.readRecordsStream true) s ∧
    silent .streamExit 0xE5 ∧ exec .streamSelection s = .next s ∧
    ∃ t, exec (.selectionEnd .r .fall) s = .next t ∧ t.rr = s.rr ∧ t.portR.selection = .selected [] [] ∧ t.portR.reading = none ∧
      t.portR.shifted = [] ∧ s.unchangedBut t [.portR] ∧
      (∀ part, part.length < 8 → exec (.selectionEnd .r (.clocked part)) t =
        .next { t with portR := { t.portR with selection := .selected [] part } }) ∧
      exec (.selectionEnd .r (.clocked (byteBits 0x0C))) t = exec .portRReadStatus s ∧
      exec (.selectionEnd .r (.clocked (byteBits 0x61))) t = exec (.readRecords false) s ∧
      exec (.selectionEnd .r (.clocked (byteBits 0x62))) t = exec (.readRecordsStream false) s ∧
      ∀ code, code ≠ 0x0C → code ≠ 0x61 → code ≠ 0x62 →
        exec (.selectionEnd .r (.clocked (byteBits code))) t = exec (.portRUnknownByte code) s

/-- STREAM mode: every new selection is a read from its first byte, and the code of a command is ignored, one byte of the record
having been shifted out when it has come; the stream-exit code
as its first byte returns the port to COMMAND mode, cuts off after one byte the transfer begun, which stays in the ring, and
shifts out zeros to the end. The same by the fall of select, with which the read begins, and the bits of the first byte. -/
def Obligations.PortRStreamMode : Prop :=
  ∀ s : State, s.resetLine = false → s.rr.mode = .stream → s.pe.frameState ≠ .starting →
    let exits (t : State) (b : Option ReadBuffer) : Prop :=
      t.rr.mode = .command ∧ t.rr.readBuffer = none ∧ t.rr.ring = s.rr.ring ∧ t.portR.reading = none ∧
      t.portR.selection = .selected [0xE5] [] ∧ (∀ x, b = some x → t.portR.shifted = x.record.bytes.take 1) ∧
      (b = none → t.portR.shifted = [0]) ∧ s.unchangedBut t [.portR]
    (s.portR.selection = .idle →
      (∀ c received,
        (c = .streamSelection ∧ received = []) ∨ (c = .portRReadStatus ∧ received = [0x0C]) ∨
          (∃ begun, c = .readRecords begun ∧ received = [0x61]) ∨ (∃ begun, c = .readRecordsStream begun ∧ received = [0x62]) ∨
          (∃ code, code ≠ 0xE5 ∧ c = .portRUnknownByte code ∧ received = [code]) →
        ∃ t, exec c s = .next t ∧ t.rr.mode = .stream ∧ t.portR.selection = .selected received [] ∧
          t.portR.reading.isSome = true ∧ t.rr.ring = s.rr.ring ∧ s.unchangedBut t [.portR] ∧
          (s.rr.ring = [] → t.rr.fill = true ∧ t.rr.readBuffer = none ∧ t.portR.shifted = List.replicate received.length 0) ∧
          ∀ r rest, s.rr.ring = r :: rest → t.rr.readBuffer = some { record := r, position := received.length } ∧
            t.portR.shifted = r.bytes.take received.length) ∧
      (∃ t, exec .streamExit s = .next t ∧ exits t (s.rr.ring.head?.map fun r => { record := r, position := 0 })) ∧
      exec (.selectionEnd .r .fall) s = exec .streamSelection s ∧
      ∃ t, exec .streamSelection s = .next t ∧
        exec (.selectionEnd .r (.clocked (byteBits 0xE5))) t = exec .streamExit s ∧
        ∀ code, code ≠ 0xE5 → exec (.selectionEnd .r (.clocked (byteBits code))) t = exec (.portRUnknownByte code) s) ∧
    (s.portR.selection ≠ .idle → s.portR.firstByteTaken = false → ∃ t, exec .streamExit s = .next t ∧ exits t s.rr.readBuffer)

/-- A transfer on Port R, byte by byte, and its ends. While bytes short of the last are shifted out, the position counts them and
nothing leaves the ring. At its last byte a record leaves the ring if it is still the oldest there, the read buffer is
emptied, and no transfer has begun; with the next byte the transfer of the record that is then the oldest begins, or fill; fill
for a read taken in STARTING, though the part has left STARTING since. A rise inside a transfer, at any byte, removes nothing,
nor does one between transfers. Every rise clears the fill marker and the read buffer, and a new command implies the rise before
it (the model's choice, assumption log 8). Eight bits clocked are one byte of these: the byte of a record, the last among them, with
whose first bit a transfer that is due begins; a zero of fill; a byte of the repeated status; or 0. The moments, and how a read taken in STARTING is held, are the model's choice too
(assumption log 11). -/
def Obligations.TransfersEnd : Prop :=
  ∀ s : State,
    (∀ b, s.rr.readBuffer = some b →
      (∃ t, exec (.recordTransferEnd .lastByte) s = .next t ∧ t.portR.shifted = s.portR.shifted ++ b.record.bytes.drop b.position ∧
        t.portR.selection = s.portR.selection ∧ t.portR.reading = s.portR.reading ∧
        t.rr.mode = s.rr.mode ∧ s.unchangedBut t [.portR, .records] ∧ t.rr.openRecord = s.rr.openRecord ∧
        (∀ r rest, s.rr.ring = r :: rest → r.opening.frameNumber = b.record.opening.frameNumber → t.rr.ring = rest) ∧
        ((∀ r rest, s.rr.ring = r :: rest → r.opening.frameNumber ≠ b.record.opening.frameNumber) →
          t.rr.ring = s.rr.ring) ∧
        t.rr.readBuffer = none ∧ t.rr.fill = s.rr.fill ∧
        exec (.recordTransferEnd .lastAndNext) s = exec (.recordTransferEnd .nextByte) t) ∧
      exec (.recordTransferEnd .nextByte) s = .next s ∧
      (∀ count, ∃ t k, exec (.recordTransferEnd (.shifting count)) s = .next t ∧
        (b.position + count < b.record.length → k = b.position + count) ∧
        (b.record.length ≤ b.position + count → k + 1 = b.record.length) ∧
        t.rr.readBuffer = some { record := b.record, position := k } ∧
        t.portR.shifted = s.portR.shifted ++ (b.record.bytes.take k).drop b.position ∧
        t.portR.selection = s.portR.selection ∧ t.portR.reading = s.portR.reading ∧
        (t.portR.firstByteTaken = true ↔ s.portR.firstByteTaken = true ∨ 0 < count) ∧
        t.rr.ring = s.rr.ring ∧ t.rr.mode = s.rr.mode ∧ t.rr.fill = s.rr.fill ∧ s.unchangedBut t [.portR]) ∧
      ∀ count, ∃ t, exec (.transferCutOff count) s = .next t ∧ t.rr.readBuffer = none ∧ t.rr.fill = false ∧
        t.rr.ring = s.rr.ring ∧ t.rr.mode = s.rr.mode ∧ t.portR.selection = .idle ∧ t.portR.reading = none ∧
        (∃ k, k < b.record.length ∧ (count < b.record.length → k = count) ∧
          t.portR.shifted = s.portR.shifted ++ (b.record.bytes.take k).drop b.position) ∧
        s.unchangedBut t [.portR]) ∧
    (s.rr.readBuffer = none →
      let records : Prop := s.portR.reading = some { reply := [], repeated := false, position := 0 }
      let fillAlone : Prop := s.portR.reading = some { reply := [0], repeated := true, position := 0 }
      let due : Prop := s.portR.selection ≠ .idle ∧ (records ∨ fillAlone) ∧ s.rr.fill = false
      (s.rr.fill = false → ∀ count, exec (.recordTransferEnd (.shifting count)) s = .next s) ∧
      (s.rr.fill = true → ∀ count, exec (.recordTransferEnd (.shifting count)) s =
        .next { s with portR := { s.portR with
          firstByteTaken := s.portR.firstByteTaken || decide (0 < count),
          shifted := s.portR.shifted ++ List.replicate count 0 } }) ∧
      exec (.recordTransferEnd .lastByte) s = .next s ∧
      exec (.recordTransferEnd .lastAndNext) s = exec (.recordTransferEnd .nextByte) s ∧
      (∀ count, exec (.transferCutOff count) s = .next s) ∧
      (due → ∃ t, exec (.recordTransferEnd .nextByte) s = .next t ∧ t.portR = s.portR ∧ t.rr.mode = s.rr.mode ∧
        t.rr.ring = s.rr.ring ∧ s.unchangedBut t [.portR] ∧
        (fillAlone ∨ s.rr.ring = [] → t.rr.fill = true ∧ t.rr.readBuffer = none) ∧
        ∀ r rest, records → s.rr.ring = r :: rest →
          t.rr.fill = false ∧ t.rr.readBuffer = some { record := r, position := 0 }) ∧
      (¬ due → exec (.recordTransferEnd .nextByte) s = .next s)) ∧
    (s.resetLine = false → s.portR.selection ≠ .idle → ∃ t, exec (.selectionEnd .r .rise) s = .next t ∧ t.rr.readBuffer = none ∧
      t.rr.fill = false ∧ t.rr.ring = s.rr.ring ∧ t.rr.mode = s.rr.mode ∧ t.portR.selection = .idle ∧
      t.portR.reading = none ∧ t.portR.firstByteTaken = false ∧ t.portR.shifted = s.portR.shifted ∧
      s.unchangedBut t [.portR] ∧
      ∀ c, c = .portRReadStatus ∨ (∃ begun, c = .readRecords begun) ∨ (∃ begun, c = .readRecordsStream begun) ∨
        (∃ code, c = .portRUnknownByte code) → exec c s = exec c t) ∧
    (s.portR.selection = .idle → exec (.selectionEnd .r .rise) s = .next s) ∧
    (s.resetLine = false → s.portR.firstByteTaken = true → ∀ received x, s.portR.selection = .selected received [] →
      let clock (bits : List Bool) : Instr := .selectionEnd .r (.clocked bits)
      let takes (u : State) : Prop := exec (clock (byteBits x)) s =
        .next { u with portR := { u.portR with selection := .selected (received ++ [x]) [] } }
      (∀ b, s.rr.readBuffer = some b →
        (b.position + 1 < b.record.length → ∃ u, exec (.recordTransferEnd (.shifting 1)) s = .next u ∧ takes u) ∧
        (b.record.length ≤ b.position + 1 → ∃ u, exec (.recordTransferEnd .lastByte) s = .next u ∧ takes u)) ∧
      (s.rr.readBuffer = none → s.rr.fill = true → ∃ u, exec (.recordTransferEnd (.shifting 1)) s = .next u ∧ takes u) ∧
      (s.rr.readBuffer = none → s.rr.fill = false →
        (s.portR.reading = some { reply := [], repeated := false, position := 0 } ∨
            s.portR.reading = some { reply := [0], repeated := true, position := 0 } →
          ∃ u, exec (.recordTransferEnd .nextByte) s = .next u ∧ exec (clock (byteBits x)) s = exec (clock (byteBits x)) u) ∧
        (s.portR.reading = none → takes { s with portR := { s.portR with shifted := s.portR.shifted ++ [0] } }) ∧
        ∀ reply k, reply ≠ [0] → s.portR.reading = some { reply := reply, repeated := true, position := k } →
          takes { s with portR := { s.portR with
            reading := some { reply := reply, repeated := true, position := (k + 1) % reply.length },
            shifted := s.portR.shifted ++ [reply.getD (k % reply.length) 0] } }))

/-- The byte layout of a frame colour record: its length, its fixed positions, and its variable parts in their order. That the
unnamed bits of its bytes 6 and 7 are 0 is the model's choice (assumption log 27). -/
def Obligations.RecordLayout : Prop :=
  ∀ r : FrameRecord,
    let o := r.opening
    let at_ (position count : Nat) := (r.bytes.drop position).take count
    let flag (b : Bool) : Byte := if b then 1 else 0
    let part (bytes : Option (List Byte)) := bytes.getD []
    let binding (b : RecordBinding) : List Byte :=
      [BitVec.ofNat 8 b.slot.val] ++ natBytes 2 b.generation.toNat ++
        [(match b.origin with
          | .sector n => BitVec.ofNat 8 n.val | .port .c => 0x40 | .port .s => 0x41 | .builtIn => 0x42 | .noOrigin => 0xFF : Byte)]
    r.bytes.length = r.length ∧
    r.length = 86 + (if r.estimate.isSome then 2 else 0) + (if o.monitorLattice.isSome then 4 else 0) +
      3 * o.appliedChanges.length + (if r.counts.isSome then 16 else 0) ∧
    (o.appliedChanges.length ≤ 32 → 86 ≤ r.length ∧ r.length ≤ 204 ∧ bytesNat (at_ 0 2) = r.length) ∧
    at_ 2 4 = natBytes 4 o.frameNumber.toNat ∧
    at_ 6 1 = [flag r.counts.isNone + 2 * flag o.noStats + 4 * flag r.evalSkipped + 8 * flag o.deriveSat +
      16 * flag o.groupExpired + 32 * flag o.calFallback] ∧
    at_ 7 1 = [flag r.estimate.isSome + 2 * flag o.monitorLattice.isSome] ∧ at_ 8 2 = natBytes 2 o.width.toNat ∧
    at_ 10 2 = natBytes 2 o.height.toNat ∧ at_ 12 6 = natBytes 2 o.blackR ++ natBytes 2 o.blackG ++ natBytes 2 o.blackB ∧
    at_ 18 4 = natBytes 4 o.highlight ∧ at_ 22 2 = natBytes 2 o.mired ∧ at_ 24 2 = intBytes 1 o.tint ++ intBytes 1 o.exposure ∧
    at_ 26 6 = natBytes 2 o.gainR ++ natBytes 2 o.gainG ++ natBytes 2 o.gainB ∧ at_ 32 18 = o.effective.bytes ∧
    at_ 50 2 = [BitVec.ofNat 8 r.trackerMode.code, r.substate.code] ∧ at_ 52 2 = natBytes 2 r.target ∧
    at_ 54 1 = [BitVec.ofNat 8 r.votes] ∧ at_ 55 18 = o.trim.bytes ∧
    r.bytes.drop 73 =
      part (r.estimate.map (natBytes 2)) ++ binding o.programmeTone ++ binding o.monitorTone ++
      part (o.monitorLattice.map binding) ++ [BitVec.ofNat 8 o.appliedChanges.length] ++
      o.appliedChanges.flatMap (fun x => [x.source.code, x.field.id, x.outcome.code]) ++
      part (r.counts.map fun k =>
        natBytes 4 k.clipped ++ natBytes 4 k.gainClamp ++ natBytes 4 k.matrixClamp ++ natBytes 4 k.qualifying) ++
      natBytes 4 o.calibrationId.toNat

/-! ## What holds from step to step -/

/-- What stays as it was loaded or adopted: the calibration set in use and CAL_FALLBACK between a reset and the next start-up;
the frame context within a frame; and the content, generation and origin of a slot in use, until start-up or reset. -/
def Obligations.ValuesHeld : Prop :=
  ∀ (c : Instr) (s t : State), exec c s = .next t → (∀ acts, c ≠ .resetAssert acts) →
    ((∀ decayed, c ≠ .startUpCompletion decayed) →
      t.cu.calibration = s.cu.calibration ∧ t.cu.calFallback = s.cu.calFallback) ∧
    (s.pe.frameState = .inFrame → (∀ w h, c ≠ .frameStart w h) → (∀ ms, c ≠ .inputLost ms) → t.pe.context = s.pe.context) ∧
    ((∀ decayed, c ≠ .startUpCompletion decayed) → s.slotLaw → s.storeLaw → ∀ i, (s.slot i).inUse = true →
      (t.slot i).content = (s.slot i).content ∧ (t.slot i).generation = (s.slot i).generation ∧
      (t.slot i).origin = (s.slot i).origin)

/-- Every step of a good state keeps the canonical form of the memories and what start-up leaves. -/
def Obligations.MemoriesAndStartUpKept : Prop :=
  ∀ s t : State, s.lawful → step s = .next t → t.memoriesCanonical ∧ t.startingLaw

/-- Every step of a good state keeps the laws of the arbiter, the queue, the values and the derivation. -/
def Obligations.EditLawsKept : Prop :=
  ∀ s t : State, s.lawful → step s = .next t → t.arbiterLaw ∧ t.queueLaw ∧ t.rangeLaw ∧ t.derivedLaw

/-- Every step of a good state keeps the laws of the slots and the store. -/
def Obligations.SlotAndStoreLawsKept : Prop :=
  ∀ s t : State, s.lawful → step s = .next t → t.slotLaw ∧ t.contentLaw ∧ t.storeLaw

/-- Every step of a good state keeps the laws of the records, the frames and the tracker. -/
def Obligations.RecordAndFrameLawsKept : Prop :=
  ∀ s t : State, s.lawful → step s = .next t → t.recordLaw ∧ t.frameLaw ∧ t.trackerLaw

/-- The laws hold right after reset. -/
def Obligations.LawsHoldAtReset : Prop := State.reset.lawful
end

