-- ==== Sys2Proof/Laws/Operands.lean ====
section
/-! SUPPORT. What the readings of arguments and the codes give: slots and sectors, rounding and clamping, bytes, fields, flags. -/

namespace Sys2Proof.Machine

/-- An identifier above 7 names no slot (R126). -/
theorem slotOfId_none {id : Byte} (h : ¬ id.toNat ≤ 7) : slotOfId id = none := by
  unfold slotOfId; rw [dif_neg (by omega)]

/-- An identifier up to 7 names its slot (R126). -/
theorem slotOfId_some {id : Byte} (h : id.toNat ≤ 7) : slotOfId id = some (Fin.ofNat 8 id.toNat) := by
  unfold slotOfId; rw [dif_pos (by omega)]; simp [Fin.ext_iff]; omega

/-- The slot an identifier names, by its number (R126). -/
theorem slotOfId_eq {id : Byte} {i : Fin 8} (h : id.toNat = i.val) : slotOfId id = some i := by
  unfold slotOfId; rw [dif_pos (by omega)]; simp [h]

/-- A number above 63 names no sector (R143). -/
theorem sectorOfNumber_none {id : Byte} (h : ¬ id.toNat ≤ 63) : sectorOfNumber id = none := by
  unfold sectorOfNumber; rw [dif_neg (by omega)]

/-- A number up to 63 names its sector (R143). -/
theorem sectorOfNumber_some {id : Byte} (h : id.toNat ≤ 63) : sectorOfNumber id = some (Fin.ofNat 64 id.toNat) := by
  unfold sectorOfNumber; rw [dif_pos (by omega)]; simp [Fin.ext_iff]; omega

/-- The sector a number names. -/
theorem sectorOfNumber_eq {id : Byte} {i : Fin 64} (h : id.toNat = i.val) : sectorOfNumber id = some i := by
  unfold sectorOfNumber; rw [dif_pos (by omega)]; simp [h]

/-- A clamp into a range that is not empty is the middle of three. -/
theorem clampInt_eq (lo hi x : Int) (h : lo ≤ hi) : clampInt lo hi x = max lo (min x hi) := by
  unfold clampInt; split
  · omega
  · split <;> omega

/-- A clamp into a range that is not empty lies in it. -/
theorem clampNat_mem (lo hi x : Nat) (h : lo ≤ hi) : lo ≤ clampNat lo hi x ∧ clampNat lo hi x ≤ hi := by
  unfold clampNat; split
  · omega
  · split <;> omega

/-- Round half away from zero, as a floor of the magnitude (R1). -/
theorem roundHalfAway_eq (n : Int) (d : Nat) (h : 0 < d) : roundHalfAway n d = n.sign * ((n.natAbs + d / 2) / d : Nat) := by
  unfold roundHalfAway
  congr 2
  -- (2a + d) / (2d) = (a + d/2) / d
  have : (2 * n.natAbs + d) / 2 / d = (n.natAbs + d / 2) / d := by congr 1; omega
  rw [← this, Nat.div_div_eq_div_mul]

/-- Round half away from zero of a division by 4,096, by sign (R17). -/
theorem roundHalfAway_4096 (x : Int) : roundHalfAway x 4096 = if 0 ≤ x then (x + 2048) / 4096 else -((-x + 2048) / 4096) := by
  rw [roundHalfAway_eq _ _ (by decide)]
  rcases lt_trichotomy x 0 with h | h | h
  · rw [Int.sign_eq_neg_one_of_neg h, if_neg (by omega)]; omega
  · subst h; simp
  · rw [Int.sign_eq_one_of_pos h, if_pos (by omega)]; omega

/-- Bytes spell a number below their range. -/
theorem bytesNat_lt (l : List Byte) : bytesNat l < 256 ^ l.length := by
  unfold bytesNat
  have : ∀ (l : List Byte) (a : Nat), l.foldl (fun acc b => 256 * acc + b.toNat) a < (a + 1) * 256 ^ l.length := by
    intro l
    induction l with
    | nil => intro a; simp
    | cons b r ih =>
      intro a
      refine lt_of_lt_of_le (ih _) ?_
      rw [List.length_cons, pow_succ', ← mul_assoc]
      apply Nat.mul_le_mul_right
      have := b.isLt; show 256 * a + b.toNat + 1 ≤ _; omega
  simpa using this l 0

/-- An unsigned value takes the bytes asked for. -/
theorem natBytes_length (k n : Nat) : (natBytes k n).length = k := by simp [natBytes]

/-- A kind code is read back as the kind it stands for (R179). -/
theorem sectorKindOfCode_eq_some {b : Byte} {k : SectorKind} : sectorKindOfCode b = some k ↔ b = k.code := by
  constructor
  · intro h; unfold sectorKindOfCode at h
    split at h
    · next e => simp at h; subst h; subst e; rfl
    · split at h
      · next e => simp at h; subst h; subst e; rfl
      · split at h
        · next e => simp at h; subst h; subst e; rfl
        · simp at h
  · rintro rfl; cases k <;> rfl

/-- Which binding values name a slot or NONE (R87). -/
theorem namesSlot_iff (x : Field) (v : Int) : x.namesSlot v = true ↔ (0 ≤ v ∧ v ≤ 3) ∨ (x = .monitorLattice ∧ v = 255) := by
  unfold Field.namesSlot; simp

/-- Setting a field leaves every other as it was (R95). -/
theorem Fields.get_set_of_ne (f : Fields) (x y : Field) (v : Int) (h : x ≠ y) : (f.set x v).get y = f.get y := by
  cases x <;> cases y <;> first | rfl | exact absurd rfl h

/-- A field set to a value it can hold reads back that value (R95, R103). -/
theorem Fields.get_set_of_holds (cal : Option CalibrationSet) (f : Fields) (x : Field) (v : Int) (h : x.holds cal v) : (f.set x v).get x = v := by
  have hmode : ∀ v : Int, 0 ≤ v → v ≤ 2 → ((trackerModeOf v).code : Int) = v := by
    intro v h1 h2
    rcases (by omega : v = 0 ∨ v = 1 ∨ v = 2) with rfl | rfl | rfl <;> decide
  have hslot : ∀ v : Int, 0 ≤ v → v ≤ 3 → ((slotWithinKind v).val : Int) = v := by
    intro v h1 h2
    rcases (by omega : v = 0 ∨ v = 1 ∨ v = 2 ∨ v = 3) with rfl | rfl | rfl | rfl <;> decide
  cases x <;> simp [Field.holds, Field.isBinding, Field.range, Field.namesSlot, Fields.get, Fields.set] at h ⊢
  all_goals first
    | omega
    | exact hmode v h.1 h.2
    | exact hslot v h.1 h.2
    | skip
  rcases h with h | rfl
  · have : v ≠ 255 := by omega
    simp [latticeBindingOf, this, latticeBindingValue, hslot v h.1 h.2]
  · rfl

/-- A byte of two flags, as a sum. -/
theorem bitsByte_two (a b : Bool) : bitsByte [a, b] = (if a then 1 else 0) + 2 * (if b then 1 else 0 : Byte) := by cases a <;> cases b <;> rfl

/-- A byte of three flags, as a sum. -/
theorem bitsByte_three (a b c : Bool) : bitsByte [a, b, c] = (if a then 1 else 0) + 2 * (if b then 1 else 0 : Byte) + 4 * (if c then 1 else 0 : Byte) := by cases a <;> cases b <;> cases c <;> rfl

/-- A byte of two flags, as a number. -/
theorem bitsByte_two_nat (a b : Bool) : bitsByte [a, b] = BitVec.ofNat 8 ((if a then 1 else 0) + if b then 2 else 0) := by cases a <;> cases b <;> rfl

end Sys2Proof.Machine
end

