-- ==== Sys2Proof/Laws/Ops.lean ====
section
/-! SUPPORT. Laws of the named operations: tables, byte memories, page marks. Each memory operation has a lemma on what a
read finds after it, and one that it keeps the canonical form. -/

namespace Sys2Proof.Machine

/-! ## Tables -/

theorem Tab.get_set {α : Type} {n : Nat} (t : Tab α n) (i j : Fin n) (x : α) :
    (t.set i x).get j = if i = j then x else t.get j := by
  simp only [Tab.get, Tab.set, List.getElem_set, Fin.ext_iff]

@[simp] theorem Tab.get_set_self {α : Type} {n : Nat} (t : Tab α n) (i : Fin n) (x : α) : (t.set i x).get i = x := by
  simp [Tab.get_set]

theorem Tab.get_set_of_ne {α : Type} {n : Nat} (t : Tab α n) {i j : Fin n} (x : α) (h : i ≠ j) :
    (t.set i x).get j = t.get j := by simp [Tab.get_set, h]

@[simp] theorem Tab.get_ofFn {α : Type} {n : Nat} (f : Fin n → α) (i : Fin n) : (Tab.ofFn f).get i = f i := by
  simp [Tab.get, Tab.ofFn]

@[simp] theorem Tab.get_map {α β : Type} {n : Nat} (f : α → β) (t : Tab α n) (i : Fin n) : (t.map f).get i = f (t.get i) := by
  simp [Tab.get, Tab.map]

@[simp] theorem Tab.get_replicate {α : Type} {n : Nat} (x : α) (i : Fin n) : (Tab.replicate n x).get i = x := by
  simp [Tab.get, Tab.replicate]

theorem Tab.ext_get {α : Type} {n : Nat} {t u : Tab α n} (h : ∀ i, t.get i = u.get i) : t = u := by
  obtain ⟨l, hl⟩ := t
  obtain ⟨m, hm⟩ := u
  have : l = m := by
    apply List.ext_getElem (by rw [hl, hm])
    intro i h1 h2
    exact h ⟨i, by rw [← hl]; exact h1⟩
  subst this
  rfl

theorem Tab.set_get_self {α : Type} {n : Nat} (t : Tab α n) (i : Fin n) : t.set i (t.get i) = t := by
  apply Tab.ext_get
  intro j
  rw [Tab.get_set]
  split
  · next h => rw [h]
  · rfl

/-! ## Reads of byte memories -/

namespace Memory

@[simp] theorem read_nil (fill : Byte) (a : Nat) : Memory.read fill [] a = fill := rfl

theorem read_cons (fill : Byte) (x : Nat) (b : Byte) (m : Memory) (a : Nat) :
    Memory.read fill ((x, b) :: m) a = if x = a then b else Memory.read fill m a := rfl

theorem read_eq_fill {fill : Byte} {m : Memory} {a : Nat} (h : ∀ c ∈ m, c.1 ≠ a) : Memory.read fill m a = fill := by
  induction m with
  | nil => rfl
  | cons c rest ih =>
    obtain ⟨x, b⟩ := c
    rw [read_cons, if_neg (h (x, b) (by simp))]
    exact ih fun d hd => h d (by simp [hd])

theorem read_append_left {fill : Byte} {m n : Memory} {a : Nat} (h : ∀ c ∈ n, c.1 ≠ a) :
    Memory.read fill (m ++ n) a = Memory.read fill m a := by
  induction m with
  | nil => simpa using read_eq_fill h
  | cons c rest ih =>
    obtain ⟨x, b⟩ := c
    simp only [List.cons_append, read_cons, ih]

theorem read_append_right {fill : Byte} {m n : Memory} {a : Nat} (h : ∀ c ∈ m, c.1 ≠ a) :
    Memory.read fill (m ++ n) a = Memory.read fill n a := by
  induction m with
  | nil => rfl
  | cons c rest ih =>
    obtain ⟨x, b⟩ := c
    simp only [List.cons_append, read_cons]
    rw [if_neg (h (x, b) (by simp))]
    exact ih fun d hd => h d (by simp [hd])

theorem read_filter (fill : Byte) (m : Memory) (p : Nat → Bool) (a : Nat) :
    Memory.read fill (m.filter fun c => p c.1) a = if p a then Memory.read fill m a else fill := by
  induction m with
  | nil => simp
  | cons c rest ih =>
    obtain ⟨x, b⟩ := c
    by_cases hx : p x
    · simp only [List.filter_cons, hx, if_true, read_cons, ih]
      by_cases hxa : x = a
      · subst hxa; simp [hx]
      · simp [hxa]
    · simp only [List.filter_cons, hx, read_cons, Bool.false_eq_true, if_false, ih]
      by_cases hxa : x = a
      · subst hxa; simp [hx]
      · simp [hxa]

theorem ofRun_cons (fill : Byte) (base : Nat) (b : Byte) (rest : List Byte) :
    Memory.ofRun fill base (b :: rest) =
      if b = fill then Memory.ofRun fill (base + 1) rest else (base, b) :: Memory.ofRun fill (base + 1) rest := rfl

theorem mem_ofRun {fill : Byte} {base : Nat} {bytes : List Byte} {c : Host.Cell} (h : c ∈ Memory.ofRun fill base bytes) :
    base ≤ c.1 ∧ c.1 < base + bytes.length ∧ c.2 ≠ fill := by
  induction bytes generalizing base with
  | nil => simp [Memory.ofRun] at h
  | cons b rest ih =>
    rw [ofRun_cons] at h
    simp only [List.length_cons]
    split at h
    · have := ih h
      exact ⟨by omega, by omega, this.2.2⟩
    · next hb =>
      rcases List.mem_cons.1 h with rfl | h
      · exact ⟨Nat.le_refl _, by simp, hb⟩
      · have := ih h
        exact ⟨by omega, by omega, this.2.2⟩

/-- What a read finds in a run of bytes laid down from `base`. -/
theorem read_ofRun (fill : Byte) (base : Nat) (bytes : List Byte) (a : Nat) :
    Memory.read fill (Memory.ofRun fill base bytes) a =
      if base ≤ a ∧ a < base + bytes.length then bytes.getD (a - base) fill else fill := by
  induction bytes generalizing base with
  | nil => simp [Memory.ofRun]
  | cons b rest ih =>
    have key : Memory.read fill (Memory.ofRun fill base (b :: rest)) a =
        if base = a then b else Memory.read fill (Memory.ofRun fill (base + 1) rest) a := by
      rw [ofRun_cons]
      split
      · next hb =>
        split
        · next hba =>
          subst hba
          rw [read_eq_fill fun c hc => by have := mem_ofRun hc; omega, hb]
        · rfl
      · exact read_cons ..
    rw [key, ih]
    by_cases hba : base = a
    · subst hba; simp
    · by_cases h : base + 1 ≤ a ∧ a < base + 1 + rest.length
      · rw [if_neg hba, if_pos h, if_pos (by simp only [List.length_cons]; omega)]
        obtain ⟨k, rfl⟩ : ∃ k, a = base + 1 + k := ⟨a - (base + 1), by omega⟩
        simp [show base + 1 + k - base = k + 1 by omega]
      · rw [if_neg hba, if_neg h, if_neg (by simp only [List.length_cons]; omega)]

/-- What a read finds after a run of bytes is written: the byte written there, or what was there before. -/
theorem read_writeRun (fill : Byte) (m : Memory) (base : Nat) (bytes : List Byte) (a : Nat) :
    Memory.read fill (Memory.writeRun fill m base bytes) a =
      if base ≤ a ∧ a < base + bytes.length then bytes.getD (a - base) fill else Memory.read fill m a := by
  unfold Memory.writeRun
  by_cases h1 : a < base
  · rw [read_append_left (by intro c hc; simp at hc; omega), read_append_left (by intro c hc; have := mem_ofRun hc; omega)]
    rw [read_filter fill m (fun x => decide (x < base))]
    rw [if_pos (by simpa using h1), if_neg (by omega)]
  · by_cases h2 : base + bytes.length ≤ a
    · rw [read_append_right (by
        intro c hc
        rcases List.mem_append.1 hc with hc | hc
        · simp at hc; omega
        · have := mem_ofRun hc; omega)]
      rw [read_filter fill m (fun x => decide (base + bytes.length ≤ x))]
      rw [if_pos (by simpa using h2), if_neg (by omega)]
    · rw [read_append_left (by intro c hc; simp at hc; omega), read_append_right (by intro c hc; simp at hc; omega), read_ofRun]
      rw [if_pos (by omega), if_pos (by omega)]

theorem read_write (fill : Byte) (m : Memory) (x : Nat) (b : Byte) (a : Nat) :
    Memory.read fill (Memory.write fill m x b) a = if x = a then b else Memory.read fill m a := by
  unfold Memory.write
  rw [read_writeRun]
  by_cases h : x = a
  · subst h; simp
  · rw [if_neg h, if_neg (by simp only [List.length_singleton]; omega)]

/-- What a read finds after a run of addresses is cleared. -/
theorem read_clearRun (fill : Byte) (m : Memory) (base count : Nat) (a : Nat) :
    Memory.read fill (Memory.clearRun m base count) a =
      if base ≤ a ∧ a < base + count then fill else Memory.read fill m a := by
  unfold Memory.clearRun
  rw [read_filter fill m (fun x => decide (x < base) || decide (base + count ≤ x))]
  by_cases h : base ≤ a ∧ a < base + count
  · rw [if_pos h, if_neg (by simp; omega)]
  · rw [if_neg h, if_pos (by simp; omega)]

/-! ## The canonical form is kept -/

theorem wf_nil (fill : Byte) : Memory.wf fill [] := ⟨List.Pairwise.nil, by simp⟩

theorem wf_ofRun (fill : Byte) (base : Nat) (bytes : List Byte) : Memory.wf fill (Memory.ofRun fill base bytes) := by
  refine ⟨?_, fun c hc => (mem_ofRun hc).2.2⟩
  induction bytes generalizing base with
  | nil => exact List.Pairwise.nil
  | cons b rest ih =>
    rw [ofRun_cons]
    split
    · exact ih _
    · refine List.Pairwise.cons (fun c hc => ?_) (ih _)
      have := mem_ofRun hc
      exact this.1

theorem wf_filter {fill : Byte} {m : Memory} (p : Host.Cell → Bool) (h : Memory.wf fill m) : Memory.wf fill (m.filter p) :=
  ⟨h.1.filter _, fun c hc => h.2 c (List.mem_filter.1 hc).1⟩

theorem wf_append {fill : Byte} {m n : Memory} (hm : Memory.wf fill m) (hn : Memory.wf fill n)
    (h : ∀ c ∈ m, ∀ d ∈ n, c.1 < d.1) : Memory.wf fill (m ++ n) :=
  ⟨List.pairwise_append.2 ⟨hm.1, hn.1, h⟩, fun c hc => (List.mem_append.1 hc).elim (hm.2 c) (hn.2 c)⟩

theorem wf_writeRun {fill : Byte} {m : Memory} (base : Nat) (bytes : List Byte) (h : Memory.wf fill m) :
    Memory.wf fill (Memory.writeRun fill m base bytes) := by
  unfold Memory.writeRun
  refine wf_append (wf_append (wf_filter _ h) (wf_ofRun ..) ?_) (wf_filter _ h) ?_
  · intro c hc d hd
    simp at hc
    have := mem_ofRun hd
    omega
  · intro c hc d hd
    simp at hd
    rcases List.mem_append.1 hc with hc | hc
    · simp at hc; omega
    · have := mem_ofRun hc; omega

theorem wf_write {fill : Byte} {m : Memory} (a : Nat) (b : Byte) (h : Memory.wf fill m) :
    Memory.wf fill (Memory.write fill m a b) := wf_writeRun a [b] h

theorem wf_clearRun {fill : Byte} {m : Memory} (base count : Nat) (h : Memory.wf fill m) :
    Memory.wf fill (Memory.clearRun m base count) := wf_filter _ h

theorem wf_slotContent (count : Nat) (f : Nat → Nat) : Memory.wf slotFill (slotContent count f) := wf_ofRun ..

theorem length_readRun (fill : Byte) (m : Memory) (base count : Nat) : (Memory.readRun fill m base count).length = count := by
  simp [Memory.readRun]

end Memory

/-! ## Slot content -/


end Sys2Proof.Machine
end

