-- ==== Sys2Proof/Laws/Slots.lean ====
section
/-! SUPPORT. Laws of slot content: what is read back after content is formed, written, clamped. -/

namespace Sys2Proof.Machine

theorem slotByteCount_eq (i : Fin 8) : slotByteCount i = if i.val < 4 then 29478 else 1666 := by
  unfold slotByteCount slotValueCount isLatticeSlot
  by_cases h : i.val < 4 <;> simp [h]

theorem slotValue_le (content : Memory) (k : Nat) : slotValue content k ≤ 65535 := by
  unfold slotValue
  have h1 := (Memory.read slotFill content (2 * k)).isLt
  have h2 := (Memory.read slotFill content (2 * k + 1)).isLt
  omega

/-- A list of pairs laid end to end: the first of pair `k` stands at `2 × k`, the second after it. -/
theorem getD_flatMap_pair {α : Type} (count : Nat) (f g : Nat → α) (k : Nat) (d : α) (h : k < count) :
    ((List.range count).flatMap fun j => [f j, g j]).getD (2 * k) d = f k ∧
      ((List.range count).flatMap fun j => [f j, g j]).getD (2 * k + 1) d = g k := by
  induction count with
  | zero => omega
  | succ n ih =>
    have hl : ((List.range n).flatMap fun j => [f j, g j]).length = 2 * n := by
      rw [List.length_flatMap]; simp [Nat.mul_comm]
    rw [List.range_succ, List.flatMap_append]
    simp only [List.flatMap_cons, List.flatMap_nil, List.append_nil]
    by_cases hk : k < n
    · have := ih hk
      constructor
      · rw [List.getD_append _ _ _ _ (by omega)]; exact this.1
      · rw [List.getD_append _ _ _ _ (by omega)]; exact this.2
    · have hkn : k = n := by omega
      subst hkn
      constructor
      · rw [List.getD_append_right _ _ _ _ (by omega)]; simp [hl]
      · rw [List.getD_append_right _ _ _ _ (by omega)]; simp [hl]

/-- The value read from content formed of the values `f 0`, `f 1`, …, each below 65,536. -/
theorem slotValue_slotContent (count : Nat) (f : Nat → Nat) (k : Nat) (hk : k < count) (hf : f k < 65536) :
    slotValue (slotContent count f) k = f k := by
  have hlen : ((List.range count).flatMap fun j => [BitVec.ofNat 8 (f j / 256), BitVec.ofNat 8 (f j)]).length = 2 * count := by
    rw [List.length_flatMap]; simp [Nat.mul_comm]
  have hp := getD_flatMap_pair count (fun j => BitVec.ofNat 8 (f j / 256)) (fun j => BitVec.ofNat 8 (f j)) k slotFill hk
  unfold slotValue slotContent
  rw [Memory.read_ofRun, Memory.read_ofRun, hlen, if_pos (by omega), if_pos (by omega), Nat.sub_zero, Nat.sub_zero, hp.1, hp.2]
  simp only [BitVec.toNat_ofNat]
  omega

/-- The value read from clamped content. -/
theorem slotValue_clampContent (i : Fin 8) (content : Memory) (k : Nat) (hk : k < slotValueCount i) :
    slotValue (clampContent i content) k = min (slotValue content k) 4095 := by
  unfold clampContent
  rw [slotValue_slotContent _ _ _ hk]
  omega

theorem wf_clampContent (i : Fin 8) (content : Memory) : Memory.wf slotFill (clampContent i content) :=
  Memory.wf_slotContent ..

theorem exceeds4095_eq_false {i : Fin 8} {content : Memory} (h : exceeds4095 i content = false) (k : Nat)
    (hk : k < slotValueCount i) : slotValue content k ≤ 4095 := by
  unfold exceeds4095 at h
  have := List.any_eq_false.1 h k (List.mem_range.2 hk)
  simpa using this

end Sys2Proof.Machine
end

