-- ==== Sys2Proof/Laws/State.lean ====
section
/-! SUPPORT. One lemma per field and named update of State: what the update leaves, and what it sets. Tagged for simp, so
that no later proof unfolds a record update. -/

namespace Sys2Proof.Machine

@[simp] theorem State.setPort_pending (s : State) (p : Port) (x : PortState) : (s.setPort p x).pending = s.pending := by cases p <;> rfl

@[simp] theorem State.setLastResult_pending (s : State) (p : Port) (r : Result) : (s.setLastResult p r).pending = s.pending := by cases p <;> rfl

@[simp] theorem State.setWriteEnable_pending (s : State) (p : Port) (b : Bool) : (s.setWriteEnable p b).pending = s.pending := by cases p <;> rfl

@[simp] theorem State.setPort_resetLine (s : State) (p : Port) (x : PortState) : (s.setPort p x).resetLine = s.resetLine := by cases p <;> rfl

@[simp] theorem State.setLastResult_resetLine (s : State) (p : Port) (r : Result) : (s.setLastResult p r).resetLine = s.resetLine := by cases p <;> rfl

@[simp] theorem State.setWriteEnable_resetLine (s : State) (p : Port) (b : Bool) : (s.setWriteEnable p b).resetLine = s.resetLine := by cases p <;> rfl

@[simp] theorem State.setPort_protectLine (s : State) (p : Port) (x : PortState) : (s.setPort p x).protectLine = s.protectLine := by cases p <;> rfl

@[simp] theorem State.setLastResult_protectLine (s : State) (p : Port) (r : Result) : (s.setLastResult p r).protectLine = s.protectLine := by cases p <;> rfl

@[simp] theorem State.setWriteEnable_protectLine (s : State) (p : Port) (b : Bool) : (s.setWriteEnable p b).protectLine = s.protectLine := by cases p <;> rfl

@[simp] theorem State.setPort_supplyLowLine (s : State) (p : Port) (x : PortState) : (s.setPort p x).supplyLowLine = s.supplyLowLine := by cases p <;> rfl

@[simp] theorem State.setLastResult_supplyLowLine (s : State) (p : Port) (r : Result) : (s.setLastResult p r).supplyLowLine = s.supplyLowLine := by cases p <;> rfl

@[simp] theorem State.setWriteEnable_supplyLowLine (s : State) (p : Port) (b : Bool) : (s.setWriteEnable p b).supplyLowLine = s.supplyLowLine := by cases p <;> rfl

@[simp] theorem State.setPort_pe (s : State) (p : Port) (x : PortState) : (s.setPort p x).pe = s.pe := by cases p <;> rfl

@[simp] theorem State.setLastResult_pe (s : State) (p : Port) (r : Result) : (s.setLastResult p r).pe = s.pe := by cases p <;> rfl

@[simp] theorem State.setWriteEnable_pe (s : State) (p : Port) (b : Bool) : (s.setWriteEnable p b).pe = s.pe := by cases p <;> rfl

@[simp] theorem State.setPort_zsa (s : State) (p : Port) (x : PortState) : (s.setPort p x).zsa = s.zsa := by cases p <;> rfl

@[simp] theorem State.setLastResult_zsa (s : State) (p : Port) (r : Result) : (s.setLastResult p r).zsa = s.zsa := by cases p <;> rfl

@[simp] theorem State.setWriteEnable_zsa (s : State) (p : Port) (b : Bool) : (s.setWriteEnable p b).zsa = s.zsa := by cases p <;> rfl

@[simp] theorem State.setPort_it (s : State) (p : Port) (x : PortState) : (s.setPort p x).it = s.it := by cases p <;> rfl

@[simp] theorem State.setLastResult_it (s : State) (p : Port) (r : Result) : (s.setLastResult p r).it = s.it := by cases p <;> rfl

@[simp] theorem State.setWriteEnable_it (s : State) (p : Port) (b : Bool) : (s.setWriteEnable p b).it = s.it := by cases p <;> rfl

@[simp] theorem State.setPort_cu (s : State) (p : Port) (x : PortState) : (s.setPort p x).cu = s.cu := by cases p <;> rfl

@[simp] theorem State.setLastResult_cu (s : State) (p : Port) (r : Result) : (s.setLastResult p r).cu = s.cu := by cases p <;> rfl

@[simp] theorem State.setWriteEnable_cu (s : State) (p : Port) (b : Bool) : (s.setWriteEnable p b).cu = s.cu := by cases p <;> rfl

@[simp] theorem State.setPort_ca (s : State) (p : Port) (x : PortState) : (s.setPort p x).ca = s.ca := by cases p <;> rfl

@[simp] theorem State.setLastResult_ca (s : State) (p : Port) (r : Result) : (s.setLastResult p r).ca = s.ca := by cases p <;> rfl

@[simp] theorem State.setWriteEnable_ca (s : State) (p : Port) (b : Bool) : (s.setWriteEnable p b).ca = s.ca := by cases p <;> rfl

@[simp] theorem State.setPort_slots (s : State) (p : Port) (x : PortState) : (s.setPort p x).slots = s.slots := by cases p <;> rfl

@[simp] theorem State.setLastResult_slots (s : State) (p : Port) (r : Result) : (s.setLastResult p r).slots = s.slots := by cases p <;> rfl

@[simp] theorem State.setWriteEnable_slots (s : State) (p : Port) (b : Bool) : (s.setWriteEnable p b).slots = s.slots := by cases p <;> rfl

@[simp] theorem State.setPort_store (s : State) (p : Port) (x : PortState) : (s.setPort p x).store = s.store := by cases p <;> rfl

@[simp] theorem State.setLastResult_store (s : State) (p : Port) (r : Result) : (s.setLastResult p r).store = s.store := by cases p <;> rfl

@[simp] theorem State.setWriteEnable_store (s : State) (p : Port) (b : Bool) : (s.setWriteEnable p b).store = s.store := by cases p <;> rfl

@[simp] theorem State.setPort_directory (s : State) (p : Port) (x : PortState) : (s.setPort p x).directory = s.directory := by cases p <;> rfl

@[simp] theorem State.setLastResult_directory (s : State) (p : Port) (r : Result) : (s.setLastResult p r).directory = s.directory := by cases p <;> rfl

@[simp] theorem State.setWriteEnable_directory (s : State) (p : Port) (b : Bool) : (s.setWriteEnable p b).directory = s.directory := by cases p <;> rfl

@[simp] theorem State.setPort_controller (s : State) (p : Port) (x : PortState) : (s.setPort p x).controller = s.controller := by cases p <;> rfl

@[simp] theorem State.setLastResult_controller (s : State) (p : Port) (r : Result) : (s.setLastResult p r).controller = s.controller := by cases p <;> rfl

@[simp] theorem State.setWriteEnable_controller (s : State) (p : Port) (b : Bool) : (s.setWriteEnable p b).controller = s.controller := by cases p <;> rfl

@[simp] theorem State.setPort_recallEngine (s : State) (p : Port) (x : PortState) : (s.setPort p x).recallEngine = s.recallEngine := by cases p <;> rfl

@[simp] theorem State.setLastResult_recallEngine (s : State) (p : Port) (r : Result) : (s.setLastResult p r).recallEngine = s.recallEngine := by cases p <;> rfl

@[simp] theorem State.setWriteEnable_recallEngine (s : State) (p : Port) (b : Bool) : (s.setWriteEnable p b).recallEngine = s.recallEngine := by cases p <;> rfl

@[simp] theorem State.setPort_rr (s : State) (p : Port) (x : PortState) : (s.setPort p x).rr = s.rr := by cases p <;> rfl

@[simp] theorem State.setLastResult_rr (s : State) (p : Port) (r : Result) : (s.setLastResult p r).rr = s.rr := by cases p <;> rfl

@[simp] theorem State.setWriteEnable_rr (s : State) (p : Port) (b : Bool) : (s.setWriteEnable p b).rr = s.rr := by cases p <;> rfl

@[simp] theorem State.setPort_portR (s : State) (p : Port) (x : PortState) : (s.setPort p x).portR = s.portR := by cases p <;> rfl

@[simp] theorem State.setLastResult_portR (s : State) (p : Port) (r : Result) : (s.setLastResult p r).portR = s.portR := by cases p <;> rfl

@[simp] theorem State.setWriteEnable_portR (s : State) (p : Port) (b : Bool) : (s.setWriteEnable p b).portR = s.portR := by cases p <;> rfl

@[simp] theorem State.setPort_freeIndex (s : State) (p : Port) (x : PortState) : (s.setPort p x).freeIndex = s.freeIndex := by cases p <;> rfl

@[simp] theorem State.setLastResult_freeIndex (s : State) (p : Port) (r : Result) : (s.setLastResult p r).freeIndex = s.freeIndex := by cases p <;> rfl

@[simp] theorem State.setWriteEnable_freeIndex (s : State) (p : Port) (b : Bool) : (s.setWriteEnable p b).freeIndex = s.freeIndex := by cases p <;> rfl

@[simp] theorem State.port_setPort_self (s : State) (p : Port) (x : PortState) : (s.setPort p x).port p = x := by
  cases p <;> rfl

@[simp] theorem State.port_setPort_of_ne (s : State) {p q : Port} (x : PortState) (h : p ≠ q) :
    (s.setPort p x).port q = s.port q := by cases p <;> cases q <;> first | rfl | exact absurd rfl h

theorem State.port_setPort (s : State) (p q : Port) (x : PortState) :
    (s.setPort p x).port q = if p = q then x else s.port q := by
  cases p <;> cases q <;> rfl

@[simp] theorem State.setPort_setPort (s : State) (p : Port) (x y : PortState) : (s.setPort p x).setPort p y = s.setPort p y := by
  cases p <;> rfl

@[simp] theorem State.setPort_port (s : State) (p : Port) : s.setPort p (s.port p) = s := by cases p <;> rfl

@[simp] theorem State.restartInactivity_pending (s : State) (p : Port) : (s.restartInactivity p).pending = s.pending := by unfold State.restartInactivity; split <;> rfl

@[simp] theorem State.restartInactivity_resetLine (s : State) (p : Port) : (s.restartInactivity p).resetLine = s.resetLine := by unfold State.restartInactivity; split <;> rfl

@[simp] theorem State.restartInactivity_protectLine (s : State) (p : Port) : (s.restartInactivity p).protectLine = s.protectLine := by unfold State.restartInactivity; split <;> rfl

@[simp] theorem State.restartInactivity_supplyLowLine (s : State) (p : Port) : (s.restartInactivity p).supplyLowLine = s.supplyLowLine := by unfold State.restartInactivity; split <;> rfl

@[simp] theorem State.restartInactivity_pe (s : State) (p : Port) : (s.restartInactivity p).pe = s.pe := by unfold State.restartInactivity; split <;> rfl

@[simp] theorem State.restartInactivity_zsa (s : State) (p : Port) : (s.restartInactivity p).zsa = s.zsa := by unfold State.restartInactivity; split <;> rfl

@[simp] theorem State.restartInactivity_it (s : State) (p : Port) : (s.restartInactivity p).it = s.it := by unfold State.restartInactivity; split <;> rfl

@[simp] theorem State.restartInactivity_cu (s : State) (p : Port) : (s.restartInactivity p).cu = s.cu := by unfold State.restartInactivity; split <;> rfl

@[simp] theorem State.restartInactivity_slots (s : State) (p : Port) : (s.restartInactivity p).slots = s.slots := by unfold State.restartInactivity; split <;> rfl

@[simp] theorem State.restartInactivity_store (s : State) (p : Port) : (s.restartInactivity p).store = s.store := by unfold State.restartInactivity; split <;> rfl

@[simp] theorem State.restartInactivity_directory (s : State) (p : Port) : (s.restartInactivity p).directory = s.directory := by unfold State.restartInactivity; split <;> rfl

@[simp] theorem State.restartInactivity_controller (s : State) (p : Port) : (s.restartInactivity p).controller = s.controller := by unfold State.restartInactivity; split <;> rfl

@[simp] theorem State.restartInactivity_recallEngine (s : State) (p : Port) : (s.restartInactivity p).recallEngine = s.recallEngine := by unfold State.restartInactivity; split <;> rfl

@[simp] theorem State.restartInactivity_rr (s : State) (p : Port) : (s.restartInactivity p).rr = s.rr := by unfold State.restartInactivity; split <;> rfl

@[simp] theorem State.restartInactivity_portC (s : State) (p : Port) : (s.restartInactivity p).portC = s.portC := by unfold State.restartInactivity; split <;> rfl

@[simp] theorem State.restartInactivity_portS (s : State) (p : Port) : (s.restartInactivity p).portS = s.portS := by unfold State.restartInactivity; split <;> rfl

@[simp] theorem State.restartInactivity_portR (s : State) (p : Port) : (s.restartInactivity p).portR = s.portR := by unfold State.restartInactivity; split <;> rfl

@[simp] theorem State.restartInactivity_freeIndex (s : State) (p : Port) : (s.restartInactivity p).freeIndex = s.freeIndex := by unfold State.restartInactivity; split <;> rfl

@[simp] theorem State.restartInactivity_port (s : State) (p q : Port) : (s.restartInactivity p).port q = s.port q := by
  cases q <;> simp [State.port]

@[simp] theorem State.restartInactivity_ca_owner (s : State) (p : Port) : (s.restartInactivity p).ca.owner = s.ca.owner := by unfold State.restartInactivity; split <;> rfl

@[simp] theorem State.restartInactivity_ca_outcomeC (s : State) (p : Port) : (s.restartInactivity p).ca.outcomeC = s.ca.outcomeC := by unfold State.restartInactivity; split <;> rfl

@[simp] theorem State.restartInactivity_ca_outcomeS (s : State) (p : Port) : (s.restartInactivity p).ca.outcomeS = s.ca.outcomeS := by unfold State.restartInactivity; split <;> rfl

@[simp] theorem State.restartInactivity_ca_grantOrder (s : State) (p : Port) : (s.restartInactivity p).ca.grantOrder = s.ca.grantOrder := by unfold State.restartInactivity; split <;> rfl

@[simp] theorem State.restartInactivity_ca_expiryNote (s : State) (p : Port) : (s.restartInactivity p).ca.expiryNote = s.ca.expiryNote := by unfold State.restartInactivity; split <;> rfl

@[simp] theorem State.deselect_pending (s : State) (p : Port) : (s.deselect p).pending = s.pending := by simp [State.deselect]

@[simp] theorem State.endSelection_pending (s : State) (p : Port) : (s.endSelection p).pending = s.pending := by simp [State.endSelection]

@[simp] theorem State.closeSelection_pending (s : State) (p : Port) : (s.closeSelection p).pending = s.pending := by unfold State.closeSelection; split <;> simp

@[simp] theorem State.deselect_resetLine (s : State) (p : Port) : (s.deselect p).resetLine = s.resetLine := by simp [State.deselect]

@[simp] theorem State.endSelection_resetLine (s : State) (p : Port) : (s.endSelection p).resetLine = s.resetLine := by simp [State.endSelection]

@[simp] theorem State.closeSelection_resetLine (s : State) (p : Port) : (s.closeSelection p).resetLine = s.resetLine := by unfold State.closeSelection; split <;> simp

@[simp] theorem State.deselect_protectLine (s : State) (p : Port) : (s.deselect p).protectLine = s.protectLine := by simp [State.deselect]

@[simp] theorem State.endSelection_protectLine (s : State) (p : Port) : (s.endSelection p).protectLine = s.protectLine := by simp [State.endSelection]

@[simp] theorem State.closeSelection_protectLine (s : State) (p : Port) : (s.closeSelection p).protectLine = s.protectLine := by unfold State.closeSelection; split <;> simp

@[simp] theorem State.deselect_supplyLowLine (s : State) (p : Port) : (s.deselect p).supplyLowLine = s.supplyLowLine := by simp [State.deselect]

@[simp] theorem State.endSelection_supplyLowLine (s : State) (p : Port) : (s.endSelection p).supplyLowLine = s.supplyLowLine := by simp [State.endSelection]

@[simp] theorem State.closeSelection_supplyLowLine (s : State) (p : Port) : (s.closeSelection p).supplyLowLine = s.supplyLowLine := by unfold State.closeSelection; split <;> simp

@[simp] theorem State.deselect_pe (s : State) (p : Port) : (s.deselect p).pe = s.pe := by simp [State.deselect]

@[simp] theorem State.endSelection_pe (s : State) (p : Port) : (s.endSelection p).pe = s.pe := by simp [State.endSelection]

@[simp] theorem State.closeSelection_pe (s : State) (p : Port) : (s.closeSelection p).pe = s.pe := by unfold State.closeSelection; split <;> simp

@[simp] theorem State.deselect_zsa (s : State) (p : Port) : (s.deselect p).zsa = s.zsa := by simp [State.deselect]

@[simp] theorem State.endSelection_zsa (s : State) (p : Port) : (s.endSelection p).zsa = s.zsa := by simp [State.endSelection]

@[simp] theorem State.closeSelection_zsa (s : State) (p : Port) : (s.closeSelection p).zsa = s.zsa := by unfold State.closeSelection; split <;> simp

@[simp] theorem State.deselect_it (s : State) (p : Port) : (s.deselect p).it = s.it := by simp [State.deselect]

@[simp] theorem State.endSelection_it (s : State) (p : Port) : (s.endSelection p).it = s.it := by simp [State.endSelection]

@[simp] theorem State.closeSelection_it (s : State) (p : Port) : (s.closeSelection p).it = s.it := by unfold State.closeSelection; split <;> simp

@[simp] theorem State.deselect_cu (s : State) (p : Port) : (s.deselect p).cu = s.cu := by simp [State.deselect]

@[simp] theorem State.endSelection_cu (s : State) (p : Port) : (s.endSelection p).cu = s.cu := by simp [State.endSelection]

@[simp] theorem State.closeSelection_cu (s : State) (p : Port) : (s.closeSelection p).cu = s.cu := by unfold State.closeSelection; split <;> simp

@[simp] theorem State.deselect_slots (s : State) (p : Port) : (s.deselect p).slots = s.slots := by simp [State.deselect]

@[simp] theorem State.endSelection_slots (s : State) (p : Port) : (s.endSelection p).slots = s.slots := by simp [State.endSelection]

@[simp] theorem State.closeSelection_slots (s : State) (p : Port) : (s.closeSelection p).slots = s.slots := by unfold State.closeSelection; split <;> simp

@[simp] theorem State.deselect_store (s : State) (p : Port) : (s.deselect p).store = s.store := by simp [State.deselect]

@[simp] theorem State.endSelection_store (s : State) (p : Port) : (s.endSelection p).store = s.store := by simp [State.endSelection]

@[simp] theorem State.closeSelection_store (s : State) (p : Port) : (s.closeSelection p).store = s.store := by unfold State.closeSelection; split <;> simp

@[simp] theorem State.deselect_directory (s : State) (p : Port) : (s.deselect p).directory = s.directory := by simp [State.deselect]

@[simp] theorem State.endSelection_directory (s : State) (p : Port) : (s.endSelection p).directory = s.directory := by simp [State.endSelection]

@[simp] theorem State.closeSelection_directory (s : State) (p : Port) : (s.closeSelection p).directory = s.directory := by unfold State.closeSelection; split <;> simp

@[simp] theorem State.deselect_controller (s : State) (p : Port) : (s.deselect p).controller = s.controller := by simp [State.deselect]

@[simp] theorem State.endSelection_controller (s : State) (p : Port) : (s.endSelection p).controller = s.controller := by simp [State.endSelection]

@[simp] theorem State.closeSelection_controller (s : State) (p : Port) : (s.closeSelection p).controller = s.controller := by unfold State.closeSelection; split <;> simp

@[simp] theorem State.deselect_recallEngine (s : State) (p : Port) : (s.deselect p).recallEngine = s.recallEngine := by simp [State.deselect]

@[simp] theorem State.endSelection_recallEngine (s : State) (p : Port) : (s.endSelection p).recallEngine = s.recallEngine := by simp [State.endSelection]

@[simp] theorem State.closeSelection_recallEngine (s : State) (p : Port) : (s.closeSelection p).recallEngine = s.recallEngine := by unfold State.closeSelection; split <;> simp

@[simp] theorem State.deselect_rr (s : State) (p : Port) : (s.deselect p).rr = s.rr := by simp [State.deselect]

@[simp] theorem State.endSelection_rr (s : State) (p : Port) : (s.endSelection p).rr = s.rr := by simp [State.endSelection]

@[simp] theorem State.closeSelection_rr (s : State) (p : Port) : (s.closeSelection p).rr = s.rr := by unfold State.closeSelection; split <;> simp

@[simp] theorem State.deselect_portR (s : State) (p : Port) : (s.deselect p).portR = s.portR := by simp [State.deselect]

@[simp] theorem State.endSelection_portR (s : State) (p : Port) : (s.endSelection p).portR = s.portR := by simp [State.endSelection]

@[simp] theorem State.closeSelection_portR (s : State) (p : Port) : (s.closeSelection p).portR = s.portR := by unfold State.closeSelection; split <;> simp

@[simp] theorem State.deselect_freeIndex (s : State) (p : Port) : (s.deselect p).freeIndex = s.freeIndex := by simp [State.deselect]

@[simp] theorem State.endSelection_freeIndex (s : State) (p : Port) : (s.endSelection p).freeIndex = s.freeIndex := by simp [State.endSelection]

@[simp] theorem State.closeSelection_freeIndex (s : State) (p : Port) : (s.closeSelection p).freeIndex = s.freeIndex := by unfold State.closeSelection; split <;> simp

@[simp] theorem State.deselect_ca_owner (s : State) (p : Port) : (s.deselect p).ca.owner = s.ca.owner := by simp [State.deselect]

@[simp] theorem State.endSelection_ca_owner (s : State) (p : Port) : (s.endSelection p).ca.owner = s.ca.owner := by simp [State.endSelection]

@[simp] theorem State.closeSelection_ca_owner (s : State) (p : Port) : (s.closeSelection p).ca.owner = s.ca.owner := by unfold State.closeSelection; split <;> simp

@[simp] theorem State.deselect_ca_outcomeC (s : State) (p : Port) : (s.deselect p).ca.outcomeC = s.ca.outcomeC := by simp [State.deselect]

@[simp] theorem State.endSelection_ca_outcomeC (s : State) (p : Port) : (s.endSelection p).ca.outcomeC = s.ca.outcomeC := by simp [State.endSelection]

@[simp] theorem State.closeSelection_ca_outcomeC (s : State) (p : Port) : (s.closeSelection p).ca.outcomeC = s.ca.outcomeC := by unfold State.closeSelection; split <;> simp

@[simp] theorem State.deselect_ca_outcomeS (s : State) (p : Port) : (s.deselect p).ca.outcomeS = s.ca.outcomeS := by simp [State.deselect]

@[simp] theorem State.endSelection_ca_outcomeS (s : State) (p : Port) : (s.endSelection p).ca.outcomeS = s.ca.outcomeS := by simp [State.endSelection]

@[simp] theorem State.closeSelection_ca_outcomeS (s : State) (p : Port) : (s.closeSelection p).ca.outcomeS = s.ca.outcomeS := by unfold State.closeSelection; split <;> simp

@[simp] theorem State.deselect_ca_grantOrder (s : State) (p : Port) : (s.deselect p).ca.grantOrder = s.ca.grantOrder := by simp [State.deselect]

@[simp] theorem State.endSelection_ca_grantOrder (s : State) (p : Port) : (s.endSelection p).ca.grantOrder = s.ca.grantOrder := by simp [State.endSelection]

@[simp] theorem State.closeSelection_ca_grantOrder (s : State) (p : Port) : (s.closeSelection p).ca.grantOrder = s.ca.grantOrder := by unfold State.closeSelection; split <;> simp

@[simp] theorem State.deselect_ca_expiryNote (s : State) (p : Port) : (s.deselect p).ca.expiryNote = s.ca.expiryNote := by simp [State.deselect]

@[simp] theorem State.endSelection_ca_expiryNote (s : State) (p : Port) : (s.endSelection p).ca.expiryNote = s.ca.expiryNote := by simp [State.endSelection]

@[simp] theorem State.closeSelection_ca_expiryNote (s : State) (p : Port) : (s.closeSelection p).ca.expiryNote = s.ca.expiryNote := by unfold State.closeSelection; split <;> simp

@[simp] theorem State.setSlot_pending (s : State) (i : Fin 8) (x : Slot) : (s.setSlot i x).pending = s.pending := rfl

@[simp] theorem State.setSectorEntry_pending (s : State) (n : Fin 64) (e : SectorEntry) : (s.setSectorEntry n e).pending = s.pending := rfl

@[simp] theorem State.granted_pending (s : State) (r : Requester) : (s.granted r).pending = s.pending := rfl

@[simp] theorem State.freeGroup_pending (s : State) (p : Port) (o : GroupOutcome) : (s.freeGroup p o).pending = s.pending := rfl

@[simp] theorem State.setSlot_resetLine (s : State) (i : Fin 8) (x : Slot) : (s.setSlot i x).resetLine = s.resetLine := rfl

@[simp] theorem State.setSectorEntry_resetLine (s : State) (n : Fin 64) (e : SectorEntry) : (s.setSectorEntry n e).resetLine = s.resetLine := rfl

@[simp] theorem State.granted_resetLine (s : State) (r : Requester) : (s.granted r).resetLine = s.resetLine := rfl

@[simp] theorem State.freeGroup_resetLine (s : State) (p : Port) (o : GroupOutcome) : (s.freeGroup p o).resetLine = s.resetLine := rfl

@[simp] theorem State.setSlot_protectLine (s : State) (i : Fin 8) (x : Slot) : (s.setSlot i x).protectLine = s.protectLine := rfl

@[simp] theorem State.setSectorEntry_protectLine (s : State) (n : Fin 64) (e : SectorEntry) : (s.setSectorEntry n e).protectLine = s.protectLine := rfl

@[simp] theorem State.granted_protectLine (s : State) (r : Requester) : (s.granted r).protectLine = s.protectLine := rfl

@[simp] theorem State.freeGroup_protectLine (s : State) (p : Port) (o : GroupOutcome) : (s.freeGroup p o).protectLine = s.protectLine := rfl

@[simp] theorem State.setSlot_supplyLowLine (s : State) (i : Fin 8) (x : Slot) : (s.setSlot i x).supplyLowLine = s.supplyLowLine := rfl

@[simp] theorem State.setSectorEntry_supplyLowLine (s : State) (n : Fin 64) (e : SectorEntry) : (s.setSectorEntry n e).supplyLowLine = s.supplyLowLine := rfl

@[simp] theorem State.granted_supplyLowLine (s : State) (r : Requester) : (s.granted r).supplyLowLine = s.supplyLowLine := rfl

@[simp] theorem State.freeGroup_supplyLowLine (s : State) (p : Port) (o : GroupOutcome) : (s.freeGroup p o).supplyLowLine = s.supplyLowLine := rfl

@[simp] theorem State.setSlot_pe (s : State) (i : Fin 8) (x : Slot) : (s.setSlot i x).pe = s.pe := rfl

@[simp] theorem State.setSectorEntry_pe (s : State) (n : Fin 64) (e : SectorEntry) : (s.setSectorEntry n e).pe = s.pe := rfl

@[simp] theorem State.granted_pe (s : State) (r : Requester) : (s.granted r).pe = s.pe := rfl

@[simp] theorem State.freeGroup_pe (s : State) (p : Port) (o : GroupOutcome) : (s.freeGroup p o).pe = s.pe := rfl

@[simp] theorem State.setSlot_zsa (s : State) (i : Fin 8) (x : Slot) : (s.setSlot i x).zsa = s.zsa := rfl

@[simp] theorem State.setSectorEntry_zsa (s : State) (n : Fin 64) (e : SectorEntry) : (s.setSectorEntry n e).zsa = s.zsa := rfl

@[simp] theorem State.granted_zsa (s : State) (r : Requester) : (s.granted r).zsa = s.zsa := rfl

@[simp] theorem State.freeGroup_zsa (s : State) (p : Port) (o : GroupOutcome) : (s.freeGroup p o).zsa = s.zsa := rfl

@[simp] theorem State.setSlot_it (s : State) (i : Fin 8) (x : Slot) : (s.setSlot i x).it = s.it := rfl

@[simp] theorem State.setSectorEntry_it (s : State) (n : Fin 64) (e : SectorEntry) : (s.setSectorEntry n e).it = s.it := rfl

@[simp] theorem State.granted_it (s : State) (r : Requester) : (s.granted r).it = s.it := rfl

@[simp] theorem State.freeGroup_it (s : State) (p : Port) (o : GroupOutcome) : (s.freeGroup p o).it = s.it := rfl

@[simp] theorem State.setSlot_cu (s : State) (i : Fin 8) (x : Slot) : (s.setSlot i x).cu = s.cu := rfl

@[simp] theorem State.setSectorEntry_cu (s : State) (n : Fin 64) (e : SectorEntry) : (s.setSectorEntry n e).cu = s.cu := rfl

@[simp] theorem State.granted_cu (s : State) (r : Requester) : (s.granted r).cu = s.cu := rfl

@[simp] theorem State.freeGroup_cu (s : State) (p : Port) (o : GroupOutcome) : (s.freeGroup p o).cu = s.cu := rfl

@[simp] theorem State.setSlot_ca (s : State) (i : Fin 8) (x : Slot) : (s.setSlot i x).ca = s.ca := rfl

@[simp] theorem State.setSectorEntry_ca (s : State) (n : Fin 64) (e : SectorEntry) : (s.setSectorEntry n e).ca = s.ca := rfl

@[simp] theorem State.setSectorEntry_slots (s : State) (n : Fin 64) (e : SectorEntry) : (s.setSectorEntry n e).slots = s.slots := rfl

@[simp] theorem State.granted_slots (s : State) (r : Requester) : (s.granted r).slots = s.slots := rfl

@[simp] theorem State.freeGroup_slots (s : State) (p : Port) (o : GroupOutcome) : (s.freeGroup p o).slots = s.slots := rfl

@[simp] theorem State.setSlot_store (s : State) (i : Fin 8) (x : Slot) : (s.setSlot i x).store = s.store := rfl

@[simp] theorem State.setSectorEntry_store (s : State) (n : Fin 64) (e : SectorEntry) : (s.setSectorEntry n e).store = s.store := rfl

@[simp] theorem State.granted_store (s : State) (r : Requester) : (s.granted r).store = s.store := rfl

@[simp] theorem State.freeGroup_store (s : State) (p : Port) (o : GroupOutcome) : (s.freeGroup p o).store = s.store := rfl

@[simp] theorem State.setSlot_directory (s : State) (i : Fin 8) (x : Slot) : (s.setSlot i x).directory = s.directory := rfl

@[simp] theorem State.granted_directory (s : State) (r : Requester) : (s.granted r).directory = s.directory := rfl

@[simp] theorem State.freeGroup_directory (s : State) (p : Port) (o : GroupOutcome) : (s.freeGroup p o).directory = s.directory := rfl

@[simp] theorem State.setSlot_controller (s : State) (i : Fin 8) (x : Slot) : (s.setSlot i x).controller = s.controller := rfl

@[simp] theorem State.setSectorEntry_controller (s : State) (n : Fin 64) (e : SectorEntry) : (s.setSectorEntry n e).controller = s.controller := rfl

@[simp] theorem State.granted_controller (s : State) (r : Requester) : (s.granted r).controller = s.controller := rfl

@[simp] theorem State.freeGroup_controller (s : State) (p : Port) (o : GroupOutcome) : (s.freeGroup p o).controller = s.controller := rfl

@[simp] theorem State.setSlot_recallEngine (s : State) (i : Fin 8) (x : Slot) : (s.setSlot i x).recallEngine = s.recallEngine := rfl

@[simp] theorem State.setSectorEntry_recallEngine (s : State) (n : Fin 64) (e : SectorEntry) : (s.setSectorEntry n e).recallEngine = s.recallEngine := rfl

@[simp] theorem State.granted_recallEngine (s : State) (r : Requester) : (s.granted r).recallEngine = s.recallEngine := rfl

@[simp] theorem State.freeGroup_recallEngine (s : State) (p : Port) (o : GroupOutcome) : (s.freeGroup p o).recallEngine = s.recallEngine := rfl

@[simp] theorem State.setSlot_rr (s : State) (i : Fin 8) (x : Slot) : (s.setSlot i x).rr = s.rr := rfl

@[simp] theorem State.setSectorEntry_rr (s : State) (n : Fin 64) (e : SectorEntry) : (s.setSectorEntry n e).rr = s.rr := rfl

@[simp] theorem State.granted_rr (s : State) (r : Requester) : (s.granted r).rr = s.rr := rfl

@[simp] theorem State.freeGroup_rr (s : State) (p : Port) (o : GroupOutcome) : (s.freeGroup p o).rr = s.rr := rfl

@[simp] theorem State.setSlot_portC (s : State) (i : Fin 8) (x : Slot) : (s.setSlot i x).portC = s.portC := rfl

@[simp] theorem State.setSectorEntry_portC (s : State) (n : Fin 64) (e : SectorEntry) : (s.setSectorEntry n e).portC = s.portC := rfl

@[simp] theorem State.granted_portC (s : State) (r : Requester) : (s.granted r).portC = s.portC := rfl

@[simp] theorem State.freeGroup_portC (s : State) (p : Port) (o : GroupOutcome) : (s.freeGroup p o).portC = s.portC := rfl

@[simp] theorem State.setSlot_portS (s : State) (i : Fin 8) (x : Slot) : (s.setSlot i x).portS = s.portS := rfl

@[simp] theorem State.setSectorEntry_portS (s : State) (n : Fin 64) (e : SectorEntry) : (s.setSectorEntry n e).portS = s.portS := rfl

@[simp] theorem State.granted_portS (s : State) (r : Requester) : (s.granted r).portS = s.portS := rfl

@[simp] theorem State.freeGroup_portS (s : State) (p : Port) (o : GroupOutcome) : (s.freeGroup p o).portS = s.portS := rfl

@[simp] theorem State.setSlot_portR (s : State) (i : Fin 8) (x : Slot) : (s.setSlot i x).portR = s.portR := rfl

@[simp] theorem State.setSectorEntry_portR (s : State) (n : Fin 64) (e : SectorEntry) : (s.setSectorEntry n e).portR = s.portR := rfl

@[simp] theorem State.granted_portR (s : State) (r : Requester) : (s.granted r).portR = s.portR := rfl

@[simp] theorem State.freeGroup_portR (s : State) (p : Port) (o : GroupOutcome) : (s.freeGroup p o).portR = s.portR := rfl

@[simp] theorem State.setSlot_freeIndex (s : State) (i : Fin 8) (x : Slot) : (s.setSlot i x).freeIndex = s.freeIndex := rfl

@[simp] theorem State.setSectorEntry_freeIndex (s : State) (n : Fin 64) (e : SectorEntry) : (s.setSectorEntry n e).freeIndex = s.freeIndex := rfl

@[simp] theorem State.granted_freeIndex (s : State) (r : Requester) : (s.granted r).freeIndex = s.freeIndex := rfl

@[simp] theorem State.freeGroup_freeIndex (s : State) (p : Port) (o : GroupOutcome) : (s.freeGroup p o).freeIndex = s.freeIndex := rfl

@[simp] theorem State.granted_ca_owner (s : State) (r : Requester) : (s.granted r).ca.owner = s.ca.owner := rfl

@[simp] theorem State.granted_ca_inactivityTimer (s : State) (r : Requester) : (s.granted r).ca.inactivityTimer = s.ca.inactivityTimer := rfl

@[simp] theorem State.granted_ca_outcomeC (s : State) (r : Requester) : (s.granted r).ca.outcomeC = s.ca.outcomeC := rfl

@[simp] theorem State.granted_ca_outcomeS (s : State) (r : Requester) : (s.granted r).ca.outcomeS = s.ca.outcomeS := rfl

@[simp] theorem State.granted_ca_expiryNote (s : State) (r : Requester) : (s.granted r).ca.expiryNote = s.ca.expiryNote := rfl

@[simp] theorem State.freeGroup_ca_owner (s : State) (p : Port) (o : GroupOutcome) : (s.freeGroup p o).ca.owner = none := rfl

@[simp] theorem State.freeGroup_ca_inactivityTimer (s : State) (p : Port) (o : GroupOutcome) :
    (s.freeGroup p o).ca.inactivityTimer = none := rfl

@[simp] theorem State.freeGroup_ca_grantOrder (s : State) (p : Port) (o : GroupOutcome) :
    (s.freeGroup p o).ca.grantOrder = s.ca.grantOrder := by cases p <;> rfl

@[simp] theorem State.freeGroup_ca_expiryNote (s : State) (p : Port) (o : GroupOutcome) :
    (s.freeGroup p o).ca.expiryNote = s.ca.expiryNote := by cases p <;> rfl

theorem State.freeGroup_outcome (s : State) (p q : Port) (o : GroupOutcome) :
    (s.freeGroup p o).ca.outcome q = if p = q then o else s.ca.outcome q := by cases p <;> cases q <;> rfl

theorem Arbiter.outcome_setOutcome (a : Arbiter) (p q : Port) (o : GroupOutcome) :
    (a.setOutcome p o).outcome q = if p = q then o else a.outcome q := by cases p <;> cases q <;> rfl

@[simp] theorem Arbiter.setOutcome_owner (a : Arbiter) (p : Port) (o : GroupOutcome) : (a.setOutcome p o).owner = a.owner := by
  cases p <;> rfl

@[simp] theorem Arbiter.setOutcome_inactivityTimer (a : Arbiter) (p : Port) (o : GroupOutcome) :
    (a.setOutcome p o).inactivityTimer = a.inactivityTimer := by cases p <;> rfl

@[simp] theorem Arbiter.setOutcome_grantOrder (a : Arbiter) (p : Port) (o : GroupOutcome) :
    (a.setOutcome p o).grantOrder = a.grantOrder := by cases p <;> rfl

@[simp] theorem Arbiter.setOutcome_expiryNote (a : Arbiter) (p : Port) (o : GroupOutcome) :
    (a.setOutcome p o).expiryNote = a.expiryNote := by cases p <;> rfl

@[simp] theorem State.slot_setSlot_self (s : State) (i : Fin 8) (x : Slot) : (s.setSlot i x).slot i = x :=
  Tab.get_set_self ..

theorem State.slot_setSlot (s : State) (i j : Fin 8) (x : Slot) :
    (s.setSlot i x).slot j = if i = j then x else s.slot j := Tab.get_set ..

theorem State.sectorEntry_setSectorEntry (s : State) (m n : Fin 64) (e : SectorEntry) :
    (s.setSectorEntry m e).sectorEntry n =
      if m = n ∧ s.directory.isSome then e else s.sectorEntry n := by
  unfold State.setSectorEntry State.sectorEntry
  cases s.directory with
  | none => simp
  | some d => simp [Tab.get_set]

@[simp] theorem State.setSectorEntry_directory_isSome (s : State) (n : Fin 64) (e : SectorEntry) :
    (s.setSectorEntry n e).directory.isSome = s.directory.isSome := by
  unfold State.setSectorEntry
  cases s.directory <;> rfl

@[simp] theorem State.deselect_port_self (s : State) (p : Port) :
    (s.deselect p).port p = { s.port p with selection := .idle, reading := none, shifted := [] } := by simp [State.deselect]

theorem State.deselect_port_of_ne (s : State) {p q : Port} (h : p ≠ q) : (s.deselect p).port q = s.port q := by
  simp [State.deselect, h]

@[simp] theorem State.deselect_ca (s : State) (p : Port) : (s.deselect p).ca = s.ca := by simp [State.deselect]

@[simp] theorem State.endSelection_port (s : State) (p q : Port) : (s.endSelection p).port q = (s.deselect p).port q := by
  simp [State.endSelection]

/-- What the end of an earlier selection leaves of its port (assumption log 8). -/
theorem State.closeSelection_port_self (s : State) (p : Port) :
    (s.closeSelection p).port p = { s.port p with selection := .idle, reading := none, shifted := [] } := by
  unfold State.closeSelection
  split <;> simp

theorem State.closeSelection_port_of_ne (s : State) {p q : Port} (h : p ≠ q) : (s.closeSelection p).port q = s.port q := by
  unfold State.closeSelection
  split <;> simp [State.deselect_port_of_ne s h]

@[simp] theorem State.closeSelection_selection (s : State) (p : Port) :
    ((s.closeSelection p).port p).selection = .idle := by rw [State.closeSelection_port_self]

@[simp] theorem State.closeSelection_lastResult (s : State) (p q : Port) :
    ((s.closeSelection p).port q).lastResult = (s.port q).lastResult := by
  by_cases h : p = q
  · subst h; rw [State.closeSelection_port_self]
  · rw [State.closeSelection_port_of_ne s h]

@[simp] theorem State.closeSelection_writeEnable (s : State) (p q : Port) :
    ((s.closeSelection p).port q).writeEnable = (s.port q).writeEnable := by
  by_cases h : p = q
  · subst h; rw [State.closeSelection_port_self]
  · rw [State.closeSelection_port_of_ne s h]

theorem State.setPort_self_eq (s : State) (p : Port) (x : PortState) (h : x = s.port p) : s.setPort p x = s := by
  subst h; simp

theorem State.closeSelection_of_idle (s : State) (p : Port) (h : (s.port p).selection = .idle) :
    s.closeSelection p = s.deselect p := if_pos (.inl h)

/-- An idle port with nothing being read is as its end leaves it. -/
theorem State.deselect_of_idle (s : State) (p : Port) (h : (s.port p).selection = .idle) (hr : (s.port p).reading = none)
    (hs : (s.port p).shifted = []) : s.deselect p = s := by
  unfold State.deselect
  rw [← h, ← hr, ← hs]
  exact State.setPort_port s p

end Sys2Proof.Machine
end

