-- ==== Sys2Proof/Laws/Store.lean ====
section
/-! SUPPORT. Laws of the look store: what a byte reads as after each act, which sectors an act leaves alone, the marks of
pages that fail, and the canonical form. -/

namespace Sys2Proof.Machine

/-! ## Pages that fail their check -/

theorem mem_insertPage (page x : Nat) (l : List Nat) : x ∈ insertPage page l ↔ x = page ∨ x ∈ l := by
  induction l with
  | nil => simp [insertPage]
  | cons p rest ih =>
    unfold insertPage
    split
    · simp
    · split
      · next h => subst h; simp
      · simp [ih]; tauto

theorem rising_insertPage (page : Nat) {l : List Nat} (h : l.Pairwise (· < ·)) : (insertPage page l).Pairwise (· < ·) := by
  induction l with
  | nil => simp [insertPage]
  | cons p rest ih =>
    have hp := List.pairwise_cons.1 h
    unfold insertPage
    split
    · next hlt => exact List.pairwise_cons.2 ⟨fun x hx => by
        rcases List.mem_cons.1 hx with rfl | hx
        · exact hlt
        · exact Nat.lt_trans hlt (hp.1 x hx), h⟩
    · split
      · exact h
      · refine List.pairwise_cons.2 ⟨fun x hx => ?_, ih hp.2⟩
        rcases (mem_insertPage _ _ _).1 hx with rfl | hx
        · omega
        · exact hp.1 x hx

theorem mem_decay (pages : List Nat) (st : Store) (x : Nat) :
    x ∈ (st.decay pages).mismatched ↔ x ∈ st.mismatched ∨ x ∈ pages := by
  simp only [Store.decay]
  induction pages generalizing st with
  | nil => simp
  | cons p rest ih =>
    have := ih { st with mismatched := insertPage p st.mismatched }
    simp only [List.foldl_cons] at this ⊢
    rw [this, mem_insertPage, List.mem_cons]
    tauto

theorem rising_decay (pages : List Nat) {st : Store} (h : st.mismatched.Pairwise (· < ·)) :
    (st.decay pages).mismatched.Pairwise (· < ·) := by
  simp only [Store.decay]
  generalize st.mismatched = l at h
  induction pages generalizing l with
  | nil => exact h
  | cons p rest ih => exact ih _ (rising_insertPage p h)

@[simp] theorem decay_bytes (pages : List Nat) (st : Store) : (st.decay pages).bytes = st.bytes := rfl

@[simp] theorem decay_byte (pages : List Nat) (st : Store) (n : Fin 64) (k : Nat) :
    (st.decay pages).byte n k = st.byte n k := rfl

@[simp] theorem sealPage_bytes (st : Store) (n : Fin 64) (page : Nat) : (st.sealPage n page).bytes = st.bytes := rfl

@[simp] theorem sealPage_byte (st : Store) (n m : Fin 64) (page k : Nat) : (st.sealPage n page).byte m k = st.byte m k := rfl

theorem mem_sealPage (st : Store) (n : Fin 64) (page x : Nat) :
    x ∈ (st.sealPage n page).mismatched ↔ x ∈ st.mismatched ∧ x ≠ sectorPage n page := by
  simp [Store.sealPage]

@[simp] theorem program_mismatched (st : Store) (n : Fin 64) (offset : Nat) (bytes : List Byte) :
    (st.program n offset bytes).mismatched = st.mismatched := rfl

/-! ## Bytes after an act -/

/-- What a byte reads as after bytes are programmed inside a sector. -/
theorem byte_program (st : Store) (m n : Fin 64) (offset k : Nat) (bytes : List Byte) (hk : k < 32768)
    (hb : offset + bytes.length ≤ 32768) :
    (st.program m offset bytes).byte n k =
      if m = n ∧ offset ≤ k ∧ k < offset + bytes.length then bytes.getD (k - offset) storeFill else st.byte n k := by
  unfold Store.byte Store.program
  rw [Memory.read_writeRun]
  unfold sectorBase
  by_cases hmn : m = n
  · subst hmn
    by_cases h : offset ≤ k ∧ k < offset + bytes.length
    · rw [if_pos (by omega), if_pos ⟨rfl, h⟩]
      congr 1
      omega
    · rw [if_neg (by omega), if_neg (by simp only [true_and]; exact h)]
  · have : m.val ≠ n.val := fun h => hmn (Fin.ext h)
    rw [if_neg (by omega), if_neg (by tauto)]

theorem byte_program_of_ne (st : Store) {m n : Fin 64} (offset k : Nat) (bytes : List Byte) (h : m ≠ n) (hk : k < 32768)
    (hb : offset + bytes.length ≤ 32768) : (st.program m offset bytes).byte n k = st.byte n k := by
  rw [byte_program _ _ _ _ _ _ hk hb, if_neg (by tauto)]

/-- What a byte reads as after a page is erased. -/
theorem byte_erasePage (st : Store) (m n : Fin 64) (page k : Nat) (hk : k < 32768) (hp : page < 128) :
    (st.erasePage m page).byte n k = if m = n ∧ 256 * page ≤ k ∧ k < 256 * page + 256 then storeFill else st.byte n k := by
  unfold Store.erasePage
  rw [sealPage_byte]
  unfold Store.byte
  rw [Memory.read_clearRun]
  unfold sectorBase
  by_cases hmn : m = n
  · subst hmn
    by_cases h : 256 * page ≤ k ∧ k < 256 * page + 256
    · rw [if_pos (by omega), if_pos ⟨rfl, h⟩]
    · rw [if_neg (by omega), if_neg (by simp only [true_and]; exact h)]
  · have : m.val ≠ n.val := fun h => hmn (Fin.ext h)
    rw [if_neg (by omega), if_neg (by tauto)]

theorem byte_spoilPage_of_ne (st : Store) (fresh : Nat) {m n : Fin 64} (page k : Nat) (h : m ≠ n) (hk : k < 32768)
    (hp : page < 128) : (st.spoilPage fresh m page).byte n k = st.byte n k := by
  unfold Store.spoilPage
  have : ((st.program m (256 * page) ((List.range 256).map (Config.failedPageByte fresh))).sealPage m page).byte n k =
      st.byte n k := by
    rw [sealPage_byte, byte_program_of_ne _ _ _ _ h hk (by simp; omega)]
  simp only
  split
  · rw [decay_byte, this]
  · exact this

/-! ## Sizes -/

theorem length_calibrationPage (content : Memory) : (calibrationPage content).length = 192 := by
  unfold calibrationPage
  rw [List.length_flatMap]
  simp

theorem SaveJob.length_content (j : SaveJob) (x : Slot) :
    (j.content x).length = if j.calibration then 192 else slotByteCount j.slot := by
  unfold SaveJob.content
  split
  · exact length_calibrationPage _
  · exact Memory.length_readRun ..

theorem SectorKind.pages_le (k : SectorKind) : 1 ≤ k.pages ∧ k.pages ≤ 116 := by cases k <;> decide

theorem programContentPage_fits (k : Nat) (content : List Byte) (h : k ≤ 127) :
    256 * k + ((content.drop (256 * (k - 1))).take 256).length ≤ 32768 := by
  have : ((content.drop (256 * (k - 1))).take 256).length ≤ 256 := by simp
  omega

/-! ## The acts of a save and of an erase leave the other sectors alone -/

theorem byte_programClaim_of_ne (st : Store) {m n : Fin 64} (k : Nat) (h : m ≠ n) (hk : k < 32768) :
    (programClaim m st).byte n k = st.byte n k := by
  unfold programClaim
  rw [sealPage_byte, byte_program_of_ne _ _ _ _ h hk (by simp)]

theorem byte_programContentPage_of_ne (st : Store) {m n : Fin 64} (content : List Byte) (page k : Nat) (h : m ≠ n)
    (hk : k < 32768) (hp : page ≤ 127) : (programContentPage m content st page).byte n k = st.byte n k := by
  unfold programContentPage
  rw [sealPage_byte, byte_program_of_ne _ _ _ _ h hk (programContentPage_fits _ _ hp)]

theorem SaveJob.length_idBytes (j : SaveJob) (x : Slot) : (j.idBytes x).length = 4 := by
  unfold SaveJob.idBytes
  split
  · next h => rw [List.length_take, SaveJob.length_content, if_pos h]; rfl
  · rfl

theorem byte_programHeader_of_ne (st : Store) {m n : Fin 64} (j : SaveJob) (x : Slot) (k : Nat) (h : m ≠ n) (hk : k < 32768)
    (hn : j.name.length ≤ 16) : (programHeader m j x st).byte n k = st.byte n k := by
  unfold programHeader
  rw [sealPage_byte, byte_program_of_ne _ _ _ _ h hk (by simp [validityMarker]),
    byte_program_of_ne _ _ _ _ h hk (by simp [SaveJob.length_idBytes]; omega)]

theorem byte_foldl_of_ne {α : Type} (act : Store → α → Store) (n : Fin 64) (k : Nat) (l : List α)
    (h : ∀ x ∈ l, ∀ st : Store, (act st x).byte n k = st.byte n k) (st : Store) :
    (l.foldl act st).byte n k = st.byte n k := by
  induction l generalizing st with
  | nil => rfl
  | cons a rest ih =>
    rw [List.foldl_cons, ih (fun x hx => h x (by simp [hx]))]
    exact h a (by simp) st

theorem byte_saveActs_of_ne (st : Store) {m n : Fin 64} (j : SaveJob) (x : Slot) (acts k : Nat) (h : m ≠ n) (hk : k < 32768)
    (hn : j.name.length ≤ 16) : (saveActs m j x acts st).byte n k = st.byte n k := by
  unfold saveActs
  split
  · rfl
  · have hp := (SectorKind.pages_le j.kind).2
    have paged : ((List.range (min (acts - 1) j.kind.pages)).foldl
        (fun acc q => programContentPage m (j.content x) acc (q + 1)) (programClaim m st)).byte n k = st.byte n k := by
      rw [byte_foldl_of_ne, byte_programClaim_of_ne _ _ h hk]
      intro q hq st'
      have := List.mem_range.1 hq
      exact byte_programContentPage_of_ne _ _ _ _ h hk (by omega)
    simp only
    split
    · rw [byte_programHeader_of_ne _ _ _ _ h hk hn, paged]
    · exact paged

theorem byte_cancelMarker_of_ne (st : Store) {m n : Fin 64} (k : Nat) (h : m ≠ n) (hk : k < 32768) :
    (cancelMarker m st).byte n k = st.byte n k := by
  unfold cancelMarker
  rw [sealPage_byte, byte_program_of_ne _ _ _ _ h hk (by simp), byte_program_of_ne _ _ _ _ h hk (by simp)]

theorem byte_eraseActs_of_ne (st : Store) {m n : Fin 64} (acts k : Nat) (h : m ≠ n) (hk : k < 32768) :
    (eraseActs m acts st).byte n k = st.byte n k := by
  unfold eraseActs
  split
  · rfl
  · rw [byte_foldl_of_ne, byte_cancelMarker_of_ne _ _ h hk]
    intro q hq st'
    have := List.mem_range.1 hq
    rw [byte_erasePage _ _ _ _ _ hk (by omega), if_neg (by tauto)]

/-! ## The canonical form -/

/-- The store's part of the law on byte memories. -/
def Store.canonical (st : Store) : Prop := Memory.wf storeFill st.bytes ∧ st.mismatched.Pairwise (· < ·)

theorem canonical_decay {st : Store} (pages : List Nat) (h : st.canonical) : (st.decay pages).canonical :=
  ⟨h.1, rising_decay pages h.2⟩

theorem canonical_sealPage {st : Store} (n : Fin 64) (page : Nat) (h : st.canonical) : (st.sealPage n page).canonical :=
  ⟨h.1, h.2.filter _⟩

theorem canonical_program {st : Store} (n : Fin 64) (offset : Nat) (bytes : List Byte) (h : st.canonical) :
    (st.program n offset bytes).canonical := ⟨Memory.wf_writeRun _ _ h.1, h.2⟩

theorem canonical_erasePage {st : Store} (n : Fin 64) (page : Nat) (h : st.canonical) : (st.erasePage n page).canonical :=
  canonical_sealPage _ _ ⟨Memory.wf_clearRun _ _ h.1, h.2⟩

theorem canonical_spoilPage {st : Store} (fresh : Nat) (n : Fin 64) (page : Nat) (h : st.canonical) :
    (st.spoilPage fresh n page).canonical := by
  have := canonical_sealPage n page
    (canonical_program n (256 * page) ((List.range 256).map (Config.failedPageByte fresh)) h)
  unfold Store.spoilPage
  simp only
  split
  · exact canonical_decay _ this
  · exact this

theorem canonical_foldl {α : Type} (act : Store → α → Store) (hact : ∀ st x, st.canonical → (act st x).canonical)
    (l : List α) {st : Store} (h : st.canonical) : (l.foldl act st).canonical := by
  induction l generalizing st with
  | nil => exact h
  | cons a rest ih => exact ih (hact _ _ h)

theorem canonical_saveActs {st : Store} (n : Fin 64) (j : SaveJob) (x : Slot) (acts : Nat) (h : st.canonical) :
    (saveActs n j x acts st).canonical := by
  unfold saveActs
  split
  · exact h
  · have paged := canonical_foldl (fun acc q => programContentPage n (j.content x) acc (q + 1))
      (fun st q hs => canonical_sealPage _ _ (canonical_program _ _ _ hs)) (List.range (min (acts - 1) j.kind.pages))
      (show (programClaim n st).canonical from canonical_sealPage _ _ (canonical_program _ _ _ h))
    simp only
    split
    · exact canonical_sealPage _ _ (canonical_program _ _ _ (canonical_program _ _ _ paged))
    · exact paged

theorem canonical_eraseActs {st : Store} (n : Fin 64) (acts : Nat) (h : st.canonical) : (eraseActs n acts st).canonical := by
  unfold eraseActs
  split
  · exact h
  · exact canonical_foldl _ (fun st q hs => canonical_erasePage _ _ hs) _
      (canonical_sealPage _ _ (canonical_program _ _ _ (canonical_program _ _ _ h)))

theorem canonical_cutStore {s : State} (acts : Nat) (h : s.store.canonical) : (cutStore acts s).canonical := by
  unfold cutStore
  split
  · exact canonical_saveActs _ _ _ _ h
  · exact canonical_eraseActs _ _ h
  · exact canonical_eraseActs _ _ h
  · exact h

end Sys2Proof.Machine
end

