-- ==== Sys2Proof/Laws/Acts.lean ====
section
/-! SUPPORT. What the acts of a save and an erase leave in the store (R147, R149). -/

namespace Sys2Proof.Machine

/-- Content pages programmed: the content stands from byte 256 on. -/
theorem byte_contentPages (st : Store) (n : Fin 64) (content : List Byte) (m k : Nat) (hm : m ≤ 127) (hk : k < 32768) :
    ((List.range m).foldl (fun acc q => programContentPage n content acc (q + 1)) st).byte n k =
      if 256 ≤ k ∧ k < 256 + min (256 * m) content.length then content.getD (k - 256) storeFill else st.byte n k := by
  induction m with
  | zero => rw [if_neg (by omega)]; rfl
  | succ m ih =>
    rw [List.range_succ, List.foldl_append, List.foldl_cons, List.foldl_nil]
    generalize hacc : (List.range m).foldl (fun acc q => programContentPage n content acc (q + 1)) st = acc at *
    unfold programContentPage
    rw [sealPage_byte, byte_program _ _ _ _ _ _ hk (programContentPage_fits _ _ (by omega)), ih (by omega)]
    have hl : ((content.drop (256 * (m + 1 - 1))).take 256).length = min 256 (content.length - 256 * m) := by simp
    rw [hl]
    simp only [true_and, Nat.add_sub_cancel]
    by_cases h : 256 * (m + 1) ≤ k ∧ k < 256 * (m + 1) + min 256 (content.length - 256 * m)
    · rw [if_pos h, if_pos (by omega)]
      simp only [List.getD_eq_getElem?_getD]
      rw [List.getElem?_take_of_lt (by omega), List.getElem?_drop, show 256 * m + (k - 256 * (m + 1)) = k - 256 by omega]
    · rw [if_neg h]
      by_cases h2 : 256 ≤ k ∧ k < 256 + min (256 * m) content.length
      · rw [if_pos h2, if_pos (by omega)]
      · rw [if_neg h2, if_neg (by omega)]

/-- Content pages programmed match their checks; no other page changes. -/
theorem mismatched_contentPages (st : Store) (n : Fin 64) (content : List Byte) (m x : Nat) :
    x ∈ ((List.range m).foldl (fun acc q => programContentPage n content acc (q + 1)) st).mismatched ↔
      x ∈ st.mismatched ∧ ∀ q, 1 ≤ q → q ≤ m → x ≠ sectorPage n q := by
  induction m with
  | zero => simp; intro _ q h1 h2; omega
  | succ m ih =>
    rw [List.range_succ, List.foldl_append, List.foldl_cons, List.foldl_nil]
    unfold programContentPage
    rw [mem_sealPage, program_mismatched]
    unfold programContentPage at ih
    rw [ih]
    constructor
    · rintro ⟨⟨h1, h2⟩, h3⟩
      refine ⟨h1, fun q hq1 hq2 => ?_⟩
      by_cases hq : q = m + 1
      · subst hq; exact h3
      · exact h2 q hq1 (by omega)
    · rintro ⟨h1, h2⟩
      exact ⟨⟨h1, fun q hq1 hq2 => h2 q hq1 (by omega)⟩, h2 (m+1) (by omega) (by omega)⟩

/-- Pages erased read 0xFF; no other byte changes. -/
theorem byte_erasePages (st : Store) (n : Fin 64) (m k : Nat) (hm : m ≤ 128) (hk : k < 32768) :
    ((List.range m).foldl (fun acc q => acc.erasePage n q) st).byte n k = if k < 256 * m then storeFill else st.byte n k := by
  induction m with
  | zero => simp
  | succ m ih =>
    rw [List.range_succ, List.foldl_append, List.foldl_cons, List.foldl_nil, byte_erasePage _ _ _ _ _ hk (by omega), ih (by omega)]
    by_cases h : 256 * m ≤ k ∧ k < 256 * m + 256
    · rw [if_pos ⟨rfl, h⟩, if_pos (by omega)]
    · rw [if_neg (by tauto)]
      by_cases h2 : k < 256 * m
      · rw [if_pos h2, if_pos (by omega)]
      · rw [if_neg h2, if_neg (by omega)]

/-- Pages erased match their checks; no other page changes. -/
theorem mismatched_erasePages (st : Store) (n : Fin 64) (m x : Nat) :
    x ∈ ((List.range m).foldl (fun acc q => acc.erasePage n q) st).mismatched ↔ x ∈ st.mismatched ∧ ∀ q < m, x ≠ sectorPage n q := by
  induction m with
  | zero => simp
  | succ m ih =>
    rw [List.range_succ, List.foldl_append, List.foldl_cons, List.foldl_nil]
    unfold Store.erasePage
    rw [mem_sealPage]
    show (x ∈ _ ∧ _) ↔ _
    unfold Store.erasePage at ih
    simp only
    rw [ih]
    constructor
    · rintro ⟨⟨h1, h2⟩, h3⟩
      refine ⟨h1, fun q hq => ?_⟩
      by_cases hq' : q = m
      · subst hq'; exact h3
      · exact h2 q (by omega)
    · rintro ⟨h1, h2⟩
      exact ⟨⟨h1, fun q hq => h2 q (by omega)⟩, h2 m (by omega)⟩

/-- The claim field programmed: two zero bytes. -/
theorem byte_programClaim (st : Store) (n : Fin 64) (k : Nat) (hk : k < 32768) :
    (programClaim n st).byte n k = if k < 2 then 0 else st.byte n k := by
  unfold programClaim
  rw [sealPage_byte, byte_program _ _ _ _ _ _ hk (by simp)]
  match k with
  | 0 => simp
  | 1 => simp
  | k + 2 => simp

/-- The content of a save fits its content pages. -/
theorem SaveJob.content_fits (j : SaveJob) (x : Slot) : (j.content x).length ≤ 256 * j.kind.pages ∧ j.kind.pages ≤ 116 := by
  rw [SaveJob.length_content, slotByteCount_eq]
  unfold SaveJob.kind slotKind isLatticeSlot
  by_cases h : j.calibration = true
  · simp [h, SectorKind.pages]
  · have h : j.calibration = false := by simpa using h
    by_cases h2 : j.slot.val < 4 <;> simp [h, h2, SectorKind.pages]

/-- The bytes of a sector after all acts of a save. -/
theorem byte_saveActs_whole (st : Store) (n : Fin 64) (j : SaveJob) (x : Slot) (k : Nat) (hk : k < 32768) (hn : j.name.length = 16) :
    (saveActs n j x j.acts st).byte n k =
      if k < 2 then 0
      else if k < 24 then ([j.kind.code, BitVec.ofNat 8 j.kind.pages] ++ j.name ++ j.idBytes x).getD (k - 2) storeFill
      else if k = 254 then 0xA5
      else if k = 255 then 0x3C
      else if 256 ≤ k ∧ k < 256 + (j.content x).length then (j.content x).getD (k - 256) storeFill
      else st.byte n k := by
  have hs := SaveJob.content_fits j x
  have hacts : j.acts = j.kind.pages + 2 := rfl
  unfold saveActs
  rw [if_neg (by omega)]
  simp only [Nat.le_refl, if_true]
  rw [show min (j.acts - 1) j.kind.pages = j.kind.pages by omega]
  unfold programHeader
  have hid := SaveJob.length_idBytes j x
  have hlen : ([j.kind.code, BitVec.ofNat 8 j.kind.pages] ++ j.name ++ j.idBytes x).length = 22 := by simp [hid, hn]
  rw [sealPage_byte, byte_program _ _ _ _ _ _ hk (by simp [validityMarker]), byte_program _ _ _ _ _ _ hk (by omega), hlen,
    byte_contentPages _ _ _ _ _ (by omega) hk, byte_programClaim _ _ _ hk]
  have hv : validityMarker.length = 2 := rfl
  rw [hv]
  simp only [true_and]
  by_cases h1 : 254 ≤ k ∧ k < 254 + 2
  · rw [if_pos h1, if_neg (by omega), if_neg (by omega)]
    by_cases h2 : k = 254
    · subst h2; rfl
    · have : k = 255 := by omega
      subst this; rfl
  · rw [if_neg h1]
    by_cases h2 : 2 ≤ k ∧ k < 2 + 22
    · rw [if_pos h2, if_neg (by omega), if_pos (by omega)]
    · rw [if_neg h2]
      by_cases h3 : k < 2
      · rw [if_pos h3, if_neg (by omega), if_pos h3]
      · simp only [h3, if_false]
        rw [if_neg (show ¬ k < 24 by omega), if_neg (show ¬ k = 254 by omega), if_neg (show ¬ k = 255 by omega),
          show min (256 * j.kind.pages) (j.content x).length = (j.content x).length by omega]

/-- After all acts of a save the header and content pages match their checks. -/
theorem mismatched_saveActs_whole (st : Store) (n : Fin 64) (j : SaveJob) (x : Slot) (q : Nat) (hq : q ≤ j.kind.pages) :
    sectorPage n q ∉ (saveActs n j x j.acts st).mismatched := by
  have hs := SaveJob.content_fits j x
  have hacts : j.acts = j.kind.pages + 2 := rfl
  unfold saveActs
  rw [if_neg (by omega)]
  simp only [Nat.le_refl, if_true]
  rw [show min (j.acts - 1) j.kind.pages = j.kind.pages by omega]
  unfold programHeader
  rw [mem_sealPage, program_mismatched, program_mismatched, mismatched_contentPages]
  rintro ⟨⟨_, h⟩, h0⟩
  by_cases hq0 : q = 0
  · subst hq0; exact h0 rfl
  · exact h q (by omega) hq rfl

/-- After all acts of an erase every byte of the sector is erased. -/
theorem byte_eraseActs_whole (st : Store) (n : Fin 64) (acts k : Nat) (h : 129 ≤ acts) (hk : k < 32768) :
    (eraseActs n acts st).byte n k = 0xFF := by
  unfold eraseActs
  rw [if_neg (by omega), show min (acts - 1) 128 = 128 by omega, byte_erasePages _ _ _ _ (by omega) hk, if_pos (by omega)]; rfl

/-- After the first act of an erase the sector has no marker. -/
theorem byte_eraseActs_marker (st : Store) (n : Fin 64) (acts : Nat) (h : 0 < acts) :
    (eraseActs n acts st).byte n 254 ≠ 0xA5 := by
  unfold eraseActs
  rw [if_neg (by omega), byte_erasePages _ _ _ _ (by omega) (by omega)]
  split
  · decide
  · unfold cancelMarker; rw [sealPage_byte, byte_program _ _ _ _ _ _ (by omega) (by simp)]; simp

/-- After all acts of an erase every page matches its check. -/
theorem mismatched_eraseActs_whole (st : Store) (n : Fin 64) (q : Nat) (hq : q < 128) :
    sectorPage n q ∉ (eraseActs n 129 st).mismatched := by
  unfold eraseActs
  rw [if_neg (by omega), show min (129 - 1) 128 = 128 by omega, mismatched_erasePages]
  rintro ⟨_, h⟩; exact h q hq rfl

/-- The directory entries after one is replaced. -/
theorem sectorEntry_of_directory {s t : State} (n m : Fin 64) (e : SectorEntry) (hd : s.directory.isSome) (h : t.directory = (s.setSectorEntry n e).directory) : t.sectorEntry m = if n = m then e else s.sectorEntry m := by
  have : t.sectorEntry m = (s.setSectorEntry n e).sectorEntry m := by unfold State.sectorEntry; rw [h]
  rw [this, State.sectorEntry_setSectorEntry]; simp [hd]

/-- The three bytes that a calibration save forms of a pair of entries (R183). -/
theorem byte_calibrationPage (content : Memory) (k : Nat) (hk : k < 64) :
   (calibrationPage content).getD (3 * k) storeFill = BitVec.ofNat 8 (slotValue content (2 * k) / 16) ∧
   (calibrationPage content).getD (3 * k + 1) storeFill = BitVec.ofNat 8 (slotValue content (2 * k) % 16 * 16 + slotValue content (2 * k + 1) / 256 % 16) ∧
   (calibrationPage content).getD (3 * k + 2) storeFill = BitVec.ofNat 8 (slotValue content (2 * k + 1)) := by
  have h : ∀ (f g h : Nat → Byte) (count k : Nat), k < count → 
     ((List.range count).flatMap fun j => [f j, g j, h j]).getD (3 * k) storeFill = f k ∧
     ((List.range count).flatMap fun j => [f j, g j, h j]).getD (3 * k + 1) storeFill = g k ∧
     ((List.range count).flatMap fun j => [f j, g j, h j]).getD (3 * k + 2) storeFill = h k := by
    intro f g h count
    induction count with
    | zero => intro k hk; omega
    | succ n ih =>
      intro k hk
      have hl : ((List.range n).flatMap fun j => [f j, g j, h j]).length = 3 * n := by
        rw [List.length_flatMap]; simp [Nat.mul_comm]
      rw [List.range_succ, List.flatMap_append]
      simp only [List.flatMap_cons, List.flatMap_nil, List.append_nil]
      by_cases hkn : k < n
      · have := ih k hkn
        refine ⟨?_, ?_, ?_⟩
        · rw [List.getD_append _ _ _ _ (by omega)]; exact this.1
        · rw [List.getD_append _ _ _ _ (by omega)]; exact this.2.1
        · rw [List.getD_append _ _ _ _ (by omega)]; exact this.2.2
      · have : k = n := by omega
        subst this
        refine ⟨?_, ?_, ?_⟩
        · rw [List.getD_append_right _ _ _ _ (by omega), hl]; simp
        · rw [List.getD_append_right _ _ _ _ (by omega), hl]; simp
        · rw [List.getD_append_right _ _ _ _ (by omega), hl]; simp
  exact h _ _ _ 64 k hk

end Sys2Proof.Machine
end

