-- ==== Sys2Proof/Laws/Ports.lean ====
section
/-! SUPPORT. Frame conditions compose; and what a port's own share of a command does, once for every command: a command other
than a read, a discarded selection, a read, the end of a selection. -/

namespace Sys2Proof.Machine

/-! ## Frame conditions -/

theorem State.agrees_refl (s : State) (part : Part) : s.agrees s part := by
  cases part <;> simp [State.agrees]

theorem State.agrees_trans {s t u : State} {part : Part} (h : s.agrees t part) (k : t.agrees u part) : s.agrees u part := by
  cases part <;> simp_all [State.agrees]

theorem State.agrees_symm {s t : State} {part : Part} (h : s.agrees t part) : t.agrees s part := by
  cases part <;> simp_all [State.agrees]

theorem State.unchangedBut_refl (s : State) (l : List Part) : s.unchangedBut s l := ⟨rfl, fun part _ => s.agrees_refl part⟩

theorem State.unchangedBut_symm {s t : State} {l : List Part} (h : s.unchangedBut t l) : t.unchangedBut s l :=
  ⟨h.1.symm, fun part hp => State.agrees_symm (h.2 part hp)⟩

theorem State.unchangedBut_mono {s t : State} {a b : List Part} (h : s.unchangedBut t a) (hab : a ⊆ b) : s.unchangedBut t b :=
  ⟨h.1, fun part hp => h.2 part fun hin => hp (hab hin)⟩

/-- Two changes one after the other. -/
theorem State.unchangedBut_trans {s t u : State} {a b c : List Part} (h : s.unchangedBut t a) (k : t.unchangedBut u b)
    (ha : a ⊆ c) (hb : b ⊆ c) : s.unchangedBut u c :=
  ⟨k.1.trans h.1, fun part hp => State.agrees_trans (h.2 part fun hin => hp (ha hin)) (k.2 part fun hin => hp (hb hin))⟩

theorem State.unchangedBut_setPort (s : State) (p : Port) (x : PortState) : s.unchangedBut (s.setPort p x) [.port p] := by
  refine ⟨by simp, fun part hp => ?_⟩
  cases part <;> simp at hp <;> simp [State.agrees]
  next q => rw [State.port_setPort_of_ne _ _ (Ne.symm hp)]

theorem State.unchangedBut_restartInactivity (s : State) (p : Port) :
    s.unchangedBut (s.restartInactivity p) [.inactivityTimer] := by
  refine ⟨by simp, fun part hp => ?_⟩
  cases part <;> simp at hp <;> simp [State.agrees]

theorem restartInactivity_timer (s : State) (p : Port) :
    (s.restartInactivity p).ca.inactivityTimer = if s.ca.owner = some p then some 0 else s.ca.inactivityTimer := by
  unfold State.restartInactivity
  split <;> rfl

/-! ## Selections -/

theorem State.unchangedBut_deselect (s : State) (p : Port) : s.unchangedBut (s.deselect p) [.port p] :=
  s.unchangedBut_setPort p _

/-- The rise of select of Port C or S. -/
theorem endSelection_spec (s : State) (p : Port) :
    (s.endSelection p).port p = { s.port p with selection := .idle, reading := none, shifted := [] } ∧
      (s.endSelection p).ca.inactivityTimer = s.timerAfter p ∧
      s.unchangedBut (s.endSelection p) [.port p, .inactivityTimer] := by
  refine ⟨by simp, by simp [State.endSelection, restartInactivity_timer, State.timerAfter], ?_⟩
  exact State.unchangedBut_trans (s.unchangedBut_deselect p) (State.unchangedBut_restartInactivity _ p) (by simp) (by simp)

/-- What `closeSelection` leaves: the port idle, and nothing else but the timer touched, that only by the end of a read. -/
theorem closeSelection_spec (s : State) (p : Port) :
    (s.closeSelection p).port p = { s.port p with selection := .idle, reading := none, shifted := [] } ∧
      (s.closeSelection p).ca.inactivityTimer =
        (if (s.port p).selection = .idle ∨ (s.port p).reading = none then s.ca.inactivityTimer else s.timerAfter p) ∧
      s.unchangedBut (s.closeSelection p) [.port p, .inactivityTimer] := by
  refine ⟨s.closeSelection_port_self p, ?_⟩
  unfold State.closeSelection
  split
  · exact ⟨by simp, State.unchangedBut_mono (s.unchangedBut_deselect p) (by simp)⟩
  · exact (endSelection_spec s p).2

theorem closeSelection_timerAfter (s : State) (p : Port) : (s.closeSelection p).timerAfter p = s.timerAfter p := by
  unfold State.timerAfter
  rw [State.closeSelection_ca_owner]
  split
  · rfl
  · next h =>
    rw [(closeSelection_spec s p).2.1]
    split
    · rfl
    · simp [State.timerAfter, h]

/-- The commands other than reads, whatever they do to the other blocks: the port's own share (R107, R166, R171, R114). -/
theorem portCommand_spec (p : Port) (body : State → Result × State) (s : State) (h : s.operating) :
    ∃ a, a = body (s.closeSelection p) ∧ portCommand p body s = (a.2.setLastResult p a.1).restartInactivity p := by
  refine ⟨_, rfl, ?_⟩
  unfold portCommand State.isStarting
  simp [h.1, h.2]

/-- A command that answers `r` and changes only the parts listed beside its port and the timer. -/
theorem portCommand_answers {p : Port} {body : State → Result × State} {s u : State} {r : Result} {changed : List Part}
    (h : s.operating) (hb : body (s.closeSelection p) = (r, u)) (hu : (s.closeSelection p).unchangedBut u changed)
    (hp : .port p ∉ changed) (ht : .inactivityTimer ∉ changed) (ho : u.ca.owner = s.ca.owner) :
    s.answers (portCommand p body s) p r changed := by
  obtain ⟨a, ha, he⟩ := portCommand_spec p body s h
  rw [hb] at ha
  subst ha
  rw [he]
  have hc := closeSelection_spec s p
  have hup : u.port p = (s.closeSelection p).port p := hu.2 (.port p) hp
  have hut : u.ca.inactivityTimer = (s.closeSelection p).ca.inactivityTimer := hu.2 .inactivityTimer ht
  refine ⟨?_, ?_, ?_⟩
  · simp [State.answered, State.setLastResult, hup, hc.1]
  · rw [restartInactivity_timer, State.setLastResult_ca, ho, hut, hc.2.1]
    unfold State.timerAfter
    split
    · rfl
    · split <;> simp_all
  · refine State.unchangedBut_trans (b := .port p :: .inactivityTimer :: changed) hc.2.2 ?_ (by simp) (by simp)
    refine State.unchangedBut_trans (b := .port p :: .inactivityTimer :: changed) hu ?_ (by intro x hx; simp [hx]) (by simp)
    exact State.unchangedBut_trans (u.unchangedBut_setPort p _) (State.unchangedBut_restartInactivity _ p) (by simp) (by simp)

/-- A command that leaves the group's ownership as it likes: its answer, the timer as the new owner has it, and its frame. -/
theorem portCommand_answered {p : Port} {body : State → Result × State} {s u : State} {r : Result} {changed : List Part}
    (h : s.operating) (hb : body (s.closeSelection p) = (r, u)) (hu : (s.closeSelection p).unchangedBut u changed)
    (hp : .port p ∉ changed) :
    s.answered (portCommand p body s) p r ∧
      (portCommand p body s).ca.inactivityTimer = (if u.ca.owner = some p then some 0 else u.ca.inactivityTimer) ∧
      u.unchangedBut (portCommand p body s) [.port p, .inactivityTimer] ∧
      s.unchangedBut (portCommand p body s) (.port p :: .inactivityTimer :: changed) := by
  obtain ⟨a, ha, he⟩ := portCommand_spec p body s h
  rw [hb] at ha
  subst ha
  rw [he]
  have hc := closeSelection_spec s p
  have hup : u.port p = (s.closeSelection p).port p := hu.2 (.port p) hp
  have hlast : u.unchangedBut ((u.setLastResult p r).restartInactivity p) [.port p, .inactivityTimer] :=
    State.unchangedBut_trans (u.unchangedBut_setPort p _) (State.unchangedBut_restartInactivity _ p) (by simp) (by simp)
  refine ⟨?_, ?_, hlast, ?_⟩
  · simp [State.answered, State.setLastResult, hup, hc.1]
  · rw [restartInactivity_timer, State.setLastResult_ca]
  · refine State.unchangedBut_trans (b := .port p :: .inactivityTimer :: changed) hc.2.2 ?_ (by simp) (by simp)
    exact State.unchangedBut_trans (b := [.port p, .inactivityTimer]) hu hlast (by intro x hx; simp [hx]) (by simp)

/-- A refusal while the part is in STARTING (R174). -/
theorem portCommand_starting {p : Port} {body : State → Result × State} {s : State} (h : s.resetLine = false)
    (hs : s.pe.frameState = .starting) : portCommand p body s = discardSelection p .starting s := by
  simp [portCommand, discardSelection, h, hs, State.isStarting]

/-- A discarded selection (R167, R169, R174). -/
theorem discardSelection_answers {p : Port} {r : Result} {s : State} (h : s.resetLine = false) :
    s.answers (discardSelection p r s) p r [] := by
  have hc := closeSelection_spec s p
  have he : discardSelection p r s = ((s.closeSelection p).setLastResult p r).restartInactivity p := by
    simp [discardSelection, h]
  rw [he]
  refine ⟨?_, ?_, ?_⟩
  · simp [State.answered, State.setLastResult, hc.1]
  · rw [restartInactivity_timer, State.setLastResult_ca, State.closeSelection_ca_owner, hc.2.1]
    unfold State.timerAfter
    split
    · rfl
    · split <;> simp_all
  · refine State.unchangedBut_trans hc.2.2 ?_ (by simp) (fun _ h => h)
    exact State.unchangedBut_trans (State.unchangedBut_setPort _ p _) (State.unchangedBut_restartInactivity _ p) (by simp)
      (by simp)

theorem portCommand_reset {p : Port} {body : State → Result × State} {s : State} (h : s.resetLine = true) :
    portCommand p body s = s := by simp [portCommand, h]

theorem discardSelection_reset {p : Port} {r : Result} {s : State} (h : s.resetLine = true) : discardSelection p r s = s := by
  simp [discardSelection, h]

/-! ## Reads -/

/-- The next byte of a reply that is shifted out once; 0 after it (R168). -/
@[simp] theorem Reading.out_once (bytes : List Byte) (k : Nat) :
    Reading.out { reply := bytes, repeated := false, position := k } = bytes.getD k 0 := by simp [Reading.out]

/-- The next byte of a reply that is repeated (R168). -/
@[simp] theorem Reading.out_repeated (bytes : List Byte) (k : Nat) :
    Reading.out { reply := bytes, repeated := true, position := k } = bytes.getD (k % bytes.length) 0 := by simp [Reading.out]

@[simp] theorem PortState.replying_selection (x : PortState) (received : List Byte) (r : Reading) :
    (x.replying received r).selection = .selected received [] := rfl

@[simp] theorem PortState.replying_reading (x : PortState) (received : List Byte) (r : Reading) :
    (x.replying received r).reading = some r := rfl

@[simp] theorem PortState.replying_shifted (x : PortState) (received : List Byte) (r : Reading) :
    (x.replying received r).shifted = List.replicate received.length 0 := rfl

@[simp] theorem PortState.replying_lastResult (x : PortState) (received : List Byte) (r : Reading) :
    (x.replying received r).lastResult = x.lastResult := rfl

@[simp] theorem PortState.replying_writeEnable (x : PortState) (received : List Byte) (r : Reading) :
    (x.replying received r).writeEnable = x.writeEnable := rfl

@[simp] theorem Reading.advance_reply (r : Reading) : r.advance.reply = r.reply := rfl

@[simp] theorem Reading.advance_repeated (r : Reading) : r.advance.repeated = r.repeated := rfl

theorem Reading.advance_position (r : Reading) :
    r.advance.position =
      if r.repeated then (r.position + 1) % r.reply.length else min (r.position + 1) r.reply.length := rfl

/-- A port set after the end that a selection implies. -/
theorem readAnswered_setPort (s : State) (p : Port) (received : List Byte) (reading : Reading) (r : Result) :
    s.readAnswered
      ((s.closeSelection p).setPort p { ((s.closeSelection p).port p).replying received reading with lastResult := r })
      p received (some reading) r := by
  have hc := closeSelection_spec s p
  refine ⟨by simp [hc.1, PortState.replying], by simpa using hc.2.1, ?_⟩
  exact State.unchangedBut_trans hc.2.2 (State.unchangedBut_setPort _ p _) (fun _ h => h) (by simp)

/-- A read that is answered. -/
theorem portRead_ok {p : Port} {received : List Byte} {body : State → Except Result (List Byte)} {s : State} {bytes : List Byte}
    (h : s.operating) (hb : body (s.closeSelection p) = .ok bytes) :
    s.readAnswered (portRead p received body s) p received (some (Reading.once bytes)) .done := by
  have : portRead p received body s =
      (s.closeSelection p).setPort p
        { ((s.closeSelection p).port p).replying received (Reading.once bytes) with lastResult := .done } := by
    unfold portRead State.isStarting
    simp [h.1, h.2, hb]
  rw [this]
  exact readAnswered_setPort ..

/-- A read that is refused. -/
theorem portRead_error {p : Port} {received : List Byte} {body : State → Except Result (List Byte)} {s : State} {r : Result}
    (h : s.operating) (hb : body (s.closeSelection p) = .error r) :
    s.readAnswered (portRead p received body s) p received (some (Reading.once [])) r := by
  have : portRead p received body s =
      (s.closeSelection p).setPort p
        { ((s.closeSelection p).port p).replying received (Reading.once []) with lastResult := r } := by
    unfold portRead State.isStarting
    simp [h.1, h.2, hb]
  rw [this]
  exact readAnswered_setPort ..

/-- A read refused in STARTING (R174). -/
theorem portRead_starting {p : Port} {received : List Byte} {body : State → Except Result (List Byte)} {s : State}
    (h : s.resetLine = false) (hs : s.pe.frameState = .starting) :
    s.readAnswered (portRead p received body s) p received (some (Reading.once [])) .starting := by
  have : portRead p received body s =
      (s.closeSelection p).setPort p
        { ((s.closeSelection p).port p).replying received (Reading.once []) with lastResult := .starting } := by
    unfold portRead State.isStarting
    simp [h, hs]
  rw [this]
  exact readAnswered_setPort ..

theorem portRead_reset {p : Port} {received : List Byte} {body : State → Except Result (List Byte)} {s : State}
    (h : s.resetLine = true) : portRead p received body s = s := by simp [portRead, h]

end Sys2Proof.Machine
end

