-- ==== Sys2Proof/Laws/Context.lean ====
section
/-! SUPPORT. What a pass, an acceptance and the references of entries leave (chapter 5). -/

namespace Sys2Proof.Machine

/-- Which slots the binding fields name (R99). -/
theorem Fields.binds_iff (f : Fields) (i : Fin 8) : f.binds i = true ↔ toneSlot f.programmeTone = i ∨ toneSlot f.monitorTone = i ∨ ∃ l, f.monitorLattice = some l ∧ latticeSlot l = i := by
  unfold Fields.binds
  simp only [Bool.or_eq_true, decide_eq_true_eq, or_assoc]
  cases f.monitorLattice <;> simp

/-- The reference counts after entries leave the queue (R91). -/
theorem releaseReferences_get (entries : List Entry) (slots : Tab Slot 8) (i : Fin 8) :
    (releaseReferences slots entries).get i = { slots.get i with references := (slots.get i).references - namingCount entries i } := by
  unfold releaseReferences namingCount
  induction entries generalizing slots with
  | nil => simp
  | cons e rest ih =>
    rw [List.foldl_cons, ih, List.countP_cons]
    unfold lowerReference
    cases hb : e.boundSlot with
    | none => simp
    | some j =>
      simp only [Tab.get_set, Option.some.injEq, decide_eq_true_eq]
      by_cases h : j = i
      · subst h; simp; omega
      · simp [h]

/-- The reference counts after an entry joins the queue (R89). -/
theorem raiseReference_get (slots : Tab Slot 8) (b : Option (Fin 8)) (i : Fin 8) : (raiseReference slots b).get i = if b = some i then { slots.get i with references := (slots.get i).references + 1 } else slots.get i := by
  unfold raiseReference
  cases b with
  | none => simp
  | some j =>
    simp only [Tab.get_set, Option.some.injEq]
    by_cases h : j = i
    · subst h; simp
    · simp [h]

/-- A slot after a pass: its bound mark and its references. -/
theorem slot_runPass (kind : PassKind) (s : State) (i : Fin 8) :
    (runPass kind s).slot i = { s.slot i with
      bound := (runPass kind s).cu.fields.binds i
      references := (s.slot i).references - namingCount (dueEntries s.cu.queue) i } := by
  simp only [runPass, State.slot, markBound, Tab.get_ofFn, releaseReferences_get]

/-- What a pass leaves as it was. -/
theorem unchangedBut_runPass (kind : PassKind) (s : State) : s.unchangedBut (runPass kind s) [.fields, .derived, .queue, .appliedChanges, .slots, .frameContext, .tracker] := by
  refine ⟨rfl, fun part hp => ?_⟩
  cases part <;> simp at hp <;> simp [State.agrees, runPass]
  next q => cases q <;> rfl

/-- A pass over a queue is what the rules say of it (R92 to R100). -/
theorem passMade_runPass (kind : PassKind) (s u : State) (hf : u.cu.fields = s.cu.fields) (ha : u.cu.appliedChanges = s.cu.appliedChanges)
    (hc : u.cu.calibration = s.cu.calibration) (hd : u.cu.derived = s.cu.derived) (hit : u.it = s.it)
    (hs : ∀ i, (u.slot i).state = (s.slot i).state ∧ (u.slot i).generation = (s.slot i).generation ∧
      (u.slot i).origin = (s.slot i).origin ∧ (u.slot i).saving = (s.slot i).saving ∧ (u.slot i).content = (s.slot i).content) :
    s.passMade kind u.cu.queue (runPass kind u) := by
  have hb : Pass.begin u.cu = Pass.begin s.cu := by simp [Pass.begin, hf, ha]
  unfold State.passMade
  refine ⟨rfl, ?_, ?_, rfl, fun i => ?_, fun i => ?_, ?_⟩
  · show (runPass kind u).cu.fields = _
    simp only [runPass, passFields, glideBound, applyDue, hb, hf, dueEntries]
    generalize (List.takeWhile (fun e => decide (e.mark ≠ GroupMark.openGroup)) u.cu.queue).foldl (applyEntry kind) (Pass.begin s.cu) = w
    cases kind
    · simp only [true_and]
      by_cases h : (w.trackerMired && !w.portMired) = true
      · have h' : w.trackerMired = true ∧ w.portMired = false := by simpa using h
        simp only [h', and_self, if_true, Bool.not_false, Bool.and_self]
        by_cases h1 : s.cu.fields.mired + w.fields.glideRate < w.fields.mired
        · simp [h1]
        · by_cases h2 : w.fields.mired + w.fields.glideRate < s.cu.fields.mired
          · simp [h1, h2]
          · simp [h1, h2]
      · have h' : ¬ (w.trackerMired = true ∧ w.portMired = false) := by simpa using h
        rw [if_neg h, if_neg h']
    · simp only [reduceCtorEq, false_and, if_false]
  · intro c hcc
    simp only [runPass, applyDue, hb, dueEntries, hc, hcc, rederive, hd]
  · rw [slot_runPass]; exact Fields.binds_iff _ _
  · rw [slot_runPass]; exact hs i
  · simp only [runPass, trackerAfterPass, applyDue, hb, dueEntries, hit, hf]
    generalize (List.takeWhile (fun e => decide (e.mark ≠ GroupMark.openGroup)) u.cu.queue).foldl (applyEntry kind) (Pass.begin s.cu) = w
    simp only [Bool.and_eq_true, decide_eq_true_eq]
    split
    · next h => simp only [h.2]
    · rfl

/-- What a pass leaves does not depend on the parts it does not touch. -/
theorem passMade_congr {kind : PassKind} {q : List Entry} {s t t' : State} (h : s.passMade kind q t) (h1 : t'.cu.queue = t.cu.queue) (h2 : t'.cu.fields = t.cu.fields) (h3 : t'.cu.derived = t.cu.derived) (h4 : t'.pe.context = t.pe.context) (h5 : t'.slots = t.slots) (h6 : t'.it = t.it) : s.passMade kind q t' := by
  unfold State.passMade at h ⊢
  simp only [State.slot] at h ⊢
  rw [h1, h2, h3, h4, h5, h6]
  exact h

/-- An entry that joins the queue changes the queue and a slot alone. -/
theorem unchangedBut_enqueue (s : State) (e : Entry) : s.unchangedBut (enqueue s e) [.queue, .slots] := by
  refine ⟨rfl, fun part hp => ?_⟩
  cases part <;> simp at hp <;> simp [State.agrees, enqueue]
  next q => cases q <;> rfl

/-- The refusals of R87 in their order, and an acceptance. -/
theorem judgeSubmission_spec (s : State) (id : Byte) (v : Int) :
    (fieldOfId id = none → judgeSubmission s id v = .error .badField) ∧
    (∀ x, fieldOfId id = some x →
      (¬ (x.isBinding = true → x.namesSlot v = true) → judgeSubmission s id v = .error .badSlot) ∧
      ((x.isBinding = true → x.namesSlot v = true) →
        (¬ (∀ i, x.boundSlot v = some i → (s.slot i).state = .ready) → judgeSubmission s id v = .error .notReady) ∧
        ((∀ i, x.boundSlot v = some i → (s.slot i).state = .ready) →
          (32 ≤ s.cu.queue.length → judgeSubmission s id v = .error .full) ∧
          (s.cu.queue.length < 32 → judgeSubmission s id v = .ok x)))) := by
  refine ⟨fun h => by simp [judgeSubmission, h], fun x hx => ?_⟩
  have hb : ∀ i, x.boundSlot v = some i → x.isBinding = true := by intro i; cases x <;> simp [Field.boundSlot, Field.isBinding]
  have hany : ((x.boundSlot v).any fun i => decide ((s.slot i).state ≠ .ready)) = true ↔ ¬ ∀ i, x.boundSlot v = some i → (s.slot i).state = .ready := by
    cases x.boundSlot v <;> simp
  unfold judgeSubmission
  rw [hx]
  simp only
  refine ⟨fun hn => ?_, fun hn => ⟨fun hr => ?_, fun hr => ⟨fun hq => ?_, fun hq => ?_⟩⟩⟩
  · have : (x.isBinding && !x.namesSlot v) = true := by
      rw [Classical.not_imp] at hn; simp [hn.1]; simpa using hn.2
    simp [this]
  · have h1 : (x.isBinding && !x.namesSlot v) = false := by
      cases h : x.isBinding with
      | false => rfl
      | true => simp [hn h]
    have h2 := hany.2 hr
    have h3 : x.isBinding = true := by
      obtain ⟨i, hi⟩ := Classical.not_forall.1 hr
      exact hb i (Classical.not_imp.1 hi).1
    rw [if_neg (by rw [h1]; simp), if_pos (by rw [h2, h3]; rfl)]
  all_goals
    have h1 : (x.isBinding && !x.namesSlot v) = false := by
      cases h : x.isBinding with
      | false => rfl
      | true => simp [hn h]
    have h2 : ((x.boundSlot v).any fun i => decide ((s.slot i).state ≠ .ready)) = false := by
      cases h : ((x.boundSlot v).any fun i => decide ((s.slot i).state ≠ .ready)) with
      | false => rfl
      | true => exact absurd hr (hany.1 h)
    unfold queueCapacity
    simp only [h1, h2, Bool.and_false]
  · simp [hq]
  · simp [show ¬ 32 ≤ s.cu.queue.length by omega]

/-- What a submission can change. -/
theorem unchangedBut_submit (src : Requester) (m : GroupMark) (id : Byte) (v : Int) (s : State) : s.unchangedBut (submit src m id v s).2 [.queue, .slots, .fields, .derived, .appliedChanges, .frameContext, .tracker] := by
  unfold submit
  split
  · exact State.unchangedBut_refl _ _
  · simp only
    split
    · exact State.unchangedBut_trans (unchangedBut_enqueue _ _) (unchangedBut_runPass _ _) (by simp) (by simp)
    · exact State.unchangedBut_mono (unchangedBut_enqueue _ _) (by simp)

/-- The applied-change list takes an item and keeps the 32 most recent (R101). -/
theorem pushItem_spec (items : List AppliedItem) (x : AppliedItem) : ∃ dropped, dropped ++ pushItem items x = items ++ [x] ∧ (pushItem items x).length = min 32 (items.length + 1) := by
  refine ⟨(items ++ [x]).take (items.length + 1 - 32), List.take_append_drop _ _, ?_⟩
  unfold pushItem; simp; omega

end Sys2Proof.Machine
end

