-- ==== Sys2Proof/Laws/Arbiter.lean ====
section
/-! SUPPORT. What a grant, a request, a group and the tracker's submission leave (chapter 6). -/

namespace Sys2Proof.Machine

/-- A grant changes the grant order alone (R106). -/
theorem unchangedBut_granted (s : State) (r : Requester) : s.unchangedBut (s.granted r) [.grantOrder] := by
  refine ⟨rfl, fun part hp => ?_⟩
  cases part <;> simp at hp <;> simp [State.agrees, State.granted]
  next q => cases q <;> rfl

/-- A request that nothing stands before is taken at once (R106). -/
theorem takeRequest_of_portFirst {p : Port} {s : State} (body : State → Result × State) (h : s.portFirst p) : takeRequest p body s = body (s.granted (portRequester p)) := by
  unfold takeRequest State.portFirst at *
  have : (s.it.waiting.isSome && standsBefore s.ca.grantOrder .tracker (portRequester p)) = false := by
    cases hw : s.it.waiting.isSome with
    | false => rfl
    | true => rw [h hw]; rfl
  simp [this]

/-- The end of a selection does not change who comes first. -/
theorem portFirst_closeSelection {p q : Port} {s : State} (h : s.portFirst p) : (s.closeSelection q).portFirst p := by
  unfold State.portFirst at *; simpa using h

/-- An EDIT that the arbiter passes on (R108, R110). -/
theorem editRequest_of_passed {p : Port} {id : Byte} {value : Word} {s : State} (h : s.ca.outcome p ≠ .expired) (ho : s.ca.owner = none ∨ s.ca.owner = some p) :
    editRequest p id value s = submit (portRequester p) (if s.ca.owner = some p then .openGroup else .ungrouped) id value.toInt s := by
  unfold editRequest
  rcases ho with ho | ho <;> simp [h, ho]

/-- The end of a selection changes no group outcome. -/
theorem outcome_closeSelection (s : State) (p q : Port) : (s.closeSelection p).ca.outcome q = s.ca.outcome q := by
  unfold Arbiter.outcome; cases q <;> simp

/-- A grant changes no group outcome. -/
theorem outcome_granted (s : State) (r) (q : Port) : (s.granted r).ca.outcome q = s.ca.outcome q := by
  unfold Arbiter.outcome; cases q <;> rfl

/-- The outcomes after one is set. -/
theorem outcome_setOutcome (a : Arbiter) (p q : Port) (o : GroupOutcome) : (a.setOutcome p o).outcome q = if p = q then o else a.outcome q := by
  cases p <;> cases q <;> simp [Arbiter.setOutcome, Arbiter.outcome]

/-- A group freed (R111, R113, R115). -/
theorem freeGroup_spec (s : State) (p : Port) (o : GroupOutcome) :
   (s.freeGroup p o).ca.owner = none ∧ (s.freeGroup p o).ca.outcome p = o ∧ (∀ q, q ≠ p → (s.freeGroup p o).ca.outcome q = s.ca.outcome q) ∧ (s.freeGroup p o).ca.inactivityTimer = none ∧ (s.freeGroup p o).ca.expiryNote = s.ca.expiryNote ∧ s.unchangedBut (s.freeGroup p o) [.group, .inactivityTimer] := by
  refine ⟨rfl, ?_, fun q hq => ?_, rfl, ?_, ?_⟩
  · cases p <;> rfl
  · cases p <;> cases q <;> simp at hq <;> rfl
  · cases p <;> rfl
  · refine ⟨rfl, fun part hp => ?_⟩
    cases part <;> simp at hp <;> cases p <;> simp [State.agrees, State.freeGroup, Arbiter.setOutcome]
    all_goals (next q => cases q <;> rfl)

/-- Of two requesters waiting together the first stands before the second when it comes earlier in the grant order (R106). -/
theorem standsBefore_eq_true (order : List Requester) (a b : Requester) (h : a ≠ b) :
    standsBefore order a b = true ↔ order.idxOf a < order.idxOf b := by
  unfold standsBefore
  rw [decide_eq_true_iff]
  induction order with
  | nil => simp
  | cons x rest ih =>
    by_cases ha : x = a
    · subst ha
      simp [List.idxOf_cons, beq_eq_false_iff_ne.mpr h]
    · by_cases hb : x = b
      · subst hb
        simp [Ne.symm h]
      · simp [ha, hb, ih]

/-- Milliseconds on the inactivity timer: nothing on a stopped one; the expiry at 200; else the timer alone (R115). -/
theorem elapseGroup_spec (ms : Nat) (s : State) :
    (s.ca.inactivityTimer = none → elapseGroup ms s = s) ∧
    ∀ k, s.ca.inactivityTimer = some k →
      (200 ≤ k + ms → elapseGroup ms s = expireGroup s) ∧
      (k + ms < 200 → elapseGroup ms s = { s with ca := { s.ca with inactivityTimer := some (k + ms) } }) := by
  unfold elapseGroup inactivityLimit
  refine ⟨fun h => by rw [h], fun k h => ?_⟩
  rw [h]
  exact ⟨fun hk => by simp [hk], fun hk => by simp [Nat.not_le.mpr hk]⟩

/-- A group closed, and its pass in NO_INPUT (R90, R94, R111). -/
theorem closeGroup_spec (p : Port) (s : State) :
   let closed := s.cu.queue.map fun e => if e.mark = .openGroup then { e with mark := .closedGroup } else e
   let t := closeGroup p s
   t.ca.owner = none ∧ t.ca.outcome p = .noGroup ∧ (∀ q, q ≠ p → t.ca.outcome q = s.ca.outcome q) ∧ t.ca.inactivityTimer = none ∧ t.ca.expiryNote = s.ca.expiryNote ∧
   (s.pe.frameState ≠ .noInput → t.cu.queue = closed ∧ s.unchangedBut t [.inactivityTimer, .group, .queue]) ∧
   (s.pe.frameState = .noInput → s.passMade .noInput closed t ∧
        s.unchangedBut t [.inactivityTimer, .group, .queue, .appliedChanges, .derived, .fields, .slots, .tracker, .frameContext]) := by
  have hF := freeGroup_spec (closeGroupEntries s) p .noGroup
  have h1 : s.unchangedBut (closeGroupEntries s) [.queue] := by
    refine ⟨rfl, fun part hp => ?_⟩
    cases part <;> simp at hp <;> simp [State.agrees, closeGroupEntries]
    next q => cases q <;> rfl
  have h2 : s.unchangedBut ((closeGroupEntries s).freeGroup p .noGroup) [.inactivityTimer, .group, .queue] :=
    State.unchangedBut_trans h1 hF.2.2.2.2.2 (by simp) (by simp)
  have hca : (closeGroup p s).ca = ((closeGroupEntries s).freeGroup p .noGroup).ca := by
    unfold closeGroup; simp only; split <;> rfl
  simp only
  rw [hca]
  refine ⟨hF.1, hF.2.1, hF.2.2.1, hF.2.2.2.1, hF.2.2.2.2.1, fun h => ?_, fun h => ?_⟩
  · have : closeGroup p s = (closeGroupEntries s).freeGroup p .noGroup := by
      simp [closeGroup, State.isNoInput, h]
    rw [this]; exact ⟨rfl, h2⟩
  · have : closeGroup p s = runPass .noInput ((closeGroupEntries s).freeGroup p .noGroup) := by
      simp [closeGroup, State.isNoInput, h]
    rw [this]
    refine ⟨passMade_runPass .noInput s _ rfl rfl rfl rfl rfl fun i => ⟨rfl, rfl, rfl, rfl, rfl⟩, ?_⟩
    exact State.unchangedBut_trans h2 (unchangedBut_runPass _ _) (by simp) (by simp)

/-- The pass that a close makes in NO_INPUT, over the whole closed group: the queue left, the items and the references (R91,
R94, R101). -/
theorem closeGroup_pass (p : Port) (s : State) (h : s.pe.frameState = .noInput) :
   let closed := s.cu.queue.map fun e => if e.mark = .openGroup then { e with mark := .closedGroup } else e
   let t := closeGroup p s
   t.cu.queue = [] ∧ t.cu.appliedChanges = (closed.foldl (applyEntry .noInput) (Pass.begin s.cu)).items ∧
   ∀ i, (t.slot i).references = (s.slot i).references - namingCount closed i := by
  have ht : closeGroup p s = runPass .noInput ((closeGroupEntries s).freeGroup p .noGroup) := by
    simp [closeGroup, State.isNoInput, h]
  have hall : ∀ e ∈ s.cu.queue.map (fun e => if e.mark = .openGroup then { e with mark := .closedGroup } else e),
      decide (e.mark ≠ .openGroup) = true := by
    intro e he
    obtain ⟨d, -, rfl⟩ := List.mem_map.1 he
    split
    · rfl
    · next hd => simpa using hd
  have hq : ((closeGroupEntries s).freeGroup p .noGroup).cu.queue =
      s.cu.queue.map (fun e => if e.mark = .openGroup then { e with mark := .closedGroup } else e) := rfl
  have hdue : dueEntries ((closeGroupEntries s).freeGroup p .noGroup).cu.queue =
      s.cu.queue.map (fun e => if e.mark = .openGroup then { e with mark := .closedGroup } else e) := by
    rw [hq]; exact List.takeWhile_eq_self_iff.2 hall
  simp only
  rw [ht]
  refine ⟨?_, ?_, fun i => ?_⟩
  · show waitingEntries _ = []
    rw [hq]; exact List.dropWhile_eq_nil_iff.2 hall
  · show (applyDue .noInput ((closeGroupEntries s).freeGroup p .noGroup).cu).items = _
    unfold applyDue; rw [hdue]; rfl
  · rw [slot_runPass, hdue]; rfl

/-- What agreement on the group says. -/
theorem agrees_group {s t : State} (h : s.agrees t .group) : t.ca.owner = s.ca.owner ∧ (∀ q, t.ca.outcome q = s.ca.outcome q) ∧ t.ca.expiryNote = s.ca.expiryNote := by
  obtain ⟨b1, b2, b3, b4⟩ := h
  refine ⟨b1, fun q => ?_, b4⟩
  cases q
  · exact b2
  · exact b3

/-- A pass stays made when only other parts change afterwards. -/
theorem passMade_of_unchangedBut {kind : PassKind} {q : List Entry} {s u t : State} {l : List Machine.Part} (h : s.passMade kind q u) (k : u.unchangedBut t l)
   (hl : Part.queue ∉ l ∧ Part.fields ∉ l ∧ Part.derived ∉ l ∧ Part.frameContext ∉ l ∧ Part.slots ∉ l ∧ Part.tracker ∉ l) : s.passMade kind q t :=
  passMade_congr h (k.2 .queue hl.1) (k.2 .fields hl.2.1) (k.2 .derived hl.2.2.1) (k.2 .frameContext hl.2.2.2.1) (k.2 .slots hl.2.2.2.2.1) (k.2 .tracker hl.2.2.2.2.2)

/-- A pass made on a state is made on any state with the same fields, slots and tracker. -/
theorem passMade_of_source {kind : PassKind} {q : List Entry} {s s' t : State} (h : s.passMade kind q t) (h1 : s'.cu = s.cu) (h2 : s'.slots = s.slots) (h3 : s'.it = s.it) : s'.passMade kind q t := by
  unfold State.passMade at h ⊢
  simp only [State.slot] at h ⊢
  rw [h1, h2, h3]; exact h

/-- The parts of a state that the end of a selection touches, replaced. -/
def withPorts (a b : PortState) (k : Option Nat) (s : State) : State :=
  { s with portC := a, portS := b, ca := { s.ca with inactivityTimer := k } }

/-- A submission does not depend on the ports. -/
theorem submit_withPorts (a b : PortState) (k : Option Nat) (src m id v) (s : State) : submit src m id v (withPorts a b k s) = ((submit src m id v s).1, withPorts a b k (submit src m id v s).2) := by
  have hj : judgeSubmission (withPorts a b k s) id v = judgeSubmission s id v := rfl
  unfold submit
  rw [hj]
  split
  · rfl
  · simp only
    have : (withPorts a b k s).isNoInput = s.isNoInput := rfl
    rw [this]
    split <;> rfl

/-- The tracker's submission does not depend on the ports. -/
theorem takeSubmission_withPorts (a b : PortState) (k : Option Nat) (s : State) : takeSubmission (withPorts a b k s) = withPorts a b k (takeSubmission s) := by
  unfold takeSubmission
  have : (withPorts a b k s).it = s.it := rfl
  rw [this]
  split
  · rfl
  · next w _ =>
    simp only
    have e : ((withPorts a b k s).granted .tracker) = withPorts a b k (s.granted .tracker) := rfl
    rw [e, submit_withPorts]
    have : (withPorts a b k (s.granted .tracker)).ca.owner = (s.granted .tracker).ca.owner := rfl
    rw [this]
    split <;> rfl

/-- What the tracker's submission can change. -/
theorem unchangedBut_takeSubmission (s : State) : s.unchangedBut (takeSubmission s) [.queue, .slots, .fields, .derived, .appliedChanges, .frameContext, .tracker, .grantOrder] := by
  unfold takeSubmission
  split
  · exact State.unchangedBut_refl _ _
  · next w _ =>
    simp only
    have h0 := unchangedBut_granted s .tracker
    have hit : ∀ (u : State) x, u.unchangedBut { u with it := x } [.tracker] := by
      intro u x
      refine ⟨rfl, fun part hp => ?_⟩
      cases part <;> simp at hp <;> simp [State.agrees]
      next q => cases q <;> rfl
    split
    · exact State.unchangedBut_trans h0 (hit _ _) (by simp) (by simp)
    · exact State.unchangedBut_trans h0 (State.unchangedBut_trans (c := [.queue, .slots, .fields, .derived, .appliedChanges, .frameContext, .tracker]) (unchangedBut_submit _ _ _ _ _) (hit _ _) (by simp) (by simp)) (by simp) (by simp)

/-- A submission that is taken no longer waits (R79). -/
theorem takeSubmission_waiting (s : State) : (takeSubmission s).it.waiting = none := by
  unfold takeSubmission
  split
  · next h => exact h
  · simp only; split <;> rfl

/-- The end of a selection, as a replacement of ports and timer. -/
theorem closeSelection_withPorts (s : State) (p : Port) : s.closeSelection p = withPorts (s.closeSelection p).portC (s.closeSelection p).portS (s.closeSelection p).ca.inactivityTimer s := by
  unfold State.closeSelection State.endSelection State.restartInactivity withPorts
  repeat' split
  all_goals cases p <;> rfl

/-- The tracker's submission and the end of a selection can change places. -/
theorem takeSubmission_closeSelection (s : State) (p : Port) : takeSubmission (s.closeSelection p) = (takeSubmission s).closeSelection p := by
  conv_lhs => rw [closeSelection_withPorts]
  rw [takeSubmission_withPorts]
  conv_rhs => rw [closeSelection_withPorts]
  have f := unchangedBut_takeSubmission s
  have hp : ∀ q, (takeSubmission s).port q = s.port q := fun q => f.2 (.port q) (by simp)
  have ho : (takeSubmission s).ca.owner = s.ca.owner := (f.2 .group (by simp)).1
  have ht : (takeSubmission s).ca.inactivityTimer = s.ca.inactivityTimer := f.2 .inactivityTimer (by simp)
  have k1 : ((takeSubmission s).closeSelection p).ca.inactivityTimer = (s.closeSelection p).ca.inactivityTimer := by
    rw [(closeSelection_spec _ _).2.1, (closeSelection_spec _ _).2.1]; simp only [State.timerAfter, hp, ho, ht]
  have k2 : ∀ q, ((takeSubmission s).closeSelection p).port q = (s.closeSelection p).port q := by
    intro q
    by_cases h : p = q
    · subst h; rw [(closeSelection_spec _ _).1, (closeSelection_spec _ _).1]; simp only [hp]
    · rw [State.closeSelection_port_of_ne _ h, State.closeSelection_port_of_ne _ h, hp]
  have kc := k2 .c
  have ks := k2 .s
  simp only [State.port] at kc ks
  rw [k1, kc, ks]

end Sys2Proof.Machine
end

