-- ==== Sys2Proof/Laws/Selections.lean ====
section
/-! SUPPORT. What the end of an earlier selection leaves as it was, what a command judged by the store leaves of its port, and
which command a frame can be. -/

namespace Sys2Proof.Machine

/-- The end of a selection changes no slot. -/
theorem closeSelection_slot (s : State) (p : Port) (i : Fin 8) : (s.closeSelection p).slot i = s.slot i := by simp [State.slot]

/-- The end of a selection changes no directory entry. -/
theorem closeSelection_sectorEntry (s : State) (p : Port) (i : Fin 64) : (s.closeSelection p).sectorEntry i = s.sectorEntry i := by simp [State.sectorEntry]

/-- A selection that has ended does not end again. -/
theorem closeSelection_closeSelection (s : State) (p : Port) : (s.closeSelection p).closeSelection p = s.closeSelection p := by
  rw [State.closeSelection_of_idle _ _ (by simp), State.deselect_of_idle] <;> simp [State.closeSelection_port_self]

/-- In an operating state neither the reset line nor STARTING holds an event back. -/
theorem operating_condition {s : State} (h : s.operating) : (s.resetLine || s.isStarting) = false := by
  simp [State.isStarting, h.1, h.2]

/-- A store command whose body clears the latch and then changes only some parts leaves its port judged. -/
theorem judged_of_body {p : Port} {body : State → Result × State} {s u : State} {r : Result} {changed : List Machine.Part}
    (h : s.operating) (hb : body (s.closeSelection p) = (r, u)) (hu : ((s.closeSelection p).setWriteEnable p false).unchangedBut u changed)
    (hp : .port p ∉ changed) (ht : .inactivityTimer ∉ changed) (ho : u.ca.owner = s.ca.owner) :
    s.judged (portCommand p body s) p r changed ∧ u.unchangedBut (portCommand p body s) [.port p, .inactivityTimer] := by
  obtain ⟨a, ha, he⟩ := portCommand_spec p body s h
  rw [hb] at ha
  subst ha
  rw [he]
  have hc := closeSelection_spec s p
  have hup : u.port p = ((s.closeSelection p).setWriteEnable p false).port p := hu.2 (.port p) hp
  have hut : u.ca.inactivityTimer = ((s.closeSelection p).setWriteEnable p false).ca.inactivityTimer := hu.2 .inactivityTimer ht
  have hlast : u.unchangedBut ((u.setLastResult p r).restartInactivity p) [.port p, .inactivityTimer] :=
    State.unchangedBut_trans (u.unchangedBut_setPort p _) (State.unchangedBut_restartInactivity _ p) (by simp) (by simp)
  refine ⟨⟨?_, ?_, ?_, ?_, ?_, ?_, ?_⟩, hlast⟩
  · simp [State.setLastResult, hup, State.setWriteEnable, hc.1]
  · simp [State.setLastResult, hup, State.setWriteEnable, hc.1]
  · simp [State.setLastResult, hup, State.setWriteEnable, hc.1]
  · simp [State.setLastResult, hup, State.setWriteEnable, hc.1]
  · simp [State.setLastResult, hup, State.setWriteEnable, hc.1]
  · rw [restartInactivity_timer, State.setLastResult_ca, ho, hut]
    simp only [State.setWriteEnable_ca]
    rw [hc.2.1]
    unfold State.timerAfter
    split
    · rfl
    · split <;> simp_all
  · refine State.unchangedBut_trans (b := .port p :: .inactivityTimer :: changed) hc.2.2 ?_ (by simp) (by simp)
    refine State.unchangedBut_trans (b := .port p :: .inactivityTimer :: changed) (t := (s.closeSelection p).setWriteEnable p false) (State.unchangedBut_setPort _ p _) ?_ (by simp) (by simp)
    exact State.unchangedBut_trans hu hlast (by intro x hx; simp [hx]) (by simp)

/-- Replacing a slot changes nothing but the slots. -/
theorem State.unchangedBut_setSlot (s : State) (i : Fin 8) (x : Slot) : s.unchangedBut (s.setSlot i x) [.slots] := by
  refine ⟨rfl, fun part hp => ?_⟩
  cases part <;> simp at hp <;> simp [State.agrees]
  next q => cases q <;> rfl

/-- The slots after a command are those its body leaves. -/
theorem portCommand_slots {p : Port} {body} {s u : State} {r : Result} (h : s.operating) (hb : body (s.closeSelection p) = (r, u))  :
   (portCommand p body s).slots = u.slots := by
  obtain ⟨a, ha, he⟩ := portCommand_spec p body s h
  rw [hb] at ha; subst ha; rw [he]; simp

/-- A slot not in use has none of the three marks (R125). -/
theorem Slot.inUse_eq_false (x : Slot) : x.inUse = false ↔ (x.bound = false ∧ x.references = 0 ∧ x.saving = false) := by
  simp [Slot.inUse, and_assoc]

/-- A slot in use has one of the three marks (R125). -/
theorem Slot.inUse_eq_true (x : Slot) : x.inUse = true ↔ (x.bound = true ∨ 0 < x.references ∨ x.saving = true) := by
  simp [Slot.inUse, or_assoc]

/-- What a page write leaves: the last byte aimed at a position, and every other byte as it was (R128). -/
theorem writePage_spec (i : Fin 8) (page : Nat) (data : List Byte) : ∀ (offset : Nat) (content : Memory),
   let at_ (k : Nat) := 256 * page + (offset + k) % 256
   let c' := writePage i page offset data content
   (∀ k (hk : k < data.length), at_ k < slotByteCount i → (∀ m, k < m → m < data.length → at_ m ≠ at_ k) → Memory.read 0 c' (at_ k) = data[k]) ∧
   ∀ a, (slotByteCount i ≤ a ∨ ∀ k < data.length, at_ k ≠ a) → Memory.read 0 c' a = Memory.read 0 content a := by
  unfold writePage
  induction data with
  | nil => intro o c; simp
  | cons b rest ih =>
    intro o c
    simp only [List.foldl_cons]
    have := ih (o+1) (if 256 * page + o % 256 < slotByteCount i then Memory.write slotFill c (256 * page + o % 256) b else c)
    simp only at this
    obtain ⟨h1, h2⟩ := this
    have hr : ∀ a, a ≠ 256 * page + o % 256 ∨ slotByteCount i ≤ a → Memory.read 0 (if 256 * page + o % 256 < slotByteCount i then Memory.write slotFill c (256 * page + o % 256) b else c) a = Memory.read 0 c a := by
      intro a ha; split
      · rw [show (0 : Byte) = slotFill from rfl, Memory.read_write, if_neg (by omega)]
      · rfl
    refine ⟨fun k hk hlt hlast => ?_, fun a ha => ?_⟩
    · cases k with
      | zero =>
        rw [h2 _ (by
          right; intro m hm heq
          have := hlast (m+1) (by omega) (by simp; omega)
          apply this
          rw [show o + (m+1) = o + 1 + m by omega]; exact heq)]
        simp only [Nat.add_zero] at hlt ⊢
        rw [if_pos hlt, show (0 : Byte) = slotFill from rfl, Memory.read_write, if_pos rfl]; rfl
      | succ m =>
        have := h1 m (by simpa using hk) (by rw [show o + 1 + m = o + (m+1) by omega]; exact hlt) (by
          intro q hq hql
          have := hlast (q+1) (by omega) (by simp; omega)
          rw [show o + 1 + q = o + (q+1) by omega, show o + 1 + m = o + (m+1) by omega]; exact this)
        rw [show o + 1 + m = o + (m+1) by omega] at this
        rw [this]; rfl
    · rw [h2 a (by
        rcases ha with ha | ha
        · exact Or.inl ha
        · right; intro k hk; have := ha (k+1) (by simp; omega); rwa [show o + (k+1) = o + 1 + k by omega] at this)]
      apply hr
      rcases ha with ha | ha
      · exact Or.inr ha
      · left; have := ha 0 (by simp); simpa using Ne.symm this

/-- The slots after one is replaced. -/
theorem slot_of_slots {s t : State} (i j : Fin 8) (x : Slot) (h : t.slots = s.slots.set i x) : t.slot j = if i = j then x else s.slot j := by
  unfold State.slot; rw [h, Tab.get_set]

/-- What a completed read is: a read of the port whose bytes are those received (R168, R178). -/
theorem completedRead_received {p : Port} {received : List Byte} {c : Instr} (h : completedRead p received = some c) :
    readPort c = some (p, received) ∨ (c = .readStatus p ∧ received = [0x0C]) := by
  unfold completedRead at h
  split at h
  · cases h
  next code arguments =>
    split at h
    next hc =>
      cases h
      simp only [readCodes, Bool.and_eq_true, List.contains_eq_mem, List.mem_cons, List.not_mem_nil, or_false,
        decide_eq_true_eq] at hc
      obtain ⟨hcode, hlength⟩ := hc
      rcases hcode with rfl | rfl | rfl | rfl | rfl | rfl | rfl | rfl <;> simp [argumentLength] at hlength
      case inr.inl =>
        obtain ⟨x, rfl⟩ := List.length_eq_one_iff.1 hlength.symm
        exact .inl rfl
      case inr.inr.inr.inr.inr.inl =>
        obtain ⟨x, y, rfl⟩ := List.length_eq_two.1 hlength.symm
        exact .inl rfl
      case inr.inr.inr.inr.inr.inr.inl =>
        obtain ⟨x, rfl⟩ := List.length_eq_one_iff.1 hlength.symm
        exact .inl rfl
      case inr.inr.inr.inr.inr.inr.inr =>
        obtain ⟨x, rfl⟩ := List.length_eq_one_iff.1 hlength.symm
        exact .inl rfl
      all_goals
        obtain rfl := List.length_eq_zero_iff.1 hlength.symm
        simp [commandOfCode, readPort]
    · cases h

/-- A completed read is a read of the port or READ STATUS (R168, R178). -/
theorem completedRead_read {p : Port} {received : List Byte} {c : Instr} (h : completedRead p received = some c) :
    (∃ bytes, readPort c = some (p, bytes)) ∨ c = .readStatus p :=
  (completedRead_received h).imp (fun h => ⟨received, h⟩) And.left

/-- What the tests of R167 find to be a command is one command of the port (R167, R168, R178). -/
theorem judgeFrame_command {p : Port} {received : List Byte} {part : List Bool} {c : Instr}
    (h : judgeFrame p received part = .command c) :
    commandPort c = some p ∨ (∃ bytes, readPort c = some (p, bytes)) ∨ c = .readStatus p := by
  have key : ∀ code arguments n, argumentLength code = some n → c = commandOfCode p code arguments →
      commandPort c = some p ∨ (∃ bytes, readPort c = some (p, bytes)) ∨ c = .readStatus p := by
    rintro code arguments n hn rfl
    unfold argumentLength at hn
    split at hn <;> rename_i hcode
    case h_23 => cases hn
    all_goals simp [commandOfCode, hcode, commandPort, readPort]
  unfold judgeFrame at h
  split at h
  · cases h
  split at h
  · split at h <;> cases h
  next n hn =>
    split at h
    · cases h; exact key _ _ n hn rfl
    split at h
    · cases h
    split at h
    · cases h; exact key _ _ n hn rfl
    · cases h

end Sys2Proof.Machine
end

