-- ==== Sys2Proof/Laws/Frames.lean ====
section
/-! SUPPORT. What the ends and starts of frames leave (chapters 1 and 9). -/

namespace Sys2Proof.Machine

/-- A record completed and joined to the ring (R157, R159). -/
theorem completeOpenRecord_spec (skipped : Bool) (counts : Option CountsBlock) (s : State) :
    (∀ o, s.rr.openRecord = some o → (completeOpenRecord skipped counts s) = { s with rr := { s.rr with openRecord := none, ring := joinRing s.rr.ring (completed o s.it skipped counts) } }) ∧
    (s.rr.openRecord = none → completeOpenRecord skipped counts s = s) := by
  unfold completeOpenRecord
  refine ⟨fun o h => by rw [h], fun h => by rw [h]⟩

/-- The completion of a record changes the records alone. -/
theorem completeOpenRecord_eq (skipped : Bool) (counts : Option CountsBlock) (s : State) : ∃ o r, completeOpenRecord skipped counts s = { s with rr := { s.rr with openRecord := o, ring := r } } ∧ o = none := by
  unfold completeOpenRecord
  split
  · next h => exact ⟨none, s.rr.ring, by rw [← h], rfl⟩
  · exact ⟨_, _, rfl, rfl⟩

/-- A truncation changes the records and the zone accumulator alone. -/
theorem truncateFrame_eq (s : State) : ∃ r, truncateFrame s = { s with rr := { s.rr with openRecord := none, ring := r }, zsa := s.zsa.discard } := by
  obtain ⟨o, r, h, rfl⟩ := completeOpenRecord_eq false none s
  refine ⟨r, ?_⟩
  unfold truncateFrame truncateRecord; rw [h]

/-- What comes before the pass of a frame start. -/
theorem truncateIfInFrame_eq (s : State) : ∃ o r z, (if s.pe.frameState = .inFrame then truncateFrame s else s) = { s with rr := { s.rr with openRecord := o, ring := r }, zsa := z } ∧ (s.pe.frameState = .inFrame → o = none ∧ z = s.zsa.discard) ∧ (s.pe.frameState ≠ .inFrame → o = s.rr.openRecord ∧ r = s.rr.ring ∧ z = s.zsa) := by
  split
  · next h =>
    obtain ⟨r, hr⟩ := truncateFrame_eq s
    exact ⟨_, _, _, hr, fun _ => ⟨rfl, rfl⟩, fun h' => absurd h h'⟩
  · next h => exact ⟨s.rr.openRecord, s.rr.ring, s.zsa, rfl, fun h' => absurd h' h, fun _ => ⟨rfl, rfl, rfl⟩⟩

/-- Milliseconds on the input-lost timer: nothing on a stopped one; the loss of input at 500; else the timer alone (R8). -/
theorem elapseInput_spec (ms : Nat) (s : State) :
    (s.pe.inputLostTimer = none → elapseInput ms s = s) ∧ (inputTimerRuns s = false → elapseInput ms s = s) ∧
    ∀ k, inputTimerRuns s = true → s.pe.inputLostTimer = some k →
      (500 ≤ k + ms → elapseInput ms s = loseInput s) ∧
      (k + ms < 500 → elapseInput ms s = { s with pe := { s.pe with inputLostTimer := some (k + ms) } }) := by
  unfold elapseInput inputLostLimit
  refine ⟨fun h => by rw [h], fun h => by split <;> simp [h], fun k hr h => ?_⟩
  rw [h]
  exact ⟨fun hk => by simp [hr, hk], fun hk => by simp [hr, Nat.not_le.mpr hk]⟩

/-- A frame start in an operating state (R6). -/
theorem exec_frameStart {w h : Half} {s : State} (hs : s.operating) : exec (.frameStart w h) s = .next (startFrame w h s) := by
  simp [exec, execFrameStart, operating_condition hs]

/-- A frame start, part by part. -/
theorem startFrame_eq (w h : Half) (s : State) : ∃ o r z, startFrame w h s =
   (let u : State := { s with rr := { s.rr with openRecord := o, ring := r }, zsa := z, pe := s.pe.startFrame w h }
    let passed := runPass .frameStart u
    openRecord { passed with zsa := ZoneAccumulator.begin passed.pe.frameNumber w h passed.cu.fields.darkFloor }) ∧ (if s.pe.frameState = .inFrame then truncateFrame s else s) = { s with rr := { s.rr with openRecord := o, ring := r }, zsa := z } := by
  obtain ⟨o, r, z, h, _⟩ := truncateIfInFrame_eq s
  refine ⟨o, r, z, ?_, h⟩
  unfold startFrame
  simp only
  rw [h]

/-- A record joins the ring (R159). -/
theorem joinRing_eq (ring : List FrameRecord) (r : FrameRecord) : joinRing ring r = (if 64 ≤ ring.length then ring.drop 1 else ring) ++ [r] := by
  unfold joinRing ringCapacity; split <;> rfl

/-- What a completed record takes from the tracker (R81, R157). -/
theorem completed_spec (s : State) (skipped : Bool) (counts : Option CountsBlock) : ∀ o r, r = completed o s.it skipped counts → r.opening = o ∧ r.trackerMode = s.it.mode ∧ r.substate = s.it.substate ∧
        r.target = s.it.target ∧ (s.it.summary = none → r.votes = 0 ∧ r.estimate = none) ∧
        (∀ x, s.it.summary = some x → r.votes = x.votes ∧ r.estimate = x.estimate) ∧ r.evalSkipped = skipped ∧ r.counts = counts := by
  rintro o r rfl
  unfold completed
  refine ⟨rfl, rfl, rfl, rfl, fun h => by simp [h], fun x h => by simp [h], rfl, rfl⟩

end Sys2Proof.Machine
end

