-- ==== Sys2Proof/Laws/Judging.lean ====
section
/-! SUPPORT. The store commands as tables of tests: each judgement gives the first test that fails, or accepts (R143, R146, R148); and the suspension of an erase (R145). -/

namespace Sys2Proof.Machine

/-- The first test of a table fails. -/
theorem firstFailing_here {test : Prop} {r : Result} {rest : List (Prop × Result)} (h : ¬ test) :
    firstFailing ((test, r) :: rest) r := .inl ⟨h, rfl⟩

/-- A test of a table passes, and the first that fails comes later. -/
theorem firstFailing_later {test : Prop} {x r : Result} {rest : List (Prop × Result)} (h : test) (hr : firstFailing rest r) :
    firstFailing ((test, x) :: rest) r := .inr ⟨h, hr⟩

/-- When the controller programs in a bank. -/
theorem programsBank_iff (s : State) (n : Fin 64) : programsBank s n = true ↔ ∃ j m, s.controller.state = .programming j ∧ s.controller.sector = some m ∧ m.val / 16 = n.val / 16 := by
  unfold programsBank
  split
  · next j t hs ht =>
    constructor
    · intro h; exact ⟨j, t, hs, ht, of_decide_eq_true h⟩
    · rintro ⟨_, m, _, hm, h⟩; rw [ht] at hm; cases hm; exact decide_eq_true h
  · next h =>
    simp only [Bool.false_eq_true, false_iff, not_exists]
    rintro j m ⟨h1, h2, _⟩
    exact h j m h1 h2

/-- When the recall engine reads in a bank. -/
theorem readsBank_iff (s : State) (n : Fin 64) : readsBank s n = true ↔ ∃ prior m, s.recallEngine.state = .recalling prior ∧ s.recallEngine.sector = some m ∧ m.val / 16 = n.val / 16 := by
  unfold readsBank
  split
  · next j t hs ht =>
    constructor
    · intro h; exact ⟨j, t, hs, ht, of_decide_eq_true h⟩
    · rintro ⟨_, m, _, hm, h⟩; rw [ht] at hm; cases hm; exact decide_eq_true h
  · next h =>
    simp only [Bool.false_eq_true, false_iff, not_exists]
    rintro j m ⟨h1, h2, _⟩
    exact h j m h1 h2

/-- The end of a selection does not change what the controller programs. -/
theorem closeSelection_programsBank (s : State) (p) (n : Fin 64) : programsBank (s.closeSelection p) n = programsBank s n := by
  unfold programsBank; simp

/-- The end of a selection does not change what the recall engine reads. -/
theorem closeSelection_readsBank (s : State) (p) (n : Fin 64) : readsBank (s.closeSelection p) n = readsBank s n := by
  unfold readsBank; simp

/-- The end of a selection does not change what the recall engine reads. -/
theorem closeSelection_recallReads (s : State) (p : Port) (n : Fin 64) : (s.closeSelection p).recallReads n = s.recallReads n := by
  simp [State.recallReads]

/-- The end of a selection does not change the tests of a RECALL. -/
theorem closeSelection_recallTests (s : State) (p : Port) (number id : Byte) :
    (s.closeSelection p).recallTests number id = s.recallTests number id := by
  simp [State.recallTests, closeSelection_slot, closeSelection_sectorEntry]

/-- The end of a selection does not change the tests of a SAVE. -/
theorem closeSelection_saveTests (s : State) (p : Port) (id number : Byte) (calibration : Bool) :
    (s.closeSelection p).saveTests p id number calibration = s.saveTests p id number calibration := by
  simp [State.saveTests, closeSelection_slot, closeSelection_sectorEntry, closeSelection_recallReads]

/-- The end of a selection does not change the tests of an ERASE. -/
theorem closeSelection_eraseTests (s : State) (p : Port) (number complement : Byte) :
    (s.closeSelection p).eraseTests p number complement = s.eraseTests p number complement := by
  simp [State.eraseTests]

/-- A RECALL is judged by its tests in order (R143). -/
theorem judgeRecall_spec (number id : Byte) (s : State) :
    (∀ r, firstFailing (s.recallTests number id) r → judgeRecall number id s = .error r) ∧
      (allPass (s.recallTests number id) →
        judgeRecall number id s = .ok (Fin.ofNat 8 id.toNat, Fin.ofNat 64 number.toNat)) := by
  unfold State.recallTests
  simp only [firstFailing, allPass, ← programsBank_iff, ← Slot.inUse_eq_false]
  by_cases h1 : id.toNat ≤ 7
  swap
  · simp [h1, judgeRecall, slotOfId_none h1]
  by_cases h2 : number.toNat ≤ 63
  swap
  · simp [h1, h2, judgeRecall, slotOfId_some h1, sectorOfNumber_none h2]
  have hk : ∀ i : Fin 8, (if i.val < 4 then SectorKind.lattice else .tone) = slotKind i := by
    intro i; unfold slotKind isLatticeSlot; by_cases h : i.val < 4 <;> simp [h]
  simp only [hk]
  simp only [h1, h2, judgeRecall, slotOfId_some h1, sectorOfNumber_some h2]
  generalize Fin.ofNat 8 id.toNat = i
  generalize Fin.ofNat 64 number.toNat = n
  cases hv : s.sectorEntry n with
  | valid info =>
    simp only [SectorEntry.valid.injEq, exists_eq_left', exists_eq_left, exists_eq', exists_eq, not_true, false_and, false_or, true_and]
    by_cases h3 : info.kind = slotKind i
    swap
    · simp [h3]
    by_cases h4 : s.recallEngine.state = .idle
    swap
    · simp [h3, h4]
    simp only [h3, h4]
    cases h5 : (s.slot i).state with
    | opened q => simp
    | _ =>
      simp
      cases h6 : (s.slot i).inUse <;> simp
      try (cases h7 : programsBank s n <;> simp)
  | _ => simp

/-- Which sectors the calibration protect line guards (R151). -/
theorem isProtected_iff (s : State) (number : Byte) (h : number.toNat ≤ 63) : isProtected s (Fin.ofNat 64 number.toNat) = false ↔ (16 ≤ number.toNat ∨ s.protectLine = false) := by
  unfold isProtected bankOf
  have : (Fin.ofNat 64 number.toNat).val = number.toNat := by simp; omega
  rw [this]
  by_cases hh : number.toNat / 16 = 0
  · simp [hh] <;> omega
  · simp [hh] <;> omega

/-- Which sectors a kind selector allows (R146). -/
theorem bankAllowed_iff (c : Bool) (number : Byte) (h : number.toNat ≤ 63) : bankAllowed c (Fin.ofNat 64 number.toNat) = true ↔ (c = true ↔ number.toNat ≤ 15) := by
  unfold bankAllowed bankOf
  have : (Fin.ofNat 64 number.toNat).val = number.toNat := by simp; omega
  rw [this]
  by_cases hh : number.toNat / 16 = 0
  · have : number.toNat ≤ 15 := by omega
    simp [hh, this]
  · have : ¬ number.toNat ≤ 15 := by omega
    simp [hh, this]

/-- A SAVE is judged by its tests in order (R146). -/
theorem judgeSave_spec (p : Port) (calibration : Bool) (number id : Byte) (s : State) :
    (∀ r, firstFailing (s.saveTests p id number calibration) r →
      judgeSave (s.port p).writeEnable calibration id number s = .error r) ∧
      (allPass (s.saveTests p id number calibration) →
        judgeSave (s.port p).writeEnable calibration id number s = .ok (Fin.ofNat 8 id.toNat, Fin.ofNat 64 number.toNat)) := by
  simp only [State.saveTests, State.recallReads, firstFailing, allPass, ← readsBank_iff]
  generalize (s.port p).writeEnable = en
  generalize calibration = cal
  cases en
  · simp [judgeSave]
  by_cases h1 : id.toNat ≤ 7
  swap
  · simp [h1, judgeSave, slotOfId_none h1]
  by_cases h2 : number.toNat ≤ 63
  swap
  · simp [h1, h2, judgeSave, slotOfId_some h1, sectorOfNumber_none h2]
  have hl : (4 ≤ id.toNat) ↔ isLatticeSlot (Fin.ofNat 8 id.toNat) = false := by
    unfold isLatticeSlot
    have : (Fin.ofNat 8 id.toNat).val = id.toNat := by simp; omega
    rw [this]; simp
  simp only [judgeSave, slotOfId_some h1, sectorOfNumber_some h2, ← isProtected_iff _ _ h2, hl, ← bankAllowed_iff _ _ h2]
  simp only [h1, h2]
  generalize Fin.ofNat 8 id.toNat = i
  generalize Fin.ofNat 64 number.toNat = n
  cases bankAllowed cal n <;> simp
  cases hc : cal <;> cases hq : isLatticeSlot i <;> simp
  all_goals
    cases s.supplyLowLine <;> cases isProtected s n <;> by_cases h4 : s.controller.state = .idle <;> cases readsBank s n <;>
    by_cases h5 : s.sectorEntry n = .blank <;>
    by_cases h6 : (s.slot i).state = .ready <;> simp [h4, h5, h6]

/-- An ERASE is judged by its tests in order (R148). -/
theorem judgeErase_spec (p : Port) (number complement : Byte) (s : State) :
    (∀ r, firstFailing (s.eraseTests p number complement) r →
      judgeErase (s.port p).writeEnable number complement s = .error r) ∧
      (allPass (s.eraseTests p number complement) →
        judgeErase (s.port p).writeEnable number complement s = .ok (Fin.ofNat 64 number.toNat)) := by
  simp only [State.eraseTests, firstFailing, allPass]
  generalize (s.port p).writeEnable = en
  cases en
  · simp [judgeErase]
  by_cases h2 : number.toNat ≤ 63
  swap
  · simp [h2, judgeErase, sectorOfNumber_none h2]
  have hl : (complement.toNat ≠ 63 - (Fin.ofNat 64 number.toNat).val) ↔ ¬ (complement.toNat + number.toNat = 63) := by
    have : (Fin.ofNat 64 number.toNat).val = number.toNat := by simp; omega
    rw [this]; omega
  simp only [judgeErase, sectorOfNumber_some h2, ← isProtected_iff _ _ h2, hl]
  simp only [h2]
  generalize Fin.ofNat 64 number.toNat = n
  by_cases h3 : complement.toNat + number.toNat = 63 <;> simp [h3]
  all_goals cases s.supplyLowLine <;> cases isProtected s n <;> by_cases h4 : s.controller.state = .idle <;> simp [h4]

/-- A suspension changes the controller and the directory alone (R145). -/
theorem unchangedBut_suspendErase (s : State) (n : Fin 64) : s.unchangedBut (suspendErase n s) [.controller, .directory] := by
  unfold suspendErase
  split
  · split
    · refine ⟨rfl, fun part hp => ?_⟩
      cases part <;> simp at hp <;> simp [State.agrees]
      next q => cases q <;> rfl
    · exact State.unchangedBut_refl _ _
  · exact State.unchangedBut_refl _ _

/-- What the end of a recall does to an erase (R145). -/
theorem resumeErase_spec (s : State) (n : Fin 64) (hd : s.directory.isSome) :
   let resumes (m : Fin 64) : Prop := (∃ b, s.controller.state = .eraseSuspended b) ∧ s.controller.sector = some m ∧ m.val / 16 = n.val / 16
   let t := resumeErase n s
   (∀ m, resumes m → t.controller = { s.controller with state := .erasing } ∧ t.sectorEntry m = .erasing) ∧
   (∀ m, ¬ resumes m → t.sectorEntry m = s.sectorEntry m) ∧ ((∀ m, ¬ resumes m) → t.controller = s.controller) ∧ s.unchangedBut t [.controller, .directory] := by
  simp only
  unfold resumeErase
  split
  · next b m h1 h2 =>
    split
    · next hb =>
      have hb : m.val / 16 = n.val / 16 := hb
      have he : ∀ k, State.sectorEntry { s.setSectorEntry m .erasing with controller := { s.controller with state := .erasing } } k = if m = k then .erasing else s.sectorEntry k := by
        intro k
        exact sectorEntry_of_directory (s := s) m k .erasing hd rfl
      refine ⟨fun k hk => ⟨rfl, ?_⟩, fun k hk => ?_, fun h => absurd ⟨⟨_, h1⟩, h2, hb⟩ (h m), ?_⟩
      · have : m = k := by have := hk.2.1; rw [h2] at this; simpa using this
        exact (he k).trans (if_pos this)
      · refine (he k).trans (if_neg ?_)
        rintro rfl; exact hk ⟨⟨_, h1⟩, h2, hb⟩
      · refine ⟨rfl, fun part hp => ?_⟩
        cases part <;> simp at hp <;> simp [State.agrees]
        next q => cases q <;> rfl
    · next hb =>
      have hb : ¬ m.val / 16 = n.val / 16 := hb
      refine ⟨fun k hk => ?_, fun k hk => rfl, fun _ => rfl, State.unchangedBut_refl _ _⟩
      have : m = k := by have := hk.2.1; rw [h2] at this; simpa using this
      subst this; exact absurd hk.2.2 hb
  · next hno =>
    refine ⟨fun k hk => ?_, fun k hk => rfl, fun _ => rfl, State.unchangedBut_refl _ _⟩
    obtain ⟨⟨b, h1⟩, h2, _⟩ := hk
    exact absurd h2 (hno b k h1)

end Sys2Proof.Machine
end

