-- ==== Sys2Proof/Laws/Scan.lean ====
section
/-! SUPPORT. What the scan and the reads of a sector see: erased sectors, whole tables, verify failures. -/

namespace Sys2Proof.Machine

/-- The scan finds a sector erased exactly when all its bytes are (R141). -/
theorem Store.sectorErased_iff {st : Store} (h : Memory.wf storeFill st.bytes) (n : Fin 64) : st.sectorErased n = true ↔ st.erased n := by
  unfold Store.sectorErased Store.erased Store.byte
  rw [List.all_eq_true]
  constructor
  · intro hc k hk
    by_contra hne
    have : ∃ c ∈ st.bytes, c.1 = sectorBase n + k ∧ c.2 = Memory.read storeFill st.bytes (sectorBase n + k) := by
      revert hne; generalize st.bytes = m
      induction m with
      | nil => intro h; exact absurd rfl h
      | cons c rest ih =>
        obtain ⟨x, b⟩ := c
        intro hne
        rw [Memory.read_cons] at hne ⊢
        split
        · next hx => exact ⟨(x, b), by simp, hx, rfl⟩
        · next hx => rw [if_neg hx] at hne; obtain ⟨c, hc, h⟩ := ih hne; exact ⟨c, by simp [hc], h⟩
    obtain ⟨c, hm, hca, hcb⟩ := this
    have := hc c hm
    simp only [Bool.or_eq_true, decide_eq_true_eq, hca] at this
    rcases this with (h | h) | h
    · omega
    · omega
    · rw [hcb] at h; exact hne h
  · intro he c hc
    simp only [Bool.or_eq_true, decide_eq_true_eq]
    by_contra hne
    push Not at hne
    have hr : Memory.read storeFill st.bytes c.1 = c.2 := by
      have h1 := h.1
      revert hc h1; generalize st.bytes = m
      induction m with
      | nil => simp
      | cons d rest ih =>
        obtain ⟨x, b⟩ := d
        intro hc h1
        rw [Memory.read_cons]
        rcases List.mem_cons.1 hc with rfl | hc
        · simp
        · have := (List.pairwise_cons.1 h1).1 c hc
          rw [if_neg (by simp at this; omega)]
          exact ih hc (List.pairwise_cons.1 h1).2
    have := he (c.1 - sectorBase n) (by omega)
    rw [show sectorBase n + (c.1 - sectorBase n) = c.1 by omega, hr] at this
    exact hne.2 this

/-- No read of a run of pages fails exactly when each page matches its check (R138). -/
theorem Store.anyPageFails_eq_false {st : Store} {n : Fin 64} {first count : Nat} : st.anyPageFails n first count = false ↔ ∀ k < count, sectorPage n (first + k) ∉ st.mismatched := by
  unfold Store.anyPageFails
  rw [List.any_eq_false]
  simp [Store.pageFails]

/-- Some read of a run of pages fails exactly when one page does not match its check (R138). -/
theorem Store.anyPageFails_eq_true (st : Store) (n : Fin 64) (first count : Nat) : st.anyPageFails n first count = true ↔ ∃ q, first ≤ q ∧ q < first + count ∧ sectorPage n q ∈ st.mismatched := by
  unfold Store.anyPageFails Store.pageFails
  rw [List.any_eq_true]
  constructor
  · rintro ⟨k, hk, h⟩
    have := List.mem_range.1 hk
    exact ⟨first + k, by omega, by omega, by simpa using h⟩
  · rintro ⟨q, h1, h2, h3⟩
    exact ⟨q - first, List.mem_range.2 (by omega), by rw [show first + (q - first) = q by omega]; simpa using h3⟩

/-- The scan finds a sector VALID exactly when it holds a whole table (R141). -/
theorem Store.validEntry_iff {st : Store} {n : Fin 64} (info : SectorInfo) : st.validEntry n = some info ↔ ∃ k, st.holdsTable n k ∧ info = st.headerInfo n k := by
  unfold Store.validEntry Store.holdsTable
  have hm : st.sectorBytes n 254 2 = validityMarker ↔ st.byte n 254 = 0xA5 ∧ st.byte n 255 = 0x3C := by
    simp [Store.sectorBytes, validityMarker, List.range_succ]
  split
  · next h0 =>
    have h := hm.1 h0
    cases hk : sectorKindOfCode (st.byte n 2) with
    | none =>
      simp only [reduceCtorEq, false_iff, not_exists]
      rintro k ⟨⟨_, _, h2, _⟩, _⟩
      rw [sectorKindOfCode_eq_some.2 h2] at hk; cases hk
    | some k =>
      have hc := sectorKindOfCode_eq_some.1 hk
      have hcond : ((decide ((st.byte n 3).toNat = k.pages) && !st.anyPageFails n 0 (k.pages + 1)) = true) ↔ (st.byte n 3).toNat = k.pages ∧ ∀ q ≤ k.pages, sectorPage n q ∉ st.mismatched := by
        rw [Bool.and_eq_true, decide_eq_true_eq, Bool.not_eq_true', Store.anyPageFails_eq_false]
        simp [Nat.lt_succ_iff]
      simp only [Bool.decide_eq_true] at hcond ⊢
      constructor
      · intro hh
        split at hh
        · next hq => exact ⟨k, ⟨h.1, h.2, hc, hcond.1 hq⟩, by simpa using hh.symm⟩
        · cases hh
      · rintro ⟨k', ⟨_, _, h2, h3, h4⟩, rfl⟩
        have : k' = k := by
          have := sectorKindOfCode_eq_some.2 h2; rw [hk] at this; simpa using this.symm
        subst this
        rw [if_pos (hcond.2 ⟨h3, h4⟩)]
  · next h =>
    simp only [reduceCtorEq, false_iff, not_exists]
    rintro k ⟨⟨h0, h1, _⟩, _⟩
    exact h (hm.2 ⟨h0, h1⟩)

/-- The values of a recalled table: those of the sector, held at 4,095 (R134). -/
theorem slotValue_recalledContent (st : Store) (i : Fin 8) (n : Fin 64) (k : Nat) (h : k < slotValueCount i) :
   slotValue (recalledContent st i n) k = min 4095 (256 * (st.byte n (256 + 2 * k)).toNat + (st.byte n (257 + 2 * k)).toNat) := by
  unfold recalledContent
  rw [slotValue_clampContent _ _ _ h, Nat.min_comm]
  congr 1
  unfold slotValue
  have hl : (st.sectorBytes n 256 (slotByteCount i)).length = slotByteCount i := by simp [Store.sectorBytes]
  have hc : slotByteCount i = 2 * slotValueCount i := rfl
  have hg : ∀ j, j < slotByteCount i → (st.sectorBytes n 256 (slotByteCount i)).getD j slotFill = st.byte n (256 + j) := by
    intro j hj; simp [Store.sectorBytes, hj]
  rw [Memory.read_ofRun, Memory.read_ofRun, hl, if_pos (by omega), if_pos (by omega), Nat.sub_zero, Nat.sub_zero, hg _ (by omega), hg _ (by omega)]
  rw [show 256 + (2 * k + 1) = 257 + 2 * k by omega]

end Sys2Proof.Machine
end

