-- ==== Sys2Proof/Laws/StartUp.lean ====
section
/-! SUPPORT. What start-up leaves: the calibration load and the slots (R41 to R44, R136). -/

namespace Sys2Proof.Machine

/-- A verify failure at start-up changes the directory alone (R141). -/
theorem tearUnreadable_eq (s : State) (n : Fin 64) : tearUnreadable s n = { s with directory := (tearUnreadable s n).directory } := by
  unfold tearUnreadable; split
  · split <;> rfl
  · rfl

/-- A directory that stands goes on standing. -/
theorem tearUnreadable_directory (s : State) (n : Fin 64) : (tearUnreadable s n).directory.isSome = s.directory.isSome := by
  unfold tearUnreadable; split
  · split <;> simp
  · rfl

@[simp] theorem Slot.filled_state (x : Slot) (origin : Origin) (content : Memory) : (x.filled origin content).state = .ready := rfl

@[simp] theorem Slot.filled_generation (x : Slot) (origin : Origin) (content : Memory) : (x.filled origin content).generation = 1 := rfl

@[simp] theorem Slot.filled_origin (x : Slot) (origin : Origin) (content : Memory) : (x.filled origin content).origin = origin := rfl

@[simp] theorem Slot.filled_content (x : Slot) (origin : Origin) (content : Memory) : (x.filled origin content).content = content := rfl

@[simp] theorem Slot.filled_bound (x : Slot) (origin : Origin) (content : Memory) : (x.filled origin content).bound = x.bound := rfl

@[simp] theorem Slot.filled_references (x : Slot) (origin : Origin) (content : Memory) : (x.filled origin content).references = x.references := rfl

@[simp] theorem Slot.filled_saving (x : Slot) (origin : Origin) (content : Memory) : (x.filled origin content).saving = x.saving := rfl

/-- A content page of a VALID sector that does not read back (R138, R141). -/
def State.unreadable (s : State) (n : Fin 64) : Prop :=
  ∃ info page, s.sectorEntry n = .valid info ∧ 1 ≤ page ∧ page ≤ info.kind.pages ∧ sectorPage n page ∈ s.store.mismatched

/-- A start-up read leaves a sector TORN exactly where it is VALID and does not read back, and every other entry as it was
(R141). -/
theorem tearUnreadable_sectorEntry (s : State) (n m : Fin 64) (hd : s.directory.isSome = true) :
    (n = m ∧ s.unreadable m → (tearUnreadable s n).sectorEntry m = .torn) ∧
      (¬ (n = m ∧ s.unreadable m) → (tearUnreadable s n).sectorEntry m = s.sectorEntry m) := by
  unfold tearUnreadable
  split
  next info hi =>
    have fails : s.store.anyPageFails n 1 info.kind.pages = true ↔ s.unreadable n := by
      rw [Store.anyPageFails_eq_true]
      constructor
      · rintro ⟨page, h1, h2, h3⟩
        exact ⟨info, page, hi, h1, by omega, h3⟩
      · rintro ⟨info', page, hi', h1, h2, h3⟩
        rw [hi] at hi'
        cases hi'
        exact ⟨page, h1, by omega, h3⟩
    split
    next hf =>
      rw [State.sectorEntry_setSectorEntry]
      refine ⟨fun h => if_pos ⟨h.1, hd⟩, fun h => if_neg fun (e : n = m ∧ _) => h ⟨e.1, e.1 ▸ fails.1 hf⟩⟩
    next hf => exact ⟨fun h => absurd (fails.2 (h.1 ▸ h.2)) hf, fun _ => rfl⟩
  next hv =>
    exact ⟨fun ⟨e, info, _, hi, _⟩ => absurd (e ▸ hi) (hv info), fun _ => rfl⟩

/-- The calibration load makes sector 0 alone TORN, where it is VALID and does not read back (R41, R141). -/
theorem loadCalibration_sectorEntry (s : State) (m : Fin 64) :
    (loadCalibration s).sectorEntry m = (tearUnreadable s 0).sectorEntry m := by
  unfold loadCalibration
  simp only
  split <;> rfl

/-- The filling of T0 makes the default tone sector alone TORN, where it is of kind TONE and does not read back (R136, R141). -/
theorem fillT0_sectorEntry (s : State) (m : Fin 64) (hd : s.directory.isSome = true) :
    let torn := defaultToneSector s = some m ∧ (s.sectorEntry m).isTone = true ∧ s.unreadable m
    (torn → (fillT0 s).sectorEntry m = .torn) ∧ (¬ torn → (fillT0 s).sectorEntry m = s.sectorEntry m) := by
  intro torn
  unfold fillT0
  split
  next hn => exact ⟨fun h => absurd h.1 (by simp [hn]), fun _ => rfl⟩
  next n hn =>
    have slot : ∀ (u : State) x, (u.setSlot 4 x).sectorEntry m = u.sectorEntry m := fun _ _ => rfl
    simp only [apply_ite (State.sectorEntry · m), slot, ite_self]
    obtain ⟨h1, h2⟩ := tearUnreadable_sectorEntry s n m hd
    by_cases ht : (s.sectorEntry n).isTone = true
    · rw [if_pos ht]
      refine ⟨fun h => h1 ⟨Option.some.inj (hn.symm.trans h.1), h.2.2⟩, fun h => h2 fun e => h ⟨hn.trans (congrArg _ e.1), e.1 ▸ ht, e.2⟩⟩
    · rw [if_neg ht]
      refine ⟨fun h => ?_, fun _ => rfl⟩
      obtain rfl := Option.some.inj (hn.symm.trans h.1)
      exact absurd h.2.1 ht

/-- The calibration load changes the directory and the calibration alone (R41). -/
theorem loadCalibration_eq (s : State) : ∃ d c b, loadCalibration s = { s with directory := d, cu := { s.cu with calibration := some c, calFallback := b } } ∧ d.isSome = s.directory.isSome
  ∧ c.firstMired ≤ c.defaultMired ∧ c.defaultMired ≤ c.lastMired := by
  have hcl : ∀ c : CalibrationSet, c.firstMired ≤ c.lastMired → c.withDefaultClamped.firstMired ≤ c.withDefaultClamped.defaultMired ∧ c.withDefaultClamped.defaultMired ≤ c.withDefaultClamped.lastMired := by
    intro c h
    simp only [CalibrationSet.withDefaultClamped, CalibrationSet.firstMired, CalibrationSet.lastMired] at *
    unfold clampNat; split
    · exact ⟨le_refl _, h⟩
    · split <;> omega
  have hacc : ∀ c : CalibrationSet, c.acceptable = true → c.firstMired ≤ c.lastMired := by
    intro c h
    unfold CalibrationSet.acceptable at h
    simp only [Bool.and_eq_true, decide_eq_true_eq] at h
    have hp := h.1.1.1.2
    have hl := h.1.1.1.1.1.1
    unfold CalibrationSet.firstMired CalibrationSet.lastMired
    revert hp hl; generalize c.locus = l
    intro hp hl
    match l with
    | [] => simp at hl
    | [a] => simp
    | a :: b :: r =>
      have : (a :: b :: r).getLast? = some ((a :: b :: r).getLast (by simp)) := List.getLast?_eq_some_getLast _
      rw [this]
      simp only [List.head?_cons, Option.map_some, Option.getD_some]
      have hm : (a :: b :: r).getLast (by simp) ∈ b :: r := by
        rw [List.getLast_cons (by simp)]; exact List.getLast_mem _
      exact Nat.le_of_lt ((List.pairwise_cons.1 hp).1 _ hm)
  unfold loadCalibration
  have ht := tearUnreadable_eq s 0
  have hd := tearUnreadable_directory s 0
  simp only
  split
  · next c hc =>
    have hcu : (tearUnreadable s 0).cu = s.cu := by rw [ht]
    have := hacc c (by
      unfold loadedCalibration at hc; split at hc
      · simp only at hc; split at hc
        · next h => simp at hc; subst hc; simp at h; exact h.2
        · cases hc
      · cases hc)
    refine ⟨(tearUnreadable s 0).directory, c.withDefaultClamped, false, ?_, hd, (hcl c this).1, (hcl c this).2⟩
    rw [hcu]; conv_lhs => rw [ht]
  · have hcu : (tearUnreadable s 0).cu = s.cu := by rw [ht]
    refine ⟨(tearUnreadable s 0).directory, _, true, ?_, hd, (hcl fallbackCalibration (by decide)).1, (hcl fallbackCalibration (by decide)).2⟩
    rw [hcu]; conv_lhs => rw [ht]

/-- A slot filled after a verify failure. -/
theorem setSlot_tearUnreadable (s : State) (n : Fin 64) (x : Slot) : (tearUnreadable s n).setSlot 4 x = { s with directory := (tearUnreadable s n).directory, slots := s.slots.set 4 x } := by
  have h : ∀ (t : State) d, t = { s with directory := d } → t.setSlot 4 x = { s with directory := d, slots := s.slots.set 4 x } := by rintro t d rfl; rfl
  exact h _ _ (tearUnreadable_eq s n)

/-- The filling of T0 changes the directory and that slot alone (R136). -/
theorem fillT0_eq (s : State) : ∃ d x, fillT0 s = { s with directory := d, slots := s.slots.set 4 x } ∧ d.isSome = s.directory.isSome ∧ x.state = .ready ∧ x.generation = 1 ∧ x.references = (s.slot 4).references ∧ x.saving = (s.slot 4).saving := by
  unfold fillT0; split
  · exact ⟨_, _, rfl, rfl, rfl, rfl, rfl, rfl⟩
  · next n hn =>
    simp only
    by_cases h1 : (s.sectorEntry n).isTone = true
    · simp only [h1, if_true]
      have ht := tearUnreadable_eq s n
      have hd := tearUnreadable_directory s n
      have hs : (tearUnreadable s n).slots = s.slots := by rw [ht]
      have hs' : (tearUnreadable s n).slot 4 = s.slot 4 := by unfold State.slot; rw [hs]
      split
      · rw [hs', setSlot_tearUnreadable]
        exact ⟨(tearUnreadable s n).directory, _, rfl, hd, rfl, rfl, rfl, rfl⟩
      · rw [hs', setSlot_tearUnreadable]
        exact ⟨(tearUnreadable s n).directory, _, rfl, hd, rfl, rfl, rfl, rfl⟩
    · have h1' : (s.sectorEntry n).isTone = false := by simpa using h1
      simp only [h1', Bool.false_eq_true, if_false]
      exact ⟨s.directory, (s.slot 4).filled .builtIn fallbackRamp, rfl, rfl, rfl, rfl, rfl, rfl⟩

/-- A locus whose mireds rise, entry by entry. -/
theorem locusRising_iff (l : List LocusEntry) : (l.Pairwise fun d e => d.mired < e.mired) ↔ ∀ i j, i < j → j < l.length → (l.getD i ⟨0,0,0⟩).mired < (l.getD j ⟨0,0,0⟩).mired := by
  rw [List.pairwise_iff_getElem]
  constructor
  · intro h i j hij hj
    have := h i j (by omega) hj hij
    simpa [List.getD_eq_getElem?_getD, hj, show i < l.length by omega] using this
  · intro h i j hi hj hij
    have := h i j hij hj
    simpa [List.getD_eq_getElem?_getD, hj, hi] using this

/-- The load accepts exactly the sets that pass the tests of R42. -/
theorem acceptable_iff (c : CalibrationSet) : c.acceptable = true ↔ c.passes := by
  unfold CalibrationSet.acceptable CalibrationSet.passes miredInRange CalibrationSet.entry
  simp only [Bool.and_eq_true, decide_eq_true_eq, locusRising_iff]
  have : (c.locus.all fun e => decide (50 ≤ e.mired) && decide (e.mired ≤ 650) && decide (256 ≤ e.rg) && decide (256 ≤ e.bg)) = true ↔
      ∀ i < c.locus.length, 50 ≤ (c.locus.getD i ⟨0,0,0⟩).mired ∧ (c.locus.getD i ⟨0,0,0⟩).mired ≤ 650 ∧ 256 ≤ (c.locus.getD i ⟨0,0,0⟩).rg ∧ 256 ≤ (c.locus.getD i ⟨0,0,0⟩).bg := by
    rw [List.all_eq_true]
    constructor
    · intro h i hi
      have := h c.locus[i] (List.getElem_mem _)
      simp only [Bool.and_eq_true, decide_eq_true_eq] at this
      simp only [List.getD_eq_getElem?_getD, List.getElem?_eq_getElem hi, Option.getD_some]
      omega
    · intro h e he
      obtain ⟨i, hi, rfl⟩ := List.getElem_of_mem he
      have := h i hi
      simp only [List.getD_eq_getElem?_getD, List.getElem?_eq_getElem hi, Option.getD_some] at this
      simp only [Bool.and_eq_true, decide_eq_true_eq]
      omega
  rw [this]
  tauto

/-- The nodes of the built-in identity lattice (R36). -/
theorem nodeValue_identityLattice (a b c : Nat) (ha : a ≤ 16) (hb : b ≤ 16) (hc : c ≤ 16) :
   nodeValue identityLattice a b c 0 = min 4095 (256 * a) ∧ nodeValue identityLattice a b c 1 = min 4095 (256 * b) ∧ nodeValue identityLattice a b c 2 = min 4095 (256 * c) := by
  unfold nodeValue nodeIndex identityLattice
  refine ⟨?_, ?_, ?_⟩
  · rw [slotValue_slotContent _ _ _ (by omega) (by simp only; omega)]
    simp only
    rw [if_pos (by omega), show (3 * (a * 289 + b * 17 + c) + 0) / 3 / 289 = a by omega]
  · rw [slotValue_slotContent _ _ _ (by omega) (by simp only; omega)]
    simp only
    rw [if_neg (by omega), if_pos (by omega), show (3 * (a * 289 + b * 17 + c) + 1) / 3 / 17 % 17 = b by omega]
  · rw [slotValue_slotContent _ _ _ (by omega) (by simp only; omega)]
    simp only
    rw [if_neg (by omega), if_neg (by omega), show (3 * (a * 289 + b * 17 + c) + 2) / 3 % 17 = c by omega]

/-- The entries of the ramp (R136). -/
theorem slotValue_fallbackRamp (k : Nat) (h : k ≤ 832) : slotValue fallbackRamp k = (8190 * k + 832) / 1664 := by
  unfold fallbackRamp
  rw [slotValue_slotContent _ _ _ (by omega) (by omega)]

/-- What T0 holds after start-up (R136). -/
theorem fillT0_spec (s : State) (hdir : s.directory.isSome) : 
   let t := fillT0 s
   (∀ n, t.fillsT0 n → (t.slot 4) = (s.slot 4).filled (.sector n) (recalledContent s.store 4 n) ∧ ∀ page, 1 ≤ page → page ≤ 7 → sectorPage n page ∉ s.store.mismatched) ∧
   ((∀ n, ¬ t.fillsT0 n) → (t.slot 4) = (s.slot 4).filled .builtIn fallbackRamp) := by
  simp only
  obtain ⟨d, x, hF, _⟩ := fillT0_eq s
  have hcu : (fillT0 s).cu = s.cu := by rw [hF]
  have tone_iff : ∀ e : SectorEntry, e.isTone = true ↔ ∃ info, e = .valid info ∧ info.kind = .tone := by
    intro e; cases e <;> simp [SectorEntry.isTone]
  unfold State.fillsT0
  rw [hcu]
  cases hn : s.cu.calibration.bind CalibrationSet.defaultToneSector with
  | none =>
    refine ⟨fun n h => absurd h.1 (by simp), fun _ => ?_⟩
    unfold fillT0; rw [show defaultToneSector s = none from hn]; simp
  | some n =>
    have hf : fillT0 s = (let t : State := if (s.sectorEntry n).isTone then tearUnreadable s n else s
      if (t.sectorEntry n).isTone then t.setSlot 4 ((t.slot 4).filled (.sector n) (recalledContent t.store 4 n))
      else t.setSlot 4 ((t.slot 4).filled .builtIn fallbackRamp)) := by
      conv_lhs => unfold fillT0
      rw [show defaultToneSector s = some n from hn]
    simp only at hf
    rw [hf]
    by_cases h1 : (s.sectorEntry n).isTone = true
    · simp only [h1, if_true]
      have hs : (tearUnreadable s n).slot 4 = s.slot 4 := by unfold State.slot; rw [tearUnreadable_eq]
      have hst : (tearUnreadable s n).store = s.store := by rw [tearUnreadable_eq]
      by_cases h2 : ((tearUnreadable s n).sectorEntry n).isTone = true
      · simp only [h2, if_true]
        have he : ∀ y, ((tearUnreadable s n).setSlot 4 y).sectorEntry n = (tearUnreadable s n).sectorEntry n := fun y => rfl
        refine ⟨fun m hm => ?_, fun h => ?_⟩
        · obtain ⟨rfl⟩ := Option.some.inj hm.1
          rw [State.slot_setSlot_self, hs, hst]
          refine ⟨rfl, fun page hp1 hp2 => ?_⟩
          obtain ⟨info, hi, hk⟩ := (tone_iff _).1 h1
          have : s.store.anyPageFails n 1 info.kind.pages = false := by
            by_contra hc
            have hc : s.store.anyPageFails n 1 info.kind.pages = true := by simpa using hc
            have : (tearUnreadable s n).sectorEntry n = .torn := by
              unfold tearUnreadable; rw [hi]; simp only [hc, if_true]; rw [State.sectorEntry_setSectorEntry]; simp [hdir]
            rw [this] at h2; cases h2
          have := Store.anyPageFails_eq_false.1 this (page - 1) (by rw [hk]; simp [SectorKind.pages]; omega)
          rwa [show 1 + (page - 1) = page by omega] at this
        · exfalso
          exact h n ⟨rfl, by rw [he]; exact (tone_iff _).1 h2⟩
      · have h2' : ((tearUnreadable s n).sectorEntry n).isTone = false := by simpa using h2
        simp only [h2', Bool.false_eq_true, if_false]
        refine ⟨fun m hm => ?_, fun h => ?_⟩
        · obtain ⟨rfl⟩ := Option.some.inj hm.1
          exfalso; exact h2 ((tone_iff _).2 hm.2)
        · rw [State.slot_setSlot_self, hs]
    · have h1' : (s.sectorEntry n).isTone = false := by simpa using h1
      simp only [h1', Bool.false_eq_true, if_false]
      refine ⟨fun m hm => ?_, fun h => ?_⟩
      · obtain ⟨rfl⟩ := Option.some.inj hm.1
        exfalso; exact h1 ((tone_iff _).2 hm.2)
      · rw [State.slot_setSlot_self]

end Sys2Proof.Machine
end

