-- ==== Sys2Proof/Laws/Changes.lean ====
section
/-! SUPPORT. The parts of the state that each command can change, the moments of selections apart (95). -/

namespace Sys2Proof.Machine

/-! ## Small changes -/

/-- A goal `s.unchangedBut t l` for a `t` that is a record update of `s`, as its two halves. -/
theorem State.unchangedBut_of {s t : State} {l : List Part} (hp : t.pending = s.pending)
    (h : ∀ part, part ∉ l → s.agrees t part) : s.unchangedBut t l := ⟨hp, h⟩

/-- A record's completion changes the records alone. -/
theorem unchangedBut_completeOpenRecord (skipped : Bool) (counts : Option CountsBlock) (s : State) :
    s.unchangedBut (completeOpenRecord skipped counts s) [.records] := by
  obtain ⟨o, r, h, _⟩ := completeOpenRecord_eq skipped counts s
  rw [h]
  refine ⟨rfl, fun part hp => ?_⟩
  cases part <;> simp at hp <;> simp [State.agrees]
  next q => cases q <;> rfl

theorem State.unchangedBut_setSectorEntry (s : State) (n : Fin 64) (e : SectorEntry) :
    s.unchangedBut (s.setSectorEntry n e) [.directory] := by
  refine ⟨by simp, fun part hp => ?_⟩
  cases part <;> simp at hp <;> simp [State.agrees]
  next q => cases q <;> rfl

theorem unchangedBut_controller (s : State) (x : Controller) : s.unchangedBut { s with controller := x } [.controller] := by
  refine ⟨rfl, fun part hp => ?_⟩
  cases part <;> simp at hp <;> simp [State.agrees]
  next q => cases q <;> rfl

theorem unchangedBut_recallEngine (s : State) (x : RecallEngine) :
    s.unchangedBut { s with recallEngine := x } [.recallEngine] := by
  refine ⟨rfl, fun part hp => ?_⟩
  cases part <;> simp at hp <;> simp [State.agrees]
  next q => cases q <;> rfl

theorem unchangedBut_store (s : State) (x : Store) : s.unchangedBut { s with store := x } [.store] := by
  refine ⟨rfl, fun part hp => ?_⟩
  cases part <;> simp at hp <;> simp [State.agrees]
  next q => cases q <;> rfl

theorem unchangedBut_storeFree (s : State) (x : Store) (k : Nat) :
    s.unchangedBut { s with store := x, freeIndex := k } [.store, .freeIndex] := by
  refine ⟨rfl, fun part hp => ?_⟩
  cases part <;> simp at hp <;> simp [State.agrees]
  next q => cases q <;> rfl

theorem unchangedBut_directory (s : State) (x : Option (Tab SectorEntry 64)) :
    s.unchangedBut { s with directory := x } [.directory] := by
  refine ⟨rfl, fun part hp => ?_⟩
  cases part <;> simp at hp <;> simp [State.agrees]
  next q => cases q <;> rfl

theorem unchangedBut_zones (s : State) (x : ZoneAccumulator) : s.unchangedBut { s with zsa := x } [.zones] := by
  refine ⟨rfl, fun part hp => ?_⟩
  cases part <;> simp at hp <;> simp [State.agrees]
  next q => cases q <;> rfl

theorem unchangedBut_tracker (s : State) (x : Tracker) : s.unchangedBut { s with it := x } [.tracker] := by
  refine ⟨rfl, fun part hp => ?_⟩
  cases part <;> simp at hp <;> simp [State.agrees]
  next q => cases q <;> rfl

theorem unchangedBut_emit (s : State) (a b : Option VideoItem) : s.unchangedBut { s with pe := s.pe.emit a b } [.outputs] := by
  refine ⟨rfl, fun part hp => ?_⟩
  cases part <;> simp at hp <;> simp [State.agrees, PixelEngine.emit]
  next q => cases q <;> rfl

/-- A change of the arbiter's group state and timer alone. -/
theorem unchangedBut_group (s : State) (a : Arbiter) (h : a.grantOrder = s.ca.grantOrder) :
    s.unchangedBut { s with ca := a } [.group, .inactivityTimer] := by
  refine ⟨rfl, fun part hp => ?_⟩
  cases part <;> simp at hp <;> simp [State.agrees, h]
  next q => cases q <;> rfl

/-! ## Frame events -/

theorem unchangedBut_truncateIfInFrame (s : State) :
    s.unchangedBut (if s.pe.frameState = .inFrame then truncateFrame s else s) [.records, .zones] := by
  split
  · exact State.unchangedBut_trans (unchangedBut_completeOpenRecord false none s) (unchangedBut_zones _ _) (by simp) (by simp)
  · exact State.unchangedBut_refl _ _

theorem unchangedBut_startFrame (w h : Half) (s : State) :
    s.unchangedBut (startFrame w h s)
      [.engine, .counts, .frameContext, .outputs, .zones, .tracker, .derived, .fields, .queue, .appliedChanges, .group, .slots,
       .records] := by
  obtain ⟨o, r, z, he, _⟩ := startFrame_eq w h s
  rw [he]
  refine ⟨rfl, fun part hp => ?_⟩
  cases part <;> simp at hp <;> simp [State.agrees, openRecord, runPass]
  next q => cases q <;> rfl

theorem unchangedBut_loseInput (s : State) :
    s.unchangedBut (loseInput s)
      [.records, .zones, .engine, .fields, .derived, .queue, .appliedChanges, .slots, .frameContext, .tracker] := by
  obtain ⟨o, r, z, he, _⟩ := truncateIfInFrame_eq s
  unfold loseInput
  simp only [he]
  refine ⟨rfl, fun part hp => ?_⟩
  cases part <;> simp at hp <;> simp [State.agrees, runPass]
  next q => cases q <;> rfl

theorem unchangedBut_offerZones (s : State) : s.unchangedBut (offerZones s) [.zones, .tracker] := by
  unfold offerZones
  repeat' split
  all_goals
    first
    | exact State.unchangedBut_refl _ _
    | (refine ⟨rfl, fun part hp => ?_⟩
       cases part <;> simp at hp <;> simp [State.agrees]
       next q => cases q <;> rfl)

theorem unchangedBut_endFrame (s : State) :
    s.unchangedBut (endFrame s) [.records, .zones, .tracker, .engine, .outputs] := by
  have h1 := unchangedBut_completeOpenRecord (offerRefused s) (some (countsBlock s s.zsa.qualifyingCount)) s
  have h2 := State.unchangedBut_trans (c := [.records, .zones, .tracker]) h1 (unchangedBut_offerZones _) (by simp) (by simp)
  have h3 : ∀ u : State,
      u.unchangedBut
        { u with pe := { u.pe with frameState := .betweenFrames, programmeOut := some .frameEnd, monitorOut := some .frameEnd } }
        [.engine, .outputs] := by
    intro u
    refine ⟨rfl, fun part hp => ?_⟩
    cases part <;> simp at hp <;> simp [State.agrees]
    next q => cases q <;> rfl
  exact State.unchangedBut_trans h2 (h3 _) (by simp) (by simp)

/-! ## The group -/

theorem unchangedBut_removeGroupEntries (s : State) : s.unchangedBut (removeGroupEntries s) [.queue, .slots] := by
  refine ⟨rfl, fun part hp => ?_⟩
  cases part <;> simp at hp <;> simp [State.agrees, removeGroupEntries]
  next q => cases q <;> rfl

theorem unchangedBut_freeGroup (s : State) (p : Port) (o : GroupOutcome) :
    s.unchangedBut (s.freeGroup p o) [.group, .inactivityTimer] := by
  refine ⟨rfl, fun part hp => ?_⟩
  cases part <;> simp at hp <;> simp [State.agrees, State.freeGroup, Arbiter.setOutcome]
  · cases p <;> rfl
  next q => cases q <;> rfl

theorem unchangedBut_closeGroup (p : Port) (s : State) :
    s.unchangedBut (closeGroup p s)
      [.fields, .derived, .queue, .appliedChanges, .slots, .frameContext, .tracker, .group, .inactivityTimer] := by
  have h1 : s.unchangedBut (closeGroupEntries s) [.queue] := by
    refine ⟨rfl, fun part hp => ?_⟩
    cases part <;> simp at hp <;> simp [State.agrees, closeGroupEntries]
    next q => cases q <;> rfl
  have h2 := State.unchangedBut_trans (c := [.queue, .group, .inactivityTimer]) h1
    (unchangedBut_freeGroup (closeGroupEntries s) p .noGroup) (by simp) (by simp)
  unfold closeGroup
  simp only
  split
  · exact State.unchangedBut_trans h2 (unchangedBut_runPass _ _) (by simp) (by simp)
  · exact State.unchangedBut_mono h2 (by simp)

theorem unchangedBut_expireGroup (s : State) :
    s.unchangedBut (expireGroup s) [.queue, .slots, .group, .inactivityTimer] := by
  unfold expireGroup
  split
  · exact State.unchangedBut_refl _ _
  · simp only
    exact State.unchangedBut_trans (unchangedBut_removeGroupEntries s)
      (State.unchangedBut_trans (unchangedBut_freeGroup _ _ _) (unchangedBut_group _ _ rfl) (fun _ h => h) (fun _ h => h))
      (by simp) (by simp)

/-- The parts that a request to the arbiter can change, beside its port. -/
abbrev requestParts : List Part :=
  [.queue, .slots, .fields, .derived, .appliedChanges, .frameContext, .tracker, .grantOrder, .group, .inactivityTimer]

theorem unchangedBut_takeRequest (p : Port) (body : State → Result × State)
    (h : ∀ u : State, u.unchangedBut (body u).2 requestParts) (s : State) :
    s.unchangedBut (takeRequest p body s).2 requestParts := by
  unfold takeRequest
  simp only
  refine State.unchangedBut_trans (a := requestParts) ?_
    (State.unchangedBut_trans (unchangedBut_granted _ (portRequester p)) (h _) (by simp) (fun _ h => h)) (fun _ h => h)
    (fun _ h => h)
  split
  · exact State.unchangedBut_mono (unchangedBut_takeSubmission s) (by simp)
  · exact State.unchangedBut_refl _ _

theorem unchangedBut_submit_request (src : Requester) (m : GroupMark) (id : Byte) (v : Int) (s : State) :
    s.unchangedBut (submit src m id v s).2 requestParts :=
  State.unchangedBut_mono (unchangedBut_submit src m id v s) (by simp)

theorem unchangedBut_editRequest (p : Port) (id : Byte) (value : Word) (s : State) :
    s.unchangedBut (editRequest p id value s).2 requestParts := by
  unfold editRequest
  repeat' split
  all_goals first
    | exact State.unchangedBut_refl _ _
    | exact unchangedBut_submit_request _ _ _ _ _

theorem unchangedBut_closeGroup_request (p : Port) (s : State) : s.unchangedBut (closeGroup p s) requestParts :=
  State.unchangedBut_mono (unchangedBut_closeGroup p s) (by simp)

theorem unchangedBut_editCloseRequest (p : Port) (id : Byte) (value : Word) (s : State) :
    s.unchangedBut (editCloseRequest p id value s).2 requestParts := by
  have key := unchangedBut_submit_request (portRequester p) .openGroup id value.toInt s
  unfold editCloseRequest
  split
  · exact State.unchangedBut_refl _ _
  split
  · split
    · next u hu =>
      rw [hu] at key
      exact State.unchangedBut_trans key (unchangedBut_closeGroup_request p u) (fun _ h => h) (fun _ h => h)
    · next u hu =>
      rw [hu] at key
      exact State.unchangedBut_trans key (unchangedBut_closeGroup_request p u) (fun _ h => h) (fun _ h => h)
    · exact key
  · exact State.unchangedBut_refl _ _

theorem unchangedBut_groupOpenRequest (p : Port) (s : State) : s.unchangedBut (groupOpenRequest p s).2 requestParts := by
  unfold groupOpenRequest
  split
  · exact State.unchangedBut_refl _ _
  · exact State.unchangedBut_mono (unchangedBut_group s _ (by cases p <;> rfl)) (by simp)

theorem unchangedBut_groupCloseRequest (p : Port) (s : State) : s.unchangedBut (groupCloseRequest p s).2 requestParts := by
  unfold groupCloseRequest
  repeat' split
  all_goals first
    | exact State.unchangedBut_refl _ _
    | exact unchangedBut_closeGroup_request p s

theorem unchangedBut_groupAbandonRequest (p : Port) (s : State) :
    s.unchangedBut (groupAbandonRequest p s).2 requestParts := by
  unfold groupAbandonRequest
  split
  · exact State.unchangedBut_mono (unchangedBut_group s _ (by cases p <;> rfl)) (by simp)
  split
  · exact State.unchangedBut_trans (unchangedBut_removeGroupEntries s) (unchangedBut_freeGroup _ _ _) (by simp) (by simp)
  · exact State.unchangedBut_refl _ _

/-- An answer of the arbiter changes only what a request can (R108 to R113). -/
theorem unchangedBut_answerRequest (p : Port) (r : Request) (s : State) :
    s.unchangedBut (answerRequest p r s).2 requestParts := by
  cases r
  · exact unchangedBut_editRequest p _ _ s
  · exact unchangedBut_editCloseRequest p _ _ s
  · exact unchangedBut_groupOpenRequest p s
  · exact unchangedBut_groupCloseRequest p s
  · exact unchangedBut_groupAbandonRequest p s

/-! ## Timers -/

/-- Milliseconds on the inactivity timer change the timer, or make the group expire (R115). -/
theorem unchangedBut_elapseGroup (ms : Nat) (s : State) :
    s.unchangedBut (elapseGroup ms s) [.queue, .slots, .group, .inactivityTimer] := by
  unfold elapseGroup
  split
  · exact State.unchangedBut_refl _ _
  split
  · exact unchangedBut_expireGroup s
  · exact State.unchangedBut_mono (unchangedBut_group s _ rfl) (by simp)

/-- Milliseconds on the input-lost timer change the timer, or the input is lost (R8). -/
theorem unchangedBut_elapseInput (ms : Nat) (s : State) :
    s.unchangedBut (elapseInput ms s)
      [.records, .zones, .engine, .fields, .derived, .queue, .appliedChanges, .slots, .frameContext, .tracker] := by
  unfold elapseInput
  split
  · exact State.unchangedBut_refl _ _
  split
  · exact State.unchangedBut_refl _ _
  split
  · exact unchangedBut_loseInput s
  · refine ⟨rfl, fun part hp => ?_⟩
    cases part <;> simp at hp <;> simp [State.agrees]
    next q => cases q <;> rfl

/-! ## Slots and store -/

theorem unchangedBut_onSlot (id : Byte) (body : Fin 8 → State → Result × State)
    (h : ∀ (i : Fin 8) (u : State), u.unchangedBut (body i u).2 [.slots]) (s : State) :
    s.unchangedBut (onSlot id body s).2 [.slots] := by
  unfold onSlot
  split
  · exact State.unchangedBut_refl _ _
  · exact h _ _

theorem unchangedBut_openSlot (p : Port) (i : Fin 8) (s : State) : s.unchangedBut (openSlot p i s).2 [.slots] := by
  unfold openSlot
  simp only
  repeat' split
  all_goals first
    | exact State.unchangedBut_refl _ _
    | exact State.unchangedBut_setSlot _ _ _

theorem unchangedBut_writeSlot (p : Port) (page offset : Byte) (data : List Byte) (i : Fin 8) (s : State) :
    s.unchangedBut (writeSlot p page offset data i s).2 [.slots] := by
  unfold writeSlot
  simp only
  repeat' split
  all_goals first
    | exact State.unchangedBut_refl _ _
    | exact State.unchangedBut_setSlot _ _ _

theorem unchangedBut_finishSlot (p : Port) (i : Fin 8) (s : State) : s.unchangedBut (finishSlot p i s).2 [.slots] := by
  unfold finishSlot
  simp only
  split
  · split
    · exact State.unchangedBut_refl _ _
    · exact State.unchangedBut_setSlot _ _ _
  · exact State.unchangedBut_refl _ _

theorem unchangedBut_discardSlot (i : Fin 8) (s : State) : s.unchangedBut (discardSlot i s).2 [.slots] := by
  unfold discardSlot
  simp only
  repeat' split
  all_goals first
    | exact State.unchangedBut_refl _ _
    | exact State.unchangedBut_setSlot _ _ _

theorem unchangedBut_recallRequest (number id : Byte) (s : State) :
    s.unchangedBut (recallRequest number id s).2 [.slots, .controller, .directory, .recallEngine] := by
  unfold recallRequest
  split
  · exact State.unchangedBut_refl _ _
  · next i n _ =>
    simp only
    exact State.unchangedBut_trans (State.unchangedBut_setSlot s i _)
      (State.unchangedBut_trans (c := [.controller, .directory, .recallEngine]) (unchangedBut_suspendErase _ n)
        (unchangedBut_recallEngine _ _) (by simp) (by simp)) (by simp) (by simp)

theorem unchangedBut_setWriteEnable (s : State) (p : Port) (b : Bool) : s.unchangedBut (s.setWriteEnable p b) [.port p] :=
  State.unchangedBut_setPort s p _

theorem unchangedBut_saveRequest (p : Port) (slot number : Byte) (name : List Byte) (selector : Byte) (s : State) :
    s.unchangedBut (saveRequest p slot number name selector s).2 [.port p, .slots, .directory, .controller] := by
  unfold saveRequest
  simp only
  split
  · exact State.unchangedBut_mono (unchangedBut_setWriteEnable s p false) (by simp)
  · next i n _ =>
    exact State.unchangedBut_trans (unchangedBut_setWriteEnable s p false)
      (State.unchangedBut_trans (c := [.slots, .directory, .controller]) (State.unchangedBut_setSlot _ i _)
        (State.unchangedBut_trans (c := [.directory, .controller]) (State.unchangedBut_setSectorEntry _ n .programming)
          (unchangedBut_controller _ _) (by simp) (by simp)) (by simp) (by simp)) (by simp) (by simp)

theorem unchangedBut_eraseRequest (p : Port) (number complement : Byte) (s : State) :
    s.unchangedBut (eraseRequest p number complement s).2 [.port p, .directory, .controller] := by
  unfold eraseRequest
  simp only
  split
  · exact State.unchangedBut_mono (unchangedBut_setWriteEnable s p false) (by simp)
  · split <;>
    exact State.unchangedBut_trans (unchangedBut_setWriteEnable s p false)
        (State.unchangedBut_trans (c := [.directory, .controller]) (State.unchangedBut_setSectorEntry _ _ _)
          (unchangedBut_controller _ _) (by simp) (by simp)) (by simp) (by simp)

theorem unchangedBut_resumeErase (s : State) (n : Fin 64) : s.unchangedBut (resumeErase n s) [.controller, .directory] := by
  unfold resumeErase
  split
  · split
    · exact State.unchangedBut_trans (State.unchangedBut_setSectorEntry _ _ _) (unchangedBut_controller _ _) (by simp) (by simp)
    · exact State.unchangedBut_refl _ _
  · exact State.unchangedBut_refl _ _

theorem unchangedBut_recallCompletes (decayed : List Nat) (s : State) :
    s.unchangedBut (recallCompletes decayed s) [.store, .slots, .directory, .controller, .recallEngine] := by
  unfold recallCompletes
  simp only
  have h0 := unchangedBut_store s (s.store.decay decayed)
  split
  · next prior i n _ _ _ =>
    refine State.unchangedBut_trans (b := [.slots, .directory, .controller, .recallEngine]) h0 ?_ (by simp) (by simp)
    unfold endRecall
    simp only
    refine State.unchangedBut_trans (a := [.slots, .directory, .recallEngine]) ?_ (unchangedBut_resumeErase _ n) (by simp) (by simp)
    split
    · exact State.unchangedBut_trans (State.unchangedBut_setSlot _ i _)
        (State.unchangedBut_trans (c := [.directory, .recallEngine]) (State.unchangedBut_setSectorEntry _ n .torn)
          (unchangedBut_recallEngine _ _) (by simp) (by simp)) (by simp) (by simp)
    · exact State.unchangedBut_trans (State.unchangedBut_setSlot _ i _) (unchangedBut_recallEngine _ _) (by simp) (by simp)
  · exact State.unchangedBut_mono h0 (by simp)

theorem unchangedBut_finishSave (j : SaveJob) (n : Fin 64) (e : SectorEntry) (o : StoreOutcome) (s : State) :
    s.unchangedBut (finishSave j n e o s) [.slots, .directory, .controller] :=
  State.unchangedBut_trans (State.unchangedBut_setSlot s j.slot _)
    (State.unchangedBut_trans (c := [.directory, .controller]) (State.unchangedBut_setSectorEntry _ n e)
      (unchangedBut_controller _ _) (by simp) (by simp)) (by simp) (by simp)

theorem unchangedBut_finishErase (n : Fin 64) (e : SectorEntry) (o : StoreOutcome) (s : State) :
    s.unchangedBut (finishErase n e o s) [.directory, .controller] :=
  State.unchangedBut_trans (State.unchangedBut_setSectorEntry s n e) (unchangedBut_controller _ _) (by simp) (by simp)

theorem unchangedBut_saveCompletes (failedAct : Option Nat) (s : State) :
    s.unchangedBut (saveCompletes failedAct s) [.store, .freeIndex, .slots, .directory, .controller] := by
  unfold saveCompletes endSave
  split
  · simp only
    split
    · exact State.unchangedBut_trans (unchangedBut_store _ _) (unchangedBut_finishSave _ _ _ _ _) (by simp) (by simp)
    · exact State.unchangedBut_trans (unchangedBut_storeFree _ _ _) (unchangedBut_finishSave _ _ _ _ _) (by simp) (by simp)
  · exact State.unchangedBut_refl _ _

theorem unchangedBut_eraseCompletes (failedAct : Option Nat) (s : State) :
    s.unchangedBut (eraseCompletes failedAct s) [.store, .freeIndex, .directory, .controller] := by
  unfold eraseCompletes endErase
  split
  · split
    · exact State.unchangedBut_trans (unchangedBut_store _ _) (unchangedBut_finishErase _ _ _ _) (by simp) (by simp)
    · exact State.unchangedBut_trans (unchangedBut_storeFree _ _ _) (unchangedBut_finishErase _ _ _ _) (by simp) (by simp)
  · exact State.unchangedBut_refl _ _

theorem unchangedBut_cutOperation (acts : Nat) (s : State) :
    s.unchangedBut (cutOperation acts s) [.store, .slots, .directory, .controller] := by
  unfold cutOperation
  simp only
  split
  · exact State.unchangedBut_trans (unchangedBut_store _ _) (unchangedBut_finishSave _ _ _ _ _) (by simp) (by simp)
  · exact State.unchangedBut_trans (unchangedBut_store _ _) (unchangedBut_finishErase _ _ _ _) (by simp) (by simp)
  · exact State.unchangedBut_trans (unchangedBut_store _ _) (unchangedBut_finishErase _ _ _ _) (by simp) (by simp)
  · exact State.unchangedBut_refl _ _

/-! ## Ports -/

theorem unchangedBut_setLastResult (s : State) (p : Port) (r : Result) : s.unchangedBut (s.setLastResult p r) [.port p] :=
  State.unchangedBut_setPort s p _

theorem unchangedBut_closeSelection (s : State) (p : Port) :
    s.unchangedBut (s.closeSelection p) [.port p, .inactivityTimer] := (closeSelection_spec s p).2.2

/-- A command other than a read changes what its body changes, its port and the timer. -/
theorem unchangedBut_portCommand (p : Port) (body : State → Result × State) (l : List Part)
    (h : ∀ u : State, u.unchangedBut (body u).2 l) (s : State) :
    s.unchangedBut (portCommand p body s) (.port p :: .inactivityTimer :: l) := by
  unfold portCommand
  split
  · exact State.unchangedBut_refl _ _
  simp only
  refine State.unchangedBut_trans (unchangedBut_closeSelection s p)
    (State.unchangedBut_trans (a := l) (b := [.port p, .inactivityTimer]) (c := .port p :: .inactivityTimer :: l) ?_
      (State.unchangedBut_trans (unchangedBut_setLastResult _ p _) (State.unchangedBut_restartInactivity _ p) (by simp) (by simp))
      (by intro x hx; simp [hx]) (by simp)) (by simp) (fun _ h => h)
  split
  · exact State.unchangedBut_refl _ _
  · exact h _

theorem unchangedBut_discardSelection (p : Port) (r : Result) (s : State) :
    s.unchangedBut (discardSelection p r s) [.port p, .inactivityTimer] := by
  unfold discardSelection
  split
  · exact State.unchangedBut_refl _ _
  · exact State.unchangedBut_trans (unchangedBut_closeSelection s p)
      (State.unchangedBut_trans (unchangedBut_setLastResult _ p _) (State.unchangedBut_restartInactivity _ p)
        (c := [.port p, .inactivityTimer]) (by simp) (by simp)) (by simp) (by simp)

theorem unchangedBut_portRead (p : Port) (received : List Byte) (body : State → Except Result (List Byte)) (s : State) :
    s.unchangedBut (portRead p received body s) [.port p, .inactivityTimer] := by
  unfold portRead
  split
  · exact State.unchangedBut_refl _ _
  simp only
  split <;>
  exact State.unchangedBut_trans (unchangedBut_closeSelection s p) (State.unchangedBut_setPort _ p _) (by simp) (by simp)

theorem unchangedBut_portStatus (p : Port) (s : State) : s.unchangedBut (portStatus p s) [.port p, .inactivityTimer] := by
  unfold portStatus
  split
  · exact State.unchangedBut_refl _ _
  · exact State.unchangedBut_trans (unchangedBut_closeSelection s p) (State.unchangedBut_setPort _ p _) (by simp) (by simp)

/-! ## Requests, alone and together -/

/-- A port's request changes the port and what a request can. -/
theorem unchangedBut_portRequest (p : Port) (r : Request) (s : State) :
    s.unchangedBut (portRequest p r s) (.port p :: .inactivityTimer :: requestParts) :=
  unchangedBut_portCommand p _ _ (unchangedBut_takeRequest p _ (unchangedBut_answerRequest p r)) s

/-- What a request with the other port's beside it can change: both ports, and what a request can. -/
abbrev requestsParts (p : Port) (beside : Option Request) : List Part :=
  .port p :: .inactivityTimer :: ((if beside.isSome then [Part.port (otherPort p)] else []) ++ requestParts)

/-- Requests, alone or together, change only the ports that make them and what a request can (R106). -/
theorem unchangedBut_portRequests (p : Port) (r : Request) (beside : Option Request) (s : State) :
    s.unchangedBut (portRequests p r beside s) (requestsParts p beside) := by
  unfold portRequests
  cases beside with
  | none => exact State.unchangedBut_mono (unchangedBut_portRequest p r s) (by simp [requestsParts])
  | some o =>
    simp only
    split
    · exact State.unchangedBut_trans (unchangedBut_portRequest (otherPort p) o s) (unchangedBut_portRequest p r _)
        (by simp [requestsParts]) (by simp [requestsParts])
    · exact State.unchangedBut_trans (unchangedBut_portRequest p r s) (unchangedBut_portRequest (otherPort p) o _)
        (by simp [requestsParts]) (by simp [requestsParts])

/-! ## Port R -/

/-- A change of Port R, the read buffer, the mode and the fill marker alone. -/
theorem unchangedBut_portR {s t : State}
    (h : t = { s with
      rr := { s.rr with readBuffer := t.rr.readBuffer, mode := t.rr.mode, fill := t.rr.fill }, portR := t.portR }) :
    s.unchangedBut t [.portR] := by
  rw [h]
  refine ⟨rfl, fun part hp => ?_⟩
  cases part <;> simp at hp <;> simp [State.agrees]
  next q => cases q <;> rfl

theorem unchangedBut_closeSelectionR (s : State) : s.unchangedBut s.closeSelectionR [.portR] := by
  unfold State.closeSelectionR
  split
  · exact State.unchangedBut_refl _ _
  · exact unchangedBut_portR rfl

theorem startReading_eq (b : Bool) (rr : RecordRing) :
    rr.startReading b = { rr with readBuffer := (rr.startReading b).readBuffer, fill := (rr.startReading b).fill } := by
  unfold RecordRing.startReading RecordRing.startTransfer
  split
  · rfl
  · split <;> rfl

theorem unchangedBut_recordSelection (received : List Byte) (begun : Bool) (s : State) :
    s.unchangedBut (recordSelection received begun s) [.portR] := by
  apply unchangedBut_portR
  unfold recordSelection
  cases begun
  · rfl
  · congr 1
    simp only [if_true]
    rw [startReading_eq]

theorem unchangedBut_shiftBytes (count : Nat) (s : State) : s.unchangedBut (shiftBytes count s) [.portR] := by
  unfold shiftBytes
  simp only
  split
  · split
    · exact unchangedBut_portR rfl
    · exact State.unchangedBut_refl _ _
  · exact unchangedBut_portR rfl

theorem FrameRecord.length_pos (r : FrameRecord) : 0 < r.length := by unfold FrameRecord.length; omega

/-- Shifting bytes in a transfer: the position counts them, up to all but the record's last, and they are the bytes shifted out;
the record stays in the buffer (R154, R160). -/
theorem shiftBytes_of_transfer {s : State} {b : ReadBuffer} (h : s.rr.readBuffer = some b) (count : Nat) :
    ∃ k, (b.position + count < b.record.length → k = b.position + count) ∧
      (b.record.length ≤ b.position + count → k + 1 = b.record.length) ∧
      shiftBytes count s = { s with
        rr := { s.rr with readBuffer := some { record := b.record, position := k } }
        portR := { s.portR with
          firstByteTaken := s.portR.firstByteTaken || decide (0 < count)
          shifted := s.portR.shifted ++ (b.record.bytes.take k).drop b.position } } := by
  have := b.record.length_pos
  refine ⟨min (b.position + count) (b.record.length - 1), by omega, by omega, ?_⟩
  unfold shiftBytes
  rw [h]

/-- Outside a transfer no record byte is shifted; in fill zeros go out (R160, R162). -/
theorem shiftBytes_of_none {s : State} (h : s.rr.readBuffer = none) (count : Nat) :
    shiftBytes count s = if s.rr.fill then
      { s with
        portR := { s.portR with
          firstByteTaken := s.portR.firstByteTaken || decide (0 < count),
          shifted := s.portR.shifted ++ List.replicate count 0 } } else s := by
  unfold shiftBytes
  rw [h]

theorem unchangedBut_receivedR (s : State) (received : List Byte) (part : List Bool) :
    s.unchangedBut (s.receivedR received part) [.portR] := unchangedBut_portR rfl

theorem unchangedBut_takeExit (s : State) : s.unchangedBut (takeExit s) [.portR] := unchangedBut_portR rfl

theorem unchangedBut_streamCommand (begun : Bool) (s : State) : s.unchangedBut (streamCommand begun s) [.portR] := by
  unfold streamCommand
  simp only
  split
  · exact unchangedBut_recordSelection _ _ _
  · exact State.unchangedBut_trans (unchangedBut_recordSelection [0x62] begun s) (b := [.portR]) (unchangedBut_portR rfl)
      (by simp) (by simp)

theorem unchangedBut_commandSelection (code : Byte) (begun : Bool) (s : State) :
    s.unchangedBut (commandSelection code begun s) [.portR] := by
  unfold commandSelection
  split
  · exact unchangedBut_portR rfl
  · exact unchangedBut_recordSelection _ _ _
  · exact unchangedBut_streamCommand _ _
  · exact unchangedBut_portR rfl

/-- A selection of Port R, whatever its first byte, changes Port R alone (R166). -/
theorem unchangedBut_selectionR (code : Byte) (begun : Bool) (s : State) : s.unchangedBut (selectionR code begun s) [.portR] := by
  unfold selectionR
  split
  · exact State.unchangedBut_refl _ _
  simp only
  refine State.unchangedBut_trans (b := [.portR]) (unchangedBut_closeSelectionR s) ?_ (by simp) (by simp)
  split
  · exact unchangedBut_commandSelection _ _ _
  split
  · exact State.unchangedBut_trans (unchangedBut_recordSelection [] _ _) (unchangedBut_takeExit _) (by simp) (by simp)
  · exact State.unchangedBut_trans (unchangedBut_recordSelection [] _ _)
      (State.unchangedBut_trans (b := [.portR]) (unchangedBut_shiftBytes 1 _) (unchangedBut_receivedR _ _ _) (by simp)
        (fun _ h => h)) (by simp) (fun _ h => h)

theorem unchangedBut_transferEnds (s : State) : s.unchangedBut (transferEnds s) [.portR, .records] := by
  unfold transferEnds
  split
  · exact State.unchangedBut_refl _ _
  · refine ⟨rfl, fun part hp => ?_⟩
    cases part <;> simp at hp <;> simp [State.agrees]
    next q => cases q <;> rfl

theorem unchangedBut_transferBegins (s : State) : s.unchangedBut (transferBegins s) [.portR] := by
  unfold transferBegins
  split
  · apply unchangedBut_portR
    rw [startReading_eq]
  · exact State.unchangedBut_refl _ _

/-- The moments of a transfer change Port R and the records alone (R160). -/
theorem unchangedBut_transferMoment (moment : TransferMoment) (s : State) :
    s.unchangedBut (transferMoment moment s) [.portR, .records] := by
  cases moment
  · exact State.unchangedBut_mono (unchangedBut_shiftBytes _ s) (by simp)
  · exact unchangedBut_transferEnds s
  · exact State.unchangedBut_mono (unchangedBut_transferBegins s) (by simp)
  · exact State.unchangedBut_trans (unchangedBut_transferEnds s) (unchangedBut_transferBegins _) (by simp) (by simp)

theorem unchangedBut_transferCut (count : Nat) (s : State) : s.unchangedBut (transferCut count s) [.portR] := by
  unfold transferCut
  split
  · exact State.unchangedBut_refl _ _
  · exact unchangedBut_portR rfl

/-! ## Start-up and ends of selections -/

theorem unchangedBut_releaseReset (pages : List Nat) (s : State) :
    s.unchangedBut (releaseReset pages s) [.resetLine, .store, .directory] := by
  unfold releaseReset
  split
  · refine ⟨rfl, fun part hp => ?_⟩
    cases part <;> simp at hp <;> simp [State.agrees, scanStore, State.decayed]
    next q => cases q <;> rfl
  · exact State.unchangedBut_refl _ _

theorem unchangedBut_completeStartUp (pages : List Nat) (s : State) :
    s.unchangedBut (completeStartUp pages s)
      [.store, .directory, .calibration, .slots, .derived, .fields, .tracker, .engine, .frameContext] := by
  unfold completeStartUp
  split
  · exact State.unchangedBut_refl _ _
  have h1 : s.unchangedBut ((ensureScanned s).decayed pages) [.store, .directory] := by
    unfold ensureScanned
    split <;>
    · refine ⟨rfl, fun part hp => ?_⟩
      cases part <;> simp at hp <;> simp [State.agrees, scanStore, State.decayed]
      next q => cases q <;> rfl
  have h2 : ∀ u : State, u.unchangedBut (loadCalibration u) [.directory, .calibration] := by
    intro u
    obtain ⟨d, c, b, h, _⟩ := loadCalibration_eq u
    rw [h]
    refine ⟨rfl, fun part hp => ?_⟩
    cases part <;> simp at hp <;> simp [State.agrees]
    next q => cases q <;> rfl
  have h3 : ∀ u : State, u.unchangedBut (fillSlots u) [.directory, .slots] := by
    intro u
    refine State.unchangedBut_trans (b := [.directory, .slots]) (State.unchangedBut_setSlot u 0 ((u.slot 0).filled .builtIn identityLattice)) ?_ (by simp) (by simp)
    unfold fillSlots
    obtain ⟨d, x, h, _⟩ := fillT0_eq (u.setSlot 0 ((u.slot 0).filled .builtIn identityLattice))
    rw [h]
    refine ⟨rfl, fun part hp => ?_⟩
    cases part <;> simp at hp <;> simp [State.agrees]
    next q => cases q <;> rfl
  have h4 : ∀ u : State, u.unchangedBut (adoptDefaults u) [.fields, .derived, .tracker, .slots, .engine, .frameContext] := by
    intro u
    refine ⟨rfl, fun part hp => ?_⟩
    cases part <;> simp at hp <;> simp [State.agrees, adoptDefaults]
    next q => cases q <;> rfl
  exact State.unchangedBut_trans h1
    (State.unchangedBut_trans (c := [.directory, .calibration, .slots, .derived, .fields, .tracker, .engine, .frameContext])
      (h2 _)
      (State.unchangedBut_trans (c := [.directory, .slots, .derived, .fields, .tracker, .engine, .frameContext]) (h3 _) (h4 _)
        (by simp) (by simp)) (by simp) (by simp)) (by simp) (by simp)

theorem unchangedBut_riseAfterCommand (p : Port) (s : State) :
    s.unchangedBut (riseAfterCommand p s) [.port p, .inactivityTimer] := by
  unfold riseAfterCommand
  split
  · exact State.unchangedBut_refl _ _
  · exact (endSelection_spec s _).2.2

/-! ## Every command -/

/-- The parts of the state that a command can change: of a selection given by its bytes or bits, those that a discarded selection
changes. -/
def commandParts : Instr → List Part
  | .resetAssert _ =>
    [.resetLine, .engine, .counts, .frameContext, .outputs, .zones, .tracker, .calibration, .derived, .fields, .queue,
     .appliedChanges, .group, .inactivityTimer, .grantOrder, .slots, .store, .directory, .controller, .recallEngine, .records,
     .portR, .port .c, .port .s]
  | .resetRelease _ => [.resetLine, .store, .directory]
  | .startUpCompletion _ => [.store, .directory, .calibration, .slots, .derived, .fields, .tracker, .engine, .frameContext]
  | .frameStart _ _ =>
    [.engine, .counts, .frameContext, .outputs, .zones, .tracker, .derived, .fields, .queue, .appliedChanges, .group, .slots,
     .records]
  | .pixel _ _ _ => [.zones, .counts, .outputs]
  | .frameEnd => [.records, .zones, .tracker, .engine, .outputs]
  | .inputLost _ => [.records, .zones, .engine, .fields, .derived, .queue, .appliedChanges, .slots, .frameContext, .tracker]
  | .evaluationCompletion | .trackerSubmission =>
    [.queue, .slots, .fields, .derived, .appliedChanges, .frameContext, .tracker, .grantOrder]
  | .groupExpiry _ => [.queue, .slots, .group, .inactivityTimer]
  | .readStatus p | .readField p _ | .readDerived p | .readTracker p | .readZones p | .slotRead p _ _ | .slotInfo p _
  | .readSector p _ | .framing p _ _ | .unknown p _ => [.port p, .inactivityTimer]
  | .edit p _ _ beside | .editClose p _ _ beside | .groupOpen p beside | .groupClose p beside | .groupAbandon p beside =>
    requestsParts p beside
  | .slotOpen p _ | .slotWrite p _ _ _ _ | .slotFinish p _ | .slotDiscard p _ => [.port p, .inactivityTimer, .slots]
  | .writeEnable p | .writeDisable p => [.port p, .inactivityTimer]
  | .recall p _ _ => [.port p, .inactivityTimer, .slots, .controller, .directory, .recallEngine]
  | .recallCompletion _ => [.store, .slots, .directory, .controller, .recallEngine]
  | .save p _ _ _ _ => [.port p, .inactivityTimer, .slots, .directory, .controller]
  | .saveCompletion _ => [.store, .freeIndex, .slots, .directory, .controller]
  | .erase p _ _ => [.port p, .inactivityTimer, .directory, .controller]
  | .eraseCompletion _ => [.store, .freeIndex, .directory, .controller]
  | .supplyLowAssert _ => [.guardLines, .store, .slots, .directory, .controller]
  | .supplyLowDeassert | .calibrationProtectChange _ => [.guardLines]
  | .portRReadStatus | .readRecords _ | .readRecordsStream _ | .streamSelection | .streamExit | .portRUnknownByte _
  | .transferCutOff _ => [.portR]
  | .recordTransferEnd _ => [.portR, .records]
  | .selectionEnd .c _ => [.port .c, .inactivityTimer]
  | .selectionEnd .s _ => [.port .s, .inactivityTimer]
  | .selectionEnd .r _ => [.portR, .records]

/-- Whether a command is a selection given by its bytes, or a moment of one. -/
def isSelection : Instr → Bool
  | .framing _ _ _ | .unknown _ _ | .selectionEnd _ _ => true
  | _ => false

/-- No command but a selection given by its bytes changes a part that is not among its own. -/
theorem exec_commandParts (c : Instr) (hc : isSelection c = false) (s : State) :
    ∃ t, exec c s = .next t ∧ s.unchangedBut t (commandParts c) := by
  have lines : ∀ (u : State) (a b : Bool), u.unchangedBut { u with protectLine := a, supplyLowLine := b } [.guardLines] := by
    intro u a b
    refine ⟨rfl, fun part hp => ?_⟩
    cases part <;> simp at hp <;> simp [State.agrees]
    next q => cases q <;> rfl
  match c with
  | .resetAssert acts =>
    refine ⟨_, rfl, rfl, fun part hp => ?_⟩
    cases part <;> simp [commandParts] at hp <;> simp [State.agrees, assertReset]
    next q => cases q <;> simp at hp
  | .resetRelease _ => exact ⟨_, rfl, unchangedBut_releaseReset _ s⟩
  | .startUpCompletion _ => exact ⟨_, rfl, unchangedBut_completeStartUp _ s⟩
  | .frameStart w h =>
    refine ⟨_, rfl, ?_⟩
    split
    · exact State.unchangedBut_mono (unchangedBut_emit s none none) (by simp [commandParts])
    · exact unchangedBut_startFrame w h s
  | .pixel r g b =>
    refine ⟨_, rfl, ?_⟩
    split
    · exact State.unchangedBut_mono (unchangedBut_emit s _ _) (by simp [commandParts])
    split
    · refine ⟨rfl, fun part hp => ?_⟩
      cases part <;> simp [commandParts] at hp <;> simp [State.agrees, transformPixel]
      next q => cases q <;> rfl
    · exact State.unchangedBut_mono (unchangedBut_emit s none none) (by simp [commandParts])
  | .frameEnd =>
    refine ⟨_, rfl, ?_⟩
    split
    · exact unchangedBut_endFrame s
    · exact State.unchangedBut_mono (unchangedBut_emit s none none) (by simp [commandParts])
  | .inputLost ms => exact ⟨_, rfl, unchangedBut_elapseInput ms s⟩
  | .evaluationCompletion =>
    refine ⟨_, rfl, ?_⟩
    unfold evaluationCompletes
    split
    · exact State.unchangedBut_refl _ _
    · exact State.unchangedBut_trans (unchangedBut_takeSubmission s) (unchangedBut_tracker _ _) (by simp [commandParts]) (by simp [commandParts])
  | .trackerSubmission => exact ⟨_, rfl, unchangedBut_takeSubmission s⟩
  | .groupExpiry ms => exact ⟨_, rfl, unchangedBut_elapseGroup ms s⟩
  | .readStatus p => exact ⟨_, rfl, unchangedBut_portStatus p s⟩
  | .readField p _ => exact ⟨_, rfl, unchangedBut_portRead p _ _ s⟩
  | .readDerived p => exact ⟨_, rfl, unchangedBut_portRead p _ _ s⟩
  | .readTracker p => exact ⟨_, rfl, unchangedBut_portRead p _ _ s⟩
  | .readZones p => exact ⟨_, rfl, unchangedBut_portRead p _ _ s⟩
  | .slotRead p _ _ => exact ⟨_, rfl, unchangedBut_portRead p _ _ s⟩
  | .slotInfo p _ => exact ⟨_, rfl, unchangedBut_portRead p _ _ s⟩
  | .readSector p _ => exact ⟨_, rfl, unchangedBut_portRead p _ _ s⟩
  | .edit p id v beside => exact ⟨_, rfl, unchangedBut_portRequests p _ beside s⟩
  | .editClose p id v beside => exact ⟨_, rfl, unchangedBut_portRequests p _ beside s⟩
  | .groupOpen p beside => exact ⟨_, rfl, unchangedBut_portRequests p _ beside s⟩
  | .groupClose p beside => exact ⟨_, rfl, unchangedBut_portRequests p _ beside s⟩
  | .groupAbandon p beside => exact ⟨_, rfl, unchangedBut_portRequests p _ beside s⟩
  | .slotOpen p id => exact ⟨_, rfl, unchangedBut_portCommand p _ _ (unchangedBut_onSlot id _ (unchangedBut_openSlot p)) s⟩
  | .slotWrite p id page offset data =>
    refine ⟨_, rfl, ?_⟩
    split
    · exact State.unchangedBut_mono (unchangedBut_discardSelection p _ s) (by simp [commandParts])
    · exact unchangedBut_portCommand p _ _ (unchangedBut_onSlot id _ (unchangedBut_writeSlot p page offset data)) s
  | .slotFinish p id => exact ⟨_, rfl, unchangedBut_portCommand p _ _ (unchangedBut_onSlot id _ (unchangedBut_finishSlot p)) s⟩
  | .slotDiscard p id => exact ⟨_, rfl, unchangedBut_portCommand p _ _ (unchangedBut_onSlot id _ unchangedBut_discardSlot) s⟩
  | .writeEnable p =>
    exact ⟨_, rfl, State.unchangedBut_mono (unchangedBut_portCommand p _ [.port p] (fun u => unchangedBut_setWriteEnable u p true) s)
      (by simp [commandParts])⟩
  | .writeDisable p =>
    exact ⟨_, rfl, State.unchangedBut_mono (unchangedBut_portCommand p _ [.port p] (fun u => unchangedBut_setWriteEnable u p false) s)
      (by simp [commandParts])⟩
  | .recall p n i => exact ⟨_, rfl, unchangedBut_portCommand p _ _ (unchangedBut_recallRequest n i) s⟩
  | .recallCompletion _ => exact ⟨_, rfl, unchangedBut_recallCompletes _ s⟩
  | .save p i n name selector =>
    refine ⟨_, rfl, ?_⟩
    split
    · exact State.unchangedBut_mono (unchangedBut_portCommand p _ _ (unchangedBut_saveRequest p i n name selector) s)
        (by simp [commandParts])
    · exact State.unchangedBut_mono (unchangedBut_discardSelection p _ s) (by simp [commandParts])
  | .saveCompletion _ => exact ⟨_, rfl, unchangedBut_saveCompletes _ s⟩
  | .erase p n k =>
    exact ⟨_, rfl, State.unchangedBut_mono (unchangedBut_portCommand p _ _ (unchangedBut_eraseRequest p n k) s) (by simp [commandParts])⟩
  | .eraseCompletion _ => exact ⟨_, rfl, unchangedBut_eraseCompletes _ s⟩
  | .supplyLowAssert acts =>
    exact ⟨_, rfl, State.unchangedBut_trans (unchangedBut_cutOperation acts s) (lines _ _ true) (by simp [commandParts]) (by simp [commandParts])⟩
  | .supplyLowDeassert => exact ⟨_, rfl, lines s _ false⟩
  | .calibrationProtectChange b => exact ⟨_, rfl, lines s b _⟩
  | .portRReadStatus => exact ⟨_, rfl, unchangedBut_selectionR _ _ s⟩
  | .readRecords begun => exact ⟨_, rfl, unchangedBut_selectionR _ begun s⟩
  | .readRecordsStream begun => exact ⟨_, rfl, unchangedBut_selectionR _ begun s⟩
  | .streamSelection =>
    refine ⟨_, rfl, ?_⟩
    split
    · exact State.unchangedBut_refl _ _
    · exact State.unchangedBut_trans (unchangedBut_closeSelectionR s) (unchangedBut_recordSelection [] _ _) (by simp [commandParts])
        (by simp [commandParts])
  | .streamExit =>
    refine ⟨_, rfl, ?_⟩
    split
    · exact unchangedBut_takeExit s
    · exact unchangedBut_selectionR _ _ s
  | .portRUnknownByte _ => exact ⟨_, rfl, unchangedBut_selectionR _ _ s⟩
  | .recordTransferEnd moment => exact ⟨_, rfl, unchangedBut_transferMoment moment s⟩
  | .transferCutOff _ => exact ⟨_, rfl, unchangedBut_transferCut _ s⟩
/-! ## Selections given by their bytes (R167) -/

/-- A frame's command is executed as the command, and any other is no frame. -/
theorem frameMeaning_eq (c : Instr) : frameMeaning c = exec c ∨ frameMeaning c = Host.Outcome.next := by
  cases c <;> first | exact Or.inl rfl | exact Or.inr rfl

/-- What a selection changes, by what the tests of R167 find it to be. -/
def selectionParts (p : Port) : Frame → List Part
  | .command c => .port p :: .inactivityTimer :: commandParts c
  | _ => [.port p, .inactivityTimer]

theorem frameMeaning_parts (c : Instr) (s : State) : ∃ t, frameMeaning c s = .next t ∧ s.unchangedBut t (commandParts c) := by
  by_cases hc : isSelection c = true
  · cases c <;> simp [isSelection] at hc
    all_goals exact ⟨s, rfl, State.unchangedBut_refl _ _⟩
  · rcases frameMeaning_eq c with h | h
    · rw [h]; exact exec_commandParts c (by simpa using hc) s
    · rw [h]; exact ⟨s, rfl, State.unchangedBut_refl _ _⟩

/-- A selection changes its port, and what its command can (R167). -/
theorem takeSelection_parts (p : Port) (f : Frame) (s : State) :
    ∃ t, takeSelection p f s = .next t ∧ s.unchangedBut t (selectionParts p f) := by
  cases f with
  | framing => exact ⟨_, rfl, unchangedBut_discardSelection p _ s⟩
  | unknown => exact ⟨_, rfl, unchangedBut_discardSelection p _ s⟩
  | command c =>
    obtain ⟨u, hu, hc⟩ := frameMeaning_parts c s
    refine ⟨riseAfterCommand p u, by simp [takeSelection, hu], ?_⟩
    exact State.unchangedBut_trans hc (unchangedBut_riseAfterCommand p u) (by simp [selectionParts]) (by simp [selectionParts])

end Sys2Proof.Machine
end

