-- ==== Sys2Proof/Laws/Moments.lean ====
section
/-! SUPPORT. What the moments of a selection do: bits, whole bytes, the fall and the rise of select (R165 to R169); and the parts
of the state that each command can change, for every command (95). -/

namespace Sys2Proof.Machine

/-! ## Bits and bytes (R165) -/

@[simp] theorem PortState.takeByte_selection (x : PortState) (received : List Byte) :
    (x.takeByte received).selection = .selected received [] := rfl

@[simp] theorem PortState.takeByte_reading (x : PortState) (received : List Byte) :
    (x.takeByte received).reading = x.reading.map Reading.advance := rfl

@[simp] theorem PortState.takeByte_shifted (x : PortState) (received : List Byte) :
    (x.takeByte received).shifted = x.shifted ++ [(x.reading.map Reading.out).getD 0] := rfl

@[simp] theorem PortState.takeByte_lastResult (x : PortState) (received : List Byte) :
    (x.takeByte received).lastResult = x.lastResult := rfl

@[simp] theorem PortState.takeByte_writeEnable (x : PortState) (received : List Byte) :
    (x.takeByte received).writeEnable = x.writeEnable := rfl

/-- Eight bits taken most significant first are the byte they came from. -/
theorem byteOfBits_byteBits (b : Byte) : byteOfBits (byteBits b) = b := by
  have key : ∀ high low : Fin 16, byteOfBits (byteBits (BitVec.ofNat 8 (16 * high + low))) = BitVec.ofNat 8 (16 * high + low) := by
    decide
  have := key ⟨b.toNat / 16, by omega⟩ ⟨b.toNat % 16, by omega⟩
  simpa [Nat.div_add_mod] using this

/-- Bits one after the other. -/
theorem bitsOnLine_append (line : SelectLine) (first rest : List Bool) (s : State) :
    bitsOnLine line (first ++ rest) s =
      match bitsOnLine line first s with
      | .next t => bitsOnLine line rest t
      | stopped => stopped := by
  induction first generalizing s with
  | nil => rfl
  | cons bit more ih =>
    simp only [List.cons_append, bitsOnLine]
    cases bitOnLine line bit s with
    | next t => exact ih t
    | fault f => rfl
    | refused r => rfl

theorem bitOnLine_port (p : Port) (bit : Bool) (s : State) : bitOnLine (portLine p) bit s = bitOnPort p bit s := by
  cases p <;> rfl

/-- Fewer than eight bits grow the part byte alone (R166). -/
theorem bitsOnPort_part (p : Port) (received : List Byte) (more part : List Bool) (s : State)
    (h : (s.port p).selection = .selected received part) (hl : part.length + more.length < 8) :
    bitsOnLine (portLine p) more s =
      .next (s.setPort p { s.port p with selection := .selected received (part ++ more) }) := by
  induction more generalizing s part with
  | nil =>
    rw [List.append_nil, ← h]
    exact congrArg _ (State.setPort_port s p).symm
  | cons bit rest ih =>
    simp only [List.length_cons] at hl
    simp only [bitsOnLine, bitOnLine_port, bitOnPort, h, show part.length < 7 by omega, if_true]
    rw [ih (part ++ [bit]) _ (by simp) (by simp; omega)]
    simp

/-- A whole byte taken after whole bytes (R165, R168). -/
theorem bitsOnPort_byte (p : Port) (received : List Byte) (b : Byte) (s : State)
    (h : (s.port p).selection = .selected received []) :
    bitsOnLine (portLine p) (byteBits b) s = byteOnPort p (received ++ [b]) s := by
  obtain ⟨first, last, hb, hf⟩ : ∃ first last, byteBits b = first ++ [last] ∧ first.length = 7 :=
    ⟨(List.range 7).map b.getMsbD, b.getMsbD 7, rfl, rfl⟩
  rw [hb, bitsOnLine_append, bitsOnPort_part p received first [] s h (by simp [hf])]
  simp only [List.nil_append, bitsOnLine, bitOnLine_port, bitOnPort, State.port_setPort_self, hf, Nat.lt_irrefl, if_false,
    ← hb, byteOfBits_byteBits]
  have : byteOnPort p (received ++ [b]) (s.setPort p { s.port p with selection := .selected received first }) =
      byteOnPort p (received ++ [b]) s := by simp [byteOnPort, PortState.takeByte]
  rw [this]
  cases byteOnPort p (received ++ [b]) s <;> rfl

/-- Bytes taken while a reply is in progress: each shifts out the next byte of it (R168). -/
theorem bitsOnPort_reply (p : Port) (sent received : List Byte) (r : Reading) (s : State)
    (h : (s.port p).selection = .selected received []) (hr : (s.port p).reading = some r) (hn : 0 < sent.length) :
    bitsOnLine (portLine p) (sent.flatMap byteBits) s =
      .next (s.setPort p { s.port p with
        selection := .selected (received ++ sent) [],
        reading := some { r with
          position :=
            if r.repeated then (r.position + sent.length) % r.reply.length else min (r.position + sent.length) r.reply.length },
        shifted := (s.port p).shifted ++ (List.range sent.length).map fun k =>
          r.reply.getD (if r.repeated then (r.position + k) % r.reply.length else r.position + k) 0 }) := by
  induction sent generalizing s received r with
  | nil => simp at hn
  | cons b rest ih =>
    have one : bitsOnLine (portLine p) (byteBits b) s = .next (s.setPort p { s.port p with
        selection := .selected (received ++ [b]) [], reading := some r.advance,
        shifted := (s.port p).shifted ++ [r.out] }) := by
      rw [bitsOnPort_byte p received b s h]
      simp [byteOnPort, hr, PortState.takeByte]
    rw [List.flatMap_cons, bitsOnLine_append, one]
    simp only
    cases rest with
    | nil =>
      simp [bitsOnLine, Reading.advance, Reading.out]
    | cons c more =>
      rw [ih (received ++ [b]) r.advance _ (by simp) (by simp) (by simp)]
      congr 1
      simp only [State.port_setPort_self, State.setPort_setPort]
      congr 1
      simp only [Reading.advance, List.length_cons, List.append_assoc, List.cons_append, List.nil_append]
      congr 1
      · congr 2
        split
        · simp [Nat.add_assoc, Nat.add_comm 1]
        · omega
      · rw [List.range_succ_eq_map (n := more.length + 1)]
        simp only [List.map_cons, List.map_map, Nat.add_zero, Reading.out]
        congr 2
        apply List.map_congr_left
        intro k _
        simp only [Function.comp_apply]
        split
        · simp [Nat.add_assoc, Nat.add_comm 1]
        · rcases Nat.le_total (r.position + 1) r.reply.length with hle | hle
          · rw [Nat.min_eq_left hle, Nat.add_assoc, Nat.add_comm 1]
          · rw [Nat.min_eq_right hle, List.getD_eq_default _ _ (by omega), List.getD_eq_default _ _ (by omega)]

/-! ## Port R by its bits -/

@[simp] theorem State.receivedR_receivedR (s : State) (a b : List Byte) (c d : List Bool) :
    (s.receivedR a c).receivedR b d = s.receivedR b d := rfl

theorem State.receivedR_self (s : State) {received : List Byte} {part : List Bool}
    (h : s.portR.selection = .selected received part) : s.receivedR received part = s := by
  unfold State.receivedR
  rw [← h]

theorem transferBegins_of_not_due {s : State} (h : transferDue s = false) : transferBegins s = s := by
  unfold transferBegins
  rw [h]
  rfl

/-- Once a transfer or fill has begun, none is due (R160). -/
@[simp] theorem transferDue_transferBegins (s : State) : transferDue (transferBegins s) = false := by
  by_cases h : transferDue s = true
  · unfold transferBegins
    rw [if_pos h]
    unfold transferDue RecordRing.startReading RecordRing.startTransfer
    simp only
    split
    · simp
    · split <;> simp
  · rw [transferBegins_of_not_due (by simpa using h)]
    simpa using h

@[simp] theorem transferBegins_transferBegins (s : State) : transferBegins (transferBegins s) = transferBegins s :=
  transferBegins_of_not_due (transferDue_transferBegins s)

/-- What goes out does not depend on what has been received. -/
theorem shiftOutR_receivedR (s : State) (received : List Byte) (part : List Bool) :
    shiftOutR (s.receivedR received part) = (shiftOutR s).receivedR received part := by
  unfold shiftOutR shiftBytes transferEnds State.receivedR
  simp only
  repeat' split
  all_goals rfl

/-- A whole byte is judged by itself, not by the bits it came as. -/
theorem byteOnR_receivedR (code : Byte) (received other : List Byte) (part : List Bool) (s : State) :
    byteOnR code received (s.receivedR other part) = byteOnR code received s := by
  have command : commandSelection code false (s.receivedR other part) = commandSelection code false s := by
    unfold commandSelection
    split <;> rfl
  unfold byteOnR
  rw [shiftOutR_receivedR, command]
  rfl

/-- Further bits short of a whole byte grow the part byte alone (R166). -/
theorem bitsOnR_more (received : List Byte) (more part : List Bool) (s : State)
    (h : s.portR.selection = .selected received part) (hp : 0 < part.length) (hl : part.length + more.length < 8) :
    bitsOnLine .r more s = .next (s.receivedR received (part ++ more)) := by
  induction more generalizing s part with
  | nil => simp [bitsOnLine, s.receivedR_self h]
  | cons bit rest ih =>
    simp only [List.length_cons] at hl
    have hne : part.isEmpty = false := by cases part <;> simp at hp ⊢
    simp only [bitsOnLine, bitOnLine, bitOnR, h, hne, show part.length < 7 by omega, if_true, Bool.false_eq_true, if_false]
    rw [ih (part ++ [bit]) _ rfl (by simp) (by simp; omega)]
    simp

/-- The first bits of a byte, short of a whole one: a transfer that is due begins, and the part byte grows (R160, R166). -/
theorem bitsOnR_first (received : List Byte) (bit : Bool) (more : List Bool) (s : State)
    (h : s.portR.selection = .selected received []) (hl : more.length < 7) :
    bitsOnLine .r (bit :: more) s = .next ((transferBegins s).receivedR received (bit :: more)) := by
  simp only [bitsOnLine, bitOnLine, bitOnR, h, List.isEmpty_nil, if_true, List.length_nil, Nat.zero_lt_succ, List.nil_append]
  rw [bitsOnR_more received more [bit] _ rfl (by simp) (by simp; omega)]
  simp

/-- A whole byte taken by Port R after whole bytes (R160, R165, R175). -/
theorem bitsOnR_byte (received : List Byte) (b : Byte) (s : State) (h : s.portR.selection = .selected received []) :
    bitsOnLine .r (byteBits b) s = .next (byteOnR b received (transferBegins s)) := by
  obtain ⟨bit, more, last, hb, hm⟩ : ∃ bit more last, byteBits b = (bit :: more) ++ [last] ∧ more.length = 6 :=
    ⟨b.getMsbD 0, [b.getMsbD 1, b.getMsbD 2, b.getMsbD 3, b.getMsbD 4, b.getMsbD 5, b.getMsbD 6], b.getMsbD 7, rfl, rfl⟩
  rw [hb, bitsOnLine_append, bitsOnR_first received bit more s h (by omega)]
  simp only [bitsOnLine, bitOnLine, bitOnR, State.receivedR, List.length_cons, hm, Nat.lt_irrefl, if_false, List.isEmpty_cons,
    Bool.false_eq_true]
  rw [← hb, byteOfBits_byteBits]
  exact congrArg _ (byteOnR_receivedR b received received (bit :: more) (transferBegins s))

theorem unchangedBut_beginSelectionR (s : State) : s.unchangedBut s.beginSelectionR [.portR] := by
  unfold State.beginSelectionR
  split
  · exact unchangedBut_portR rfl
  · exact unchangedBut_recordSelection _ _ _

theorem unchangedBut_shiftOutR (s : State) : s.unchangedBut (shiftOutR s) [.portR, .records] := by
  unfold shiftOutR
  repeat' split
  all_goals first
    | exact State.unchangedBut_mono (unchangedBut_shiftBytes 1 s) (by simp)
    | exact unchangedBut_transferEnds s
    | exact State.unchangedBut_mono (unchangedBut_portR rfl) (by simp)

theorem unchangedBut_byteOnR (code : Byte) (received : List Byte) (s : State) :
    s.unchangedBut (byteOnR code received s) [.portR, .records] := by
  have shift := State.unchangedBut_trans (unchangedBut_shiftOutR s)
    (unchangedBut_receivedR (shiftOutR s) (received ++ [code]) []) (fun _ h => h) (by simp)
  unfold byteOnR
  repeat' split
  all_goals first
    | exact shift
    | exact State.unchangedBut_mono (unchangedBut_commandSelection code false s) (by simp)
    | exact State.unchangedBut_mono (unchangedBut_takeExit s) (by simp)

/-- A bit on Port R changes Port R and the records alone (R160, R165). -/
theorem unchangedBut_bitOnR (bit : Bool) (s : State) : s.unchangedBut (bitOnR bit s) [.portR, .records] := by
  unfold bitOnR
  split
  · exact State.unchangedBut_refl _ _
  next received part _ =>
    simp only
    have begun : s.unchangedBut (if part.isEmpty then transferBegins s else s) [.portR, .records] := by
      split
      · exact State.unchangedBut_mono (unchangedBut_transferBegins s) (by simp)
      · exact State.unchangedBut_refl _ _
    split
    · exact State.unchangedBut_trans begun (unchangedBut_receivedR _ _ _) (fun _ h => h) (by simp)
    · exact State.unchangedBut_trans begun (unchangedBut_byteOnR _ _ _) (fun _ h => h) (fun _ h => h)

/-! ## Selections given by their moments (R165, R166) -/

/-- What the moments of a selection of a port can change: what any command of the port can. -/
abbrev momentParts (p : Port) : List Part :=
  .port p :: .inactivityTimer :: (requestParts ++ [.controller, .directory, .recallEngine])

/-- What a command of a port can change is among what the moments of its selections can. -/
theorem commandParts_subset {p : Port} {c : Instr}
    (h : commandPort c = some p ∨ (∃ bytes, readPort c = some (p, bytes)) ∨ c = .readStatus p) :
    commandParts c ⊆ momentParts p := by
  rcases h with h | ⟨bytes, h⟩ | rfl
  · cases c <;> simp [commandPort] at h <;> try subst h
    case edit q id v beside => cases beside <;> simp at h; subst h; simp [commandParts, requestsParts]
    case editClose q id v beside => cases beside <;> simp at h; subst h; simp [commandParts, requestsParts]
    case groupOpen q beside => cases beside <;> simp at h; subst h; simp [commandParts, requestsParts]
    case groupClose q beside => cases beside <;> simp at h; subst h; simp [commandParts, requestsParts]
    case groupAbandon q beside => cases beside <;> simp at h; subst h; simp [commandParts, requestsParts]
    all_goals simp [commandParts]
  · cases c <;> simp [readPort] at h <;> obtain ⟨rfl, -⟩ := h <;> simp [commandParts]
  · simp [commandParts]

theorem selectionParts_subset (p : Port) (received : List Byte) (part : List Bool) :
    selectionParts p (judgeFrame p received part) ⊆ momentParts p := by
  cases h : judgeFrame p received part with
  | framing => simp [selectionParts]
  | unknown => simp [selectionParts]
  | command c =>
    have := commandParts_subset (judgeFrame_command h)
    intro x hx
    simp only [selectionParts, List.mem_cons] at hx
    rcases hx with rfl | rfl | hx
    · simp
    · simp
    · exact this hx

theorem riseOnPort_parts (p : Port) (s : State) : ∃ t, riseOnPort p s = .next t ∧ s.unchangedBut t (momentParts p) := by
  unfold riseOnPort
  split
  · exact ⟨s, rfl, State.unchangedBut_refl _ _⟩
  split
  · exact ⟨_, rfl, State.unchangedBut_mono (endSelection_spec s p).2.2 (by simp)⟩
  · obtain ⟨t, ht, hc⟩ := takeSelection_parts p (judgeFrame p _ _) s
    exact ⟨t, ht, State.unchangedBut_mono hc (selectionParts_subset p _ _)⟩

/-- What a read of a port can change. -/
theorem readParts {p : Port} {c : Instr} (h : (∃ bytes, readPort c = some (p, bytes)) ∨ c = .readStatus p) :
    commandParts c = [.port p, .inactivityTimer] := by
  rcases h with ⟨bytes, h⟩ | rfl
  · cases c <;> simp [readPort] at h <;> obtain ⟨rfl, -⟩ := h <;> rfl
  · rfl

theorem byteOnPort_parts (p : Port) (received : List Byte) (s : State) :
    ∃ t, byteOnPort p received s = .next t ∧ s.unchangedBut t [.port p, .inactivityTimer] := by
  have taken := State.unchangedBut_mono (s.unchangedBut_setPort p ((s.port p).takeByte received))
    (show [Part.port p] ⊆ [.port p, .inactivityTimer] by simp)
  unfold byteOnPort
  simp only
  split
  · exact ⟨_, rfl, taken⟩
  split
  next c hc =>
    obtain ⟨t, ht, hp⟩ := frameMeaning_parts c (s.setPort p ((s.port p).takeByte received))
    rw [readParts (completedRead_read hc)] at hp
    exact ⟨t, ht, State.unchangedBut_trans taken hp (fun _ h => h) (fun _ h => h)⟩
  · exact ⟨_, rfl, taken⟩

theorem bitOnPort_parts (p : Port) (bit : Bool) (s : State) :
    ∃ t, bitOnPort p bit s = .next t ∧ s.unchangedBut t [.port p, .inactivityTimer] := by
  unfold bitOnPort
  split
  · exact ⟨s, rfl, State.unchangedBut_refl _ _⟩
  split
  · exact ⟨_, rfl, State.unchangedBut_mono (s.unchangedBut_setPort p _) (by simp)⟩
  · exact byteOnPort_parts p _ s

/-- What the bits of a selection can change, by its line. -/
def bitParts : SelectLine → List Part
  | .c => [.port .c, .inactivityTimer]
  | .s => [.port .s, .inactivityTimer]
  | .r => [.portR, .records]

/-- What the moments of a selection can change, by its line. -/
def lineParts : SelectLine → List Part
  | .c => momentParts .c
  | .s => momentParts .s
  | .r => [.portR, .records]

theorem bitParts_subset (line : SelectLine) : bitParts line ⊆ lineParts line := by
  cases line <;> simp [bitParts, lineParts]

theorem bitOnLine_parts (line : SelectLine) (bit : Bool) (s : State) :
    ∃ t, bitOnLine line bit s = .next t ∧ s.unchangedBut t (bitParts line) := by
  cases line
  · exact bitOnPort_parts .c bit s
  · exact bitOnPort_parts .s bit s
  · exact ⟨_, rfl, unchangedBut_bitOnR bit s⟩

/-- Bits change no more than the selection and what a read changes: no slot, no field, no store (R166, R168). -/
theorem bitsOnLine_parts (line : SelectLine) (bits : List Bool) :
    ∀ s : State, ∃ t, bitsOnLine line bits s = .next t ∧ s.unchangedBut t (bitParts line) := by
  induction bits with
  | nil => exact fun s => ⟨s, rfl, State.unchangedBut_refl _ _⟩
  | cons bit rest ih =>
    intro s
    obtain ⟨t, ht, h⟩ := bitOnLine_parts line bit s
    obtain ⟨u, hu, k⟩ := ih t
    exact ⟨u, by simp [bitsOnLine, ht, hu], State.unchangedBut_trans h k (fun _ h => h) (fun _ h => h)⟩

theorem riseOfSelect_parts (line : SelectLine) (s : State) :
    ∃ t, riseOfSelect line s = .next t ∧ s.unchangedBut t (lineParts line) := by
  cases line
  · exact riseOnPort_parts .c s
  · exact riseOnPort_parts .s s
  · exact ⟨_, rfl, State.unchangedBut_mono (unchangedBut_closeSelectionR s) (by simp [lineParts])⟩

theorem unchangedBut_fallOfSelect (line : SelectLine) (s : State) : s.unchangedBut (fallOfSelect line s) (lineParts line) := by
  cases line
  · exact State.unchangedBut_mono (s.unchangedBut_setPort .c _) (by simp [lineParts])
  · exact State.unchangedBut_mono (s.unchangedBut_setPort .s _) (by simp [lineParts])
  · exact State.unchangedBut_mono (unchangedBut_beginSelectionR s) (by simp [lineParts])

/-- A moment of a selection changes only what its line's selections can (R166). -/
theorem selectionMoment_parts (line : SelectLine) (moment : SelectionMoment) (s : State) :
    ∃ t, selectionMoment line moment s = .next t ∧ s.unchangedBut t (lineParts line) := by
  unfold selectionMoment
  split
  · exact ⟨s, rfl, State.unchangedBut_refl _ _⟩
  cases moment with
  | fall =>
    obtain ⟨t, ht, h⟩ := riseOfSelect_parts line s
    refine ⟨_, by simp only [ht], State.unchangedBut_trans h (unchangedBut_fallOfSelect line t) (fun _ h => h) (fun _ h => h)⟩
  | clocked bits =>
    obtain ⟨t, ht, h⟩ := bitsOnLine_parts line bits s
    exact ⟨t, ht, State.unchangedBut_mono h (bitParts_subset line)⟩
  | rise => exact riseOfSelect_parts line s

/-- The parts of the state that a command can change. -/
def Changes : Instr → List Part
  | .framing p received part => selectionParts p (judgeFrame p received part)
  | .unknown p received => selectionParts p (judgeFrame p received [])
  | .selectionEnd line _ => lineParts line
  | c => commandParts c

/-- No command changes a part that is not among those of `Changes`. -/
theorem exec_changes (c : Instr) (s : State) : ∃ t, exec c s = .next t ∧ s.unchangedBut t (Changes c) := by
  by_cases hc : isSelection c = true
  · cases c <;> simp [isSelection] at hc
    case selectionEnd line moment => exact selectionMoment_parts line moment s
    all_goals exact takeSelection_parts _ _ s
  · have h := exec_commandParts c (by simpa using hc) s
    cases c <;> first | exact h | simp [isSelection] at hc

end Sys2Proof.Machine
end

