-- ==== Sys2Proof/Laws/Pixel.lean ====
section
/-! SUPPORT. The lattice rounding and the counting of zones (R32, R60). -/

namespace Sys2Proof.Machine

/-- The rounded weighted sum (R32). -/
theorem latticeRound_eq (c0 n1 n2 c1 : Int) (f1 f2 f3 : Nat) : (latticeRound c0 n1 n2 c1 f1 f2 f3 : Int) = max 0 (min ((256 * c0 + f1 * (n1 - c0) + f2 * (n2 - n1) + f3 * (c1 - n2) + 128) / 256) 4095) := by
  unfold latticeRound; rw [clampInt_eq _ _ _ (by decide)]; omega

/-- Counting an initial run of positions (R60). -/
theorem countP_of_initial (p : Nat → Bool) (hp : ∀ j k, j ≤ k → p k = true → p j = true) (n : Nat) :
    (∀ j < (List.range n).countP p, p j = true) ∧ ((List.range n).countP p < n → p ((List.range n).countP p) = false) ∧ (List.range n).countP p ≤ n := by
  induction n with
  | zero => simp
  | succ m ih =>
    rw [List.range_succ, List.countP_append]
    obtain ⟨h1, h2, h3⟩ := ih
    by_cases hpm : p m = true
    · have hall : (List.range m).countP p = m := by
        by_contra hne
        have := h2 (by omega)
        rw [hp _ m (by omega) hpm] at this; cases this
      simp only [hall, List.countP_cons, List.countP_nil, hpm, if_true]
      refine ⟨fun j hj => ?_, fun h => by omega, by omega⟩
      by_cases hj' : j = m
      · subst hj'; exact hpm
      · exact h1 j (by omega)
    · simp only [List.countP_cons, List.countP_nil, hpm]
      refine ⟨fun j hj => h1 j (by simpa using hj), fun h => ?_, by simp; omega⟩
      simp only [Bool.false_eq_true, if_false, Nat.add_zero] at h ⊢
      by_cases hlt : (List.range m).countP p < m
      · exact h2 hlt
      · have : (List.range m).countP p = m := by omega
        rw [this]; simpa using hpm

end Sys2Proof.Machine
end

