-- ==== Sys2Proof/Laws/Tracker.lean ====
section
/-! SUPPORT. The vote list (R71). -/

namespace Sys2Proof.Machine

/-- A vote put into a list is one more member. -/
theorem insertVote_perm (v : Nat) (l : List Nat) : (insertVote v l).Perm (v :: l) := by
  induction l with
  | nil => exact List.Perm.refl _
  | cons x r ih =>
    unfold insertVote; split
    · exact List.Perm.refl _
    · exact (List.Perm.cons x ih).trans (List.Perm.swap v x r)

/-- A vote put into an ascending list leaves it ascending. -/
theorem insertVote_sorted (v : Nat) (l : List Nat) (h : l.Pairwise (· ≤ ·)) : (insertVote v l).Pairwise (· ≤ ·) := by
  induction l with
  | nil => simp [insertVote]
  | cons x r ih =>
    have hp := List.pairwise_cons.1 h
    unfold insertVote; split
    · next hv => exact List.pairwise_cons.2 ⟨fun y hy => by
        rcases List.mem_cons.1 hy with rfl | hy
        · exact hv
        · exact Nat.le_trans hv (hp.1 y hy), h⟩
    · refine List.pairwise_cons.2 ⟨fun y hy => ?_, ih hp.2⟩
      rcases List.mem_cons.1 ((insertVote_perm v r).mem_iff.1 hy) with rfl | hy
      · omega
      · exact hp.1 y hy

end Sys2Proof.Machine
end

