-- ==== Sys2Proof/Tests/Slice0.lean ====
section
/-! SUPPORT. The checks of the work: what well-formedness refuses, worked examples of the manual, and for each statement with
hypotheses a concrete state and operands that meet them. -/

namespace Sys2Proof.Tests

open Sys2Proof Sys2Proof.Machine

/-! ## Well-formedness -/

theorem test_wellFormed_refuses_pages_beyond_the_store :
    (Instr.resetRelease [8191, 8192]).wellFormed = false ∧ (Instr.startUpCompletion [8192]).wellFormed = false ∧
      (Instr.recallCompletion [8192]).wellFormed = false ∧ (Instr.recallCompletion [0, 8191]).wellFormed = true := by
  decide

theorem test_wellFormed_refuses_act_zero :
    (Instr.saveCompletion (some 0)).wellFormed = false ∧ (Instr.eraseCompletion (some 0)).wellFormed = false ∧
      (Instr.saveCompletion (some 1)).wellFormed = true ∧ (Instr.eraseCompletion none).wellFormed = true := by
  decide

theorem test_wellFormed_refuses_write_without_data :
    (Instr.slotWrite .c 0 0 0 []).wellFormed = false ∧ (Instr.slotWrite .c 0 0 0 [0]).wellFormed = true := by decide

theorem test_wellFormed_refuses_short_and_long_names :
    (Instr.save .s 4 16 (List.replicate 15 0) 0).wellFormed = false ∧
      (Instr.save .s 4 16 (List.replicate 17 0) 0).wellFormed = false ∧
      (Instr.save .s 4 16 (List.replicate 16 0) 0).wellFormed = true := by
  decide

theorem test_wellFormed_refuses_command_codes_as_unknown :
    (Instr.unknown .c [0x21]).wellFormed = false ∧ (Instr.unknown .c []).wellFormed = false ∧
      (Instr.portRUnknownByte 0x61).wellFormed = false ∧ (Instr.unknown .c [0x61, 0]).wellFormed = true ∧
      (Instr.portRUnknownByte 0xE5).wellFormed = true := by
  decide

theorem test_wellFormed_refuses_frames_as_framing :
    (Instr.framing .c [0x28] []).wellFormed = false ∧ (Instr.framing .c [0x61] []).wellFormed = false ∧
      (Instr.framing .c [0x28] (List.replicate 8 true)).wellFormed = false ∧
      (Instr.framing .c [0x28] (List.replicate 7 true)).wellFormed = true ∧ (Instr.framing .c [] []).wellFormed = true := by
  decide

/-! ## Frames (R167, R168, R178) -/

theorem test_frames_of_commands :
    judgeFrame .c [0x21, 0x01, 0, 0, 1, 44] [] = .command (.edit .c 0x01 300 none) ∧
      judgeFrame .s [0x22, 0x09, 0xFF, 0xFF, 0xFF, 0xFD] [] = .command (.editClose .s 0x09 (-3) none) ∧
      judgeFrame .c [0x32, 4, 1, 254, 7, 8] [] = .command (.slotWrite .c 4 1 254 [7, 8]) ∧
      judgeFrame .s ([0x49, 4, 16] ++ List.replicate 16 0x41 ++ [1]) [] =
        .command (.save .s 4 16 (List.replicate 16 0x41) 1) ∧
      judgeFrame .c [0x35, 4, 6, 99] [true] = .command (.slotRead .c 4 6) := by
  decide

theorem test_frames_discarded :
    judgeFrame .c [] [true] = .framing ∧ judgeFrame .c [0x61] [true] = .framing ∧ judgeFrame .c [0x61, 0x28] [] = .unknown ∧
      judgeFrame .c [0x28] [false] = .framing ∧ judgeFrame .c [0x28, 0] [] = .framing ∧
      judgeFrame .c [0x21, 0x01, 0, 0, 1] [] = .framing ∧ judgeFrame .c [0x32, 4, 1, 254] [] = .framing ∧
      judgeFrame .c [0x35, 4] [] = .framing := by
  decide

/-! ## Field ids and values (R84) -/

theorem test_field_ids :
    ∀ x ∈ allFields, fieldOfId x.id = some x := by decide

theorem test_field_ids_are_all :
    ((List.range 256).filter fun n => (fieldOfId (BitVec.ofNat 8 n)).isSome).length = 26 ∧ allFields.length = 26 := by decide

theorem test_field_values_read_back :
    (allFields.all fun x => decide (((Fields.default 2464).set x 2).get x = 2)) = true ∧
      ((Fields.default 2464).set .monitorLattice 255).get .monitorLattice = 255 := by
  decide

/-! ## Worked pixels (sections 1.10 and 2.8) -/

/-- The matrix of the worked examples. -/
def dawnMatrix : Mat3 := ⟨7015, -2509, -410, -1178, 6042, -768, 179, -1895, 5811⟩

/-- The frame context of the worked pixels. -/
def dawnContext : FrameContext :=
  { FrameContext.reset with gainR := 3277, gainG := 4096, gainB := 8192, matrix := dawnMatrix }

/-- The entries of the worked tone table. -/
def dawnTone : Nat → Nat
  | 439 => 1912
  | 440 => 1921
  | 513 => 2215
  | 514 => 2222
  | 553 => 2461
  | 554 => 2467
  | 703 => 3640
  | 704 => 3650
  | n => n

theorem test_blue_hour_pixel :
    frontStage dawnContext 9000 12000 5000 =
      { working := ⟨3838, 13533, 8333⟩, subtracted := ⟨8744, 11744, 4744⟩, clipped := false, gainClamped := false,
        matrixClamped := false } := by
  decide

theorem test_sky_pixel_clamps :
    (frontStage dawnContext 506 556 4756).working = ⟨0, 0, 12638⟩ ∧
      (frontStage dawnContext 506 556 4756).matrixClamped = true := by
  decide

theorem test_clipped_pixel :
    (frontStage dawnContext 65535 40000 20000).working = ⟨65535, 65535, 65535⟩ ∧
      (frontStage dawnContext 65534 65534 65534).clipped = false := by
  decide

theorem test_gain_clamp :
    gained 20000 65535 = 319995 ∧ gainStage 20000 65535 = 262143 ∧ gainClamps 20000 65535 = true ∧
      gainClamps 262143 4096 = false := by
  decide

theorem test_matrix_rounding_at_zero :
    matrixClamps (matrixRow (-2047) 0 0 ⟨1, 0, 0⟩) = false ∧ matrixClamps (matrixRow (-2048) 0 0 ⟨1, 0, 0⟩) = true := by decide

theorem test_tone_codes :
    toneOutput dawnTone 3838 = 1920 ∧ toneOutput dawnTone 13533 = 2465 ∧ toneOutput dawnTone 8333 = 2216 ∧
      toneOutput dawnTone 65535 = 3650 ∧ toneOutput dawnTone 127 = 127 ∧ toneOutput dawnTone 128 = 128 := by
  decide

theorem test_tone_falling_segment :
    toneOutput (fun t => if t = 128 then 10 else 9) 129 = 10 := by decide

theorem test_tetrahedron_of_the_warm_look :
    tetrahedron 128 161 168 = ⟨⟨0, 0, 1⟩, ⟨0, 1, 1⟩, 168, 161, 128⟩ ∧ nodeIndex 7 9 8 = 2184 ∧ nodeIndex 8 10 9 = 2491 ∧
      tetrahedron 76 76 88 = ⟨⟨0, 0, 1⟩, ⟨1, 0, 1⟩, 88, 76, 76⟩ := by
  decide

theorem test_lattice_sums :
    latticeRound 1840 1830 1850 2100 168 161 128 = 1971 ∧ latticeRound 2300 2296 2548 2552 168 161 128 = 2458 ∧
      latticeRound 1990 2230 2236 2240 168 161 128 = 2153 := by
  decide

theorem test_monitor_codes :
    monitorCode 1971 = 493 ∧ monitorCode 2458 = 615 ∧ monitorCode 2153 = 538 ∧ monitorCode 4095 = 1023 := by decide

/-! ## Worked derivations and votes (sections 3.7 and 4.5) -/

/-- Entries 8 to 12 of the worked locus, with its matrices. -/
def dawnCalibration : CalibrationSet :=
  { id := 1, warmMired := 350, coolMired := 150, warmMatrix := ⟨7168, -2662, -410, -1229, 6144, -819, 205, -2048, 5939⟩,
    coolMatrix := ⟨6554, -2048, -410, -1024, 5734, -614, 102, -1434, 5428⟩,
    locus := [⟨240, 4352, 2355⟩, ⟨260, 4608, 2252⟩, ⟨280, 4864, 2150⟩, ⟨300, 5120, 2048⟩, ⟨320, 5376, 1946⟩],
    defaultMired := 300, defaultToneSector := none }

theorem test_derivation_at_300_mired :
    derive dawnCalibration (Fields.default 4800) =
      { applied := 4800, interval := 3, ratioRg := 5120, ratioBg := 2048, gainR := 3277, gainG := 4096, gainB := 8192,
        weight := 192, interpolated := dawnMatrix, effective := dawnMatrix, trimSaturated := false,
        exposureSaturated := false } := by
  decide

theorem test_derivation_during_a_glide :
    (derive dawnCalibration (Fields.default 4646)).ratioRg = 4997 ∧ (derive dawnCalibration (Fields.default 4646)).ratioBg = 2097 ∧
      (derive dawnCalibration (Fields.default 4646)).gainR = 3357 ∧ (derive dawnCalibration (Fields.default 4646)).gainB = 8001 ∧
      (derive dawnCalibration (Fields.default 4646)).weight = 180 ∧
      (derive dawnCalibration (Fields.default 4646)).effective =
        ⟨6986, -2480, -410, -1168, 6022, -758, 174, -1866, 5787⟩ := by
  decide

/-- The worked trim: its first row lifts red. -/
def dawnFields (exposure : Int) : Fields :=
  { Fields.default 4800 with exposure := exposure, trim := ⟨4300, -204, 0, 0, 4096, 0, 0, 0, 4096⟩ }

theorem test_trim_and_exposure :
    (derive dawnCalibration (dawnFields 8)).effective.m11 = 10498 ∧ (derive dawnCalibration (dawnFields 8)).effective.m12 = -4151 ∧
      (derive dawnCalibration (dawnFields 8)).effective.m22 = 8545 ∧ exposureFold (-20) 7015 = 2950 ∧
      (derive dawnCalibration (dawnFields 64)).effective.m11 = 32767 ∧
      (derive dawnCalibration (dawnFields 64)).effective.m12 = -32768 ∧
      (derive dawnCalibration (dawnFields 64)).effective.m13 = -6272 ∧
      (derive dawnCalibration (dawnFields 64)).exposureSaturated = true ∧
      (derive dawnCalibration (dawnFields 64)).trimSaturated = false := by
  decide

theorem test_fallback_derivation :
    fallbackCalibration.acceptable = true ∧ (derive fallbackCalibration (Fields.default 2464)).weight = 5 ∧
      (derive fallbackCalibration (Fields.default 2464)).effective = Mat3.identity := by
  decide

theorem test_zone_vote :
    judgeZone dawnCalibration.locus 410 ⟨43200, 40000, 146484400, 120000000, 61523440⟩ =
      { handed := ⟨43200, 40000, 146484400, 120000000, 61523440⟩, usable := true, ratioR := 5000, ratioB := 2100, nearest := 3,
        distance := 172, voted := true, vote16 := 4646 } ∧
      (judgeZone dawnCalibration.locus 410 ⟨43200, 1800, 1, 1, 1⟩).usable = false ∧
      (judgeZone dawnCalibration.locus 410 ⟨43200, 40000, 4600, 4096, 1600⟩).distance = 660 ∧
      (judgeZone dawnCalibration.locus 410 ⟨43200, 40000, 4600, 4096, 1600⟩).voted = false := by
  decide

theorem test_median_and_estimate :
    medianVote [4610, 4622, 4631, 4638, 4640, 4644, 4646, 4651, 4655, 4661, 4670, 4683, 4702, 4790] = some 4648 ∧
      medianVote [4610, 4622, 4631] = some 4622 ∧ medianVote [] = none ∧
      estimateOf (some dawnCalibration) (-8) 4648 = 4520 := by
  decide

theorem test_zone_columns_of_width_100 :
    (zoneIndex 100 48 0 0).val = 0 ∧ (zoneIndex 100 48 11 0).val = 0 ∧ (zoneIndex 100 48 12 0).val = 1 ∧
      (zoneIndex 100 48 24 0).val = 1 ∧ (zoneIndex 100 48 25 0).val = 2 ∧ (zoneIndex 100 48 87 47).val = 47 := by
  decide

/-! ## Formats -/

theorem test_signed_bytes :
    intBytes 4 (-3) = [0xFF, 0xFF, 0xFF, 0xFD] ∧ bytesInt [0xFF, 0xFD] = -3 ∧ bytesInt [0x80, 0x00] = -32768 ∧
      natBytes 4 66051 = [0, 1, 2, 3] := by
  decide

theorem test_calibration_pair_bytes :
    let content : Memory := Memory.ofRun slotFill 0 [0x0A, 0xBC, 0x0D, 0xEF]
    (calibrationPage content).take 4 = [0xAB, 0xCD, 0xEF, 0] := by
  decide

/-! ## States for the statements' hypotheses -/

/-- The fields after start-up on the fallback calibration. -/
def liveFields : Fields := Fields.default 2464

/-- An operating state in NO_INPUT on the fallback calibration: T0 READY and bound, a store all erased. -/
def live : State :=
  { State.reset with
    pe := { PixelEngine.reset with
      frameState := .noInput, context := formContext liveFields (derive fallbackCalibration liveFields) }
    it := { Tracker.reset with target := 2464 }
    cu := { ContextUnit.reset with
      calibration := some fallbackCalibration, calFallback := true, derived := derive fallbackCalibration liveFields,
      fields := liveFields }
    slots := State.reset.slots.set 4 { Slot.reset with state := .ready, generation := 1, origin := .builtIn, bound := true }
    directory := some (Tab.replicate 64 .blank) }

/-- The state in frame 1 of a width and height. -/
def framed (w h : Half) : State := openRecord { live with
  pe := live.pe.startFrame w h, zsa := ZoneAccumulator.begin 1 w h 512 }

/-- The state between frames, after frame 1. -/
def between : State := endFrame (framed 64 48)

/-- A group of Port C open for so many milliseconds. -/
def grouped (s : State) (milliseconds : Nat) : State :=
  { s with ca := { s.ca with owner := some .c, outcomeC := .opened, inactivityTimer := some milliseconds } }

/-- The state after the expiry of a group of Port C. -/
def expired (s : State) : State := { s with ca := { s.ca with outcomeC := .expired, expiryNote := true } }

/-- An entry of Port C for BLACK_R. -/
def blackEntry (mark : GroupMark) : Entry := ⟨.portC, .blackR, 300, mark⟩

/-- A state with so many entries waiting, the last `open_` of them of an open group. -/
def queued (s : State) (closed open_ : Nat) : State :=
  { s with cu := { s.cu with
      queue := List.replicate closed (blackEntry .ungrouped) ++ List.replicate open_ (blackEntry .openGroup) } }

/-- A state with one slot's record changed. -/
def withSlot (s : State) (i : Fin 8) (state : SlotState) : State := s.setSlot i { s.slot i with state := state }

/-- An evaluation of frame 1 in flight. -/
def evaluating (s : State) : State :=
  { s with it := { s.it with evaluation := some (beginEvaluation s.zsa s.cu.fields) } }

/-- A summary of frame 1 whose step waits for its answer. -/
def openSummary : EvaluationSummary :=
  { frameNumber := 1, darkFloor := 512, acceptRadius := 410, minVotes := 12, bias := 0, usableZones := 20, votes := 14,
    median := some 2600, estimate := some 2600, starved := false, action := none, valueSubmitted := some 2468 }

/-- A submission of the tracker waits. -/
def submitting (s : State) : State :=
  { s with it := { s.it with waiting := some ⟨2468, .gliding⟩, summary := some openSummary } }

/-- The header bytes of a sector that holds a tone table, its content erased. -/
def toneSector (n : Nat) : Memory :=
  Memory.ofRun storeFill (32768 * n) [0, 0, 3, 7] ++ Memory.ofRun storeFill (32768 * n + 254) [0xA5, 0x3C]

/-- The directory entry of that sector. -/
def toneEntry : SectorEntry := .valid { kind := .tone, contentLength := 7, name := List.replicate 16 0xFF, calibrationId := none }

/-- A state with a tone table in a sector. -/
def stored (s : State) (n : Fin 64) : State :=
  { s.setSectorEntry n toneEntry with store := { s.store with bytes := toneSector n.val } }

/-- A recall into T1 in flight. -/
def recalling (s : State) (n : Fin 64) : State :=
  { withSlot s 5 .loading with recallEngine := { state := .recalling .empty, slot := some 5, sector := some n, outcome := none } }

/-- A save of T0 in progress. -/
def saving (s : State) (calibration : Bool) (n : Fin 64) : State :=
  { (s.setSlot 4 { s.slot 4 with saving := true }).setSectorEntry n .programming with
    controller := { state := .programming ⟨4, calibration, List.replicate 16 0x41⟩, sector := some n, outcome := none } }

/-- An erase in progress. -/
def erasing (s : State) (n : Fin 64) : State :=
  { s.setSectorEntry n .erasing with controller := { state := .erasing, sector := some n, outcome := none } }

/-- A suspended erase. -/
def suspended (s : State) (begun : Bool) (n : Fin 64) : State :=
  { s.setSectorEntry n .eraseSuspended with controller := { state := .eraseSuspended begun, sector := some n, outcome := none } }

/-- A record of frame 1. -/
def someRecord : FrameRecord := completed (openingOf live) live.it false none

/-- A state with records in the ring. -/
def withRing (s : State) (ring : List FrameRecord) : State := { s with rr := { s.rr with ring := ring } }

/-- The input-lost timer at so many milliseconds. -/
def aged (s : State) (milliseconds : Nat) : State := { s with pe := { s.pe with inputLostTimer := some milliseconds } }

/-- Port C in the middle of a selection. -/
def selected (s : State) : State := { s with portC := { s.portC with selection := .selected [0x0C] [] } }

/-! ## Witnesses: queue, time, reset and start-up -/

theorem witness_EmptyQueuePassesTime :
    live.pending = [] ∧ live.resetLine = false ∧ live.ca.inactivityTimer = none ∧ live.pe.inputLostTimer = none ∧
      { live with resetLine := true }.pending = [] ∧
      (grouped live 198).ca.inactivityTimer = some 198 ∧ (grouped live 199).ca.inactivityTimer = some 199 ∧
      (grouped live 199).pe.inputLostTimer = none ∧ (aged between 498).pe.inputLostTimer = some 498 ∧
      (aged between 499).frameLaw ∧ (aged between 499).ca.inactivityTimer = none ∧
      (grouped (aged between 499) 198).ca.inactivityTimer = some 198 ∧ (grouped (aged between 498) 199).frameLaw ∧
      (grouped (aged between 498) 199).pe.inputLostTimer = some 498 ∧ (grouped (aged between 499) 199).frameLaw := by
  unfold State.frameLaw; decide

theorem witness_ResetAssertResets : (erasing live 16).controller.state ≠ .idle ∧ live.controller.state = .idle := by decide

theorem witness_ResetReleaseScans :
    Memory.wf storeFill live.store.bytes ∧ State.reset.directory = none ∧ live.directory.isSome = true ∧
      (stored live 16).store.holdsTable 16 .tone ∧ (stored live 63).store.holdsTable 63 .tone ∧ live.store.erased 0 ∧
      ¬ (stored live 16).store.erased 16 := by
  refine ⟨by decide, by decide, by decide, ?_, ?_, fun _ _ => rfl, ?_⟩
  · unfold Store.holdsTable; decide
  · unfold Store.holdsTable; decide
  · intro h; exact absurd (h 0 (by decide)) (by decide)

theorem witness_StartUpCompletes :
    State.reset.resetLine = false ∧ State.reset.pe.frameState = .starting ∧ live.pe.frameState ≠ .starting := by decide

/-- A calibration content page: the fallback's locus under id 7, the default tone sector 16. -/
def calibrationBytes : List Byte :=
  [0, 0, 0, 7, 1, 94, 0, 150] ++ Mat3.identity.bytes ++ Mat3.identity.bytes ++ [2, 0, 154, 16] ++
    [0, 150, 16, 0, 16, 0, 1, 94, 16, 0, 16, 0]

/-- A state after the scan with that calibration set in sector 0 and a tone table in sector 16. -/
def scanned : State :=
  { State.reset with
    store := { bytes := Memory.ofRun storeFill 256 calibrationBytes ++ toneSector 16, mismatched := [] }
    directory := some (((Tab.replicate 64 .blank).set 0
      (.valid { kind := .calibration, contentLength := 1, name := List.replicate 16 0, calibrationId := some 7 })).set 16 toneEntry) }

theorem test_calibration_page_layout :
    pageCalibration (fun k => scanned.store.byte 0 (256 + k)) =
      { id := 7, warmMired := 350, coolMired := 150, warmMatrix := Mat3.identity, coolMatrix := Mat3.identity,
        locus := [⟨150, 4096, 4096⟩, ⟨350, 4096, 4096⟩], defaultMired := 154, defaultToneSector := some 16 } := by
  decide

theorem witness_CalibrationLoaded :
    scanned.resetLine = false ∧ scanned.pe.frameState = .starting ∧
      (∃ d info, scanned.directory = some d ∧ d.get 0 = .valid info ∧ info.kind = .calibration) ∧
      sectorPage 0 1 ∉ scanned.store.mismatched ∧ (pageCalibration fun k => scanned.store.byte 0 (256 + k)).passes := by
  refine ⟨by decide, by decide, ⟨_, _, rfl, rfl, rfl⟩, by decide, ?_⟩
  unfold CalibrationSet.passes
  refine ⟨by decide, by decide, by decide, ?_, by decide, by decide, by decide, by decide, by decide⟩
  intro i j hij hj
  have hl : (pageCalibration fun k => scanned.store.byte 0 (256 + k)).locus.length = 2 := by decide
  obtain ⟨rfl, rfl⟩ : i = 0 ∧ j = 1 := by omega
  decide

theorem witness_StartUpFillsSlots :
    scanned.startingLaw ∧ (completeStartUp [] scanned).fillsT0 16 ∧ scanned.store.mismatched = [] ∧
      (∀ n, ¬ (completeStartUp [] State.reset).fillsT0 n) ∧
      (completeStartUp [sectorPage 16 7] scanned).cu.calibration.bind CalibrationSet.defaultToneSector = some 16 ∧
      ∃ d zero tone, scanned.directory = some d ∧ d.get 0 = .valid zero ∧ zero.kind.pages = 1 ∧ d.get 16 = .valid tone ∧
        tone.kind = .tone := by
  refine ⟨⟨by decide, fun _ => ⟨by decide, by decide, by decide, by decide, by decide, by decide, by decide, by decide, by decide⟩,
    by decide⟩, ⟨by decide +kernel, _, rfl, rfl⟩, rfl, ?_, by decide +kernel, ⟨_, _, _, rfl, rfl, rfl, rfl, rfl⟩⟩
  rintro n ⟨h, -⟩
  have : (completeStartUp [] State.reset).cu.calibration.bind CalibrationSet.defaultToneSector = none := by decide +kernel
  rw [this] at h
  cases h

/-- R141: a page of the default tone sector, or of sector 0, that does not read back makes that sector TORN, and T0 the ramp. -/
theorem test_start_up_reads_tear_a_sector :
    (completeStartUp [sectorPage 16 7] scanned).sectorEntry 16 = .torn ∧
      ((completeStartUp [sectorPage 16 7] scanned).slot 4).origin = .builtIn ∧
      (completeStartUp [sectorPage 16 8] scanned).sectorEntry 16 = toneEntry ∧
      (completeStartUp [sectorPage 0 1] scanned).sectorEntry 0 = .torn ∧
      (completeStartUp [sectorPage 0 1] scanned).sectorEntry 16 = toneEntry := by
  decide +kernel

/-! ## Witnesses: frames -/

theorem live_operating : live.operating ∧ (framed 64 48).operating ∧ between.operating := by
  unfold State.operating; decide

theorem witness_frame_starts_and_input_loss :
    (framed 64 48).resetLine = false ∧ (framed 64 48).pe.frameState = .inFrame ∧ between.pe.frameState = .betweenFrames ∧
      (framed 64 48).rr.openRecord.isSome = true ∧ between.rr.openRecord = none ∧
      (withRing (framed 64 48) (List.replicate 63 someRecord)).rr.ring.length = 63 ∧
      (withRing (framed 64 48) (List.replicate 64 someRecord)).rr.ring.length = 64 ∧
      (framed 64 48).pe.geometryValid = true ∧ (framed 63 48).pe.geometryValid = false ∧
      (framed 4096 2304).pe.geometryValid = true ∧ (framed 4096 2305).pe.geometryValid = false := by
  decide

theorem witness_EntryApplied :
    Field.blackR.holds (some fallbackCalibration) 4095 ∧ Field.mired.holds (some fallbackCalibration) 5600 ∧
      Field.mired.holds (some fallbackCalibration) 2400 ∧ Field.monitorLattice.holds none 255 ∧
      Field.trackerMode.holds none 0 ∧ (Pass.begin live.cu).fields.trackerMode = .auto ∧
      (Pass.begin { live.cu with fields := { liveFields with trackerMode := .hold } }).fields.trackerMode ≠ .auto := by
  unfold Field.holds; decide

/-- A state in a frame whose next pixel has this index. -/
def atPixel (n : Nat) : State := { framed 64 48 with pe := { (framed 64 48).pe with pixelIndex := n } }

theorem witness_PixelTransformed :
    (atPixel 3071).resetLine = false ∧ (atPixel 3071).pe.frameState = .inFrame ∧ (atPixel 3071).pe.geometryValid = true ∧
      (atPixel 3071).pe.pixelIndex < 64 * 48 ∧ 64 * 48 ≤ (atPixel 3072).pe.pixelIndex ∧ (atPixel 0).zsa.state = .gathering ∧
      (atPixel 0).zsa.width = (atPixel 0).pe.width ∧ (atPixel 0).zsa.height = (atPixel 0).pe.height ∧
      (framed 63 48).zsa.state ≠ .gathering ∧ (framed 63 48).pe.geometryValid = false ∧
      (atPixel 0).pe.context.monitorLattice = none ∧
      { (atPixel 0).pe.context with monitorLattice := some 3 }.monitorLattice = some 3 := by
  decide

theorem witness_FrontStageArithmetic :
    ((65535 : Half).toNat = 65535 ∧ (65534 : Half).toNat ≤ 65534) ∧
      (frontStage FrameContext.reset 65534 65534 65535).clipped = true ∧
      (frontStage FrameContext.reset 65534 65534 65534).clipped = false := by
  decide

theorem witness_ToneStageInterpolates :
    toneOutput id 127 = 127 ∧ toneOutput id 128 = 128 ∧ toneOutput (fun _ => 4095) 262143 = 4095 ∧ (128 : Nat) ≤ 262143 := by
  decide

theorem witness_LatticeStageInterpolates :
    (latticeStage [] ⟨4095, 3968, 3969⟩ = ⟨0, 0, 0⟩) ∧ (3969 % 256 ≥ 3968 % 256) ∧ (4095 % 256 ≥ 3969 % 256) ∧
      tetrahedron 0 0 0 = ⟨⟨1, 0, 0⟩, ⟨1, 1, 0⟩, 0, 0, 0⟩ := by
  decide

theorem witness_FrameEndTaken :
    (framed 64 48).zsa.state = .gathering ∧ (framed 63 48).zsa.state = .notGathering ∧ (framed 64 48).it.evaluation = none ∧
      (evaluating (framed 64 48)).it.evaluation.isSome = true ∧ (framed 64 48).it.summary = none ∧
      (submitting (framed 64 48)).it.summary = some openSummary := by
  decide

theorem witness_InputLostTaken :
    (aged between 499).pe.inputLostTimer = some 499 ∧ (aged (framed 64 48) 0).pe.inputLostTimer = some 0 ∧
      (aged between 499).resetLine = false ∧ (aged between 499).pe.frameState = .betweenFrames ∧
      (elapseInput 1 (aged between 498)).pe.inputLostTimer = some 499 ∧
      (elapseInput 1 (aged between 499)).pe.frameState = .noInput := by
  decide

theorem witness_StreamEventsNotActedOn :
    State.reset.pe.frameState = .starting ∧ live.pe.frameState = .noInput ∧ live.resetLine = false ∧
      { live with resetLine := true }.resetLine = true := by
  decide

/-! ## Witnesses: derivation and the tracker -/

theorem witness_DerivationFollowsFormulas :
    dawnCalibration.passes ∧ 16 * dawnCalibration.firstMired ≤ 3840 ∧ 5120 ≤ 16 * dawnCalibration.lastMired ∧
      (derive dawnCalibration { dawnFields 64 with mired := 5120, tint := 32 }).interval = 3 ∧
      (derive dawnCalibration { dawnFields (-64) with mired := 3840, tint := -32 }).interval = 0 := by
  refine ⟨?_, by decide, by decide, by decide, by decide⟩
  unfold CalibrationSet.passes
  refine ⟨by decide, by decide, by decide, ?_, by decide, by decide, by decide, by decide, by decide⟩
  intro i j hij hj
  have hj' : j < 5 := hj
  interval_cases j <;> interval_cases i <;> decide

theorem witness_ZoneJudged :
    2 ≤ dawnCalibration.locus.length ∧ (judgeZone dawnCalibration.locus 410 ⟨43200, 2700, 1, 1, 1⟩).usable = true ∧
      (judgeZone dawnCalibration.locus 410 ⟨43200, 2699, 1, 1, 1⟩).usable = false ∧
      (judgeZone dawnCalibration.locus 410 ⟨43200, 2700, 1, 0, 1⟩).usable = false ∧
      (judgeZone dawnCalibration.locus 410 ⟨1, 1, 4352, 4096, 2355⟩).nearest = 0 ∧
      (judgeZone dawnCalibration.locus 410 ⟨1, 1, 5376, 4096, 1946⟩).nearest = 4 ∧
      (judgeZone dawnCalibration.locus 0 ⟨1, 1, 4864, 4096, 2150⟩).vote16 = 4480 ∧
      (judgeZone dawnCalibration.locus 171 ⟨43200, 40000, 146484400, 120000000, 61523440⟩).voted = false := by
  decide

/-- A zone result that votes. -/
def voting : ZoneResult := { judgeZone dawnCalibration.locus 410 ⟨1, 1, 4864, 4096, 2150⟩ with voted := true }

/-- A zone result that does not vote. -/
def silent : ZoneResult := judgeZone dawnCalibration.locus 410 ZoneRecord.zero

theorem witness_VoteListMedian :
    (voteList (Tab.replicate 48 silent).list).length = 0 ∧ (voteList ((Tab.replicate 48 silent).set 0 voting).list).length = 1 ∧
      (voteList (((Tab.replicate 48 silent).set 0 voting).set 47 voting).list).length = 2 ∧
      (voteList (Tab.replicate 48 voting).list).length = 48 := by
  decide

/-- An evaluation in which every zone votes for 150 mired. -/
def unanimous : Evaluation :=
  { frameNumber := 1, zones := Tab.replicate 48 ⟨16, 1, 4096, 4096, 4096⟩, darkFloor := 512, acceptRadius := 410, minVotes := 48,
    bias := 0 }

theorem witness_EvaluationCompletes :
    (evaluating between).it.evaluation.isSome = true ∧ (evaluating between).it.waiting = none ∧
      (evaluating between).cu.calibration = some fallbackCalibration ∧
      fallbackCalibration.firstMired ≤ fallbackCalibration.lastMired ∧
      (summaryOf (some fallbackCalibration) unanimous (zoneResultsOf (some fallbackCalibration) unanimous)).starved = false ∧
      (summaryOf (some fallbackCalibration) unanimous (zoneResultsOf (some fallbackCalibration) unanimous)).median = some 2400 ∧
      live.it.evaluation = none := by
  decide

/-- An evaluation in flight in AUTO, with this substate and target. -/
def steering (s : State) (substate : Substate) (target : Nat) : State :=
  { s with it := { s.it with evaluation := some (beginEvaluation s.zsa s.cu.fields), substate := substate, target := target } }

theorem witness_GlideDecided :
    (steering between .settled 2545).it.waiting = none ∧ (steering between .settled 2545).it.mode = .auto ∧
      (steering between .settled 2545).pe.frameState ≠ .noInput ∧ stepDue .settled 2545 2464 5 = true ∧
      stepDue .settled 2544 2464 5 = false ∧ stepDue .gliding 2465 2464 5 = true ∧ stepDue .gliding 2464 2464 5 = false ∧
      (steering live .settled 2545).pe.frameState = .noInput ∧
      (evaluationCompletes (steering between .settled 2545)).it.waiting = some ⟨2468, .gliding⟩ ∧
      (evaluationCompletes (steering between .gliding 2466)).it.waiting = some ⟨2466, .settled⟩ := by
  decide

theorem witness_TrackerSubmissionAnswered :
    (submitting live).it.waiting.isSome = true ∧ (submitting live).it.summary.isSome = true ∧
      (submitting (grouped live 0)).ca.owner.isSome = true ∧ (submitting live).ca.owner = none ∧
      (queued (submitting between) 32 0).cu.queue.length = 32 ∧ (queued (submitting between) 31 0).cu.queue.length = 31 ∧
      (submitting between).pe.frameState ≠ .noInput ∧ (submitting live).cu.queue = [] ∧ live.it.waiting = none := by
  decide

/-! ## Witnesses: requests -/

theorem witness_RequestsGranted :
    requestPort (.groupOpen .c none) = some .c ∧ live.portFirst .c ∧ (submitting live).portFirst .s ∧ ¬ (submitting live).portFirst .c := by
  unfold State.portFirst; decide

/-- The grant order of the worked example of section 6.6. -/
def ordered (s : State) (order : List Requester) : State := { s with ca := { s.ca with grantOrder := order } }

/-- Two GROUP OPENs together: the port that stands first in the grant order has the group. -/
theorem test_requests_together_follow_the_grant_order :
    let s := portRequests .s .groupOpen (some .groupOpen) (ordered live [.tracker, .portC, .portS])
    s.ca.owner = some .c ∧ (s.port .c).lastResult = .done ∧ (s.port .s).lastResult = .held ∧
      s.ca.grantOrder = [.tracker, .portC, .portS] := by
  decide

/-- The owner's close and the other port's edit together, in both grant orders (R184). -/
theorem test_close_beside_an_edit :
    ((portRequests .c .groupClose (some (.edit 0x01 300)) (ordered (grouped between 9) [.portC, .portS, .tracker])).port
        .s).lastResult = .done ∧
      ((portRequests .c .groupClose (some (.edit 0x01 300)) (ordered (grouped between 9) [.portS, .portC, .tracker])).port
        .s).lastResult = .held := by
  decide

theorem witness_EditJudged_arbiter :
    (expired live).ca.outcome .c = .expired ∧ (expired live).portFirst .c ∧ (grouped live 0).ca.outcome .s ≠ .expired ∧
      (grouped live 0).ca.owner ≠ some .s ∧ (grouped live 0).ca.owner ≠ none ∧ (grouped live 0).ca.owner = some .c ∧
      (grouped live 0).ca.outcome .c ≠ .expired ∧ (grouped live 0).portFirst .c ∧ live.ca.outcome .c ≠ .expired := by
  unfold State.portFirst; decide

theorem witness_EditJudged_tests :
    fieldOfId 0x05 = none ∧ fieldOfId 0x32 = some .monitorLattice ∧ fieldOfId 0x30 = some .programmeTone ∧
      Field.monitorLattice.namesSlot 255 = true ∧ Field.monitorLattice.namesSlot 4 = false ∧
      Field.programmeTone.namesSlot 255 = false ∧ Field.programmeTone.namesSlot 3 = true ∧
      Field.programmeTone.boundSlot 0 = some 4 ∧ (live.slot 4).state = .ready ∧ Field.programmeTone.boundSlot 3 = some 7 ∧
      (live.slot 7).state ≠ .ready ∧ (queued between 32 0).cu.queue.length = 32 ∧ (queued between 31 0).cu.queue.length = 31 ∧
      fieldOfId 0x01 = some .blackR ∧ between.ca.owner = none ∧ between.pe.frameState ≠ .noInput := by
  decide

theorem live_rangeLaw : live.rangeLaw := by
  unfold State.rangeLaw Field.holds
  refine ⟨by decide, by decide, ?_⟩
  rintro c hc
  cases hc
  decide

theorem witness_EditJudged_accepted : between.rangeLaw ∧ between.cu.calibration.isSome = true := ⟨live_rangeLaw, rfl⟩

theorem witness_EditAppliedInNoInput :
    live.portFirst .c ∧ live.ca.outcome .c ≠ .expired ∧ live.ca.owner = none ∧ live.pe.frameState = .noInput ∧ live.cu.queue = [] ∧
      fieldOfId 0x30 = some .programmeTone ∧ Field.programmeTone.namesSlot (BitVec.toInt (0 : Word)) = true ∧
      (live.slot 4).state = .ready := by
  unfold State.portFirst; decide

theorem witness_groups_opened_closed_and_ended :
    (grouped live 3).operating ∧ (grouped between 3).operating ∧ (grouped live 3).portFirst .c ∧ (grouped live 3).portFirst .s ∧
      (queued (grouped between 3) 1 2).cu.queue.length = 3 ∧ (queued (grouped between 3) 1 2).ca.owner = some .c ∧
      (queued (grouped live 3) 0 32).cu.queue.length = 32 ∧ (expired live).operating ∧
      (grouped live 199).ca.inactivityTimer = some 199 ∧ (elapseGroup 1 (grouped live 198)).ca.inactivityTimer = some 199 ∧
      (elapseGroup 1 (grouped live 199)).ca.owner = none ∧ commandPort (.writeEnable .c) = some .c ∧
      (elapseGroup 199 (portRequest .c (.edit 0x01 300) (grouped live 199))).ca.owner = some .c := by
  unfold State.operating State.portFirst; decide

theorem witness_EditClosed :
    (editRequest .c 0x01 300 (queued (grouped between 3) 1 2)).1 = .done ∧
      (editRequest .c 0x01 4096 (queued (grouped between 3) 1 2)).1 = .clamped ∧
      (editRequest .c 0x05 0 (queued (grouped between 3) 1 2)).1 = .badField ∧
      (editRequest .c 0x01 300 (queued (grouped live 3) 0 31)).1 = .done := by
  decide

/-! ## Witnesses: slots, reads and selections -/

theorem witness_slots_in_every_state :
    (8 : Byte).toNat = 8 ∧ (7 : Byte).toNat = 7 ∧ (live.slot 7).state = .empty ∧
      (withSlot live 7 .ready).slot 7 = { Slot.reset with state := .ready } ∧ (live.slot 4).state = .ready ∧
      (live.slot 4).bound = true ∧ ((withSlot live 0 (.opened .c)).slot 0).state = .opened .c ∧
      ((withSlot live 0 (.opened .s)).slot 0).state = .opened .s ∧ ((withSlot live 0 .loading).slot 0).state = .loading := by
  decide

theorem witness_SlotWritten :
    (withSlot live 0 (.opened .c)).operating ∧ (115 : Byte).toNat < 116 ∧ 116 ≤ (116 : Byte).toNat ∧ (6 : Byte).toNat < 7 ∧
      7 ≤ (7 : Byte).toNat ∧ writePage 4 6 129 [1, 2] [] = [(1665, 1)] ∧
      writePage 4 0 255 [1, 2] [] = [(0, 2), (255, 1)] := by
  unfold State.operating; decide

theorem witness_SlotFinishedOrDiscarded :
    slotValue [(1664, 0x10)] 832 = 4096 ∧ slotValue [(1664, 0x0F), (1665, 0xFF)] 832 = 4095 := by decide

/-- The state a command leaves. -/
def after (c : Instr) (s : State) : State :=
  match exec c s with
  | .next t => t
  | _ => s

/-- Bytes clocked on a port. -/
def clocked (line : SelectLine) (bytes : List Byte) : Instr := .selectionEnd line (.clocked (bytes.flatMap byteBits))

/-- Port C with a selection under way: what it has received, and the read it has executed. -/
def taking (s : State) (received : List Byte) (part : List Bool) (reading : Option Reading) : State :=
  s.setPort .c { s.port .c with selection := .selected received part, reading := reading }

/-- Bits make a byte most significant first (R165): 0x21 is 0010 0001. -/
theorem test_bits_of_a_byte :
    byteOfBits [false, false, true, false, false, false, false, true] = 0x21 ∧
      byteBits 0x21 = [false, false, true, false, false, false, false, true] := by
  decide

/-- The READ FIELD of 42 ms in section 10.8: zeros while its two bytes come, TINT -3 in four bytes, then zeros (R168, R169). -/
theorem test_read_field_shifts_its_reply_once :
    let s := { live with cu := { live.cu with fields := { live.cu.fields with tint := -3 } } }
    ((after (clocked .c [0x11, 0x09, 0, 0, 0, 0, 0]) (taking s [] [] none)).port .c).shifted =
      [0, 0, 0xFF, 0xFF, 0xFF, 0xFD, 0] ∧
    (after (clocked .c [0x11, 0x09]) (taking s [] [] none)).port .c = (after (.readField .c 0x09) s).port .c := by
  decide

/-- The READ FIELD 0x07 of 43 ms in section 10.8: refused with BAD_FIELD, and zeros (R168). -/
theorem test_refused_read_shifts_zeros :
    ((after (clocked .c [0x11, 0x07, 0, 0]) (taking live [] [] none)).port .c).shifted = [0, 0, 0, 0] ∧
      ((after (clocked .c [0x11, 0x07]) (taking live [] [] none)).port .c).lastResult = .badField := by
  decide

/-- READ STATUS held for 32 bytes (33 ms in section 10.8): the record twice, unchanged (R168, R172). -/
theorem test_status_shifts_its_record_twice :
    let t := after (clocked .c (0x0C :: List.replicate 32 0)) (taking live [] [] none)
    (t.port .c).shifted = 0 :: (live.statusBytes .c ++ live.statusBytes .c) ∧
      (t.port .c).reading = some { reply := live.statusBytes .c, repeated := true, position := 0 } := by
  decide

/-- The EDIT TINT -3 of 40 ms and 41 ms in section 10.8: cut short it is discarded with FRAMING, whole it is applied (R167). -/
theorem test_edit_judged_at_the_rise :
    let short := after (.selectionEnd .c .rise) (taking live [0x21, 0x09, 0xFF, 0xFF] [] none)
    let whole := after (.selectionEnd .c .rise) (taking live [0x21, 0x09, 0xFF, 0xFF, 0xFF, 0xFD] [] none)
    (short.port .c).lastResult = .framing ∧ short.cu.fields.tint = 0 ∧ (whole.port .c).lastResult = .done ∧
      whole.cu.fields.tint = -3 := by
  decide

/-- A selection of a part byte alone, and one under way at the release of reset (R166, R167). -/
theorem test_selections_not_whole_or_not_taken :
    ((after (.selectionEnd .c .rise) (taking live [] [true] none)).port .c).lastResult = .framing ∧
      (after (.selectionEnd .c .fall) { live with resetLine := true }).portC.selection = .idle ∧
      (after (clocked .c [0x0C]) live).portC.selection = .idle ∧
      ((after (.selectionEnd .c .rise) live).port .c).lastResult = .done := by
  decide

/-- The hypotheses on a selection under way: a part byte, a fall, a reply in progress at its end and past it. -/
theorem witness_selections_under_way :
    (after (.selectionEnd .c .fall) live).portC.selection = .selected [] [] ∧
      (after (.selectionEnd .c (.clocked [true, false])) (taking live [0x31] [] none)).portC.selection =
        .selected [0x31] [true, false] ∧
      (after (clocked .c [1]) (taking live [0x12] [] (some ⟨[7, 8], false, 1⟩))).portC.reading = some ⟨[7, 8], false, 2⟩ ∧
      (after (clocked .c [1]) (taking live [0x12] [] (some ⟨[7, 8], false, 2⟩))).portC.shifted = [0] ∧
      (after (clocked .c [1]) (taking live [0x0C] [] (some ⟨[7, 8], true, 1⟩))).portC.reading = some ⟨[7, 8], true, 0⟩ ∧
      (after (.selectionEnd .c .rise) (taking live [0x12] [] (some ⟨[7, 8], false, 1⟩))).portC.selection = .idle ∧
      judgeFrame .c [0x31, 4] [] = .command (.slotOpen .c 4) ∧ commandPort (.slotOpen .c 4) = some .c ∧
      (after .frameEnd (taking live [0x12] [] (some ⟨[7, 8], false, 1⟩))).portC.reading = some ⟨[7, 8], false, 1⟩ := by
  decide

theorem witness_ReadsAnswered :
    live.cu.calibration.isSome = true ∧ live.it.summary = none ∧ live.it.zoneResults = none ∧
      (evaluationCompletes (evaluating between)).it.zoneResults.isSome = true ∧
      ((evaluationCompletes (evaluating between)).it.summary.bind EvaluationSummary.action) = some .noAction ∧
      (submitting live).it.summary.bind EvaluationSummary.action = none ∧ (stored live 63).sectorEntry 63 = toneEntry ∧
      live.sectorEntry 63 = .blank ∧ (64 : Byte).toNat = 64 ∧ (63 : Byte).toNat = 63 := by
  decide

theorem witness_SelectionsWithoutEffect :
    State.reset.resetLine = false ∧ State.reset.pe.frameState = .starting ∧
      (Instr.slotWrite .c 0 0 0 [0]).wellFormed = true ∧ commandPort (.slotWrite .c 0 0 0 [0]) = some .c ∧
      readPort (.readSector .s 9) = some (.s, [0x4C, 9]) ∧ { live with resetLine := true }.resetLine = true ∧
      (List.replicate 15 (0 : Byte)).length ≠ 16 ∧ judgeFrame .c [0x28, 1] [] = .framing ∧ judgeFrame .s [0xE5] [] = .unknown := by
  decide

theorem witness_SelectionsEnd :
    (selected live).resetLine = false ∧ ((selected live).port .c).selection ≠ .idle ∧ (live.port .c).selection = .idle ∧
      commandPort (.edit .c 1 2 none) = some .c ∧ judgeFrame .c [0x41] [] = .command (.writeEnable .c) ∧ (selected (grouped live 9)).ca.owner = some .c := by
  decide

theorem witness_InactivityTimerRestarted :
    exec (.edit .c 0x01 300 none) (grouped live 9) = .next (portRequest .c (.edit 0x01 300) (grouped live 9)) ∧
      (after (.selectionEnd .c .rise) (taking (grouped live 9) [0x0C] [] (some ⟨[1], true, 0⟩))).ca.inactivityTimer = some 0 ∧
      (after (.selectionEnd .c .rise) (taking (grouped live 9) [] [] none)).ca.inactivityTimer = some 0 ∧
      (grouped live 9).ca.owner = some .c ∧ isTwoRequests .frameEnd = false ∧ commandPort (.frameEnd) ≠ some .c ∧ readPort .frameEnd = none := by
  refine ⟨rfl, by decide, by decide, by decide, by decide, by decide, by decide⟩

/-! ## Witnesses: the store -/

theorem witness_RecallJudged_accepted : allPass ((stored live 16).recallTests 16 5) := by
  simp only [State.recallTests, allPass]
  refine ⟨by decide, by decide, ⟨_, rfl⟩, ⟨_, rfl, by decide⟩, by decide, fun q => ?_, by decide, ?_, trivial⟩
  · cases q <;> decide
  · rintro ⟨j, m, h, -⟩; cases h

theorem witness_RecallJudged_refusals :
    judgeRecall 16 8 (stored live 16) = .error .badSlot ∧ judgeRecall 64 7 (stored live 16) = .error .badSector ∧
      judgeRecall 63 5 (stored live 16) = .error .notValid ∧ judgeRecall 16 3 (stored live 16) = .error .wrongKind ∧
      judgeRecall 16 5 (recalling (stored live 16) 16) = .error .recallBusy ∧
      judgeRecall 16 5 (withSlot (stored live 16) 5 (.opened .s)) = .error .owned ∧
      judgeRecall 16 4 (stored live 16) = .error .inUse ∧
      judgeRecall 16 5 (saving (stored live 16) false 31) = .error .bankBusy ∧
      judgeRecall 16 5 (saving (stored live 16) false 32) = .ok (5, 16) := by
  decide

theorem witness_RecallCompleted :
    (recalling (stored live 16) 16).recallEngine.slot = some 5 ∧ (recalling (stored live 16) 16).recallEngine.sector = some 16 ∧
      (recalling (stored live 16) 16).directory.isSome = true ∧ live.recallEngine.state = .idle ∧
      sectorPage 16 1 ∉ ((stored live 16).store.decay [sectorPage 16 0, sectorPage 16 8]).mismatched ∧
      sectorPage 16 7 ∈ ((stored live 16).store.decay [sectorPage 16 7]).mismatched ∧
      (suspended (recalling (stored live 16) 16) true 31).controller.state = .eraseSuspended true := by
  decide

/-- A state whose Port C has its write enable latch set. -/
def enabled (s : State) : State := s.setWriteEnable .c true

theorem witness_SaveJudged_accepted :
    allPass ((enabled live).saveTests .c 4 16 false) ∧ allPass ((enabled live).saveTests .c 4 15 true) := by
  simp only [State.saveTests, allPass]
  refine ⟨⟨by decide, by decide, by decide, by decide, by decide, by decide, by decide, ?_, by decide, by decide, trivial⟩,
    by decide, by decide, by decide, by decide, by decide, by decide, by decide, ?_, by decide, by decide, trivial⟩ <;>
    (rintro ⟨j, m, h, -⟩; cases h)

theorem witness_SaveJudged_refusals :
    judgeSave false false 4 16 live = .error .notEnabled ∧ judgeSave true false 8 16 live = .error .badSlot ∧
      judgeSave true false 4 15 live = .error .badSector ∧ judgeSave true true 4 16 live = .error .badSector ∧
      judgeSave true true 3 15 live = .error .wrongKind ∧
      judgeSave true true 4 15 { live with supplyLowLine := true } = .error .supplyLow ∧
      judgeSave true true 4 15 { live with protectLine := true } = .error .protected_ ∧
      judgeSave true false 4 16 { live with protectLine := true } = .ok (4, 16) ∧
      judgeSave true false 4 16 (erasing live 20) = .error .storeBusy ∧
      judgeSave true false 4 16 (recalling live 31) = .error .bankBusy ∧
      judgeSave true false 4 16 (stored live 16) = .error .notBlank ∧ judgeSave true false 7 16 live = .error .notReady := by
  decide

theorem witness_EraseJudged :
    allPass ((enabled live).eraseTests .c 16 47) ∧ judgeErase false 16 47 live = .error .notEnabled ∧
      judgeErase true 16 46 live = .error .badSector ∧ judgeErase true 64 0 live = .error .badSector ∧
      judgeErase true 16 47 { live with supplyLowLine := true } = .error .supplyLow ∧
      judgeErase true 15 48 { live with protectLine := true } = .error .protected_ ∧
      judgeErase true 16 47 (erasing live 16) = .error .storeBusy ∧ (recalling live 31).recallReads 16 ∧
      live.directory.isSome = true := by
  simp only [State.eraseTests, allPass]
  exact ⟨⟨by decide, by decide, by decide, by decide, by decide, trivial⟩, by decide, by decide, by decide, by decide, by decide,
    by decide, ⟨_, _, rfl, rfl, by decide⟩, by decide⟩

theorem witness_first_tests_fail :
    firstFailing ((stored live 16).recallTests 16 8) .badSlot ∧ firstFailing (live.saveTests .c 4 16 false) .notEnabled ∧
      firstFailing (live.eraseTests .c 16 47) .notEnabled :=
  ⟨firstFailing_here (by decide), firstFailing_here (by decide), firstFailing_here (by decide)⟩

theorem witness_last_test_of_recall_fails :
    firstFailing ((saving (stored live 16) false 31).recallTests 16 5) .bankBusy := by
  refine firstFailing_later (by decide) <| firstFailing_later (by decide) <| firstFailing_later ⟨_, rfl⟩ <|
    firstFailing_later ⟨_, rfl, by decide⟩ <| firstFailing_later (by decide) <|
    firstFailing_later (fun q => by cases q <;> decide) <| firstFailing_later (by decide) <| firstFailing_here ?_
  exact fun h => h ⟨_, _, rfl, rfl, by decide⟩

theorem witness_last_test_of_save_fails : firstFailing ((enabled live).saveTests .c 7 16 false) .notReady := by
  refine firstFailing_later (by decide) <| firstFailing_later (by decide) <| firstFailing_later (by decide) <|
    firstFailing_later (by decide) <| firstFailing_later (by decide) <| firstFailing_later (by decide) <|
    firstFailing_later (by decide) <| firstFailing_later ?_ <| firstFailing_later (by decide) <| firstFailing_here (by decide)
  rintro ⟨j, m, h, -⟩
  cases h

theorem witness_last_test_of_erase_fails : firstFailing ((enabled (erasing live 16)).eraseTests .c 16 47) .storeBusy :=
  firstFailing_later (by decide) <| firstFailing_later (by decide) <| firstFailing_later (by decide) <|
    firstFailing_later (by decide) <| firstFailing_here (by decide)

theorem witness_SaveCompleted :
    (saving live false 16).controller.state = .programming ⟨4, false, List.replicate 16 0x41⟩ ∧
      (saving live true 15).controller.state = .programming ⟨4, true, List.replicate 16 0x41⟩ ∧
      (saving live true 15).controller.sector = some 15 ∧ (List.replicate 16 (0x41 : Byte)).length = 16 ∧
      (saving live true 15).directory.isSome = true := by
  decide

theorem witness_EraseCompleted_and_GuardLinesChange :
    (erasing live 16).controller.state = .erasing ∧ (erasing live 16).controller.sector = some 16 ∧
      (erasing live 16).directory.isSome = true ∧ (suspended live false 16).controller.state = .eraseSuspended false ∧
      (suspended live true 16).controller.state = .eraseSuspended true ∧ live.controller.state = .idle := by
  decide

/-! ## Witnesses: Port R, records and laws -/

/-- Port R in STREAM mode. -/
def streaming (s : State) : State := { s with rr := { s.rr with mode := .stream } }

/-- Port R with a record in transfer. -/
def transferring (s : State) (r : FrameRecord) : State :=
  { s with
    rr := { s.rr with readBuffer := some { record := r, position := 0 } }
    portR := { s.portR with selection := .selected [] [], reading := some Reading.records } }

/-- Port R between the transfers of a record read: none has begun. -/
def betweenTransfers (s : State) : State :=
  { s with portR := { s.portR with selection := .selected [0x61] [], reading := some Reading.records } }

/-- A record that joins between two transfers is the next one shifted; with none, fill (R160). -/
theorem test_next_transfer_takes_the_ring_as_it_stands :
    (transferMoment .nextByte (betweenTransfers (withRing live [someRecord]))).rr.readBuffer = some ⟨someRecord, 0⟩ ∧
      (transferMoment .nextByte (betweenTransfers live)).rr.fill = true ∧
      (transferMoment .lastByte (transferring (withRing live [someRecord]) someRecord)).rr.readBuffer = none ∧
      (transferMoment .lastAndNext (transferring (withRing live [someRecord]) someRecord)).rr.fill = true := by
  decide

/-- The position counts the bytes shifted out, an ignored first byte of a STREAM selection among them (R154, R162). -/
theorem test_position_counts_bytes_shifted_out :
    let s := transferring (withRing live [someRecord]) someRecord
    let t := selectionR 0x61 true (streaming (withRing live [someRecord]))
    (shiftBytes 5 s).rr.readBuffer = some ⟨someRecord, 5⟩ ∧ (shiftBytes 200 s).rr.readBuffer = some ⟨someRecord, 85⟩ ∧
      t.rr.readBuffer = some ⟨someRecord, 1⟩ ∧ t.portR.shifted = someRecord.bytes.take 1 ∧
      (transferEnds t).portR.shifted = someRecord.bytes := by
  decide

/-- A record read taken in STARTING shifts fill alone, also after start-up has completed and a frame has ended (R164). -/
theorem test_read_taken_in_starting_is_fill_alone :
    let taken := recordSelection [0x61] false State.reset
    let later : State := { withRing live [someRecord] with portR := taken.portR }
    taken.rr.fill = false ∧ (transferMoment .nextByte later).rr.fill = true ∧
      (transferMoment .nextByte later).rr.readBuffer = none := by
  decide

theorem witness_PortRCommands :
    live.rr.mode = .command ∧ live.portR.selection = .idle ∧ live.rr.ring = [] ∧ State.reset.pe.frameState = .starting ∧
      (withRing live [someRecord]).rr.ring = [someRecord] ∧ (withRing live [someRecord]).pe.frameState ≠ .starting := by
  decide

theorem witness_PortRStreamMode :
    (streaming live).rr.mode = .stream ∧ (streaming live).portR.selection = .idle ∧ (streaming live).pe.frameState ≠ .starting ∧
      (streaming (transferring live someRecord)).portR.selection ≠ .idle ∧
      (streaming (transferring live someRecord)).portR.firstByteTaken = false := by
  decide

theorem witness_TransfersEnd :
    (transferring (withRing live [someRecord]) someRecord).rr.readBuffer.isSome = true ∧
      (removeTransferred [someRecord] someRecord = []) ∧ someRecord.length = 86 ∧
      removeTransferred [someRecord] { someRecord with opening := { someRecord.opening with frameNumber := 9 } } = [someRecord] ∧
      (transferring live someRecord).portR.selection ≠ .idle ∧ live.rr.readBuffer = none ∧
      transferDue (betweenTransfers live) = true ∧ transferDue live = false ∧
      (shiftBytes 85 (transferring live someRecord)).portR.firstByteTaken = true ∧
      (shiftBytes 85 (transferring live someRecord)).rr.readBuffer = some ⟨someRecord, 85⟩ ∧
      (shiftBytes 85 (transferring live someRecord)).portR.selection = .selected [] [] ∧
      (silentSelection 0x4A live).portR.firstByteTaken = true ∧ (silentSelection 0x4A live).portR.reading = none ∧
      (statusSelection live).portR.reading = some ⟨[0, 0, 0, 0], true, 0⟩ ∧
      (recordSelection [0x61] true live).rr.fill = true ∧
      transferDue { live with portR := (recordSelection [0x61] false State.reset).portR } = true := by
  decide

/-- Port R by its bits: a read of the one record from its first byte, its last two bytes and then fill; the status repeated; a
stray byte (R160, R163, R175). -/
theorem test_port_r_by_its_bits :
    let fallen (s : State) := after (.selectionEnd .r .fall) s
    let begun := after (clocked .r [0x61, 0, 0]) (fallen (withRing live [someRecord]))
    let read := after (clocked .r [0, 0, 0]) (shiftBytes 84 (transferring (withRing live [someRecord]) someRecord))
    begun.portR.shifted = 0 :: someRecord.bytes.take 2 ∧ begun.rr.ring = [someRecord] ∧
      read.portR.shifted = someRecord.bytes ++ [0] ∧ read.rr.ring = [] ∧ read.rr.fill = true ∧
      (after (clocked .r (0x0C :: List.replicate 6 0)) (fallen live)).portR.shifted = [0, 0, 0, 0, 0, 0, 0] ∧
      (after (clocked .r (0x0C :: List.replicate 6 0)) (fallen State.reset)).portR.shifted = [0, 0, 0, 0, 1, 0, 0] ∧
      (after (clocked .r [0x4A, 0x61]) (fallen live)).portR.shifted = [0, 0] := by
  decide

/-- In STREAM mode the first byte shifts one out, and the exit code leaves the mode (R162). -/
theorem test_stream_mode_by_its_bits :
    let s := after (.selectionEnd .r .fall) (streaming (withRing live [someRecord]))
    (after (clocked .r [0x61]) s).rr.readBuffer = some ⟨someRecord, 1⟩ ∧
      (after (clocked .r [0xE5]) s).rr.mode = .command ∧ (after (clocked .r [0xE5]) s).rr.ring = [someRecord] ∧
      (after (clocked .r [0xE5, 0]) s).portR.shifted = someRecord.bytes.take 1 ++ [0] := by
  decide

theorem witness_RecordLayout :
    ({ someRecord with
      estimate := some 2400
      counts := some ⟨0, 0, 0, 0⟩
      opening := { someRecord.opening with
        monitorLattice := some ⟨1, 2, .builtIn⟩
        appliedChanges := List.replicate 32 ⟨.portC, .blackR, .applied⟩ } : FrameRecord }).length = 204 := by
  decide

/-- A lawful state in NO_INPUT: every law in its turn. -/
theorem live_lawful : live.lawful := by
  have hs : ∀ i : Fin 8, live.slot i = if i = 4 then { Slot.reset with state := .ready, generation := 1, origin := .builtIn, bound := true }
      else Slot.reset := by decide
  refine ⟨⟨by decide, by decide, fun i => ?_⟩, ⟨by decide, fun h => absurd h (by decide), by decide⟩, ⟨fun p => ?_, by decide, by decide⟩,
    ⟨by decide, by decide, by decide⟩, live_rangeLaw, fun _ => ⟨fun c hc => ?_, by decide⟩, fun i => ?_, ⟨fun i _ k _ => ?_, ?_⟩,
    ⟨fun n => ?_, fun n => ?_, fun n => ?_, by decide, ?_, by decide, ?_⟩, ⟨by decide, ?_, by decide, ?_, by decide, by decide, by decide⟩, ?_, ?_⟩
  · rw [hs]; split <;> decide
  · cases p <;> decide
  · cases hc; rfl
  · refine ⟨?_, ?_, ?_, ?_, ?_⟩
    · rw [hs]; split <;> rfl
    · revert i; decide
    · revert i; decide
    · rw [hs]; constructor
      · split <;> intro h <;> cases h
      · rintro ⟨prior, h⟩; cases h
    · revert i; decide
  · have : (live.slot i).content = [] := by rw [hs]; split <;> rfl
    rw [this]; exact Nat.zero_le _
  · intro i prior h; cases h
  · have : live.sectorEntry n = .blank := by revert n; decide
    rw [this]; simp [live, State.reset, Controller.reset]
  · have : live.sectorEntry n = .blank := by revert n; decide
    rw [this]; simp [live, State.reset, Controller.reset]
  · have : live.sectorEntry n = .blank := by revert n; decide
    rw [this]; simp [live, State.reset, Controller.reset]
  · intro j h; cases h
  · intro n h; cases h
  · intro o h; cases h
  · intro k r h; simp [live, State.reset, RecordRing.reset] at h
  · unfold State.frameLaw; decide
  · exact ⟨by decide, by decide, by intro x h; cases h⟩

theorem witness_laws_kept : live.lawful ∧ step live = .next live := ⟨live_lawful, rfl⟩

theorem witness_ValuesHeld :
    exec .frameEnd (framed 64 48) = .next between ∧ (framed 64 48).pe.frameState = .inFrame ∧ live.slotLaw ∧ live.storeLaw ∧
      (live.slot 4).inUse = true :=
  ⟨rfl, by decide, live_lawful.2.2.2.2.2.2.1, live_lawful.2.2.2.2.2.2.2.2.1, by decide⟩

end Sys2Proof.Tests
end

section
/-! A selection as at most one command: what a selection of Port C or S does beyond the command it carries, once for all commands
(R114, R166 to R168). -/

namespace Sys2Proof.Machine

/-! ## Changes of a port alone -/

/-- A state with a port and the inactivity timer replaced. -/
def State.withPort (s : State) (p : Port) (x : PortState) (timer : Option Nat) : State :=
  { s.setPort p x with ca := { s.ca with inactivityTimer := timer } }

/-- Nothing but a port differs, and the inactivity timer, restarted, where the port owns the group (R114). -/
def State.portOnly (s t : State) (p : Port) : Prop :=
  ∃ x timer, t = s.withPort p x timer ∧
    (timer = s.ca.inactivityTimer ∨ (s.ca.owner = some p ∧ timer = some 0))

theorem State.portOnly.unchangedBut {s t : State} {p : Port} (h : s.portOnly t p) :
    s.unchangedBut t [.port p, .inactivityTimer] := by
  obtain ⟨x, timer, rfl, -⟩ := h
  refine ⟨by cases p <;> rfl, fun part hp => ?_⟩
  cases p <;> cases part <;> simp at hp <;> simp [State.agrees, State.withPort, State.setPort]
  all_goals (next q => cases q <;> first | rfl | exact absurd rfl hp)

theorem State.portOnly_setPort (s : State) (p : Port) (x : PortState) : s.portOnly (s.setPort p x) p :=
  ⟨x, s.ca.inactivityTimer, by cases p <;> rfl, .inl rfl⟩

theorem State.portOnly_refl (s : State) (p : Port) : s.portOnly s p := by
  have := s.portOnly_setPort p (s.port p)
  rwa [State.setPort_port] at this

theorem State.portOnly.trans {s t u : State} {p : Port} (h : s.portOnly t p) (k : t.portOnly u p) : s.portOnly u p := by
  obtain ⟨x, m, rfl, hm⟩ := h
  obtain ⟨y, n, rfl, hn⟩ := k
  refine ⟨y, n, by cases p <;> rfl, ?_⟩
  rcases hn with rfl | ⟨ho, rfl⟩
  · exact hm
  · exact .inr ⟨ho, rfl⟩

theorem State.portOnly_restartInactivity (s : State) (p : Port) : s.portOnly (s.restartInactivity p) p := by
  unfold State.restartInactivity
  split
  · next ho => exact ⟨s.port p, some 0, by cases p <;> rfl, .inr ⟨ho, rfl⟩⟩
  · exact s.portOnly_refl p

theorem State.portOnly_endSelection (s : State) (p : Port) : s.portOnly (s.endSelection p) p :=
  (s.portOnly_setPort p _).trans (State.portOnly_restartInactivity _ p)

theorem State.portOnly_closeSelection (s : State) (p : Port) : s.portOnly (s.closeSelection p) p := by
  unfold State.closeSelection
  split
  · exact s.portOnly_setPort p _
  · exact s.portOnly_endSelection p

theorem portOnly_discardSelection (p : Port) (r : Result) (s : State) : s.portOnly (discardSelection p r s) p := by
  unfold discardSelection
  split
  · exact s.portOnly_refl p
  · exact (s.portOnly_closeSelection p).trans
      ((State.portOnly_setPort _ p _).trans (State.portOnly_restartInactivity _ p))

theorem portOnly_portRead (p : Port) (received : List Byte) (body : State → Except Result (List Byte)) (s : State) :
    s.portOnly (portRead p received body s) p := by
  unfold portRead
  split
  · exact s.portOnly_refl p
  simp only
  split
  all_goals exact (s.portOnly_closeSelection p).trans (State.portOnly_setPort _ p _)

theorem portOnly_portStatus (p : Port) (s : State) : s.portOnly (portStatus p s) p := by
  unfold portStatus
  split
  · exact s.portOnly_refl p
  · exact (s.portOnly_closeSelection p).trans (State.portOnly_setPort _ p _)

theorem portOnly_riseAfterCommand (p : Port) (s : State) : s.portOnly (riseAfterCommand p s) p := by
  unfold riseAfterCommand
  split
  · exact s.portOnly_refl p
  · exact s.portOnly_endSelection p

/-- A read changes its port alone (R168). -/
theorem portOnly_of_read {p : Port} {c : Instr} {s t : State}
    (hc : (∃ bytes, readPort c = some (p, bytes)) ∨ c = .readStatus p) (h : exec c s = .next t) : s.portOnly t p := by
  rcases hc with ⟨bytes, hc⟩ | rfl
  · cases c <;> simp [readPort] at hc <;> obtain ⟨rfl, -⟩ := hc <;> obtain rfl := Host.Outcome.next.inj h
    all_goals exact portOnly_portRead ..
  · obtain rfl := Host.Outcome.next.inj h
    exact portOnly_portStatus p s

/-- The meaning of a frame's read changes its port alone (R168). -/
theorem portOnly_frameMeaning {p : Port} {c : Instr} {s t : State}
    (hc : (∃ bytes, readPort c = some (p, bytes)) ∨ c = .readStatus p) (h : frameMeaning c s = .next t) : s.portOnly t p := by
  rcases frameMeaning_eq c with e | e
  · exact portOnly_of_read hc (e ▸ h)
  · rw [e] at h
    obtain rfl := Host.Outcome.next.inj h
    exact s.portOnly_refl p

/-! ## Bits and bytes (R165, R168) -/

theorem portOnly_byteOnPort {p : Port} {received : List Byte} {s t : State} (h : byteOnPort p received s = .next t) :
    s.portOnly t p := by
  have taken := s.portOnly_setPort p ((s.port p).takeByte received)
  unfold byteOnPort at h
  simp only at h
  split at h
  · obtain rfl := Host.Outcome.next.inj h
    exact taken
  split at h
  · next c hc => exact taken.trans (portOnly_frameMeaning (completedRead_read hc) h)
  · obtain rfl := Host.Outcome.next.inj h
    exact taken

theorem portOnly_bitOnPort {p : Port} {bit : Bool} {s t : State} (h : bitOnPort p bit s = .next t) : s.portOnly t p := by
  unfold bitOnPort at h
  split at h
  · obtain rfl := Host.Outcome.next.inj h
    exact s.portOnly_refl p
  split at h
  · obtain rfl := Host.Outcome.next.inj h
    exact s.portOnly_setPort p _
  · exact portOnly_byteOnPort h

/-- Bits on Port C or S change that port alone: a read is all that they can execute (R168). -/
theorem portOnly_bitsOnLine {p : Port} {bits : List Bool} {s t : State} (h : bitsOnLine (portLine p) bits s = .next t) :
    s.portOnly t p := by
  induction bits generalizing s with
  | nil =>
    obtain rfl := Host.Outcome.next.inj h
    exact s.portOnly_refl p
  | cons bit rest ih =>
    simp only [bitsOnLine, bitOnLine_port] at h
    obtain ⟨u, hu, -⟩ := bitOnPort_parts p bit s
    rw [hu] at h
    exact (portOnly_bitOnPort hu).trans (ih h)

/-! ## Selections -/

/-- A selection of a port left the port alone, or executed one command of it and then left it alone (R167). -/
def State.selected (s t : State) (p : Port) : Prop :=
  s.portOnly t p ∨ ∃ c u, commandPort c = some p ∧ exec c s = .next u ∧ u.portOnly t p

theorem State.selected.trans {s t u : State} {p : Port} (h : s.selected t p) (k : t.portOnly u p) : s.selected u p := by
  rcases h with h | ⟨c, v, hc, hv, h⟩
  · exact .inl (h.trans k)
  · exact .inr ⟨c, v, hc, hv, h.trans k⟩

/-- The frame of a command that waits for the rise is executed as the command (R167). -/
theorem frameMeaning_of_commandPort {c : Instr} {p : Port} (h : commandPort c = some p) : frameMeaning c = exec c := by
  cases c <;> first | rfl | simp [commandPort] at h

theorem takeSelection_selected {p : Port} {received : List Byte} {part : List Bool} {s t : State}
    (h : takeSelection p (judgeFrame p received part) s = .next t) : s.selected t p := by
  cases hj : judgeFrame p received part with
  | framing =>
    rw [hj] at h
    obtain rfl := Host.Outcome.next.inj h
    exact .inl (portOnly_discardSelection p _ s)
  | unknown =>
    rw [hj] at h
    obtain rfl := Host.Outcome.next.inj h
    exact .inl (portOnly_discardSelection p _ s)
  | command c =>
    obtain ⟨u, hu, -⟩ := frameMeaning_parts c s
    rw [hj] at h
    simp only [takeSelection, hu] at h
    obtain rfl := Host.Outcome.next.inj h
    have rise := portOnly_riseAfterCommand p u
    rcases judgeFrame_command hj with hc | hc
    · exact .inr ⟨c, u, hc, frameMeaning_of_commandPort hc ▸ hu, rise⟩
    · exact .inl ((portOnly_frameMeaning hc hu).trans rise)

theorem riseOnPort_selected {p : Port} {s t : State} (h : riseOnPort p s = .next t) : s.selected t p := by
  unfold riseOnPort at h
  split at h
  · obtain rfl := Host.Outcome.next.inj h
    exact .inl (s.portOnly_refl p)
  split at h
  · obtain rfl := Host.Outcome.next.inj h
    exact .inl (s.portOnly_endSelection p)
  · exact takeSelection_selected h

/-- The moments of a selection of Port C or S execute at most one command, at the rise (R166, R167). -/
theorem selectionMoment_selected {p : Port} {moment : SelectionMoment} {s t : State}
    (h : selectionMoment (portLine p) moment s = .next t) : s.selected t p := by
  have rise : riseOfSelect (portLine p) s = riseOnPort p s := by cases p <;> rfl
  have fall : ∀ u : State, fallOfSelect (portLine p) u = u.beginSelection p := by cases p <;> exact fun _ => rfl
  unfold selectionMoment at h
  split at h
  · obtain rfl := Host.Outcome.next.inj h
    exact .inl (s.portOnly_refl p)
  cases moment with
  | fall =>
    obtain ⟨u, hu, -⟩ := riseOnPort_parts p s
    simp only [rise, hu, fall] at h
    obtain rfl := Host.Outcome.next.inj h
    exact (riseOnPort_selected hu).trans (u.portOnly_setPort p _)
  | clocked bits => exact .inl (portOnly_bitsOnLine h)
  | rise =>
    simp only [rise] at h
    exact riseOnPort_selected h

/-- A selection given by its bytes or by its moments is one of Port R, or of Port C or S with at most one command. -/
theorem exec_selection_cases {c : Instr} {s t : State} (hc : isSelection c = true) (h : exec c s = .next t) :
    (∃ moment, c = .selectionEnd .r moment) ∨ ∃ p, s.selected t p := by
  cases c <;> simp [isSelection] at hc
  case framing p received part => exact .inr ⟨p, takeSelection_selected h⟩
  case unknown p received => exact .inr ⟨p, takeSelection_selected h⟩
  case selectionEnd line moment =>
    cases line with
    | c => exact .inr ⟨.c, selectionMoment_selected h⟩
    | s => exact .inr ⟨.s, selectionMoment_selected h⟩
    | r => exact .inl ⟨moment, rfl⟩

/-! ## Every command -/

/-- No command changes a part that is not among those of `Changes`. -/
theorem exec_unchangedBut {c : Instr} {s t : State} (h : exec c s = .next t) : s.unchangedBut t (Changes c) := by
  obtain ⟨u, hu, hc⟩ := exec_changes c s
  rw [hu] at h
  obtain rfl := Host.Outcome.next.inj h
  exact hc

/-- A part that is not among those of a command is as it was. -/
theorem exec_agrees {c : Instr} {s t : State} (h : exec c s = .next t) {part : Part} (hp : part ∉ Changes c) :
    s.agrees t part := (exec_unchangedBut h).2 part hp

theorem not_mem_selectionParts {p : Port} {received : List Byte} {part : List Bool} {x : Part} (h : x ∉ momentParts p) :
    x ∉ selectionParts p (judgeFrame p received part) := fun hx => h (selectionParts_subset p received part hx)

/-- A command that waits for the rise of its select line is no selection (R167). -/
theorem isSelection_of_commandPort {c : Instr} {p : Port} (h : commandPort c = some p) : isSelection c = false := by
  cases c <;> first | rfl | simp [commandPort] at h

/-- What a command does: what a command that is no selection does, itself or as the one command of a selection of a port. -/
theorem exec_by_command {Q : State → Prop} {c : Instr} {s t : State}
    (hcommand : ∀ {d : Instr} {u : State}, isSelection d = false → (d = c ∨ ∃ p, commandPort d = some p) → exec d s = .next u →
      Q u)
    (hport : ∀ {u v : State} {p : Port}, u.portOnly v p → Q u → Q v)
    (hline : ∀ moment, c = .selectionEnd .r moment → Q t) (hs : Q s) (h : exec c s = .next t) : Q t := by
  cases hc : isSelection c with
  | false => exact hcommand hc (.inl rfl) h
  | true =>
    rcases exec_selection_cases hc h with ⟨moment, hm⟩ | ⟨p, hq | ⟨d, u, hd, hu, hq⟩⟩
    · exact hline moment hm
    · exact hport hq hs
    · exact hport hq (hcommand (isSelection_of_commandPort hd) (.inr ⟨p, hd⟩) hu)

/-- What every command that is no selection brings about from a state with `P`, and what Port R's moments do, every command
does, if changes of a port alone keep it. -/
theorem exec_keeps {P Q : State → Prop} (hport : ∀ {s t : State} {p : Port}, s.portOnly t p → Q s → Q t)
    (hcommand : ∀ {c : Instr} {s t : State}, isSelection c = false → P s → exec c s = .next t → Q t)
    (hline : ∀ {moment : SelectionMoment} {s t : State}, P s → exec (.selectionEnd .r moment) s = .next t → Q t)
    {s : State} (hPQ : P s → Q s) {c : Instr} {t : State} (hs : P s) (h : exec c s = .next t) : Q t :=
  exec_by_command (fun hd _ hu => hcommand hd hs hu) hport (fun moment hm => hline (moment := moment) hs (hm ▸ h)) (hPQ hs) h

/-- A law that every command keeps, and that does not speak of the queue of commands, every step keeps. -/
theorem step_keeps {P : State → Prop} (hpending : ∀ (s : State) (rest : List Instr), P s → P { s with pending := rest })
    (hexec : ∀ {c : Instr} {s t : State}, P s → exec c s = .next t → P t) {s t : State} (hs : P s) (h : step s = .next t) :
    P t := by
  unfold step at h
  split at h
  · obtain rfl := Host.Outcome.next.inj h
    unfold passMillisecond
    split
    · exact hs
    · exact hexec (c := .inputLost 1) (hexec (c := .groupExpiry 1) hs rfl) rfl
  · exact hexec (hpending s _ hs) h

end Sys2Proof.Machine
end

section
/-! What the arbiter does as a sequence of acts on the Change Queue (chapters 5 and 6): a property that each act keeps, every
request, the tracker's submission and the expiry of a group keep. -/

namespace Sys2Proof.Machine

/-- The parts that the arbiter changes beside the acts on the queue: its own, and the ports'. -/
abbrev arbiterParts : List Part := [.port .c, .port .s, .inactivityTimer, .group, .grantOrder]

/-- A property of the state that every act of the arbiter keeps: an entry joined to the queue (R87), the pass made at once in
NO_INPUT (R93, R94), the open group closed or removed (R90), and the answer to the tracker (R79). -/
structure KeptByEdits (P : State → Prop) : Prop where
  quiet : ∀ {s t : State}, s.unchangedBut t arbiterParts → P s → P t
  enqueue : ∀ {s : State} (e : Entry), P s → P (enqueue s e)
  pass : ∀ {s : State}, s.pe.frameState = .noInput → P s → P (runPass .noInput s)
  close : ∀ {s : State}, P s → P (closeGroupEntries s)
  remove : ∀ {s : State}, P s → P (removeGroupEntries s)
  answer : ∀ {s : State} (w : Submission) (r : Result), P s → P { s with it := trackerAnswered s.it w r }

namespace KeptByEdits

variable {P : State → Prop}

theorem portOnly (k : KeptByEdits P) {s t : State} {p : Port} (h : s.portOnly t p) (hs : P s) : P t :=
  k.quiet (State.unchangedBut_mono h.unchangedBut (by cases p <;> simp)) hs

theorem granted (k : KeptByEdits P) (r : Requester) {s : State} (hs : P s) : P (s.granted r) :=
  k.quiet (State.unchangedBut_mono (unchangedBut_granted s r) (by simp)) hs

theorem freeGroup (k : KeptByEdits P) (p : Port) (o : GroupOutcome) {s : State} (hs : P s) : P (s.freeGroup p o) :=
  k.quiet (State.unchangedBut_mono (unchangedBut_freeGroup s p o) (by simp)) hs

theorem submit (k : KeptByEdits P) (source : Requester) (mark : GroupMark) (id : Byte) (v : Int) {s : State} (hs : P s) :
    P (submit source mark id v s).2 := by
  unfold Machine.submit
  split
  · exact hs
  simp only
  split
  · next h =>
    have noInput : s.pe.frameState = .noInput := by simpa [State.isNoInput] using h.2
    exact k.pass noInput (k.enqueue _ hs)
  · exact k.enqueue _ hs

theorem takeSubmission (k : KeptByEdits P) {s : State} (hs : P s) : P (takeSubmission s) := by
  unfold Machine.takeSubmission
  split
  · exact hs
  simp only
  split
  · exact k.answer _ _ (k.granted _ hs)
  · exact k.answer _ _ (k.submit _ _ _ _ (k.granted _ hs))

theorem closeGroup (k : KeptByEdits P) (p : Port) {s : State} (hs : P s) : P (closeGroup p s) := by
  have closed : P ((closeGroupEntries s).freeGroup p .noGroup) := k.freeGroup p _ (k.close hs)
  unfold Machine.closeGroup
  simp only
  split
  · next h =>
    have noInput : s.pe.frameState = .noInput := by simpa [State.isNoInput] using h
    exact k.pass noInput closed
  · exact closed

theorem editRequest (k : KeptByEdits P) (p : Port) (id : Byte) (value : Word) {s : State} (hs : P s) :
    P (editRequest p id value s).2 := by
  unfold Machine.editRequest
  split
  · exact hs
  split
  · exact k.submit _ _ _ _ hs
  split
  · exact hs
  · exact k.submit _ _ _ _ hs

theorem editCloseRequest (k : KeptByEdits P) (p : Port) (id : Byte) (value : Word) {s : State} (hs : P s) :
    P (editCloseRequest p id value s).2 := by
  have edited := k.submit (portRequester p) .openGroup id value.toInt hs
  unfold Machine.editCloseRequest
  split
  · exact hs
  split
  · split
    · next u hu => exact k.closeGroup p (by simpa [hu] using edited)
    · next u hu => exact k.closeGroup p (by simpa [hu] using edited)
    · exact edited
  · exact hs

theorem groupOpenRequest (k : KeptByEdits P) (p : Port) {s : State} (hs : P s) : P (groupOpenRequest p s).2 := by
  unfold Machine.groupOpenRequest
  split
  · exact hs
  · exact k.quiet (State.unchangedBut_mono (unchangedBut_group s _ (by cases p <;> rfl)) (by simp)) hs

theorem groupCloseRequest (k : KeptByEdits P) (p : Port) {s : State} (hs : P s) : P (groupCloseRequest p s).2 := by
  unfold Machine.groupCloseRequest
  split
  · exact hs
  split
  · exact k.closeGroup p hs
  · exact hs

theorem groupAbandonRequest (k : KeptByEdits P) (p : Port) {s : State} (hs : P s) : P (groupAbandonRequest p s).2 := by
  unfold Machine.groupAbandonRequest
  split
  · exact k.quiet (State.unchangedBut_mono (unchangedBut_group s _ (by cases p <;> rfl)) (by simp)) hs
  split
  · exact k.freeGroup p _ (k.remove hs)
  · exact hs

theorem answerRequest (k : KeptByEdits P) (p : Port) (r : Request) {s : State} (hs : P s) : P (answerRequest p r s).2 := by
  cases r with
  | edit id value => exact k.editRequest p id value hs
  | editClose id value => exact k.editCloseRequest p id value hs
  | groupOpen => exact k.groupOpenRequest p hs
  | groupClose => exact k.groupCloseRequest p hs
  | groupAbandon => exact k.groupAbandonRequest p hs

theorem portRequest (k : KeptByEdits P) (p : Port) (r : Request) {s : State} (hs : P s) : P (portRequest p r s) := by
  have begun : P (s.closeSelection p) := k.portOnly (s.portOnly_closeSelection p) hs
  have answered : P (takeRequest p (Machine.answerRequest p r) (s.closeSelection p)).2 := by
    unfold takeRequest
    simp only
    refine k.answerRequest p r (k.granted _ ?_)
    split
    · exact k.takeSubmission begun
    · exact begun
  unfold Machine.portRequest portCommand
  split
  · exact hs
  simp only
  refine k.portOnly (State.portOnly_restartInactivity _ p) (k.portOnly (State.portOnly_setPort _ p _) ?_)
  split
  · exact begun
  · exact answered

/-- Requests, alone or together (R106). -/
theorem portRequests (k : KeptByEdits P) (p : Port) (r : Request) (beside : Option Request) {s : State} (hs : P s) :
    P (portRequests p r beside s) := by
  unfold Machine.portRequests
  split
  · exact k.portRequest p r hs
  split
  · exact k.portRequest p r (k.portRequest _ _ hs)
  · exact k.portRequest _ _ (k.portRequest p r hs)

/-- The inactivity timer, and the expiry of the group (R115). -/
theorem elapseGroup (k : KeptByEdits P) (ms : Nat) {s : State} (hs : P s) : P (elapseGroup ms s) := by
  unfold Machine.elapseGroup
  split
  · exact hs
  split
  · unfold expireGroup
    split
    · exact hs
    · next p _ =>
      exact k.quiet (State.unchangedBut_mono (unchangedBut_group _ _ (by simp)) (by simp))
        (k.freeGroup p .expired (k.remove hs))
  · exact k.quiet (State.unchangedBut_mono (unchangedBut_group s _ rfl) (by simp)) hs

end KeptByEdits

/-- The requests to the arbiter, the answer to the tracker and the expiry of the group (R106, R115, R118). -/
def isEdit : Instr → Bool
  | .edit _ _ _ _ | .editClose _ _ _ _ | .groupOpen _ _ | .groupClose _ _ | .groupAbandon _ _ | .trackerSubmission
  | .groupExpiry _ => true
  | _ => false

/-- What every act of the arbiter keeps, its commands keep. -/
theorem KeptByEdits.exec {P : State → Prop} (k : KeptByEdits P) {c : Instr} (hc : isEdit c = true) {s t : State}
    (h : exec c s = .next t) (hs : P s) : P t := by
  cases c <;> simp [isEdit] at hc <;> obtain rfl := Host.Outcome.next.inj h
  case trackerSubmission => exact k.takeSubmission hs
  case groupExpiry ms => exact k.elapseGroup ms hs
  all_goals exact k.portRequests _ _ _ hs

end Sys2Proof.Machine
end

section
/-! Port R as a sequence of acts (sections 9.4 and 10.6): a property that each act keeps, every command and every bit of Port R
keeps. -/

namespace Sys2Proof.Machine

/-- What recordLaw says of Port R's transfers: fill and a transfer exclude one another and do not outlast their selection, a
transfer is of a record read with its last byte still to come, and in COMMAND mode nothing is read before the first byte (R154,
R160 to R162). -/
def State.transferLaw (s : State) : Prop :=
  (s.rr.fill = true → s.rr.readBuffer = none) ∧
    (s.rr.fill = true ∨ s.rr.readBuffer.isSome = true → s.portR.selection ≠ .idle) ∧
    (s.rr.readBuffer.isSome = true → s.portR.reading = some Reading.records) ∧
    (∀ b, s.rr.readBuffer = some b → b.position < b.record.length) ∧
    (s.rr.mode = .command → s.portR.firstByteTaken = false → s.portR.reading = none ∧ s.rr.fill = false)

theorem transferLaw_of_agrees {s t : State} (h : s.agrees t .portR) (hs : s.transferLaw) : t.transferLaw := by
  obtain ⟨hbuffer, hmode, hfill, hport⟩ := h
  unfold State.transferLaw
  rw [hbuffer, hmode, hfill, hport]
  exact hs

/-- Neither a transfer nor fill is in progress. -/
def State.noTransfer (s : State) : Prop := s.rr.readBuffer = none ∧ s.rr.fill = false

/-- Without a transfer and without fill the law speaks of the first byte alone. -/
theorem transferLaw_of_noTransfer {s : State} (h : s.noTransfer)
    (hread : s.rr.mode = .command → s.portR.firstByteTaken = false → s.portR.reading = none) : s.transferLaw := by
  obtain ⟨hbuffer, hfill⟩ := h
  refine ⟨fun _ => hbuffer, fun h => ?_, fun h => ?_, fun b h => ?_, fun hm hf => ⟨hread hm hf, hfill⟩⟩
  · simp [hbuffer, hfill] at h
  · simp [hbuffer] at h
  · simp [hbuffer] at h

/-- An unselected Port R transfers nothing (R160, R161). -/
theorem noTransfer_of_idle {s : State} (hs : s.transferLaw) (hi : s.portR.selection = .idle) : s.noTransfer := by
  obtain ⟨-, hselected, -⟩ := hs
  refine ⟨?_, ?_⟩
  · cases hb : s.rr.readBuffer with
    | none => rfl
    | some b => exact absurd hi (hselected (.inr (by simp [hb])))
  · cases hf : s.rr.fill with
    | false => rfl
    | true => exact absurd hi (hselected (.inl hf))

theorem noTransfer_closeSelectionR {s : State} (hs : s.transferLaw) : s.closeSelectionR.noTransfer := by
  unfold State.closeSelectionR
  split
  · next hi => exact noTransfer_of_idle hs hi
  · exact ⟨rfl, rfl⟩

/-- In COMMAND mode nothing is transferred before the first byte has been judged (R162, R175). -/
theorem noTransfer_of_firstByteDue {s : State} (hs : s.transferLaw) (hm : s.rr.mode = .command)
    (hf : s.portR.firstByteTaken = false) : s.noTransfer := by
  obtain ⟨-, -, hreads, -, hfirst⟩ := hs
  obtain ⟨hnone, hfill⟩ := hfirst hm hf
  refine ⟨?_, hfill⟩
  cases hb : s.rr.readBuffer with
  | none => rfl
  | some b => rw [hreads (by simp [hb])] at hnone; cases hnone

/-! ## The acts -/

/-- A property of the state that holds with the law on transfers and that every act of Port R keeps. -/
structure KeptByPortR (P : State → Prop) : Prop where
  law : ∀ {s : State}, P s → s.transferLaw
  /-- The rise of select (R160, R161). -/
  rise : ∀ {s : State} (shifted : List Byte), P s →
    P { s with
      rr := { s.rr with readBuffer := none, fill := false }
      portR := { s.portR with selection := .idle, reading := none, firstByteTaken := false, shifted := shifted } }
  /-- A selection without records, or a byte shifted out that is not of a record (R163, R175). -/
  other : ∀ {s : State} (x : PortRState), s.noTransfer → (x.firstByteTaken = false → x.reading = none) → P s →
    P { s with portR := x }
  /-- A record read (R160). -/
  records : ∀ {s : State} (received : List Byte) (begun : Bool), s.noTransfer → (received = [] → s.rr.mode = .stream) →
    P s → P (recordSelection received begun s)
  /-- The entry to STREAM mode (R162). -/
  stream : ∀ {s : State}, s.isStarting = false → P s → P { s with rr := { s.rr with mode := .stream } }
  exit : ∀ {s : State}, P s → P (takeExit s)
  received : ∀ {s : State} (bytes : List Byte) (part : List Bool), P s → P (s.receivedR bytes part)
  shift : ∀ {s : State} (count : Nat), P s → P (shiftBytes count s)
  ends : ∀ {s : State}, P s → P (transferEnds s)
  begins : ∀ {s : State}, P s → P (transferBegins s)

namespace KeptByPortR

variable {P : State → Prop}

theorem closeSelectionR (k : KeptByPortR P) {s : State} (hs : P s) : P s.closeSelectionR := by
  unfold State.closeSelectionR
  split
  · exact hs
  · exact k.rise s.portR.shifted hs

theorem commandSelection (k : KeptByPortR P) (code : Byte) (begun : Bool) {s : State} (hn : s.noTransfer) (hs : P s) :
    P (commandSelection code begun s) := by
  unfold Machine.commandSelection
  split
  · exact k.other _ hn (by simp) hs
  · exact k.records _ begun hn (by simp) hs
  · unfold streamCommand
    simp only
    have read := k.records [0x62] begun hn (by simp) hs
    split
    · exact read
    · next h => exact k.stream (show s.isStarting = false by simpa using h) read
  · exact k.other _ hn (by simp) hs

theorem selectionR (k : KeptByPortR P) (code : Byte) (begun : Bool) {s : State} (hs : P s) : P (selectionR code begun s) := by
  have closed := k.closeSelectionR hs
  have hn := noTransfer_closeSelectionR (k.law hs)
  unfold Machine.selectionR
  split
  · exact hs
  simp only
  split
  · exact k.commandSelection code begun hn closed
  · next hm =>
    have read := k.records [] true hn (fun _ => hm) closed
    split
    · exact k.exit read
    · exact k.received _ _ (k.shift 1 read)

theorem streamSelection (k : KeptByPortR P) {s t : State} (h : exec .streamSelection s = .next t) (hs : P s) : P t := by
  obtain rfl := Host.Outcome.next.inj h
  split
  · exact hs
  · next hc =>
    have mode : s.closeSelectionR.rr.mode = .stream := by
      have : s.closeSelectionR.rr.mode = s.rr.mode := by unfold State.closeSelectionR; split <;> rfl
      rw [this]
      cases hm : s.rr.mode with
      | stream => rfl
      | command => simp [hm] at hc
    exact k.records [] true (noTransfer_closeSelectionR (k.law hs)) (fun _ => mode) (k.closeSelectionR hs)

theorem streamExit (k : KeptByPortR P) {s t : State} (h : exec .streamExit s = .next t) (hs : P s) : P t := by
  obtain rfl := Host.Outcome.next.inj h
  split
  · exact k.exit hs
  · exact k.selectionR _ _ hs

theorem transferMoment (k : KeptByPortR P) (moment : TransferMoment) {s : State} (hs : P s) : P (transferMoment moment s) := by
  cases moment with
  | shifting count => exact k.shift count hs
  | lastByte => exact k.ends hs
  | nextByte => exact k.begins hs
  | lastAndNext => exact k.begins (k.ends hs)

theorem transferCut (k : KeptByPortR P) (count : Nat) {s : State} (hs : P s) : P (transferCut count s) := by
  unfold Machine.transferCut
  split
  · exact hs
  · exact k.rise (s := s) _ hs

/-! ## Bits -/

theorem beginSelectionR (k : KeptByPortR P) {s : State} (hn : s.noTransfer) (hs : P s) : P s.beginSelectionR := by
  unfold State.beginSelectionR
  split
  · exact k.other _ hn (fun _ => rfl) hs
  · next hm => exact k.records [] true hn (fun _ => hm) hs

theorem shiftOutR (k : KeptByPortR P) {s : State} (hs : P s) : P (shiftOutR s) := by
  unfold Machine.shiftOutR
  split
  · split
    · exact k.shift 1 hs
    · exact k.ends hs
  · next hb =>
    split
    · exact k.shift 1 hs
    · next hf => exact k.other _ ⟨hb, by simpa using hf⟩ (by simp) hs

theorem byteOnR (k : KeptByPortR P) (code : Byte) (received : List Byte) {s : State} (hs : P s) :
    P (byteOnR code received s) := by
  have out := k.received (received ++ [code]) [] (k.shiftOutR hs)
  unfold Machine.byteOnR
  split
  · exact out
  next hf =>
    split
    · next hm => exact k.commandSelection code false (noTransfer_of_firstByteDue (k.law hs) hm (by simpa using hf)) hs
    · split
      · exact k.exit hs
      · exact out

theorem bitOnR (k : KeptByPortR P) (bit : Bool) {s : State} (hs : P s) : P (bitOnR bit s) := by
  unfold Machine.bitOnR
  split
  · exact hs
  next received part _ =>
    simp only
    have begun : P (if part.isEmpty then transferBegins s else s) := by
      split
      · exact k.begins hs
      · exact hs
    split
    · exact k.received _ _ begun
    · exact k.byteOnR _ _ begun

/-- The moments of a selection of Port R (R162, R165, R166). -/
theorem selectionMoment (k : KeptByPortR P) {moment : SelectionMoment} {s t : State}
    (h : exec (.selectionEnd .r moment) s = .next t) (hs : P s) : P t := by
  have bits : ∀ (bits : List Bool) {s : State}, P s → ∀ {t : State}, bitsOnLine .r bits s = .next t → P t := by
    intro bits
    induction bits with
    | nil =>
      intro s hs t h
      obtain rfl := Host.Outcome.next.inj h
      exact hs
    | cons bit rest ih =>
      intro s hs t h
      exact ih (k.bitOnR bit hs) h
  change Machine.selectionMoment .r moment s = .next t at h
  unfold Machine.selectionMoment at h
  split at h
  · obtain rfl := Host.Outcome.next.inj h
    exact hs
  cases moment with
  | fall =>
    obtain rfl := Host.Outcome.next.inj h
    exact k.beginSelectionR (noTransfer_closeSelectionR (k.law hs)) (k.closeSelectionR hs)
  | clocked sent => exact bits sent hs h
  | rise =>
    obtain rfl := Host.Outcome.next.inj h
    exact k.closeSelectionR hs

end KeptByPortR

/-- The commands of Port R (R160 to R163, R175). -/
def isPortR : Instr → Bool
  | .portRReadStatus | .readRecords _ | .readRecordsStream _ | .streamSelection | .streamExit | .portRUnknownByte _
  | .recordTransferEnd _ | .transferCutOff _ | .selectionEnd .r _ => true
  | _ => false

/-- What every act of Port R keeps, its commands keep. -/
theorem KeptByPortR.exec {P : State → Prop} (k : KeptByPortR P) {c : Instr} (hc : isPortR c = true) {s t : State}
    (h : exec c s = .next t) (hs : P s) : P t := by
  cases c <;> simp [isPortR] at hc
  case streamSelection => exact k.streamSelection h hs
  case streamExit => exact k.streamExit h hs
  case recordTransferEnd moment =>
    obtain rfl := Host.Outcome.next.inj h
    exact k.transferMoment moment hs
  case transferCutOff count =>
    obtain rfl := Host.Outcome.next.inj h
    exact k.transferCut count hs
  case selectionEnd line moment =>
    cases line <;> simp at hc
    exact k.selectionMoment h hs
  all_goals
    obtain rfl := Host.Outcome.next.inj h
    exact k.selectionR _ _ hs

/-! ## The law on transfers is kept -/

/-- A transfer begun in a record read, or fill: the law needs the reading and the first byte alone (R160, R162). -/
theorem transferLaw_startReading {s : State} (alone : Bool) (hf : s.rr.fill = false) (hsel : s.portR.selection ≠ .idle)
    (hread : alone = false → s.portR.reading = some Reading.records)
    (hfirst : s.rr.mode = .command → s.portR.firstByteTaken = true) :
    State.transferLaw { s with rr := s.rr.startReading alone } := by
  have first : s.rr.mode = .command → s.portR.firstByteTaken = false → False := by
    intro hm h
    rw [hfirst hm] at h
    cases h
  have fill : State.transferLaw { s with rr := { s.rr with readBuffer := none, fill := true } } :=
    ⟨fun _ => rfl, fun _ => hsel, by simp, by simp, fun hm h => (first hm h).elim⟩
  unfold RecordRing.startReading RecordRing.startTransfer
  cases alone with
  | true => exact fill
  | false =>
    simp only [Bool.false_eq_true, if_false]
    split
    · exact fill
    · next r _ _ =>
      refine ⟨fun h => ?_, fun _ => hsel, fun _ => hread rfl, fun b hb => ?_, fun hm h => (first hm h).elim⟩
      · exact absurd h (by simp [hf])
      · obtain rfl := Option.some.inj hb
        exact r.length_pos

/-- A record read leaves a transfer of a whole record, fill, or neither (R160, R164). -/
theorem transferLaw_recordSelection {s : State} (received : List Byte) (begun : Bool) (hn : s.noTransfer)
    (h : received = [] → s.rr.mode = .stream) : (recordSelection received begun s).transferLaw := by
  have first : s.rr.mode = .command → (!received.isEmpty) = true := by
    intro hm
    cases received with
    | nil => rw [h rfl] at hm; cases hm
    | cons _ _ => rfl
  cases begun with
  | true =>
    exact transferLaw_startReading
      (s := { s with
        portR := { selection := .selected received [], reading := some (Reading.ofRecordRead s.isStarting),
                   firstByteTaken := !received.isEmpty, shifted := List.replicate received.length 0 } })
      s.isStarting hn.2 (by simp) (by intro hs; simp [hs, Reading.ofRecordRead]) first
  | false =>
    refine transferLaw_of_noTransfer ⟨rfl, rfl⟩ fun hm hf => ?_
    exact absurd (first hm) (by simpa [recordSelection] using hf)

theorem transferLaw_shiftBytes {s : State} (count : Nat) (hs : s.transferLaw) : (shiftBytes count s).transferLaw := by
  obtain ⟨hfill, hselected, hreads, hposition, hfirst⟩ := hs
  cases hb : s.rr.readBuffer with
  | none =>
    rw [shiftBytes_of_none hb]
    split
    · refine ⟨hfill, hselected, hreads, hposition, fun hm h => hfirst hm ?_⟩
      simp only [Bool.or_eq_false_iff] at h
      exact h.1
    · exact ⟨hfill, hselected, hreads, hposition, hfirst⟩
  | some b =>
    have pos := b.record.length_pos
    obtain ⟨k, hbelow, habove, he⟩ := shiftBytes_of_transfer hb count
    rw [he]
    refine ⟨fun h => ?_, fun _ => hselected (.inr (by simp [hb])), fun _ => hreads (by simp [hb]), fun x hx => ?_,
      fun hm h => ?_⟩
    · rw [hfill h] at hb; cases hb
    · obtain rfl := Option.some.inj hx
      show k < b.record.length
      omega
    · simp only [Bool.or_eq_false_iff] at h
      exact hfirst hm h.1

theorem transferLaw_transferEnds {s : State} (hs : s.transferLaw) : (transferEnds s).transferLaw := by
  obtain ⟨-, hselected, -, -, -⟩ := id hs
  unfold transferEnds
  split
  · exact hs
  · exact ⟨fun _ => rfl, fun h => hselected (h.imp id (by simp)), by simp, by simp, by simp⟩

theorem transferLaw_transferBegins {s : State} (hs : s.transferLaw) : (transferBegins s).transferLaw := by
  obtain ⟨-, -, -, -, hfirst⟩ := id hs
  unfold transferBegins
  split
  · next due =>
    simp only [transferDue, readsRecords, Bool.and_eq_true, Bool.or_eq_true, decide_eq_true_eq, Bool.not_eq_true'] at due
    obtain ⟨⟨⟨hsel, hreads⟩, -⟩, hfill⟩ := due
    refine transferLaw_startReading _ hfill hsel (fun halone => ?_) (fun hm => ?_)
    · exact hreads.resolve_right (by simpa using halone)
    · cases hf : s.portR.firstByteTaken with
      | true => rfl
      | false =>
        obtain ⟨hnone, -⟩ := hfirst hm hf
        simp [hnone] at hreads
  · exact hs

/-- Every act of Port R keeps the law on transfers. -/
theorem keptByPortR_transferLaw : KeptByPortR State.transferLaw where
  law := id
  rise _ _ := transferLaw_of_noTransfer ⟨rfl, rfl⟩ fun _ _ => rfl
  other _ hn hx _ := transferLaw_of_noTransfer hn fun _ => hx
  records received begun hn h _ := transferLaw_recordSelection received begun hn h
  stream _ hs := by
    obtain ⟨hfill, hselected, hreads, hposition, -⟩ := hs
    exact ⟨hfill, hselected, hreads, hposition, by simp⟩
  exit _ := ⟨fun _ => rfl, fun _ => by simp [takeExit], by simp [takeExit], by simp [takeExit], by simp [takeExit]⟩
  received _ _ hs := by
    obtain ⟨hfill, -, hreads, hposition, hfirst⟩ := hs
    exact ⟨hfill, fun _ => by simp [State.receivedR], hreads, hposition, hfirst⟩
  shift count hs := transferLaw_shiftBytes count hs
  ends hs := transferLaw_transferEnds hs
  begins hs := transferLaw_transferBegins hs

end Sys2Proof.Machine
end

section
/-! Start-up and STARTING (R2, R4, R41 to R44, R174): what start-up leaves, and that in STARTING every block stays at its reset
values. -/

namespace Sys2Proof.Machine

/-! ## Start-up completion -/

/-- Start-up completion, part by part (R4, R41, R44, R47, R84). -/
theorem completeStartUp_eq (pages : List Nat) {s : State} (hr : s.resetLine = false) (hs : s.pe.frameState = .starting) :
    ∃ directory slots c fallback,
      let fields := Fields.default (16 * c.defaultMired)
      directory.isSome = true ∧ c.firstMired ≤ c.defaultMired ∧ c.defaultMired ≤ c.lastMired ∧
      completeStartUp pages s = { s with
        store := s.store.decay pages, directory := directory, slots := slots
        cu := { s.cu with calibration := some c, calFallback := fallback, fields := fields, derived := derive c fields }
        it := { s.it with target := 16 * c.defaultMired }
        pe := { s.pe with
          context := formContext fields (derive c fields), frameState := .noInput, inputLostTimer := none } } := by
  obtain ⟨scanned, hscanned, hd⟩ : ∃ d, (ensureScanned s).decayed pages =
      { s with store := s.store.decay pages, directory := d } ∧ d.isSome = true := by
    unfold ensureScanned
    split
    · exact ⟨_, rfl, rfl⟩
    · next h => exact ⟨s.directory, rfl, by cases hd : s.directory <;> simp [hd] at h ⊢⟩
  obtain ⟨loaded, c, fallback, hload, hloaded, hlow, hhigh⟩ := loadCalibration_eq ((ensureScanned s).decayed pages)
  obtain ⟨filled, x, hfill, hfilled, -⟩ := fillT0_eq
    ((loadCalibration ((ensureScanned s).decayed pages)).setSlot 0
      (((loadCalibration ((ensureScanned s).decayed pages)).slot 0).filled .builtIn identityLattice))
  have hdirectory : filled.isSome = true := by
    rw [hload] at hfilled
    rw [hscanned] at hloaded
    exact (hfilled.trans hloaded).trans hd
  have hdone : completeStartUp pages s =
      adoptDefaults (fillSlots (loadCalibration ((ensureScanned s).decayed pages))) := by
    simp [completeStartUp, State.isStarting, hr, hs]
  unfold fillSlots at hdone
  rw [hfill, hload, hscanned] at hdone
  exact ⟨filled, _, c, fallback, hdirectory, hlow, hhigh, hdone⟩

/-- Outside STARTING, or under reset, start-up does not complete (assumption log 10). -/
theorem completeStartUp_of_not (pages : List Nat) {s : State} (h : s.resetLine = true ∨ s.pe.frameState ≠ .starting) :
    completeStartUp pages s = s := by
  unfold completeStartUp
  rw [if_pos (by simpa [State.isStarting] using h)]

/-! ## The directory stands -/

theorem directory_isSome_of_eq {s t : State} (h : t.directory = s.directory) (hs : s.directory.isSome = true) :
    t.directory.isSome = true := h ▸ hs

theorem directory_isSome_resumeErase (n : Fin 64) {s : State} (hs : s.directory.isSome = true) :
    (resumeErase n s).directory.isSome = true := by
  unfold resumeErase
  split
  · split
    · simpa using hs
    · exact hs
  · exact hs

theorem directory_isSome_suspendErase (n : Fin 64) {s : State} (hs : s.directory.isSome = true) :
    (suspendErase n s).directory.isSome = true := by
  unfold suspendErase
  split
  · split
    · simpa using hs
    · exact hs
  · exact hs

theorem directory_isSome_recallRequest (number id : Byte) {s : State} (hs : s.directory.isSome = true) :
    (recallRequest number id s).2.directory.isSome = true := by
  unfold recallRequest
  split
  · exact hs
  · exact directory_isSome_suspendErase _ hs

theorem directory_isSome_saveRequest (p : Port) (id number : Byte) (name : List Byte) (selector : Byte) {s : State}
    (hs : s.directory.isSome = true) : (saveRequest p id number name selector s).2.directory.isSome = true := by
  unfold saveRequest
  simp only
  split <;> simpa using hs

theorem directory_isSome_eraseRequest (p : Port) (number complement : Byte) {s : State} (hs : s.directory.isSome = true) :
    (eraseRequest p number complement s).2.directory.isSome = true := by
  unfold eraseRequest
  simp only
  split
  · simpa using hs
  · split <;> simpa using hs

theorem directory_isSome_recallCompletes (pages : List Nat) {s : State} (hs : s.directory.isSome = true) :
    (recallCompletes pages s).directory.isSome = true := by
  unfold recallCompletes
  simp only
  split
  · unfold endRecall
    simp only
    split <;> exact directory_isSome_resumeErase _ (by simpa using hs)
  · exact hs

theorem directory_isSome_saveCompletes (failedAct : Option Nat) {s : State} (hs : s.directory.isSome = true) :
    (saveCompletes failedAct s).directory.isSome = true := by
  unfold saveCompletes endSave finishSave
  repeat' split
  all_goals simpa using hs

theorem directory_isSome_eraseCompletes (failedAct : Option Nat) {s : State} (hs : s.directory.isSome = true) :
    (eraseCompletes failedAct s).directory.isSome = true := by
  unfold eraseCompletes endErase finishErase
  repeat' split
  all_goals simpa using hs

theorem directory_isSome_cutOperation (acts : Nat) {s : State} (hs : s.directory.isSome = true) :
    (cutOperation acts s).directory.isSome = true := by
  unfold cutOperation finishSave finishErase
  simp only
  split <;> simpa using hs

/-- The directory after a command other than a read, by what its body leaves. -/
theorem portCommand_directory {p : Port} {body : State → Result × State}
    (h : ∀ {u : State}, u.directory.isSome = true → (body u).2.directory.isSome = true) {s : State}
    (hs : s.directory.isSome = true) : (portCommand p body s).directory.isSome = true := by
  unfold portCommand
  split
  · exact hs
  · have closed : (s.closeSelection p).directory.isSome = true := by simpa using hs
    simp only [State.restartInactivity_directory, State.setLastResult_directory]
    split
    · exact closed
    · exact h closed

/-- A directory that the scan has built stands until the next reset (R140). -/
theorem directory_isSome_exec_command {c : Instr} (hc : isSelection c = false) (hreset : ∀ acts, c ≠ .resetAssert acts) {s t : State}
    (h : exec c s = .next t) (hs : s.directory.isSome = true) : t.directory.isSome = true := by
  by_cases hd : .directory ∈ Changes c
  swap
  · exact directory_isSome_of_eq (exec_agrees h hd) hs
  cases c <;> simp [Changes, commandParts, isSelection] at hd hc <;> obtain rfl := Host.Outcome.next.inj h
  case resetAssert acts => exact absurd rfl (hreset acts)
  case resetRelease pages =>
    unfold releaseReset
    split
    · rfl
    · exact hs
  case startUpCompletion pages =>
    by_cases hn : s.resetLine = true ∨ s.pe.frameState ≠ .starting
    · rwa [completeStartUp_of_not pages hn]
    · rw [not_or, Bool.not_eq_true, not_not] at hn
      obtain ⟨d, slots, c, fallback, hdir, -, -, he⟩ := completeStartUp_eq pages hn.1 hn.2
      rw [he]
      exact hdir
  case recallCompletion => exact directory_isSome_recallCompletes _ hs
  case save p id number name selector =>
    split
    · exact portCommand_directory (directory_isSome_saveRequest _ _ _ _ _) hs
    · exact directory_isSome_of_eq ((unchangedBut_discardSelection p .framing s).2 .directory (by simp)) hs
  case saveCompletion => exact directory_isSome_saveCompletes _ hs
  case erase => exact portCommand_directory (directory_isSome_eraseRequest _ _ _) hs
  case eraseCompletion => exact directory_isSome_eraseCompletes _ hs
  case supplyLowAssert => exact directory_isSome_cutOperation _ hs
  -- RECALL, whose name is a keyword of Mathlib, so that `case` cannot take it.
  next p number id => exact portCommand_directory (directory_isSome_recallRequest number id) hs

end Sys2Proof.Machine
end

section
/-! In STARTING every block but the store, the ports and the outputs stands at its reset values, and no command but start-up
completion changes that (R2, R59, R65, R102, R121, R123, R142, R174). -/

namespace Sys2Proof.Machine

/-- Every block but the store, the ports, the guard lines and the outputs stands at its reset values. -/
def State.atReset (s : State) : Prop :=
  s.pe = { PixelEngine.reset with programmeOut := s.pe.programmeOut, monitorOut := s.pe.monitorOut } ∧
    s.zsa = ZoneAccumulator.reset ∧ s.it = Tracker.reset ∧ s.cu = ContextUnit.reset ∧ s.ca = Arbiter.reset ∧
    s.slots = Tab.replicate 8 Slot.reset ∧ s.controller = Controller.reset ∧ s.recallEngine = RecallEngine.reset ∧
    s.rr = { RecordRing.reset with fill := s.rr.fill }

theorem startingLaw_iff (s : State) :
    s.startingLaw ↔ (s.resetLine = true → s.pe.frameState = .starting) ∧ (s.pe.frameState = .starting → s.atReset) ∧
      (s.pe.frameState ≠ .starting → s.cu.calibration.isSome = true ∧ s.directory.isSome = true) := Iff.rfl

namespace State.atReset

variable {s : State}

theorem frameState (h : s.atReset) : s.pe.frameState = .starting := by rw [h.1]; rfl

theorem inputLostTimer (h : s.atReset) : s.pe.inputLostTimer = none := by rw [h.1]; rfl

theorem tracker (h : s.atReset) : s.it = Tracker.reset := h.2.2.1

theorem arbiter (h : s.atReset) : s.ca = Arbiter.reset := h.2.2.2.2.1

theorem controller (h : s.atReset) : s.controller = Controller.reset := h.2.2.2.2.2.2.1

theorem recallEngine (h : s.atReset) : s.recallEngine = RecallEngine.reset := h.2.2.2.2.2.2.2.1

theorem ring (h : s.atReset) : s.rr = { RecordRing.reset with fill := s.rr.fill } := h.2.2.2.2.2.2.2.2

theorem readBuffer (h : s.atReset) : s.rr.readBuffer = none := by rw [h.ring]; rfl

/-- What an event of the pixel stream gives out is no reset value (R2). -/
theorem emit (h : s.atReset) (programme monitor : Option VideoItem) :
    State.atReset { s with pe := s.pe.emit programme monitor } := by
  obtain ⟨hpe, rest⟩ := h
  exact ⟨by unfold PixelEngine.emit; rw [hpe], rest⟩

/-- The law on a state whose Record Ring alone may differ. -/
theorem withRing (h : s.atReset) {rr : RecordRing} (x : PortRState) (hrr : rr = { RecordRing.reset with fill := rr.fill }) :
    State.atReset { s with rr := rr, portR := x } := by
  obtain ⟨hpe, hzsa, hit, hcu, hca, hslots, hcontroller, hrecall, -⟩ := h
  exact ⟨hpe, hzsa, hit, hcu, hca, hslots, hcontroller, hrecall, hrr⟩

theorem isStarting (h : s.atReset) : s.isStarting = true := by simp [State.isStarting, h.frameState]

/-- No group is open at reset, so that the timer does not start (R105). -/
theorem portOnly {t : State} {p : Port} (h : s.atReset) (hp : s.portOnly t p) : t.atReset := by
  obtain ⟨x, timer, rfl, htimer⟩ := hp
  have hca := h.arbiter
  have : timer = s.ca.inactivityTimer := htimer.resolve_right (by simp [hca, Arbiter.reset])
  subst this
  cases p <;> exact h

end State.atReset

/-- In STARTING a command other than a read is refused (R174). -/
theorem portOnly_portCommand_starting {p : Port} (body : State → Result × State) {s : State}
    (hs : s.pe.frameState = .starting) : s.portOnly (portCommand p body s) p := by
  cases hr : s.resetLine with
  | true => rw [portCommand_reset hr]; exact s.portOnly_refl p
  | false => rw [portCommand_starting hr hs]; exact portOnly_discardSelection p .starting s

namespace State.atReset

theorem portCommand {s : State} (h : s.atReset) (p : Port) (body : State → Result × State) :
    (portCommand p body s).atReset := h.portOnly (portOnly_portCommand_starting body h.frameState)

theorem portRequests {s : State} (h : s.atReset) (p : Port) (r : Request) (beside : Option Request) :
    (portRequests p r beside s).atReset := by
  unfold Machine.portRequests
  split
  · exact h.portCommand p _
  split
  · exact (h.portCommand _ _).portCommand _ _
  · exact (h.portCommand _ _).portCommand _ _

end State.atReset

/-- At reset the ring holds no record, so that no act of Port R begins a transfer, and Port R stays in COMMAND mode (R162,
R164). -/
theorem keptByPortR_atReset : KeptByPortR fun s => s.transferLaw ∧ s.atReset where
  law h := h.1
  rise shifted h := ⟨keptByPortR_transferLaw.rise shifted h.1, h.2.withRing _ (by rw [h.2.ring]; rfl)⟩
  other x hn hx h := ⟨keptByPortR_transferLaw.other x hn hx h.1, h.2⟩
  records received begun hn hm h := by
    refine ⟨keptByPortR_transferLaw.records received begun hn hm h.1, h.2.withRing _ ?_⟩
    rw [h.2.isStarting, h.2.ring]
    cases begun <;> rfl
  stream hn h := by rw [h.2.isStarting] at hn; cases hn
  exit h := ⟨keptByPortR_transferLaw.exit h.1, h.2.withRing _ (by rw [h.2.ring]; rfl)⟩
  received bytes part h := ⟨keptByPortR_transferLaw.received bytes part h.1, h.2⟩
  shift {s} count h := by
    refine ⟨keptByPortR_transferLaw.shift count h.1, ?_⟩
    rw [shiftBytes_of_none h.2.readBuffer]
    split
    · exact h.2
    · exact h.2
  ends {s} h := by
    have : transferEnds s = s := by simp [transferEnds, h.2.readBuffer]
    rwa [this]
  begins {s} h := by
    refine ⟨keptByPortR_transferLaw.begins h.1, ?_⟩
    unfold transferBegins
    split
    · refine h.2.withRing s.portR ?_
      rw [h.2.ring]
      unfold RecordRing.startReading
      split <;> rfl
    · exact h.2

/-- The commands of Ports C and S that wait for the rise of select, with the requests that come two together. -/
def isPortCommand : Instr → Bool
  | .edit _ _ _ _ | .editClose _ _ _ _ | .groupOpen _ _ | .groupClose _ _ | .groupAbandon _ _ | .slotOpen _ _
  | .slotWrite _ _ _ _ _ | .slotFinish _ _ | .slotDiscard _ _ | .writeEnable _ | .writeDisable _ | .recall _ _ _
  | .save _ _ _ _ _ | .erase _ _ _ => true
  | _ => false

theorem State.atReset.exec_portCommand {c : Instr} (hc : isPortCommand c = true) {s t : State} (h : exec c s = .next t)
    (hs : s.atReset) : t.atReset := by
  cases c <;> simp [isPortCommand] at hc <;> obtain rfl := Host.Outcome.next.inj h
  case edit => exact hs.portRequests _ _ _
  case editClose => exact hs.portRequests _ _ _
  case groupOpen => exact hs.portRequests _ _ _
  case groupClose => exact hs.portRequests _ _ _
  case groupAbandon => exact hs.portRequests _ _ _
  case slotWrite p _ _ _ _ =>
    split
    · exact hs.portOnly (portOnly_discardSelection p _ s)
    · exact hs.portCommand _ _
  case save p _ _ _ _ =>
    split
    · exact hs.portCommand _ _
    · exact hs.portOnly (portOnly_discardSelection p _ s)
  all_goals exact hs.portCommand _ _

/-- The ends of operations that are not in progress at reset, and the events that are not acted on in STARTING, change the store
and the outputs alone. -/
theorem State.atReset.exec_event {c : Instr} (hreset : ∀ acts, c ≠ .resetAssert acts)
    (hstart : ∀ pages, c ≠ .startUpCompletion pages) (hsel : isSelection c = false) (hport : isPortCommand c = false)
    (hr : isPortR c = false) (hread : ∀ p, ¬ ((∃ bytes, readPort c = some (p, bytes)) ∨ c = .readStatus p)) {s t : State}
    (h : exec c s = .next t) (hs : s.atReset) : t.atReset := by
  have starting := hs.isStarting
  cases c <;> simp [isSelection, isPortCommand, isPortR, readPort] at hsel hport hr hread <;>
    obtain rfl := Host.Outcome.next.inj h
  case resetAssert acts => exact absurd rfl (hreset acts)
  case startUpCompletion pages => exact absurd rfl (hstart pages)
  case resetRelease pages =>
    unfold releaseReset
    split <;> exact hs
  case frameStart =>
    rw [if_pos (by simp [starting])]
    exact hs.emit _ _
  case pixel =>
    rw [if_pos (by simp [starting])]
    exact hs.emit _ _
  case frameEnd =>
    rw [if_neg (by simp [hs.frameState])]
    exact hs.emit _ _
  case inputLost ms =>
    rw [(elapseInput_spec ms s).1 hs.inputLostTimer]
    exact hs
  case evaluationCompletion =>
    have : evaluationCompletes s = s := by simp [evaluationCompletes, hs.tracker, Tracker.reset]
    rwa [this]
  case trackerSubmission =>
    have : takeSubmission s = s := by simp [takeSubmission, hs.tracker, Tracker.reset]
    rwa [this]
  case groupExpiry ms =>
    rw [(elapseGroup_spec ms s).1 (by rw [hs.arbiter]; rfl)]
    exact hs
  case recallCompletion pages =>
    have : recallCompletes pages s = { s with store := s.store.decay pages } := by
      simp [recallCompletes, hs.recallEngine, RecallEngine.reset]
    rw [this]
    exact hs
  case saveCompletion act =>
    have : saveCompletes act s = s := by simp [saveCompletes, hs.controller, Controller.reset]
    rwa [this]
  case eraseCompletion act =>
    have : eraseCompletes act s = s := by simp [eraseCompletes, hs.controller, Controller.reset]
    rwa [this]
  case supplyLowAssert acts =>
    have : cutOperation acts s = s := by simp [cutOperation, hs.controller, Controller.reset]
    rw [this]
    exact hs
  case supplyLowDeassert => exact hs
  case calibrationProtectChange => exact hs

/-- No command but a reset and the completion of start-up changes what stands at its reset values. -/
theorem State.atReset.exec {c : Instr} (hreset : ∀ acts, c ≠ .resetAssert acts)
    (hstart : ∀ pages, c ≠ .startUpCompletion pages) (hsel : isSelection c = false) {s t : State} (h : exec c s = .next t)
    (hl : s.transferLaw) (hs : s.atReset) : t.atReset := by
  by_cases hread : ∃ p, (∃ bytes, readPort c = some (p, bytes)) ∨ c = .readStatus p
  · obtain ⟨p, hread⟩ := hread
    exact hs.portOnly (portOnly_of_read hread h)
  cases hport : isPortCommand c with
  | true => exact hs.exec_portCommand hport h
  | false =>
    cases hr : isPortR c with
    | true => exact (keptByPortR_atReset.exec hr h ⟨hl, hs⟩).2
    | false => exact hs.exec_event hreset hstart hsel hport hr (fun p hp => hread ⟨p, hp⟩) h

end Sys2Proof.Machine
end

section
/-! The laws of the records, the frames and the tracker from step to step (R8, R59, R61, R65, R75, R79, R101, R154, R159). -/

namespace Sys2Proof.Machine

/-! ## Frame events by their cases -/

theorem exec_frameStart_cases {w h : Half} {s t : State} (he : exec (.frameStart w h) s = .next t) :
    t = emitNothing s ∨ (s.operating ∧ t = startFrame w h s) := by
  by_cases ho : s.operating
  · rw [exec_frameStart ho] at he
    exact .inr ⟨ho, (Host.Outcome.next.inj he).symm⟩
  · obtain rfl := Host.Outcome.next.inj he
    refine .inl (if_pos ?_)
    by_contra hc
    simp only [State.isStarting, Bool.or_eq_true, decide_eq_true_eq, not_or, Bool.not_eq_true] at hc
    exact ho hc

theorem exec_frameEnd_cases {s t : State} (he : exec .frameEnd s = .next t) :
    t = emitNothing s ∨ (s.pe.frameState = .inFrame ∧ t = endFrame s) := by
  obtain rfl := Host.Outcome.next.inj he
  split
  · next hc => exact .inr ⟨by simpa using (Bool.and_eq_true_iff.1 hc).2, rfl⟩
  · exact .inl rfl

theorem exec_pixel_cases {r g b : Half} {s t : State} (he : exec (.pixel r g b) s = .next t) :
    (∃ programme monitor, t = { s with pe := s.pe.emit programme monitor }) ∨
      (s.pe.frameState = .inFrame ∧ t = transformPixel r g b s) := by
  obtain rfl := Host.Outcome.next.inj he
  split
  · exact .inl ⟨_, _, rfl⟩
  split
  · next hf => exact .inr ⟨hf, rfl⟩
  · exact .inl ⟨_, _, rfl⟩

/-- Where the input-lost timer runs it advances or the input is lost; else nothing changes (R8). -/
theorem elapseInput_cases (ms : Nat) (s : State) :
    elapseInput ms s = s ∨
      ((s.pe.frameState = .betweenFrames ∨ s.pe.frameState = .inFrame) ∧
        (elapseInput ms s = loseInput s ∨
          ∃ k, elapseInput ms s = { s with pe := { s.pe with inputLostTimer := some k } })) := by
  obtain ⟨hstopped, hidle, hruns⟩ := elapseInput_spec ms s
  cases hr : inputTimerRuns s with
  | false => exact .inl (hidle hr)
  | true =>
    cases hk : s.pe.inputLostTimer with
    | none => exact .inl (hstopped hk)
    | some k =>
      refine .inr ⟨by simpa using (Bool.and_eq_true_iff.1 hr).2, ?_⟩
      obtain ⟨hlost, hon⟩ := hruns k hr hk
      by_cases hlimit : 500 ≤ k + ms
      · exact .inl (hlost hlimit)
      · exact .inr ⟨_, hon (by omega)⟩

/-- The completion of start-up, or nothing (R4). -/
theorem exec_startUp_cases {pages : List Nat} {s t : State} (he : exec (.startUpCompletion pages) s = .next t) :
    t = s ∨ (s.resetLine = false ∧ s.pe.frameState = .starting ∧ t = completeStartUp pages s) := by
  obtain rfl := Host.Outcome.next.inj he
  by_cases hn : s.resetLine = true ∨ s.pe.frameState ≠ .starting
  · exact .inl (completeStartUp_of_not pages hn)
  · rw [not_or, Bool.not_eq_true, not_not] at hn
    exact .inr ⟨hn.1, hn.2, rfl⟩

/-! ## The law of STARTING is kept -/

/-- Outside STARTING no command but a reset enters it (R2). -/
theorem exec_not_starting {c : Instr} (hreset : ∀ acts, c ≠ .resetAssert acts) (hc : isSelection c = false) {s t : State}
    (h : exec c s = .next t) (hs : s.pe.frameState ≠ .starting) : t.pe.frameState ≠ .starting := by
  by_cases he : .engine ∈ Changes c
  swap
  · rw [(exec_agrees h he).1]
    exact hs
  cases c <;> simp [Changes, commandParts, isSelection] at he hc
  case resetAssert acts => exact absurd rfl (hreset acts)
  case startUpCompletion pages =>
    rcases exec_startUp_cases h with rfl | ⟨-, hn, -⟩
    · exact hs
    · exact absurd hn hs
  case frameStart w h' =>
    rcases exec_frameStart_cases h with rfl | ⟨-, rfl⟩
    · exact hs
    · obtain ⟨o, r, z, he, -⟩ := startFrame_eq w h' s
      rw [he]
      exact fun hn => nomatch hn
  case frameEnd =>
    rcases exec_frameEnd_cases h with rfl | ⟨-, rfl⟩
    · exact hs
    · exact fun hn => nomatch hn
  case inputLost ms =>
    obtain rfl := Host.Outcome.next.inj h
    rcases elapseInput_cases ms s with he | ⟨-, he | ⟨k, he⟩⟩ <;> rw [he]
    · exact hs
    · exact fun hn => nomatch hn
    · exact hs

theorem State.atReset.startingLaw {s : State} (h : s.atReset) : s.startingLaw :=
  ⟨fun _ => h.frameState, fun _ => h, fun hn => absurd h.frameState hn⟩

/-- Outside STARTING the law asks for the reset line released, a calibration set and a directory. -/
theorem startingLaw_of_not_starting {s t : State} (hs : s.startingLaw) (hn : s.pe.frameState ≠ .starting)
    (ht : t.pe.frameState ≠ .starting) (hline : t.resetLine = true → s.resetLine = true)
    (hcalibration : t.cu.calibration = s.cu.calibration)
    (hdirectory : s.directory.isSome = true → t.directory.isSome = true) : t.startingLaw := by
  obtain ⟨hreset, -, hset⟩ := hs
  obtain ⟨hc, hd⟩ := hset hn
  exact ⟨fun hr => absurd (hreset (hline hr)) hn, fun h => absurd h ht, fun _ => ⟨hcalibration ▸ hc, hdirectory hd⟩⟩

theorem State.portOnly.startingLaw {s t : State} {p : Port} (h : s.portOnly t p) (hs : s.startingLaw) : t.startingLaw := by
  by_cases hn : s.pe.frameState = .starting
  · exact (State.atReset.portOnly (hs.2.1 hn) h).startingLaw
  · obtain ⟨x, timer, rfl, -⟩ := h
    cases p <;> exact startingLaw_of_not_starting hs hn hn id rfl id

/-- The line stays released unless a reset asserts it (R2). -/
theorem exec_resetLine {c : Instr} (hreset : ∀ acts, c ≠ .resetAssert acts) (hc : isSelection c = false) {s t : State}
    (h : exec c s = .next t) (ht : t.resetLine = true) : s.resetLine = true := by
  by_cases hl : .resetLine ∈ Changes c
  swap
  · exact (exec_agrees h hl).symm.trans ht
  cases c <;> simp [Changes, commandParts, isSelection] at hl hc
  case resetAssert acts => exact absurd rfl (hreset acts)
  case resetRelease pages =>
    obtain rfl := Host.Outcome.next.inj h
    unfold releaseReset at ht
    split at ht
    · cases ht
    · exact ht

/-- The calibration set in use and CAL_FALLBACK change at a reset and at start-up alone (R3, R43). -/
theorem calibration_not_mem_Changes {c : Instr} (hreset : ∀ acts, c ≠ .resetAssert acts)
    (hstart : ∀ pages, c ≠ .startUpCompletion pages) : .calibration ∉ Changes c := by
  cases c <;> simp [Changes, commandParts, requestsParts]
  case resetAssert acts => exact hreset acts rfl
  case startUpCompletion pages => exact hstart pages rfl
  case framing p received part => exact not_mem_selectionParts (by simp)
  case unknown p received => exact not_mem_selectionParts (by simp)
  case selectionEnd line moment => cases line <;> simp [lineParts]

theorem startingLaw_exec_command {c : Instr} (hc : isSelection c = false) {s t : State} (hs : s.startingLaw)
    (hl : s.transferLaw) (h : exec c s = .next t) : t.startingLaw := by
  by_cases hreset : ∃ acts, c = .resetAssert acts
  · obtain ⟨acts, rfl⟩ := hreset
    obtain rfl := Host.Outcome.next.inj h
    exact State.atReset.startingLaw ⟨rfl, rfl, rfl, rfl, rfl, rfl, rfl, rfl, rfl⟩
  replace hreset : ∀ acts, c ≠ .resetAssert acts := fun acts e => hreset ⟨acts, e⟩
  by_cases hstart : ∃ pages, c = .startUpCompletion pages
  · obtain ⟨pages, rfl⟩ := hstart
    rcases exec_startUp_cases h with rfl | ⟨hr, hn, rfl⟩
    · exact hs
    · obtain ⟨d, slots, cal, fallback, hd, -, -, he⟩ := completeStartUp_eq pages hr hn
      rw [he]
      refine ⟨fun h => ?_, fun h => ?_, fun _ => ⟨rfl, hd⟩⟩
      · exact Bool.noConfusion (hr.symm.trans h)
      · exact FrameState.noConfusion (show FrameState.noInput = .starting from h)
  replace hstart : ∀ pages, c ≠ .startUpCompletion pages := fun pages e => hstart ⟨pages, e⟩
  by_cases hn : s.pe.frameState = .starting
  · exact (State.atReset.exec hreset hstart hc h hl (hs.2.1 hn)).startingLaw
  · exact startingLaw_of_not_starting hs hn (exec_not_starting hreset hc h hn) (exec_resetLine hreset hc h)
      (exec_agrees h (calibration_not_mem_Changes hreset hstart)).1 (directory_isSome_exec_command hc hreset h)

theorem startingLaw_exec {c : Instr} {s t : State} (hs : s.startingLaw) (hl : s.transferLaw) (h : exec c s = .next t) :
    t.startingLaw := by
  refine exec_keeps (P := fun s => s.startingLaw ∧ s.transferLaw) (Q := State.startingLaw) State.portOnly.startingLaw
    (fun hc hP h => startingLaw_exec_command hc hP.1 hP.2 h) (fun {moment s t} hP h => ?_) And.left ⟨hs, hl⟩ h
  by_cases hn : s.pe.frameState = .starting
  · exact (keptByPortR_atReset.exec rfl h ⟨hP.2, hP.1.2.1 hn⟩).2.startingLaw
  · have same : ∀ part, part ∉ [Part.portR, Part.records] → s.agrees t part := fun part hp => exec_agrees h hp
    have frame : t.pe.frameState = s.pe.frameState := (same .engine (by simp)).1
    exact startingLaw_of_not_starting hP.1 hn (frame ▸ hn) (fun hr => (same .resetLine (by simp)).symm.trans hr)
      (same .calibration (by simp)).1 (directory_isSome_of_eq (same .directory (by simp)))

/-! ## The law on transfers is kept -/

theorem transferLaw_exec {c : Instr} {s t : State} (hl : s.transferLaw) (h : exec c s = .next t) : t.transferLaw := by
  cases hr : isPortR c with
  | true => exact keptByPortR_transferLaw.exec hr h hl
  | false =>
    by_cases hp : .portR ∈ Changes c
    swap
    · exact transferLaw_of_agrees (exec_agrees h hp) hl
    cases c <;> simp [Changes, commandParts, requestsParts, isPortR] at hp hr
    case resetAssert acts =>
      obtain rfl := Host.Outcome.next.inj h
      exact transferLaw_of_noTransfer ⟨rfl, rfl⟩ fun _ _ => rfl
    case framing p received part => exact absurd hp (not_mem_selectionParts (by simp))
    case unknown p received => exact absurd hp (not_mem_selectionParts (by simp))
    case selectionEnd line moment => cases line <;> simp [lineParts] at hp hr

end Sys2Proof.Machine
end

section
/-! The open record and the ring from step to step (R9, R154, R159). -/

namespace Sys2Proof.Machine

/-! ## Frame numbers in the ring -/

/-- The records of a ring bear consecutive frame numbers, the newest that of the frame given (R9, R159). -/
def numbered (ring : List FrameRecord) (last : Word) : Prop :=
  ∀ k, ∀ r, ring.reverse[k]? = some r → r.opening.frameNumber = last - BitVec.ofNat 32 k

theorem numbered_nil (last : Word) : numbered [] last := by
  intro k r h
  simp at h

theorem numbered.tail {r : FrameRecord} {ring : List FrameRecord} {last : Word} (h : numbered (r :: ring) last) :
    numbered ring last := by
  intro k x hx
  refine h k x ?_
  have hk : k < ring.reverse.length := (List.getElem?_eq_some_iff.1 hx).1
  rw [List.reverse_cons, List.getElem?_append_left hk, hx]

/-- The record of the next frame at the tail. -/
theorem numbered.snoc {ring : List FrameRecord} {last : Word} (h : numbered ring last) {r : FrameRecord}
    (hr : r.opening.frameNumber = last + 1) : numbered (ring ++ [r]) (last + 1) := by
  intro k x hx
  rw [List.reverse_append, List.reverse_singleton, List.singleton_append] at hx
  cases k with
  | zero =>
    obtain rfl := Option.some.inj hx
    simpa using hr
  | succ k =>
    rw [h k x hx]
    have : BitVec.ofNat 32 (k + 1) = BitVec.ofNat 32 k + 1 := by simp [BitVec.ofNat_add]
    rw [this, add_sub_add_right_eq_sub]

/-- A completed record of the next frame joins the ring (R159). -/
theorem numbered_joinRing {ring : List FrameRecord} {last : Word} (h : numbered ring last) {r : FrameRecord}
    (hr : r.opening.frameNumber = last + 1) : numbered (joinRing ring r) (last + 1) := by
  unfold joinRing
  split
  · cases ring with
    | nil => exact h.snoc hr
    | cons oldest rest => exact h.tail.snoc hr
  · exact h.snoc hr

theorem length_joinRing {ring : List FrameRecord} (h : ring.length ≤ ringCapacity) (r : FrameRecord) :
    (joinRing ring r).length ≤ ringCapacity := by
  unfold joinRing ringCapacity at *
  split <;> simp <;> omega

/-- A record whose transfer has ended is at most the head of the ring (R160). -/
theorem numbered_removeTransferred {ring : List FrameRecord} {last : Word} (h : numbered ring last) (r : FrameRecord) :
    numbered (removeTransferred ring r) last := by
  unfold removeTransferred
  split
  · exact h
  split
  · exact h.tail
  · exact h

theorem length_removeTransferred (ring : List FrameRecord) (r : FrameRecord) :
    (removeTransferred ring r).length ≤ ring.length := by
  unfold removeTransferred
  split
  · exact Nat.le_refl _
  split <;> simp

/-! ## The law -/

/-- What recordLaw says of the open record and the ring. -/
def State.ringLaw (s : State) : Prop :=
  (s.rr.openRecord.isSome = true ↔ s.pe.frameState = .inFrame) ∧
    (∀ o, s.rr.openRecord = some o → o.frameNumber = s.pe.frameNumber) ∧
    s.rr.ring.length ≤ ringCapacity ∧ numbered s.rr.ring s.pe.lastFrameOver

theorem recordLaw_iff (s : State) : s.recordLaw ↔ s.ringLaw ∧ s.transferLaw := by
  unfold State.recordLaw State.ringLaw State.transferLaw numbered
  simp only [and_assoc]

theorem ringLaw_of_agrees {s t : State} (hr : s.agrees t .records) (he : s.agrees t .engine) (hs : s.ringLaw) : t.ringLaw := by
  obtain ⟨hopen, hring⟩ := hr
  obtain ⟨hframe, hnumber, -⟩ := he
  unfold State.ringLaw PixelEngine.lastFrameOver
  rw [hopen, hring, hframe, hnumber]
  exact hs

/-- The law without an open record: the ring ends with the current frame. -/
theorem ringLaw_of_none {s : State} (hopen : s.rr.openRecord = none) (hframe : s.pe.frameState ≠ .inFrame)
    (hlength : s.rr.ring.length ≤ ringCapacity) (hring : numbered s.rr.ring s.pe.frameNumber) : s.ringLaw := by
  refine ⟨by simp [hopen, hframe], by simp [hopen], hlength, ?_⟩
  unfold PixelEngine.lastFrameOver
  rwa [if_neg hframe]

/-- The open record completed, if there is one: the ring ends with the current frame (R157 to R159). -/
theorem ring_completeOpenRecord {s : State} (hs : s.ringLaw) (skipped : Bool) (counts : Option CountsBlock) :
    let t := completeOpenRecord skipped counts s
    t.rr.openRecord = none ∧ t.rr.ring.length ≤ ringCapacity ∧ numbered t.rr.ring s.pe.frameNumber := by
  obtain ⟨hopen, hnumber, hlength, hring⟩ := hs
  obtain ⟨hsome, hnone⟩ := completeOpenRecord_spec skipped counts s
  unfold PixelEngine.lastFrameOver at hring
  cases ho : s.rr.openRecord with
  | none =>
    have hframe : s.pe.frameState ≠ .inFrame := fun h => by simp [ho] at hopen; exact hopen h
    rw [if_neg hframe] at hring
    rw [hnone ho]
    exact ⟨ho, hlength, hring⟩
  | some o =>
    rw [if_pos (hopen.1 (by simp [ho]))] at hring
    rw [hsome o ho]
    refine ⟨rfl, length_joinRing hlength _, ?_⟩
    have := numbered_joinRing hring (r := completed o s.it skipped counts) ?_
    · rwa [sub_add_cancel] at this
    · rw [sub_add_cancel]
      exact hnumber o ho

/-- What comes before the pass of a frame start or of input loss: no record is open, and the ring ends with the current frame
(R6, R8, R158). -/
theorem ring_truncateIfInFrame {s : State} (hs : s.ringLaw) :
    let t := if s.pe.frameState = .inFrame then truncateFrame s else s
    t.rr.openRecord = none ∧ t.rr.ring.length ≤ ringCapacity ∧ numbered t.rr.ring s.pe.frameNumber := by
  have truncated := ring_completeOpenRecord hs false none
  have closed : s.pe.frameState ≠ .inFrame → completeOpenRecord false none s = s := fun hn =>
    (completeOpenRecord_spec false none s).2 (by
      obtain ⟨hopen, -⟩ := hs
      cases ho : s.rr.openRecord with
      | none => rfl
      | some o => exact absurd (hopen.1 (by simp [ho])) hn)
  simp only
  split
  · exact truncated
  · next hn => rwa [closed hn] at truncated

theorem ringLaw_startFrame {s : State} (hs : s.ringLaw) (w h : Half) : (startFrame w h s).ringLaw := by
  have before := ring_truncateIfInFrame hs
  obtain ⟨o, r, z, he, ht⟩ := startFrame_eq w h s
  rw [ht] at before
  rw [he]
  obtain ⟨-, hlength, hring⟩ := before
  refine ⟨⟨fun _ => rfl, fun _ => rfl⟩, fun o ho => ?_, hlength, ?_⟩
  · obtain rfl := Option.some.inj ho
    rfl
  · show numbered r (s.pe.frameNumber + 1 - 1)
    rwa [add_sub_cancel_right]

theorem ringLaw_endFrame {s : State} (hs : s.ringLaw) : (endFrame s).ringLaw := by
  obtain ⟨hopen, hlength, hring⟩ :=
    ring_completeOpenRecord hs (offerRefused s) (some (countsBlock s s.zsa.qualifyingCount))
  obtain ⟨ho, hr⟩ := (unchangedBut_offerZones
    (completeOpenRecord (offerRefused s) (some (countsBlock s s.zsa.qualifyingCount)) s)).2 .records (by simp)
  have hnumber : (endFrame s).pe.frameNumber = s.pe.frameNumber :=
    ((unchangedBut_offerZones _).2 .engine (by simp)).2.1.trans ((unchangedBut_completeOpenRecord _ _ s).2 .engine (by simp)).2.1
  refine ringLaw_of_none (ho.trans hopen) (fun h => nomatch h) ?_ ?_
  · exact hr ▸ hlength
  · rw [hnumber]
    exact hr ▸ hring

theorem ringLaw_loseInput {s : State} (hs : s.ringLaw) : (loseInput s).ringLaw := by
  have before := ring_truncateIfInFrame hs
  obtain ⟨o, r, z, he, -⟩ := truncateIfInFrame_eq s
  unfold loseInput
  simp only [he] at before ⊢
  obtain ⟨hopen, hlength, hring⟩ := before
  exact ringLaw_of_none hopen (fun h => nomatch h) hlength hring

theorem ringLaw_elapseInput {s : State} (hs : s.ringLaw) (ms : Nat) : (elapseInput ms s).ringLaw := by
  rcases elapseInput_cases ms s with he | ⟨-, he | ⟨k, he⟩⟩ <;> rw [he]
  · exact hs
  · exact ringLaw_loseInput hs
  · exact hs

theorem ringLaw_transferEnds {s : State} (hs : s.ringLaw) : (transferEnds s).ringLaw := by
  obtain ⟨hopen, hnumber, hlength, hring⟩ := id hs
  unfold transferEnds
  split
  · exact hs
  · exact ⟨hopen, hnumber, (length_removeTransferred _ _).trans hlength, numbered_removeTransferred hring _⟩

/-- Every act of Port R but the end of a transfer leaves the records as they are (R160). -/
theorem keptByPortR_recordLaw : KeptByPortR State.recordLaw := by
  have keep : ∀ {s t : State}, s.unchangedBut t [.portR] → t.transferLaw → s.recordLaw → t.recordLaw := by
    intro s t hu ht hs
    have ring := ((recordLaw_iff s).1 hs).1
    exact (recordLaw_iff t).2 ⟨ringLaw_of_agrees (hu.2 .records (by simp)) (hu.2 .engine (by simp)) ring, ht⟩
  have law : ∀ {s : State}, s.recordLaw → s.transferLaw := fun hs => ((recordLaw_iff _).1 hs).2
  have k := keptByPortR_transferLaw
  exact {
    law := law
    rise := fun shifted hs => keep (unchangedBut_portR rfl) (k.rise shifted (law hs)) hs
    other := fun x hn hx hs => keep (unchangedBut_portR rfl) (k.other x hn hx (law hs)) hs
    records := fun received begun hn hm hs =>
      keep (unchangedBut_recordSelection received begun _) (k.records received begun hn hm (law hs)) hs
    stream := fun hn hs => keep (unchangedBut_portR rfl) (k.stream hn (law hs)) hs
    exit := fun hs => keep (unchangedBut_takeExit _) (k.exit (law hs)) hs
    received := fun bytes part hs => keep (unchangedBut_receivedR _ bytes part) (k.received bytes part (law hs)) hs
    shift := fun count hs => keep (unchangedBut_shiftBytes count _) (k.shift count (law hs)) hs
    ends := fun hs => (recordLaw_iff _).2 ⟨ringLaw_transferEnds ((recordLaw_iff _).1 hs).1, k.ends (law hs)⟩
    begins := fun hs => keep (unchangedBut_transferBegins _) (k.begins (law hs)) hs }

/-- Every command keeps the law of the open record and the ring. -/
theorem ringLaw_exec {c : Instr} {s t : State} (hstart : s.startingLaw) (hs : s.recordLaw) (h : exec c s = .next t) :
    t.ringLaw := by
  obtain ⟨ring, -⟩ := (recordLaw_iff s).1 hs
  cases hr : isPortR c with
  | true => exact ((recordLaw_iff t).1 (keptByPortR_recordLaw.exec hr h hs)).1
  | false =>
  by_cases hq : .records ∉ Changes c ∧ .engine ∉ Changes c
  · exact ringLaw_of_agrees (exec_agrees h hq.1) (exec_agrees h hq.2) ring
  cases c <;> simp [Changes, commandParts, requestsParts, isPortR] at hq hr
  case resetAssert acts =>
    obtain rfl := Host.Outcome.next.inj h
    exact ringLaw_of_none rfl (fun h => nomatch h) (Nat.zero_le _) (numbered_nil _)
  case startUpCompletion pages =>
    rcases exec_startUp_cases h with rfl | ⟨hline, hn, rfl⟩
    · exact ring
    · obtain ⟨d, slots, cal, fallback, -, -, -, he⟩ := completeStartUp_eq pages hline hn
      rw [he]
      have hrr := State.atReset.ring (hstart.2.1 hn)
      have hring : s.rr.ring = [] := by rw [hrr]; rfl
      refine ringLaw_of_none (s := _) ?_ (fun h => nomatch h) ?_ ?_
      · show s.rr.openRecord = none
        rw [hrr]
        rfl
      · show s.rr.ring.length ≤ ringCapacity
        simp [hring]
      · show numbered s.rr.ring _
        rw [hring]
        exact numbered_nil _
  case frameStart w h' =>
    rcases exec_frameStart_cases h with rfl | ⟨-, rfl⟩
    · exact ring
    · exact ringLaw_startFrame ring w h'
  case frameEnd =>
    rcases exec_frameEnd_cases h with rfl | ⟨-, rfl⟩
    · exact ring
    · exact ringLaw_endFrame ring
  case inputLost ms =>
    obtain rfl := Host.Outcome.next.inj h
    exact ringLaw_elapseInput ring ms
  case framing p received part => exact absurd (hq (not_mem_selectionParts (by simp))) (not_mem_selectionParts (by simp))
  case unknown p received => exact absurd (hq (not_mem_selectionParts (by simp))) (not_mem_selectionParts (by simp))
  case selectionEnd line moment => cases line <;> simp [lineParts] at hq hr

theorem recordLaw_exec {c : Instr} {s t : State} (hstart : s.startingLaw) (hs : s.recordLaw) (h : exec c s = .next t) :
    t.recordLaw :=
  (recordLaw_iff t).2 ⟨ringLaw_exec hstart hs h, transferLaw_exec ((recordLaw_iff s).1 hs).2 h⟩

end Sys2Proof.Machine
end

section
/-! The laws of the frames and the tracker from step to step (R8, R59, R61, R65, R75, R79, R101), and O59. -/

namespace Sys2Proof.Machine

/-! ## The zone accumulator and the input-lost timer -/

/-- What frameLaw says of the zone accumulator and the input-lost timer. -/
def State.zoneLaw (s : State) : Prop :=
  (s.zsa.state ≠ .idle ↔ s.pe.frameState = .inFrame) ∧
    (s.zsa.state = .gathering → s.pe.geometryValid = true) ∧
    (s.zsa.state ≠ .idle → s.zsa.frameNumber = s.pe.frameNumber ∧ s.zsa.width = s.pe.width ∧ s.zsa.height = s.pe.height) ∧
    (s.pe.inputLostTimer.isSome = true ↔ s.pe.frameState = .betweenFrames ∨ s.pe.frameState = .inFrame)

theorem frameLaw_iff (s : State) : s.frameLaw ↔ s.zoneLaw ∧ s.cu.appliedChanges.length ≤ 32 := by
  unfold State.frameLaw State.zoneLaw
  simp only [and_assoc]

theorem zoneLaw_of_agrees {s t : State} (hz : s.agrees t .zones) (he : s.agrees t .engine) (hs : s.zoneLaw) : t.zoneLaw := by
  obtain ⟨hframe, hnumber, hwidth, hheight, hgeometry, htimer⟩ := he
  change t.zsa = s.zsa at hz
  unfold State.zoneLaw
  rw [hz, hframe, hnumber, hwidth, hheight, hgeometry, htimer]
  exact hs

/-- Outside a frame the zone accumulator is IDLE (R59). -/
theorem zoneLaw_of_idle {s : State} (hz : s.zsa.state = .idle) (hf : s.pe.frameState ≠ .inFrame)
    (ht : s.pe.inputLostTimer.isSome = true ↔ s.pe.frameState = .betweenFrames) : s.zoneLaw := by
  refine ⟨by simp [hz, hf], by simp [hz], by simp [hz], by simpa [hf] using ht⟩

@[simp] theorem ZoneAccumulator.discard_state (z : ZoneAccumulator) : z.discard.state = .idle := by
  unfold ZoneAccumulator.discard
  split
  · assumption
  · rfl

/-- What the gathering of a pixel leaves (R62). -/
theorem ZoneAccumulator.gather_eq (z : ZoneAccumulator) (column row : Nat) (f : FrontStage) :
    z.gather column row f = { z with zones := (z.gather column row f).zones } := by
  unfold ZoneAccumulator.gather
  split <;> rfl

theorem handPixel_eq (s : State) (f : FrontStage) : handPixel s f = { s.zsa with zones := (handPixel s f).zones } := by
  unfold handPixel
  simp only
  split
  · exact ZoneAccumulator.gather_eq _ _ _ _
  · rfl

/-- After a frame end the zone accumulator is IDLE (R63). -/
theorem offerZones_state (s : State) : (offerZones s).zsa.state = .idle := by
  unfold offerZones
  split
  · assumption
  · rfl
  · split <;> rfl

theorem zoneLaw_startFrame (w h : Half) (s : State) : (startFrame w h s).zoneLaw := by
  obtain ⟨o, r, z, he, -⟩ := startFrame_eq w h s
  rw [he]
  refine ⟨⟨fun _ => rfl, fun _ => ?_⟩, fun hg => ?_, fun _ => ⟨rfl, rfl, rfl⟩, ⟨fun _ => .inr rfl, fun _ => rfl⟩⟩
  · show (if geometryInRange w h then GatherState.gathering else .notGathering) ≠ .idle
    split <;> simp
  · change (if geometryInRange w h then GatherState.gathering else .notGathering) = .gathering at hg
    show geometryInRange w h = true
    split at hg
    · assumption
    · cases hg

theorem zoneLaw_endFrame {s : State} (hs : s.zoneLaw) (hf : s.pe.frameState = .inFrame) : (endFrame s).zoneLaw := by
  obtain ⟨-, -, -, htimer⟩ := hs
  have same : (endFrame s).pe.inputLostTimer = s.pe.inputLostTimer := by
    obtain ⟨-, -, -, -, -, hoffered⟩ := (unchangedBut_offerZones
      (completeOpenRecord (offerRefused s) (some (countsBlock s s.zsa.qualifyingCount)) s)).2 .engine (by simp)
    obtain ⟨-, -, -, -, -, hrecorded⟩ := (unchangedBut_completeOpenRecord (offerRefused s)
      (some (countsBlock s s.zsa.qualifyingCount)) s).2 .engine (by simp)
    exact hoffered.trans hrecorded
  refine zoneLaw_of_idle (offerZones_state _) (fun h => nomatch h) ⟨fun _ => rfl, fun _ => ?_⟩
  rw [same]
  exact htimer.2 (.inr hf)

theorem zoneLaw_loseInput {s : State} (hs : s.zoneLaw) : (loseInput s).zoneLaw := by
  obtain ⟨hidle, -⟩ := hs
  obtain ⟨o, r, z, he, hin, hout⟩ := truncateIfInFrame_eq s
  unfold loseInput
  simp only [he]
  refine zoneLaw_of_idle ?_ (fun h => nomatch h) ⟨fun h => (nomatch h), fun h => (nomatch h)⟩
  show z.state = .idle
  by_cases hf : s.pe.frameState = .inFrame
  · rw [(hin hf).2]
    exact ZoneAccumulator.discard_state _
  · rw [(hout hf).2.2]
    by_contra hz
    exact hf (hidle.1 hz)

theorem zoneLaw_elapseInput {s : State} (hs : s.zoneLaw) (ms : Nat) : (elapseInput ms s).zoneLaw := by
  rcases elapseInput_cases ms s with he | ⟨hf, he | ⟨k, he⟩⟩ <;> rw [he]
  · exact hs
  · exact zoneLaw_loseInput hs
  · obtain ⟨hidle, hgathering, hframe, -⟩ := hs
    exact ⟨hidle, hgathering, hframe, ⟨fun _ => hf, fun _ => rfl⟩⟩

theorem zoneLaw_transformPixel {s : State} (hs : s.zoneLaw) (r g b : Half) : (transformPixel r g b s).zoneLaw := by
  unfold transformPixel State.zoneLaw
  simp only
  rw [handPixel_eq]
  exact hs

theorem zoneLaw_exec {c : Instr} {s t : State} (hstart : s.startingLaw) (hs : s.zoneLaw) (h : exec c s = .next t) :
    t.zoneLaw := by
  by_cases hq : .zones ∉ Changes c ∧ .engine ∉ Changes c
  · exact zoneLaw_of_agrees (exec_agrees h hq.1) (exec_agrees h hq.2) hs
  cases c <;> simp [Changes, commandParts, requestsParts] at hq
  case resetAssert acts =>
    obtain rfl := Host.Outcome.next.inj h
    exact zoneLaw_of_idle rfl (fun h => nomatch h) ⟨fun h => (nomatch h), fun h => (nomatch h)⟩
  case startUpCompletion pages =>
    rcases exec_startUp_cases h with rfl | ⟨hline, hn, rfl⟩
    · exact hs
    · obtain ⟨d, slots, cal, fallback, -, -, -, he⟩ := completeStartUp_eq pages hline hn
      obtain ⟨-, hzsa, -⟩ : s.atReset := hstart.2.1 hn
      rw [he]
      refine zoneLaw_of_idle ?_ (fun h => nomatch h) ⟨fun h => (nomatch h), fun h => (nomatch h)⟩
      show s.zsa.state = .idle
      rw [hzsa]
      rfl
  case frameStart w h' =>
    rcases exec_frameStart_cases h with rfl | ⟨-, rfl⟩
    · exact hs
    · exact zoneLaw_startFrame w h' s
  case pixel r g b =>
    rcases exec_pixel_cases h with ⟨programme, monitor, rfl⟩ | ⟨-, rfl⟩
    · exact hs
    · exact zoneLaw_transformPixel hs r g b
  case frameEnd =>
    rcases exec_frameEnd_cases h with rfl | ⟨hf, rfl⟩
    · exact hs
    · exact zoneLaw_endFrame hs hf
  case inputLost ms =>
    obtain rfl := Host.Outcome.next.inj h
    exact zoneLaw_elapseInput hs ms
  case framing p received part => exact absurd (hq (not_mem_selectionParts (by simp))) (not_mem_selectionParts (by simp))
  case unknown p received => exact absurd (hq (not_mem_selectionParts (by simp))) (not_mem_selectionParts (by simp))
  case selectionEnd line moment => cases line <;> simp [lineParts] at hq

/-! ## The applied-change list (R101) -/

theorem length_applyEntry_items {kind : PassKind} {w : Pass} (h : w.items.length ≤ 32) (e : Entry) :
    (applyEntry kind w e).items.length ≤ 32 := by
  have pushed : ∀ x, (pushItem w.items x).length ≤ 32 := fun x => by
    obtain ⟨-, -, hl⟩ := pushItem_spec w.items x
    omega
  unfold applyEntry
  split <;> exact pushed _

/-- A pass leaves at most 32 items in the list. -/
theorem length_runPass_appliedChanges {s : State} (kind : PassKind) (h : s.cu.appliedChanges.length ≤ 32) :
    (runPass kind s).cu.appliedChanges.length ≤ 32 := by
  have fold : ∀ (l : List Entry) (w : Pass), w.items.length ≤ 32 → (l.foldl (applyEntry kind) w).items.length ≤ 32 := by
    intro l
    induction l with
    | nil => exact fun _ hw => hw
    | cons e rest ih => exact fun w hw => ih _ (length_applyEntry_items hw e)
  exact fold _ _ h

/-- The list holds at most 32 items. -/
def State.appliedLaw (s : State) : Prop := s.cu.appliedChanges.length ≤ 32

theorem appliedLaw_of_agrees {s t : State} (h : s.agrees t .appliedChanges) (hs : s.appliedLaw) : t.appliedLaw := by
  change t.cu.appliedChanges = s.cu.appliedChanges at h
  unfold State.appliedLaw
  rwa [h]

theorem keptByEdits_appliedLaw : KeptByEdits State.appliedLaw where
  quiet h hs := appliedLaw_of_agrees (h.2 .appliedChanges (by simp)) hs
  enqueue _ hs := hs
  pass _ hs := length_runPass_appliedChanges .noInput hs
  close hs := hs
  remove hs := hs
  answer _ _ hs := hs

theorem appliedLaw_loseInput {s : State} (hs : s.appliedLaw) : (loseInput s).appliedLaw := by
  obtain ⟨o, r, z, he, -⟩ := truncateIfInFrame_eq s
  unfold loseInput
  simp only [he]
  exact length_runPass_appliedChanges .noInput hs

theorem appliedLaw_exec_command {c : Instr} (hc : isSelection c = false) {s t : State} (hs : s.appliedLaw)
    (h : exec c s = .next t) : t.appliedLaw := by
  cases he : isEdit c with
  | true => exact keptByEdits_appliedLaw.exec he h hs
  | false =>
  by_cases hq : .appliedChanges ∈ Changes c
  swap
  · exact appliedLaw_of_agrees (exec_agrees h hq) hs
  cases c <;> simp [Changes, commandParts, isSelection, isEdit] at hq hc he
  case resetAssert acts =>
    obtain rfl := Host.Outcome.next.inj h
    exact Nat.zero_le _
  case frameStart w h' =>
    rcases exec_frameStart_cases h with rfl | ⟨-, rfl⟩
    · exact hs
    · exact Nat.zero_le _
  case inputLost ms =>
    obtain rfl := Host.Outcome.next.inj h
    rcases elapseInput_cases ms s with he | ⟨-, he | ⟨k, he⟩⟩ <;> rw [he]
    · exact hs
    · exact appliedLaw_loseInput hs
    · exact hs
  case evaluationCompletion =>
    obtain rfl := Host.Outcome.next.inj h
    unfold evaluationCompletes
    split
    · exact hs
    · exact keptByEdits_appliedLaw.takeSubmission hs

theorem appliedLaw_exec {c : Instr} {s t : State} (hs : s.appliedLaw) (h : exec c s = .next t) : t.appliedLaw :=
  exec_keeps (P := State.appliedLaw) (Q := State.appliedLaw) keptByEdits_appliedLaw.portOnly
    (fun hc hs h => appliedLaw_exec_command hc hs h)
    (fun hs h => appliedLaw_of_agrees (exec_agrees h (by simp [Changes, lineParts])) hs) id hs h

theorem frameLaw_exec {c : Instr} {s t : State} (hstart : s.startingLaw) (hs : s.frameLaw) (h : exec c s = .next t) :
    t.frameLaw := by
  obtain ⟨zones, applied⟩ := (frameLaw_iff s).1 hs
  exact (frameLaw_iff t).2 ⟨zoneLaw_exec hstart zones h, appliedLaw_exec applied h⟩

/-! ## The tracker (R65, R75, R79) -/

theorem trackerLaw_of_agrees {s t : State} (hi : s.agrees t .tracker) (hf : s.agrees t .fields) (hs : s.trackerLaw) :
    t.trackerLaw := by
  change t.it = s.it at hi
  change t.cu.fields = s.cu.fields at hf
  unfold State.trackerLaw
  rw [hi, hf]
  exact hs

/-- A pass takes the field's mode into the tracker, and leaves submission and summary (R75, R76). -/
theorem trackerAfterPass_eq (it : Tracker) (f : Fields) (auto : Bool) :
    trackerAfterPass it f auto = { it with
      mode := f.trackerMode
      target := (trackerAfterPass it f auto).target
      substate := (trackerAfterPass it f auto).substate } := by
  unfold trackerAfterPass
  split <;> rfl

theorem trackerLaw_runPass {s : State} (kind : PassKind) (hs : s.trackerLaw) : (runPass kind s).trackerLaw := by
  obtain ⟨-, hwaiting, hsummary⟩ := hs
  unfold runPass State.trackerLaw
  simp only
  rw [trackerAfterPass_eq]
  exact ⟨rfl, hwaiting, hsummary⟩

/-- Without a submission waiting, the law asks for the mode and an action that is known. -/
theorem trackerLaw_of_answered {s : State} (hm : s.it.mode = s.cu.fields.trackerMode) (hw : s.it.waiting = none)
    (hx : ∀ x, s.it.summary = some x → x.action ≠ none) : s.trackerLaw :=
  ⟨hm, fun h => by simp [hw] at h, fun x h ha => absurd ha (hx x h)⟩

theorem keptByEdits_trackerLaw : KeptByEdits State.trackerLaw where
  quiet h hs := trackerLaw_of_agrees (h.2 .tracker (by simp)) (h.2 .fields (by simp)) hs
  enqueue _ hs := hs
  pass _ hs := trackerLaw_runPass .noInput hs
  close hs := hs
  remove hs := hs
  answer {s} w r hs := by
    refine trackerLaw_of_answered hs.1 rfl fun x hx => ?_
    obtain ⟨y, -, rfl⟩ := Option.map_eq_some_iff.1 (show s.it.summary.map _ = some x from hx)
    simp

/-- A completed evaluation leaves a submission with a summary whose action is not yet known, or neither (R73, R79). -/
theorem trackerLaw_completeEvaluation {s : State} (e : Evaluation) (hs : s.trackerLaw) (hw : s.it.waiting = none) :
    (completeEvaluation e s).trackerLaw := by
  obtain ⟨hmode, -⟩ := hs
  have known : (summaryOf s.cu.calibration e (zoneResultsOf s.cu.calibration e)).action = some .noAction := rfl
  unfold completeEvaluation
  simp only
  split
  · unfold glide
    simp only
    split
    · exact ⟨hmode, fun _ => ⟨_, rfl, rfl⟩, fun _ _ _ => rfl⟩
    · refine trackerLaw_of_answered hmode hw fun x hx => ?_
      obtain rfl := Option.some.inj hx
      simp [known]
  · refine trackerLaw_of_answered hmode hw fun x hx => ?_
    obtain rfl := Option.some.inj hx
    simp

theorem trackerLaw_loseInput {s : State} (hs : s.trackerLaw) : (loseInput s).trackerLaw := by
  obtain ⟨o, r, z, he, -⟩ := truncateIfInFrame_eq s
  unfold loseInput
  simp only [he]
  exact trackerLaw_runPass .noInput hs

theorem trackerLaw_startFrame {s : State} (hs : s.trackerLaw) (w h : Half) : (startFrame w h s).trackerLaw := by
  obtain ⟨o, r, z, he, -⟩ := startFrame_eq w h s
  rw [he]
  exact trackerLaw_runPass .frameStart
    (s := { s with rr := { s.rr with openRecord := o, ring := r }, zsa := z, pe := s.pe.startFrame w h }) hs

/-- The frame end gives the tracker an evaluation alone (R63, R66). -/
theorem offerZones_it (s : State) : (offerZones s).it = { s.it with evaluation := (offerZones s).it.evaluation } := by
  unfold offerZones
  split
  · rfl
  · rfl
  · split <;> rfl

theorem trackerLaw_endFrame {s : State} (hs : s.trackerLaw) : (endFrame s).trackerLaw := by
  have recorded := trackerLaw_of_agrees
    ((unchangedBut_completeOpenRecord (offerRefused s) (some (countsBlock s s.zsa.qualifyingCount)) s).2 .tracker (by simp))
    ((unchangedBut_completeOpenRecord (offerRefused s) (some (countsBlock s s.zsa.qualifyingCount)) s).2 .fields (by simp)) hs
  have fields := (unchangedBut_offerZones
    (completeOpenRecord (offerRefused s) (some (countsBlock s s.zsa.qualifyingCount)) s)).2 .fields (by simp)
  unfold endFrame State.trackerLaw
  simp only
  rw [offerZones_it, fields]
  exact recorded

theorem trackerLaw_exec_command {c : Instr} (hc : isSelection c = false) {s t : State}
    (hP : s.startingLaw ∧ s.trackerLaw) (h : exec c s = .next t) : t.trackerLaw := by
  obtain ⟨hstart, hs⟩ := hP
  cases he : isEdit c with
  | true => exact keptByEdits_trackerLaw.exec he h hs
  | false =>
  by_cases hq : .tracker ∉ Changes c ∧ .fields ∉ Changes c
  · exact trackerLaw_of_agrees (exec_agrees h hq.1) (exec_agrees h hq.2) hs
  cases c <;> simp [Changes, commandParts, isSelection, isEdit] at hq hc he
  case resetAssert acts =>
    obtain rfl := Host.Outcome.next.inj h
    exact trackerLaw_of_answered rfl rfl fun x hx => nomatch hx
  case startUpCompletion pages =>
    rcases exec_startUp_cases h with rfl | ⟨hline, hn, rfl⟩
    · exact hs
    · obtain ⟨d, slots, cal, fallback, -, -, -, he⟩ := completeStartUp_eq pages hline hn
      have hit := State.atReset.tracker (hstart.2.1 hn)
      rw [he]
      refine trackerLaw_of_answered ?_ ?_ ?_ <;> simp [hit, Tracker.reset, Fields.default]
  case frameStart w h' =>
    rcases exec_frameStart_cases h with rfl | ⟨-, rfl⟩
    · exact hs
    · exact trackerLaw_startFrame hs w h'
  case frameEnd =>
    rcases exec_frameEnd_cases h with rfl | ⟨-, rfl⟩
    · exact hs
    · exact trackerLaw_endFrame hs
  case inputLost ms =>
    obtain rfl := Host.Outcome.next.inj h
    rcases elapseInput_cases ms s with he | ⟨-, he | ⟨k, he⟩⟩ <;> rw [he]
    · exact hs
    · exact trackerLaw_loseInput hs
    · exact hs
  case evaluationCompletion =>
    obtain rfl := Host.Outcome.next.inj h
    unfold evaluationCompletes
    split
    · exact hs
    · exact trackerLaw_completeEvaluation _ (keptByEdits_trackerLaw.takeSubmission hs) (takeSubmission_waiting s)

theorem trackerLaw_exec {c : Instr} {s t : State} (hstart : s.startingLaw) (hs : s.trackerLaw) (h : exec c s = .next t) :
    t.trackerLaw :=
  exec_keeps (P := fun s => s.startingLaw ∧ s.trackerLaw) (Q := State.trackerLaw) keptByEdits_trackerLaw.portOnly
    (fun hc hP h => trackerLaw_exec_command hc hP h)
    (fun hP h => trackerLaw_of_agrees (exec_agrees h (by simp [Changes, lineParts]))
      (exec_agrees h (by simp [Changes, lineParts])) hP.2) And.right ⟨hstart, hs⟩ h

/-! ## Every step -/

/-- The laws that the frame events, Port R and the tracker keep together. -/
def State.frameLaws (s : State) : Prop := s.startingLaw ∧ s.recordLaw ∧ s.frameLaw ∧ s.trackerLaw

theorem frameLaws_exec {c : Instr} {s t : State} (hs : s.frameLaws) (h : exec c s = .next t) : t.frameLaws := by
  obtain ⟨hstart, hrecord, hframe, htracker⟩ := hs
  exact ⟨startingLaw_exec hstart ((recordLaw_iff s).1 hrecord).2 h, recordLaw_exec hstart hrecord h,
    frameLaw_exec hstart hframe h, trackerLaw_exec hstart htracker h⟩

theorem frameLaws_step {s t : State} (hs : s.frameLaws) (h : step s = .next t) : t.frameLaws :=
  step_keeps (fun _ _ hs => hs) frameLaws_exec hs h

theorem frameLaws_of_lawful {s : State} (h : s.lawful) : s.frameLaws := by
  obtain ⟨-, hstart, -, -, -, -, -, -, -, hrecord, hframe, htracker⟩ := h
  exact ⟨hstart, hrecord, hframe, htracker⟩

/-- Settles O59: the laws of records, frames and the tracker, with that of STARTING, form an invariant of every command. -/
theorem recordAndFrameLawsKept : Obligations.RecordAndFrameLawsKept := fun _ _ hs h =>
  (frameLaws_step (frameLaws_of_lawful hs) h).2

end Sys2Proof.Machine
end

section
/-! The slots' content through every command (R123 to R136): a slot keeps its content, generation and origin, or it was not in
use and its new content has the canonical form. -/

namespace Sys2Proof.Machine

/-! ## One slot -/

/-- A slot holds the same content, of the same generation and origin (R123). -/
def Slot.holdsAs (y x : Slot) : Prop := y.content = x.content ∧ y.generation = x.generation ∧ y.origin = x.origin

/-- A slot of a state holds what it held; or it was not in use, and new content is canonical where the old was. -/
def State.remakes (s : State) (i : Fin 8) (y : Slot) : Prop :=
  y.holdsAs (s.slot i) ∨
    ((s.slotLaw → (s.slot i).inUse = false) ∧
      (Memory.wf slotFill (s.slot i).content → Memory.wf slotFill y.content))

theorem State.remakes.wf {s : State} {i : Fin 8} {y : Slot} (h : s.remakes i y) (hw : Memory.wf slotFill (s.slot i).content) :
    Memory.wf slotFill y.content := by
  rcases h with ⟨hc, -⟩ | ⟨-, h⟩
  · exact hc ▸ hw
  · exact h hw

theorem State.remakes.holds {s : State} {i : Fin 8} {y : Slot} (h : s.remakes i y) (hs : s.slotLaw)
    (hu : (s.slot i).inUse = true) : y.holdsAs (s.slot i) := by
  rcases h with h | ⟨h, -⟩
  · exact h
  · rw [h hs] at hu; cases hu

/-- A slot in use is READY (R125, R127 to R130). -/
theorem inUse_eq_false_of_state {s : State} {i : Fin 8} (h : (s.slot i).state ≠ .ready) (hs : s.slotLaw) :
    (s.slot i).inUse = false := by
  obtain ⟨-, -, -, -, hready⟩ := hs i
  cases hu : (s.slot i).inUse with
  | false => rfl
  | true => exact absurd (hready hu) h

/-! ## All slots -/

/-- Every slot holds what it held. -/
def State.slotsStand (s t : State) : Prop := ∀ i, (t.slot i).holdsAs (s.slot i)

/-- Every slot holds what it held, or was not in use. -/
def State.slotsRemade (s t : State) : Prop := ∀ i, s.remakes i (t.slot i)

theorem State.slotsStand.remade {s t : State} (h : s.slotsStand t) : s.slotsRemade t := fun i => .inl (h i)

theorem State.slotsStand_refl (s : State) : s.slotsStand s := fun _ => ⟨rfl, rfl, rfl⟩

theorem State.slotsRemade_of_slots {s t u : State} (h : s.slotsRemade t) (e : u.slots = t.slots) : s.slotsRemade u := by
  intro i
  have : u.slot i = t.slot i := congrArg (Tab.get · i) e
  exact this ▸ h i

theorem State.slotsStand_of_slots {s t u : State} (h : s.slotsStand t) (e : u.slots = t.slots) : s.slotsStand u := by
  intro i
  have : u.slot i = t.slot i := congrArg (Tab.get · i) e
  exact this ▸ h i

theorem State.slotsStand_of_eq {s t : State} (e : t.slots = s.slots) : s.slotsStand t :=
  State.slotsStand_of_slots s.slotsStand_refl e

theorem State.slotsRemade_of_eq {s t : State} (e : t.slots = s.slots) : s.slotsRemade t := (State.slotsStand_of_eq e).remade

/-- One slot replaced. -/
theorem State.slotsRemade_set {s t : State} {i : Fin 8} {y : Slot} (hy : s.remakes i y) (e : t.slots = s.slots.set i y) :
    s.slotsRemade t := by
  intro j
  rw [slot_of_slots i j y e]
  split
  · next h => exact h ▸ hy
  · exact s.slotsStand_refl.remade j

/-! ## The arbiter's acts and the passes touch references and bound marks alone (R89, R91, R99) -/

theorem slotsStand_runPass (kind : PassKind) (s : State) : s.slotsStand (runPass kind s) := by
  intro i
  rw [slot_runPass]
  exact ⟨rfl, rfl, rfl⟩

theorem State.slotsStand.trans {s t u : State} (h : s.slotsStand t) (k : t.slotsStand u) : s.slotsStand u := by
  intro i
  obtain ⟨hc, hg, ho⟩ := h i
  obtain ⟨kc, kg, ko⟩ := k i
  exact ⟨kc.trans hc, kg.trans hg, ko.trans ho⟩

theorem keptByEdits_slotsStand (s₀ : State) : KeptByEdits s₀.slotsStand where
  quiet h hs := State.slotsStand_of_slots hs (h.2 .slots (by simp))
  enqueue {s} e hs := hs.trans fun i => by
    show ((raiseReference s.slots e.boundSlot).get i).holdsAs (s.slot i)
    rw [raiseReference_get]
    split <;> exact ⟨rfl, rfl, rfl⟩
  pass _ hs := hs.trans (slotsStand_runPass .noInput _)
  close hs := hs
  remove {s} hs := hs.trans fun i => by
    show ((releaseReferences s.slots _).get i).holdsAs (s.slot i)
    rw [releaseReferences_get]
    exact ⟨rfl, rfl, rfl⟩
  answer _ _ hs := hs

theorem slotsStand_startFrame (w h : Half) (s : State) : s.slotsStand (startFrame w h s) := by
  obtain ⟨o, r, z, he, -⟩ := startFrame_eq w h s
  rw [he]
  exact slotsStand_runPass .frameStart
    { s with rr := { s.rr with openRecord := o, ring := r }, zsa := z, pe := s.pe.startFrame w h }

theorem slotsStand_loseInput (s : State) : s.slotsStand (loseInput s) := by
  obtain ⟨o, r, z, he, -⟩ := truncateIfInFrame_eq s
  unfold loseInput
  simp only [he]
  exact slotsStand_runPass .noInput
    { s with
      rr := { s.rr with openRecord := o, ring := r }, zsa := z
      pe := { s.pe with frameState := .noInput, inputLostTimer := none } }

/-! ## Commands on a port -/

/-- The slots after a command other than a read, by what its body does to them. -/
theorem slotsRemade_portCommand {p : Port} {body : State → Result × State} (h : ∀ u : State, u.slotsRemade (body u).2)
    (s : State) : s.slotsRemade (portCommand p body s) := by
  have begun : s.slotsRemade (body (s.closeSelection p)).2 := by
    obtain ⟨x, timer, he, -⟩ := s.portOnly_closeSelection p
    have after := h (s.closeSelection p)
    rw [he] at after ⊢
    cases p <;> exact after
  unfold portCommand
  split
  · exact s.slotsStand_refl.remade
  · refine State.slotsRemade_of_slots ?_ ((State.restartInactivity_slots _ p).trans (State.setLastResult_slots _ p _))
    split
    · exact State.slotsRemade_of_eq (by simp)
    · exact begun

/-- A command on a slot identifier (R126). -/
theorem slotsRemade_onSlot {id : Byte} {body : Fin 8 → State → Result × State} {s : State}
    (h : ∀ i, s.slotsRemade (body i s).2) : s.slotsRemade (onSlot id body s).2 := by
  unfold onSlot
  split
  · exact s.slotsStand_refl.remade
  · exact h _

theorem slotsRemade_openSlot (p : Port) (i : Fin 8) (s : State) : s.slotsRemade (openSlot p i s).2 := by
  have opened : s.remakes i { s.slot i with state := .opened p } := .inl ⟨rfl, rfl, rfl⟩
  unfold openSlot
  simp only
  split
  · exact State.slotsRemade_set opened rfl
  · split
    · exact s.slotsStand_refl.remade
    · exact State.slotsRemade_set opened rfl
  · split <;> exact s.slotsStand_refl.remade
  · exact s.slotsStand_refl.remade

/-- A page written keeps the canonical form (R128). -/
theorem wf_writePage (i : Fin 8) (page offset : Nat) (data : List Byte) {content : Memory} (h : Memory.wf slotFill content) :
    Memory.wf slotFill (writePage i page offset data content) := by
  unfold writePage
  induction data generalizing offset content with
  | nil => exact h
  | cons b rest ih =>
    refine ih (offset + 1) ?_
    split
    · exact Memory.wf_write _ b h
    · exact h

theorem slotsRemade_writeSlot (p : Port) (page offset : Byte) (data : List Byte) (i : Fin 8) (s : State) :
    s.slotsRemade (writeSlot p page offset data i s).2 := by
  unfold writeSlot
  simp only
  split
  · next ho =>
    split
    · exact s.slotsStand_refl.remade
    split
    · exact s.slotsStand_refl.remade
    · exact State.slotsRemade_set (.inr ⟨inUse_eq_false_of_state (by simp [ho]), wf_writePage _ _ _ _⟩) rfl
  · exact s.slotsStand_refl.remade

theorem slotsRemade_finishSlot (p : Port) (i : Fin 8) (s : State) : s.slotsRemade (finishSlot p i s).2 := by
  unfold finishSlot
  simp only
  split
  · next ho =>
    split
    · exact s.slotsStand_refl.remade
    · exact State.slotsRemade_set (.inr ⟨inUse_eq_false_of_state (by simp [ho]), fun _ => wf_clampContent _ _⟩) rfl
  · exact s.slotsStand_refl.remade

theorem slotsRemade_discardSlot (i : Fin 8) (s : State) : s.slotsRemade (discardSlot i s).2 := by
  unfold discardSlot
  simp only
  split
  · exact s.slotsStand_refl.remade
  · next ho => exact State.slotsRemade_set (.inr ⟨inUse_eq_false_of_state (by simp [ho]), fun _ => Memory.wf_nil _⟩) rfl
  · split
    · exact s.slotsStand_refl.remade
    · next hu => exact State.slotsRemade_set (.inr ⟨fun _ => by simpa using hu, fun _ => Memory.wf_nil _⟩) rfl
  · exact s.slotsStand_refl.remade

/-! ## Recall and save (R134, R135, R143 to R147, R150) -/

@[simp] theorem suspendErase_slots (n : Fin 64) (s : State) : (suspendErase n s).slots = s.slots := by
  unfold suspendErase
  split
  · split <;> rfl
  · rfl

@[simp] theorem resumeErase_slots (n : Fin 64) (s : State) : (resumeErase n s).slots = s.slots := by
  unfold resumeErase
  split
  · split <;> rfl
  · rfl

theorem slotsRemade_recallRequest (number id : Byte) (s : State) : s.slotsRemade (recallRequest number id s).2 := by
  unfold recallRequest
  split
  · exact s.slotsStand_refl.remade
  · next i n _ =>
    exact State.slotsRemade_set (y := { s.slot i with state := .loading }) (.inl ⟨rfl, rfl, rfl⟩) (suspendErase_slots n _)

/-- The slot that a recall fills is LOADING, so it is not in use (R134). -/
theorem inUse_eq_false_of_target {s : State} {i : Fin 8} {prior : SlotState} (hr : s.recallEngine.state = .recalling prior)
    (hi : s.recallEngine.slot = some i) (hs : s.slotLaw) : (s.slot i).inUse = false := by
  obtain ⟨-, -, -, hloading, -⟩ := hs i
  refine inUse_eq_false_of_state ?_ hs
  rw [hloading.2 ⟨prior, by simp [RecallEngine.target, hr, hi]⟩]
  simp

theorem slotsRemade_recallCompletes (pages : List Nat) (s : State) : s.slotsRemade (recallCompletes pages s) := by
  unfold recallCompletes
  simp only
  split
  · next prior i n hr hi _ =>
    unfold endRecall
    refine State.slotsRemade_of_slots ?_ (resumeErase_slots n _)
    split
    · exact State.slotsRemade_set (y := { s.slot i with state := prior }) (.inl ⟨rfl, rfl, rfl⟩) rfl
    · exact State.slotsRemade_set (.inr ⟨inUse_eq_false_of_target hr hi, fun _ => wf_clampContent _ _⟩) rfl
  · exact s.slotsStand_refl.remade

theorem slotsRemade_saveRequest (p : Port) (id number : Byte) (name : List Byte) (selector : Byte) (s : State) :
    s.slotsRemade (saveRequest p id number name selector s).2 := by
  unfold saveRequest
  simp only
  split
  · exact State.slotsRemade_of_eq (State.setWriteEnable_slots s p false)
  · next i n _ =>
    refine State.slotsRemade_set (y := { s.slot i with saving := true }) (.inl ⟨rfl, rfl, rfl⟩) ?_
    show (s.setWriteEnable p false).slots.set i _ = _
    rw [State.setWriteEnable_slots]

/-- The end of a save takes the saving mark alone from its slot (R135, R147). -/
theorem slotsRemade_finishSave (j : SaveJob) (n : Fin 64) (e : SectorEntry) (o : StoreOutcome) {s t : State}
    (h : t.slots = s.slots) : s.slotsRemade (finishSave j n e o t) := by
  refine State.slotsRemade_set (y := { s.slot j.slot with saving := false }) (.inl ⟨rfl, rfl, rfl⟩) ?_
  show t.slots.set j.slot { t.slots.get j.slot with saving := false } = _
  rw [h]
  rfl

theorem slotsRemade_saveCompletes (failedAct : Option Nat) (s : State) : s.slotsRemade (saveCompletes failedAct s) := by
  unfold saveCompletes
  split
  · unfold endSave
    split <;> exact slotsRemade_finishSave _ _ _ _ rfl
  · exact s.slotsStand_refl.remade

theorem slotsRemade_cutOperation (acts : Nat) (s : State) : s.slotsRemade (cutOperation acts s) := by
  unfold cutOperation
  simp only
  split
  · exact slotsRemade_finishSave _ _ _ _ rfl
  · exact State.slotsRemade_of_eq rfl
  · exact State.slotsRemade_of_eq rfl
  · exact s.slotsStand_refl.remade

/-! ## Every command -/

theorem slotsRemade_exec_command {c : Instr} (hreset : ∀ acts, c ≠ .resetAssert acts)
    (hstart : ∀ pages, c ≠ .startUpCompletion pages) (hc : isSelection c = false) {s t : State} (h : exec c s = .next t) :
    s.slotsRemade t := by
  cases he : isEdit c with
  | true => exact ((keptByEdits_slotsStand s).exec he h s.slotsStand_refl).remade
  | false =>
  by_cases hq : .slots ∈ Changes c
  swap
  · exact State.slotsRemade_of_eq (exec_agrees h hq)
  cases c <;> simp [Changes, commandParts, isSelection, isEdit] at hq hc he
  case resetAssert acts => exact absurd rfl (hreset acts)
  case startUpCompletion pages => exact absurd rfl (hstart pages)
  case frameStart w h' =>
    rcases exec_frameStart_cases h with rfl | ⟨-, rfl⟩
    · exact State.slotsRemade_of_eq rfl
    · exact (slotsStand_startFrame w h' s).remade
  case inputLost ms =>
    obtain rfl := Host.Outcome.next.inj h
    rcases elapseInput_cases ms s with he | ⟨-, he | ⟨k, he⟩⟩ <;> rw [he]
    · exact s.slotsStand_refl.remade
    · exact (slotsStand_loseInput s).remade
    · exact State.slotsRemade_of_eq rfl
  case evaluationCompletion =>
    obtain rfl := Host.Outcome.next.inj h
    unfold evaluationCompletes
    split
    · exact s.slotsStand_refl.remade
    · exact State.slotsRemade_of_slots ((keptByEdits_slotsStand s).takeSubmission s.slotsStand_refl).remade rfl
  case slotWrite p id page offset data =>
    obtain rfl := Host.Outcome.next.inj h
    split
    · exact State.slotsRemade_of_eq ((unchangedBut_discardSelection p .framing s).2 .slots (by simp))
    · exact slotsRemade_portCommand (fun u => slotsRemade_onSlot fun i => slotsRemade_writeSlot p page offset data i u) s
  case save p id number name selector =>
    obtain rfl := Host.Outcome.next.inj h
    split
    · exact slotsRemade_portCommand (slotsRemade_saveRequest p id number name selector) s
    · exact State.slotsRemade_of_eq ((unchangedBut_discardSelection p .framing s).2 .slots (by simp))
  all_goals obtain rfl := Host.Outcome.next.inj h
  case slotOpen p id => exact slotsRemade_portCommand (fun u => slotsRemade_onSlot fun i => slotsRemade_openSlot p i u) s
  case slotFinish p id => exact slotsRemade_portCommand (fun u => slotsRemade_onSlot fun i => slotsRemade_finishSlot p i u) s
  case slotDiscard p id => exact slotsRemade_portCommand (fun u => slotsRemade_onSlot fun i => slotsRemade_discardSlot i u) s
  case recallCompletion pages => exact slotsRemade_recallCompletes pages s
  case saveCompletion act => exact slotsRemade_saveCompletes act s
  case supplyLowAssert acts => exact slotsRemade_cutOperation acts s
  -- RECALL, whose name is a keyword of Mathlib, so that `case` cannot take it.
  next p number id => exact slotsRemade_portCommand (slotsRemade_recallRequest number id) s

/-- A command other than a reset and the completion of start-up remakes no slot in use (R123 to R136). -/
theorem slotsRemade_exec {c : Instr} (hreset : ∀ acts, c ≠ .resetAssert acts) (hstart : ∀ pages, c ≠ .startUpCompletion pages)
    {s t : State} (h : exec c s = .next t) : s.slotsRemade t := by
  refine exec_by_command (fun {d u} hd from_c hu => ?_)
    (fun hq hu => State.slotsRemade_of_slots hu (hq.unchangedBut.2 .slots (by simp)))
    (fun moment hm => State.slotsRemade_of_eq (exec_agrees h (part := .slots) (by simp [hm, Changes, lineParts])))
    s.slotsStand_refl.remade h
  rcases from_c with rfl | ⟨p, hp⟩
  · exact slotsRemade_exec_command hreset hstart hd hu
  · exact slotsRemade_exec_command (fun acts e => by simp [e, commandPort] at hp) (fun pages e => by simp [e, commandPort] at hp)
      hd hu

end Sys2Proof.Machine
end

section
/-! O55 and O56: what stays as it was loaded or adopted, and the byte memories in canonical form from step to step (R3, R43, R92,
R123, R138). -/

namespace Sys2Proof.Machine

/-! ## The frame context within a frame (R3) -/

/-- In a frame, with a given frame context. -/
def State.inFrameWith (x : FrameContext) (s : State) : Prop := s.pe.frameState = .inFrame ∧ s.pe.context = x

theorem State.inFrameWith.of_unchangedBut {x : FrameContext} {s t : State} {parts : List Part} (h : s.unchangedBut t parts)
    (he : .engine ∉ parts) (hc : .frameContext ∉ parts) (hs : s.inFrameWith x) : t.inFrameWith x := by
  obtain ⟨hframe, -⟩ := h.2 .engine he
  exact ⟨hframe.trans hs.1, (h.2 .frameContext hc).trans hs.2⟩

/-- No act of the arbiter makes a pass within a frame (R93). -/
theorem keptByEdits_inFrameWith (x : FrameContext) : KeptByEdits (State.inFrameWith x) where
  quiet h hs := hs.of_unchangedBut h (by simp) (by simp)
  enqueue _ hs := hs
  pass hn hs := absurd (hn.symm.trans hs.1) (by simp)
  close hs := hs
  remove hs := hs
  answer _ _ hs := hs

theorem context_exec_command {x : FrameContext} {c : Instr} (hreset : ∀ acts, c ≠ .resetAssert acts)
    (hframe : ∀ w h, c ≠ .frameStart w h) (hlost : ∀ ms, c ≠ .inputLost ms) (hc : isSelection c = false) {s t : State}
    (h : exec c s = .next t) (hs : s.inFrameWith x) : t.pe.context = x := by
  cases he : isEdit c with
  | true => exact ((keptByEdits_inFrameWith x).exec he h hs).2
  | false =>
  by_cases hq : .frameContext ∈ Changes c
  swap
  · exact (exec_agrees h hq).trans hs.2
  cases c <;> simp [Changes, commandParts, isSelection, isEdit] at hq hc he
  case resetAssert acts => exact absurd rfl (hreset acts)
  case startUpCompletion pages =>
    rcases exec_startUp_cases h with rfl | ⟨-, hn, -⟩
    · exact hs.2
    · exact absurd (hn.symm.trans hs.1) (by simp)
  case frameStart w h' => exact absurd rfl (hframe w h')
  case inputLost ms => exact absurd rfl (hlost ms)
  case evaluationCompletion =>
    obtain rfl := Host.Outcome.next.inj h
    unfold evaluationCompletes
    split
    · exact hs.2
    · exact ((keptByEdits_inFrameWith x).takeSubmission hs).2

theorem context_exec {c : Instr} (hreset : ∀ acts, c ≠ .resetAssert acts) (hframe : ∀ w h, c ≠ .frameStart w h)
    (hlost : ∀ ms, c ≠ .inputLost ms) {s t : State} (h : exec c s = .next t) (hs : s.pe.frameState = .inFrame) :
    t.pe.context = s.pe.context := by
  refine exec_by_command (Q := fun u => u.pe.context = s.pe.context) (fun {d u} hd from_c hu => ?_)
    (fun hq hu => (hq.unchangedBut.2 .frameContext (by simp)).trans hu)
    (fun moment hm => exec_agrees h (part := .frameContext) (by simp [hm, Changes, lineParts])) rfl h
  rcases from_c with rfl | ⟨p, hp⟩
  · exact context_exec_command hreset hframe hlost hd hu ⟨hs, rfl⟩
  · exact context_exec_command (fun acts e => by simp [e, commandPort] at hp) (fun w h e => by simp [e, commandPort] at hp)
      (fun ms e => by simp [e, commandPort] at hp) hd hu ⟨hs, rfl⟩

/-- Settles O55: the calibration set, the frame context in a frame and the slots in use are held. -/
theorem valuesHeld : Obligations.ValuesHeld := by
  intro c s t h hreset
  refine ⟨fun hstart => exec_agrees h (calibration_not_mem_Changes hreset hstart), fun hframe hstart hlost => ?_,
    fun hstart hslots _ i hused => (slotsRemade_exec hreset hstart h i).holds hslots hused⟩
  exact context_exec hreset hstart hlost h hframe

/-! ## The byte memories at start-up (R136) -/

theorem wf_identityLattice : Memory.wf slotFill identityLattice := by
  unfold identityLattice
  apply Memory.wf_slotContent

theorem wf_fallbackRamp : Memory.wf slotFill fallbackRamp := by
  unfold fallbackRamp
  apply Memory.wf_slotContent

theorem wf_fillT0 (s : State) : Memory.wf slotFill ((fillT0 s).slot 4).content := by
  unfold fillT0
  split
  · rw [State.slot_setSlot_self, Slot.filled_content]
    exact wf_fallbackRamp
  · next n _ =>
    simp only
    generalize (if (s.sectorEntry n).isTone = true then tearUnreadable s n else s) = u
    split
    · rw [State.slot_setSlot_self, Slot.filled_content]
      exact wf_clampContent _ _
    · rw [State.slot_setSlot_self, Slot.filled_content]
      exact wf_fallbackRamp

theorem wf_fillSlots {s : State} (h : ∀ i, Memory.wf slotFill (s.slot i).content) (i : Fin 8) :
    Memory.wf slotFill ((fillSlots s).slot i).content := by
  obtain ⟨d, x, he, -⟩ := fillT0_eq (s.setSlot 0 ((s.slot 0).filled .builtIn identityLattice))
  have filled := wf_fillT0 (s.setSlot 0 ((s.slot 0).filled .builtIn identityLattice))
  unfold fillSlots
  by_cases h4 : (4 : Fin 8) = i
  · exact h4 ▸ filled
  rw [he]
  show Memory.wf slotFill (((s.setSlot 0 _).slots.set 4 x).get i).content
  rw [Tab.get_set, if_neg h4]
  show Memory.wf slotFill ((s.setSlot 0 _).slot i).content
  rw [State.slot_setSlot]
  split
  · rw [Slot.filled_content]
    exact wf_identityLattice
  · exact h i

/-- The slots' content in canonical form. -/
def State.contentsCanonical (s : State) : Prop := ∀ i, Memory.wf slotFill (s.slot i).content

theorem contentsCanonical_completeStartUp (pages : List Nat) {s : State} (h : s.contentsCanonical) :
    (completeStartUp pages s).contentsCanonical := by
  unfold completeStartUp
  split
  · exact h
  obtain ⟨d, c, b, hload, -⟩ := loadCalibration_eq ((ensureScanned s).decayed pages)
  have loaded : (loadCalibration ((ensureScanned s).decayed pages)).contentsCanonical := by
    rw [hload]
    unfold ensureScanned
    split <;> exact h
  intro i
  have filled := wf_fillSlots loaded i
  simp only [adoptDefaults, State.slot, markBound, Tab.get_ofFn]
  exact filled

theorem contentsCanonical_exec {c : Instr} {s t : State} (hs : s.contentsCanonical) (h : exec c s = .next t) :
    t.contentsCanonical := by
  by_cases hreset : ∃ acts, c = .resetAssert acts
  · obtain ⟨acts, rfl⟩ := hreset
    obtain rfl := Host.Outcome.next.inj h
    intro i
    show Memory.wf slotFill ((Tab.replicate 8 Slot.reset).get i).content
    rw [Tab.get_replicate]
    exact Memory.wf_nil _
  by_cases hstart : ∃ pages, c = .startUpCompletion pages
  · obtain ⟨pages, rfl⟩ := hstart
    obtain rfl := Host.Outcome.next.inj h
    exact contentsCanonical_completeStartUp pages hs
  · exact fun i => (slotsRemade_exec (fun acts e => hreset ⟨acts, e⟩) (fun pages e => hstart ⟨pages, e⟩) h i).wf (hs i)

/-! ## The store (R138, R147, R149, R150) -/

@[simp] theorem resumeErase_store (n : Fin 64) (s : State) : (resumeErase n s).store = s.store := by
  unfold resumeErase
  split
  · split <;> rfl
  · rfl

theorem canonical_recallCompletes (pages : List Nat) {s : State} (h : s.store.canonical) :
    (recallCompletes pages s).store.canonical := by
  have decayed := canonical_decay pages h
  unfold recallCompletes
  simp only
  split
  · unfold endRecall
    rw [resumeErase_store]
    split <;> exact decayed
  · exact decayed

theorem canonical_saveCompletes (failedAct : Option Nat) {s : State} (h : s.store.canonical) :
    (saveCompletes failedAct s).store.canonical := by
  unfold saveCompletes
  split
  · unfold endSave
    split
    · exact canonical_saveActs _ _ _ _ h
    · exact canonical_spoilPage _ _ _ (canonical_saveActs _ _ _ _ h)
  · exact h

theorem canonical_eraseCompletes (failedAct : Option Nat) {s : State} (h : s.store.canonical) :
    (eraseCompletes failedAct s).store.canonical := by
  unfold eraseCompletes
  split
  · next n _ _ =>
    unfold endErase
    split
    · simpa [finishErase] using canonical_eraseActs n eraseActCount h
    · exact canonical_spoilPage _ _ _ (canonical_eraseActs _ _ h)
  · exact h

theorem canonical_cutOperation (acts : Nat) {s : State} (h : s.store.canonical) : (cutOperation acts s).store.canonical := by
  have cut := canonical_cutStore acts h
  unfold cutOperation
  simp only
  split
  · exact cut
  · exact cut
  · exact cut
  · exact h

theorem canonical_completeStartUp (pages : List Nat) {s : State} (h : s.store.canonical) :
    (completeStartUp pages s).store.canonical := by
  by_cases hn : s.resetLine = true ∨ s.pe.frameState ≠ .starting
  · rwa [completeStartUp_of_not pages hn]
  · rw [not_or, Bool.not_eq_true, not_not] at hn
    obtain ⟨d, slots, c, fallback, -, -, -, he⟩ := completeStartUp_eq pages hn.1 hn.2
    rw [he]
    exact canonical_decay pages h

theorem canonical_exec_command {c : Instr} (hc : isSelection c = false) {s t : State} (hs : s.store.canonical)
    (h : exec c s = .next t) : t.store.canonical := by
  by_cases hq : .store ∈ Changes c
  swap
  · exact (show t.store = s.store from exec_agrees h hq) ▸ hs
  cases c <;> simp [Changes, commandParts, requestsParts, isSelection] at hq hc <;> obtain rfl := Host.Outcome.next.inj h
  case resetAssert acts => exact canonical_cutStore acts hs
  case resetRelease pages =>
    unfold releaseReset
    split
    · exact canonical_decay pages hs
    · exact hs
  case startUpCompletion pages => exact canonical_completeStartUp pages hs
  case recallCompletion pages => exact canonical_recallCompletes pages hs
  case saveCompletion act => exact canonical_saveCompletes act hs
  case eraseCompletion act => exact canonical_eraseCompletes act hs
  case supplyLowAssert acts => exact canonical_cutOperation acts hs

theorem canonical_exec {c : Instr} {s t : State} (hs : s.store.canonical) (h : exec c s = .next t) : t.store.canonical :=
  exec_keeps (P := fun s => s.store.canonical) (Q := fun s => s.store.canonical)
    (fun {u v _} hq hu => (show v.store = u.store from hq.unchangedBut.2 .store (by simp)) ▸ hu)
    (fun hc hs h => canonical_exec_command hc hs h)
    (fun {_ u v} hs h =>
      (show v.store = u.store from exec_agrees h (part := .store) (by simp [Changes, lineParts])) ▸ hs) id hs h

/-! ## Every step -/

theorem memoriesCanonical_iff (s : State) : s.memoriesCanonical ↔ s.store.canonical ∧ s.contentsCanonical :=
  ⟨fun ⟨bytes, rising, contents⟩ => ⟨⟨bytes, rising⟩, contents⟩, fun ⟨⟨bytes, rising⟩, contents⟩ => ⟨bytes, rising, contents⟩⟩

theorem memoriesCanonical_exec {c : Instr} {s t : State} (hs : s.memoriesCanonical) (h : exec c s = .next t) :
    t.memoriesCanonical := by
  obtain ⟨store, contents⟩ := (memoriesCanonical_iff s).1 hs
  exact (memoriesCanonical_iff t).2 ⟨canonical_exec store h, contentsCanonical_exec contents h⟩

/-- Settles O56: the canonical form of the memories and the law of STARTING are kept by every step. -/
theorem memoriesAndStartUpKept : Obligations.MemoriesAndStartUpKept := fun _ _ hs h =>
  ⟨step_keeps (fun _ _ hs => hs) memoriesCanonical_exec hs.1 h, (frameLaws_step (frameLaws_of_lawful hs) h).1⟩

end Sys2Proof.Machine
end

section
/-! O3 and O60: what reset leaves (R2, R9, R59, R65, R102, R105, R121, R123, R142, R154, R174). -/

namespace Sys2Proof.Machine

/-! ## The values at reset -/

@[simp] theorem slot_reset (i : Fin 8) : State.reset.slot i = Slot.reset := Tab.get_replicate _ i

@[simp] theorem port_reset (p : Port) : State.reset.port p = PortState.reset := by cases p <;> rfl

/-- Every value of an empty memory is 0 (R123). -/
theorem slotValue_nil (k : Nat) : slotValue [] k = 0 := rfl

/-- Settles O3: the reset values of every block. -/
theorem resetValues : Obligations.ResetValues := by
  have zones : ∀ z, State.reset.zsa.zones.get z = ⟨0, 0, 0, 0, 0⟩ := fun z => Tab.get_replicate _ z
  refine ⟨by decide, rfl, ⟨rfl, rfl, rfl, rfl, rfl, zones⟩, by decide, ⟨rfl, rfl, rfl, rfl⟩, rfl, rfl, by decide, fun i => ?_,
    ⟨rfl, rfl, rfl⟩, ⟨rfl, rfl, rfl, rfl, rfl⟩, fun p => ?_, rfl, rfl⟩
  · rw [slot_reset]
    exact ⟨rfl, rfl, rfl, rfl, rfl, rfl, slotValue_nil⟩
  · rw [port_reset]
    exact ⟨rfl, rfl, rfl, rfl⟩

/-! ## The laws at reset -/

theorem memoriesCanonical_reset : State.reset.memoriesCanonical :=
  ⟨Memory.wf_nil _, List.Pairwise.nil, fun i => by rw [slot_reset]; exact Memory.wf_nil _⟩

theorem arbiterLaw_reset : State.reset.arbiterLaw := by
  refine ⟨fun p => ?_, rfl, List.Perm.refl _⟩
  cases p <;> decide

theorem rangeLaw_reset : State.reset.rangeLaw := by
  unfold State.rangeLaw Field.holds
  exact ⟨by decide, by decide, fun c hc => nomatch hc⟩

theorem slotLaw_reset : State.reset.slotLaw := by
  intro i
  rw [slot_reset]
  refine ⟨rfl, ?_, ?_, ?_, ?_⟩
  · exact ⟨fun h => (nomatch h), fun h => absurd rfl h.1⟩
  · exact ⟨fun h => (nomatch h), fun h => (nomatch h)⟩
  · exact ⟨fun h => (nomatch h), fun ⟨_, h⟩ => (nomatch h)⟩
  · exact fun h => nomatch h

theorem contentLaw_reset : State.reset.contentLaw := by
  refine ⟨fun i _ k _ => ?_, fun i prior h => nomatch h⟩
  rw [slot_reset]
  exact Nat.zero_le _

theorem storeLaw_reset : State.reset.storeLaw := by
  refine ⟨fun n => ?_, fun n => ?_, fun n => ?_, by decide, fun j h => (nomatch h), by decide, fun n h => (nomatch h)⟩
  all_goals simp [State.reset, Controller.reset, State.sectorEntry]

theorem recordLaw_reset : State.reset.recordLaw :=
  (recordLaw_iff _).2 ⟨⟨by decide, fun o h => (nomatch h), by decide, fun k r h => nomatch h⟩,
    transferLaw_of_noTransfer ⟨rfl, rfl⟩ fun _ _ => rfl⟩

theorem frameLaw_reset : State.reset.frameLaw :=
  (frameLaw_iff _).2 ⟨zoneLaw_of_idle rfl (by decide) (by decide), by decide⟩

theorem trackerLaw_reset : State.reset.trackerLaw := trackerLaw_of_answered rfl rfl fun _ h => nomatch h

/-- Settles O60: reset leaves a good state. -/
theorem lawsHoldAtReset : Obligations.LawsHoldAtReset :=
  ⟨memoriesCanonical_reset, State.atReset.startingLaw ⟨rfl, rfl, rfl, rfl, rfl, rfl, rfl, rfl, rfl⟩, arbiterLaw_reset,
    ⟨by decide, by decide, by decide⟩, rangeLaw_reset, fun h => absurd rfl h, slotLaw_reset, contentLaw_reset, storeLaw_reset,
    recordLaw_reset, frameLaw_reset, trackerLaw_reset⟩

end Sys2Proof.Machine
end

section
/-! O2, O4 and O6: time, reset and the completion of start-up (R2, R4, R8, R11, R114, R115, R150). -/

namespace Sys2Proof.Machine

/-! ## Time (R8, R115) -/

theorem step_of_pending_nil {s : State} (h : s.pending = []) : step s = .next (passMillisecond s) := by
  unfold step
  rw [h]

theorem passMillisecond_of_reset {s : State} (h : s.resetLine = true) : passMillisecond s = s := if_pos h

theorem passMillisecond_of_released {s : State} (h : s.resetLine = false) :
    passMillisecond s = elapseInput 1 (elapseGroup 1 s) := if_neg (by simp [h])

/-- The expiry of the group leaves the engine and the reset line (R115). -/
theorem expireGroup_engine (s : State) : (expireGroup s).pe = s.pe ∧ (expireGroup s).resetLine = s.resetLine := by
  unfold expireGroup
  split <;> exact ⟨rfl, rfl⟩

/-- The time on the inactivity timer leaves the engine and the reset line. -/
theorem elapseGroup_engine (ms : Nat) (s : State) : (elapseGroup ms s).pe = s.pe ∧ (elapseGroup ms s).resetLine = s.resetLine := by
  unfold elapseGroup
  split
  · exact ⟨rfl, rfl⟩
  split
  · exact expireGroup_engine s
  · exact ⟨rfl, rfl⟩

/-- The input-lost timer is one that runs, by the law of the frames (R8). -/
theorem inputTimerRuns_of_zoneLaw {s : State} (hr : s.resetLine = false) (hz : s.zoneLaw) {k : Nat}
    (hk : s.pe.inputLostTimer = some k) : inputTimerRuns s = true := by
  obtain ⟨-, -, -, htimer⟩ := hz
  have running := htimer.1 (by simp [hk])
  simpa [inputTimerRuns, hr] using running

/-- A millisecond on a running input-lost timer: it advances, or the input is lost (R8). -/
theorem elapseInput_one {s : State} {k : Nat} (hr : inputTimerRuns s = true) (hk : s.pe.inputLostTimer = some k) :
    Host.Outcome.next (elapseInput 1 s) =
      if k + 1 < 500 then .next { s with pe := { s.pe with inputLostTimer := some (k + 1) } } else exec (.inputLost 1) s := by
  obtain ⟨-, -, hruns⟩ := elapseInput_spec 1 s
  obtain ⟨-, hon⟩ := hruns k hr hk
  split
  · next hlimit => rw [hon hlimit]
  · rfl

/-- A millisecond on a running inactivity timer: it advances, or the group expires (R115). -/
theorem elapseGroup_one {s : State} {j : Nat} (hj : s.ca.inactivityTimer = some j) :
    (j + 1 < 200 → elapseGroup 1 s = { s with ca := { s.ca with inactivityTimer := some (j + 1) } }) :=
  fun hlimit => (((elapseGroup_spec 1 s).2 j hj).2 hlimit)

/-- Settles O2: with no command waiting both timers run on, the inactivity timer first. -/
theorem emptyQueuePassesTime : Obligations.EmptyQueuePassesTime := by
  intro s hp
  rw [step_of_pending_nil hp]
  have groupStopped : s.ca.inactivityTimer = none → elapseGroup 1 s = s := (elapseGroup_spec 1 s).1
  refine ⟨fun hr => by rw [passMillisecond_of_reset hr], fun hr hj hk => ?_, fun j hr hj hk => ?_, fun k hr hf hj hk => ?_,
    fun j k hr hf hj hk => ⟨fun hlimit => ?_, fun _ => ?_⟩⟩
  · rw [passMillisecond_of_released hr, groupStopped hj, (elapseInput_spec 1 s).1 hk]
  · have stopped : (elapseGroup 1 s).pe.inputLostTimer = none := by rw [(elapseGroup_engine 1 s).1, hk]
    rw [passMillisecond_of_released hr, (elapseInput_spec 1 _).1 stopped]
    split
    · next hlimit => rw [elapseGroup_one hj hlimit]
    · rfl
  · rw [passMillisecond_of_released hr, groupStopped hj]
    exact elapseInput_one (inputTimerRuns_of_zoneLaw hr ((frameLaw_iff s).1 hf).1 hk) hk
  · rw [passMillisecond_of_released hr, elapseGroup_one hj hlimit]
    exact elapseInput_one (inputTimerRuns_of_zoneLaw (s := s) hr ((frameLaw_iff s).1 hf).1 hk) hk
  · obtain ⟨engine, line⟩ := elapseGroup_engine 1 s
    refine ⟨elapseGroup 1 s, rfl, engine, ?_⟩
    rw [passMillisecond_of_released hr]
    refine elapseInput_one ?_ (engine ▸ hk)
    unfold inputTimerRuns
    rw [engine, line]
    exact inputTimerRuns_of_zoneLaw hr ((frameLaw_iff s).1 hf).1 hk

/-! ## The assertion of the reset line (R11, R150) -/

theorem cutStore_of_idle {s : State} (acts : Nat) (h : s.controller.state = .idle) : cutStore acts s = s.store := by
  unfold cutStore
  rw [h]

/-- A cut alters no byte of a sector other than the one in work (R150). -/
theorem byte_cutStore_of_ne {s : State} (acts : Nat) (hs : s.storeLaw) {n : Fin 64} {k : Nat} (hk : k < 32768)
    (hn : s.controller.sector ≠ some n) : (cutStore acts s).byte n k = s.store.byte n k := by
  obtain ⟨-, -, -, -, hname, -⟩ := hs
  unfold cutStore
  split
  · next j m hj hm => exact byte_saveActs_of_ne _ _ _ _ _ (fun e => hn (e ▸ hm)) hk (hname j hj).le
  · next m _ hm => exact byte_eraseActs_of_ne _ _ _ (fun e => hn (e ▸ hm)) hk
  · next m _ hm => exact byte_eraseActs_of_ne _ _ _ (fun e => hn (e ▸ hm)) hk
  · rfl

/-- Settles O4: an assertion of the reset line resets every block and cuts the store's work alone. -/
theorem resetAssertResets : Obligations.ResetAssertResets := by
  intro acts s
  refine ⟨assertReset acts s, rfl, rfl, rfl, rfl, rfl, rfl, rfl, rfl, rfl, rfl, rfl, rfl, fun p => ?_, rfl, cutStore_of_idle acts,
    fun hs n k hk hn => byte_cutStore_of_ne acts hs hk hn, ⟨rfl, rfl⟩, rfl⟩
  cases p <;> rfl

/-! ## The completion of start-up (R4) -/

/-- Settles O6: start-up ends in NO_INPUT with the defaults of the set in use. -/
theorem startUpCompletes : Obligations.StartUpCompletes := by
  intro pages s
  refine ⟨fun hr hs => ?_, fun hn => congrArg Host.Outcome.next (completeStartUp_of_not pages hn)⟩
  obtain ⟨directory, slots, c, fallback, hd, hlow, hhigh, he⟩ := completeStartUp_eq pages hr hs
  refine ⟨_, c, congrArg Host.Outcome.next he, rfl, rfl, rfl, rfl, hlow, hhigh, rfl, rfl, rfl, rfl, hd, ?_, rfl⟩
  rw [← he]
  exact State.unchangedBut_mono (unchangedBut_completeStartUp pages s) (by simp)

end Sys2Proof.Machine
end

section
/-! O9, O13, O19, O20 and O21: the frame events (R5 to R10, R63, R64, R66, R157 to R159). -/

namespace Sys2Proof.Machine

/-! ## The truncation of a frame in progress (R6, R158) -/

/-- The state after the truncation of a frame in progress, if there is one. -/
def State.truncated (s : State) : State := if s.pe.frameState = .inFrame then truncateFrame s else s

theorem truncated_of_not_inFrame {s : State} (h : s.pe.frameState ≠ .inFrame) : s.truncated = s := if_neg h

/-- In a frame the open record joins the ring, TRUNCATED (R158, R159). -/
theorem truncated_ring_of_open {s : State} {o : OpenRecord} (h : s.pe.frameState = .inFrame) (ho : s.rr.openRecord = some o) :
    s.truncated.rr.ring = joinRing s.rr.ring (completed o s.it false none) := by
  unfold State.truncated truncateFrame truncateRecord
  rw [if_pos h, (completeOpenRecord_spec false none s).1 o ho]

/-- Without a frame in progress, or without a record, none joins. -/
theorem truncated_ring_of_none {s : State} (h : s.pe.frameState ≠ .inFrame ∨ s.rr.openRecord = none) :
    s.truncated.rr.ring = s.rr.ring := by
  by_cases hf : s.pe.frameState = .inFrame
  · unfold State.truncated truncateFrame truncateRecord
    rw [if_pos hf, (completeOpenRecord_spec false none s).2 (h.resolve_left (not_not.2 hf))]
  · rw [truncated_of_not_inFrame hf]

theorem truncated_of_inFrame {s : State} (h : s.pe.frameState = .inFrame) :
    s.truncated.rr.openRecord = none ∧ s.truncated.zsa = s.zsa.discard := by
  obtain ⟨o, r, z, he, hin, -⟩ := truncateIfInFrame_eq s
  unfold State.truncated
  rw [he]
  exact hin h

/-- The frame start keeps the ring that the truncation leaves. -/
theorem startFrame_ring (w h : Half) (s : State) : (startFrame w h s).rr.ring = s.truncated.rr.ring := rfl

theorem loseInput_rr (s : State) : (loseInput s).rr = s.truncated.rr := rfl

theorem loseInput_zsa (s : State) : (loseInput s).zsa = s.truncated.zsa := rfl

/-- What a record takes at its truncation, where it joins the ring (R157 to R159). -/
theorem truncated_record {s : State} {o : OpenRecord} (h : s.pe.frameState = .inFrame) (ho : s.rr.openRecord = some o) :
    ∃ r, s.truncated.rr.ring = (if 64 ≤ s.rr.ring.length then s.rr.ring.drop 1 else s.rr.ring) ++ [r] ∧ r.opening = o ∧
      r.counts = none ∧ r.evalSkipped = false ∧ r.trackerMode = s.it.mode ∧ r.substate = s.it.substate ∧
      r.target = s.it.target ∧ (s.it.summary = none → r.votes = 0 ∧ r.estimate = none) ∧
      ∀ x, s.it.summary = some x → r.votes = x.votes ∧ r.estimate = x.estimate := by
  obtain ⟨hopening, hmode, hsubstate, htarget, hnone, hsome, hskipped, hcounts⟩ := completed_spec s false none o _ rfl
  exact ⟨completed o s.it false none, (truncated_ring_of_open h ho).trans (joinRing_eq _ _), hopening, hcounts, hskipped, hmode,
    hsubstate, htarget, hnone, hsome⟩

/-! ## Frame start (R5, R6, R61) -/

theorem geometryInRange_iff (w h : Half) :
    geometryInRange w h = true ↔ 64 ≤ w.toNat ∧ w.toNat ≤ 4096 ∧ 48 ≤ h.toNat ∧ h.toNat ≤ 2304 := by
  simp [geometryInRange, and_assoc]

/-- Settles O9: a frame start, part by part. -/
theorem frameStartTaken : Obligations.FrameStartTaken := by
  intro w h s hs
  have framed := unchangedBut_startFrame w h s
  refine ⟨startFrame w h s, exec_frameStart hs, ?_⟩
  obtain ⟨o, r, z, he, -⟩ := startFrame_eq w h s
  rw [he] at framed ⊢
  exact ⟨rfl, rfl, rfl, rfl, geometryInRange_iff w h, rfl, rfl, rfl, rfl, rfl, rfl, rfl, rfl, rfl, rfl, rfl, rfl,
    fun z => Tab.get_replicate _ z, rfl, rfl, rfl, framed⟩

/-! ## Input loss (R8) -/

/-- Where the input-lost timer runs and reaches 500, the input is lost (R8). -/
theorem exec_inputLost_expired {s : State} {k ms : Nat} (hr : s.resetLine = false)
    (hf : s.pe.frameState = .betweenFrames ∨ s.pe.frameState = .inFrame) (hk : s.pe.inputLostTimer = some k)
    (hlimit : 500 ≤ k + ms) : exec (.inputLost ms) s = .next (loseInput s) := by
  have runs : inputTimerRuns s = true := by simpa [inputTimerRuns, hr] using hf
  exact congrArg Host.Outcome.next (((elapseInput_spec ms s).2.2 k runs hk).1 hlimit)

/-- Before 500 the timer alone advances (R8). -/
theorem exec_inputLost_running {s : State} {k ms : Nat} (hr : s.resetLine = false)
    (hf : s.pe.frameState = .betweenFrames ∨ s.pe.frameState = .inFrame) (hk : s.pe.inputLostTimer = some k)
    (hlimit : k + ms < 500) :
    exec (.inputLost ms) s = .next { s with pe := { s.pe with inputLostTimer := some (k + ms) } } := by
  have runs : inputTimerRuns s = true := by simpa [inputTimerRuns, hr] using hf
  exact congrArg Host.Outcome.next (((elapseInput_spec ms s).2.2 k runs hk).2 hlimit)

/-- A stopped timer does not expire (R8; assumption log 10). -/
theorem exec_inputLost_stopped {s : State} {ms : Nat}
    (h : s.resetLine = true ∨ (s.pe.frameState ≠ .betweenFrames ∧ s.pe.frameState ≠ .inFrame) ∨ s.pe.inputLostTimer = none) :
    exec (.inputLost ms) s = .next s := by
  obtain ⟨hnone, hstopped, -⟩ := elapseInput_spec ms s
  refine congrArg Host.Outcome.next ?_
  rcases h with hr | ⟨hb, hi⟩ | hk
  · exact hstopped (by simp [inputTimerRuns, hr])
  · exact hstopped (by simp [inputTimerRuns, hb, hi])
  · exact hnone hk

/-- The pass at the loss of input leaves what the tracker is at work on (R76). -/
theorem loseInput_tracker (s : State) :
    (loseInput s).it.evaluation = s.it.evaluation ∧ (loseInput s).it.waiting = s.it.waiting ∧
      (loseInput s).it.summary = s.it.summary := by
  obtain ⟨o, r, z, he, -⟩ := truncateIfInFrame_eq s
  unfold loseInput runPass
  simp only [he]
  rw [trackerAfterPass_eq]
  exact ⟨rfl, rfl, rfl⟩

/-- The engine after the loss of input: NO_INPUT, the timer stopped, number and geometry kept (R8, R9). -/
theorem loseInput_engine (s : State) :
    (loseInput s).pe = { s.pe with
      frameState := .noInput, inputLostTimer := none, context := (loseInput s).pe.context } := by
  obtain ⟨o, r, z, he, -⟩ := truncateIfInFrame_eq s
  unfold loseInput runPass
  simp only [he]

/-- Settles O20: the input-lost timer before, at and after its expiry. -/
theorem inputLostTaken : Obligations.InputLostTaken := by
  intro s k ms hr hf hk
  have operating : s.operating := ⟨hr, by rcases hf with hf | hf <;> simp [hf]⟩
  refine ⟨fun hlimit => ?_, exec_inputLost_running hr hf hk, fun w h hms => ?_⟩
  · have engine := loseInput_engine s
    obtain ⟨hevaluation, hwaiting, hsummary⟩ := loseInput_tracker s
    refine ⟨loseInput s, exec_inputLost_expired hr hf hk hlimit, by rw [engine], by rw [engine], by rw [engine], by rw [engine],
      by rw [engine], by rw [engine], fun hin => ?_, fun hbetween => ?_, hevaluation, hwaiting, hsummary,
      State.unchangedBut_mono (unchangedBut_loseInput s) (by simp)⟩
    · obtain ⟨hopen, hzsa⟩ := truncated_of_inFrame hin
      rw [loseInput_zsa, loseInput_rr, hzsa, hopen]
      exact ⟨ZoneAccumulator.discard_state _, rfl⟩
    · rw [loseInput_zsa, loseInput_rr, truncated_of_not_inFrame (by simp [hbetween])]
      exact ⟨rfl, rfl⟩
  · obtain ⟨u, hu, hstate, -, -, -, -, -, -, -, -, htimer, -, -, -, -, -, -, -, -, -, -, -, hframed⟩ :=
      frameStartTaken w h s operating
    have line : u.resetLine = false := (hframed.2 .resetLine (by simp)).trans hr
    exact ⟨u, hu, by simpa using exec_inputLost_running line (.inr hstate) htimer (by omega)⟩

/-- Settles O13: what a truncation gives the ring, at a frame start and at the loss of input. -/
theorem frameTruncated : Obligations.FrameTruncated := by
  intro s c hc hr hs
  rcases hc with ⟨k, ms, rfl, hk, hlimit⟩ | ⟨w, h, rfl⟩
  · by_cases hf : s.pe.frameState = .betweenFrames ∨ s.pe.frameState = .inFrame
    · refine ⟨loseInput s, exec_inputLost_expired hr hf hk hlimit, ?_, ?_, fun _ hin => ?_⟩ <;> rw [loseInput_rr]
      · exact fun o hin ho => truncated_record hin ho
      · exact truncated_ring_of_none
      · obtain ⟨hopen, hzsa⟩ := truncated_of_inFrame hin
        rw [loseInput_zsa, hopen, hzsa]
        exact ⟨rfl, ZoneAccumulator.discard_state _⟩
    · have out : s.pe.frameState ≠ .inFrame := fun hin => hf (.inr hin)
      exact ⟨s, exec_inputLost_stopped (.inr (.inl (not_or.1 hf))), fun _ hin => absurd hin out, fun _ => rfl,
        fun _ hin => absurd hin out⟩
  · refine ⟨startFrame w h s, exec_frameStart ⟨hr, hs⟩, ?_, ?_, fun ⟨_, hm⟩ => nomatch hm⟩ <;> rw [startFrame_ring]
    · exact fun o hin ho => truncated_record hin ho
    · exact truncated_ring_of_none

/-! ## Frame end (R7, R63, R66, R157) -/

/-- The record as a frame end completes it (R157). -/
def State.recorded (s : State) : State :=
  completeOpenRecord (offerRefused s) (some (countsBlock s s.zsa.qualifyingCount)) s

theorem recorded_of_open {s : State} {o : OpenRecord} (h : s.rr.openRecord = some o) :
    s.recorded = { s with
      rr := { s.rr with
        openRecord := none
        ring := joinRing s.rr.ring (completed o s.it (offerRefused s) (some (countsBlock s s.zsa.qualifyingCount))) } } :=
  (completeOpenRecord_spec _ _ s).1 o h

theorem recorded_of_none {s : State} (h : s.rr.openRecord = none) : s.recorded = s := (completeOpenRecord_spec _ _ s).2 h

/-- The completion of the record changes the records alone. -/
theorem recorded_parts (s : State) :
    s.recorded.zsa = s.zsa ∧ s.recorded.it = s.it ∧ s.recorded.cu = s.cu ∧ s.recorded.pe = s.pe := by
  obtain ⟨o, r, he, -⟩ := completeOpenRecord_eq (offerRefused s) (some (countsBlock s s.zsa.qualifyingCount)) s
  unfold State.recorded
  rw [he]
  exact ⟨rfl, rfl, rfl, rfl⟩

/-- The offer changes the zone accumulator and the tracker alone (R63, R66). -/
theorem offerZones_eq (s : State) : offerZones s = { s with zsa := (offerZones s).zsa, it := (offerZones s).it } := by
  unfold offerZones
  split
  · rfl
  · rfl
  · split <;> rfl

/-- The offer is taken by a tracker without an evaluation in flight (R66). -/
theorem offerZones_taken {s : State} (hg : s.zsa.state = .gathering) (he : s.it.evaluation = none) :
    (offerZones s).it = { s.it with evaluation := some (beginEvaluation s.zsa s.cu.fields) } := by
  unfold offerZones
  simp [hg, he]

/-- There is no offer outside GATHERING, and a busy tracker refuses it (R63). -/
theorem offerZones_refused {s : State} (h : s.zsa.state ≠ .gathering ∨ s.it.evaluation.isSome = true) :
    (offerZones s).it = s.it := by
  unfold offerZones
  split
  · rfl
  · rfl
  · next hg => rw [if_pos (h.resolve_left (not_not.2 hg))]

theorem endFrame_eq (s : State) :
    endFrame s = { s.recorded with
      zsa := (offerZones s.recorded).zsa, it := (offerZones s.recorded).it
      pe := { s.pe with frameState := .betweenFrames, programmeOut := some .frameEnd, monitorOut := some .frameEnd } } := by
  obtain ⟨-, -, -, engine⟩ := recorded_parts s
  show { offerZones s.recorded with pe := { (offerZones s.recorded).pe with
    frameState := .betweenFrames, programmeOut := some .frameEnd, monitorOut := some .frameEnd } } = _
  rw [offerZones_eq s.recorded]
  simp only [engine]

theorem exec_frameEnd {s : State} (hr : s.resetLine = false) (hf : s.pe.frameState = .inFrame) :
    exec .frameEnd s = .next (endFrame s) := by
  simp [exec, execFrameEnd, hr, hf]

/-- The zones' list, by zone. -/
theorem Tab.list_eq_map_get {α : Type} {n : Nat} (t : Tab α n) : t.list = (List.finRange n).map t.get := by
  refine List.ext_getElem (by simp [t.len]) fun i _ _ => ?_
  simp [Tab.get]

/-- The frame's qualifying count, zone by zone (R63). -/
theorem qualifyingCount_of_gathering {z : ZoneAccumulator} (h : z.state = .gathering) :
    z.qualifyingCount = ((List.finRange 48).map fun i => (z.zones.get i).qualifying).sum := by
  unfold ZoneAccumulator.qualifyingCount
  rw [if_pos h, Tab.list_eq_map_get, List.map_map]
  rfl

theorem offerRefused_iff (s : State) : offerRefused s = true ↔ s.zsa.state = .gathering ∧ s.it.evaluation.isSome = true := by
  simp [offerRefused]

/-- The record that a frame end adds (R24, R157, R159). -/
theorem endFrame_record {s : State} {o : OpenRecord} (ho : s.rr.openRecord = some o) : ∃ r,
    (endFrame s).rr.ring = (if 64 ≤ s.rr.ring.length then s.rr.ring.drop 1 else s.rr.ring) ++ [r] ∧
    (endFrame s).rr.openRecord = none ∧ r.opening = o ∧ r.trackerMode = s.it.mode ∧ r.substate = s.it.substate ∧
    r.target = s.it.target ∧ (s.it.summary = none → r.votes = 0 ∧ r.estimate = none) ∧
    (∀ x, s.it.summary = some x → r.votes = x.votes ∧ r.estimate = x.estimate) ∧
    (r.evalSkipped = true ↔ s.zsa.state = .gathering ∧ s.it.evaluation.isSome = true) ∧
    ∃ k, r.counts = some k ∧ k.clipped = s.pe.clippedCount ∧ k.gainClamp = s.pe.gainClampCount ∧
      k.matrixClamp = s.pe.matrixClampCount ∧
      (s.zsa.state = .gathering → k.qualifying = ((List.finRange 48).map fun z => (s.zsa.zones.get z).qualifying).sum) ∧
      (s.zsa.state ≠ .gathering → k.qualifying = 0) := by
  obtain ⟨hopening, hmode, hsubstate, htarget, hnone, hsome, hskipped, hcounts⟩ :=
    completed_spec s (offerRefused s) (some (countsBlock s s.zsa.qualifyingCount)) o _ rfl
  rw [endFrame_eq, recorded_of_open ho]
  exact ⟨_, joinRing_eq _ _, rfl, hopening, hmode, hsubstate, htarget, hnone, hsome, hskipped ▸ offerRefused_iff s, _, hcounts,
    rfl, rfl, rfl, qualifyingCount_of_gathering, fun hg => if_neg hg⟩

/-- Settles O19: a frame end, part by part. -/
theorem frameEndTaken : Obligations.FrameEndTaken := by
  intro s hr hf
  obtain ⟨zones, tracker, context, -⟩ := recorded_parts s
  have framed := unchangedBut_endFrame s
  refine ⟨endFrame s, exec_frameEnd hr hf, rfl, ?_, ?_, ?_, ?_, ?_, rfl, rfl, fun o ho => endFrame_record ho, fun ho => ?_,
    offerZones_state _, fun hg he => ?_, fun h => ?_, State.unchangedBut_mono framed (by simp)⟩
  · rw [endFrame_eq]
  · rw [endFrame_eq]
  · rw [endFrame_eq]
  · rw [endFrame_eq]
  · rw [endFrame_eq]
  · rw [endFrame_eq, recorded_of_none ho]
    exact ⟨ho, rfl⟩
  · refine ⟨beginEvaluation s.zsa s.cu.fields, ?_, rfl, rfl, rfl, rfl, rfl, rfl⟩
    have taken := offerZones_taken (s := s.recorded) (zones ▸ hg) (tracker ▸ he)
    rwa [zones, tracker, context] at taken
  · have refused := offerZones_refused (s := s.recorded) (by rwa [zones, tracker])
    rwa [tracker] at refused

/-! ## Events not acted on (R2, R4, R7, R10) -/

theorem exec_frameEnd_ignored {s : State} (h : s.resetLine = true ∨ s.pe.frameState ≠ .inFrame) :
    exec .frameEnd s = .next (emitNothing s) := by
  refine congrArg Host.Outcome.next (if_neg ?_)
  rcases h with h | h <;> simp [h]

theorem exec_frameStart_ignored {s : State} (w h : Half) (hs : s.resetLine = true ∨ s.pe.frameState = .starting) :
    exec (.frameStart w h) s = .next (emitNothing s) :=
  congrArg Host.Outcome.next (if_pos (by simpa [State.isStarting] using hs))

theorem exec_pixel_discarded {s : State} (r g b : Half) (hr : s.resetLine = false)
    (hf : s.pe.frameState = .noInput ∨ s.pe.frameState = .betweenFrames) : exec (.pixel r g b) s = .next (emitNothing s) := by
  rcases hf with hf | hf <;> simp [exec, execPixel, State.isStarting, hr, hf]

theorem exec_pixel_black {s : State} (r g b : Half) (hs : s.resetLine = true ∨ s.pe.frameState = .starting) :
    exec (.pixel r g b) s = .next (emitBlack s) :=
  congrArg Host.Outcome.next (if_pos (by simpa [State.isStarting] using hs))

/-- Settles O21: what is given out for events that are not acted on, and that nothing else differs. -/
theorem streamEventsNotActedOn : Obligations.StreamEventsNotActedOn := by
  intro s
  refine ⟨fun c hc => ⟨emitNothing s, ?_, rfl, rfl, unchangedBut_emit s none none⟩, fun r g b hs =>
    ⟨emitBlack s, exec_pixel_black r g b hs, rfl, rfl, unchangedBut_emit s _ _⟩, fun ms hs => exec_inputLost_stopped ?_⟩
  · rcases hc with ⟨hs, rfl⟩ | ⟨hs, w, h, rfl⟩ | ⟨hr, hf, r, g, b, rfl⟩
    · exact exec_frameEnd_ignored hs
    · exact exec_frameStart_ignored w h hs
    · exact exec_pixel_discarded r g b hr hf
  · rcases hs with hr | hf | hf | hk
    · exact .inl hr
    · exact .inr (.inl (by simp [hf]))
    · exact .inr (.inl (by simp [hf]))
    · exact .inr (.inr hk)

end Sys2Proof.Machine
end

section
/-! O14, O15 and O16: the pixel arithmetic (R14 to R23, R26 to R37, R60, R62). -/

namespace Sys2Proof.Machine

/-! ## The front stage (R14 to R18) -/

theorem isClipped_iff (vr vg vb : Half) :
    isClipped vr vg vb = true ↔ vr.toNat = 65535 ∨ vg.toNat = 65535 ∨ vb.toNat = 65535 := by
  have marker : ∀ v : Half, v = clipMarker ↔ v.toNat = 65535 := fun v => by
    rw [← BitVec.toNat_inj]
    rfl
  simp [isClipped, marker, or_assoc]

/-- The black-subtracted value (R15). -/
theorem blackSubtract_eq (v : Half) (black : Nat) : (blackSubtract v black : Int) = max ((v.toNat : Int) - black) 0 := by
  unfold blackSubtract
  omega

/-- The matrix output, rounded (R17). -/
theorem matrixRow_eq (e1 e2 e3 : Int) (p : Rgb) :
    matrixRow e1 e2 e3 p =
      if 0 ≤ e1 * p.r + e2 * p.g + e3 * p.b then (e1 * p.r + e2 * p.g + e3 * p.b + 2048) / 4096
      else -((-(e1 * p.r + e2 * p.g + e3 * p.b) + 2048) / 4096) := roundHalfAway_4096 _

/-- The clamp of a matrix output (R18). -/
theorem matrixClampValue_eq (w : Int) : (matrixClampValue w : Int) = max 0 (min w 262143) := by
  unfold matrixClampValue workingLimit
  rw [clampInt_eq _ _ _ (by decide)]
  omega

theorem matrixClamps_iff (w : Int) : matrixClamps w = true ↔ w < 0 ∨ 262143 < w := by
  unfold matrixClamps
  rw [Bool.or_eq_true, decide_eq_true_iff, decide_eq_true_iff]
  rfl

theorem gainClamps_iff (x gain : Nat) : gainClamps x gain = true ↔ 262143 < (x * gain + 2048) / 4096 :=
  decide_eq_true_iff

/-- Settles O15: the front stage on a clipped and on any other pixel. -/
theorem frontStageArithmetic : Obligations.FrontStageArithmetic := by
  intro c vr vg vb
  refine ⟨fun h => ?_, fun hr hg hb => ?_⟩
  · exact if_pos ((isClipped_iff vr vg vb).2 h)
  · have unclipped : ¬ isClipped vr vg vb = true := by
      rw [isClipped_iff]
      omega
    unfold frontStage
    rw [if_neg unclipped]
    refine ⟨rfl, blackSubtract_eq _ _, blackSubtract_eq _ _, blackSubtract_eq _ _, ?_, ?_, ?_, ?_, ?_⟩
    · simp only [Bool.or_eq_true, gainClamps_iff, or_assoc]
    · rw [matrixClampValue_eq, matrixRow_eq]
      rfl
    · rw [matrixClampValue_eq, matrixRow_eq]
      rfl
    · rw [matrixClampValue_eq, matrixRow_eq]
      rfl
    · simp only [Bool.or_eq_true, matrixClamps_iff, matrixRow_eq, or_assoc]
      rfl

/-! ## The tone stage (R19, R20) -/

/-- The index and the remainder of a working value from 128 on: its stop, its step in the stop, and the rest (R20). -/
theorem toneIndex {v : Nat} (hlow : 128 ≤ v) (hhigh : v ≤ 262143) :
    ∃ k, Nat.log2 v = k ∧ 2 ^ k ≤ v ∧ v < 2 ^ (k + 1) ∧ 7 ≤ k ∧ k ≤ 17 ∧ 64 ≤ v / 2 ^ (k - 6) ∧ v / 2 ^ (k - 6) ≤ 127 := by
  have hv : v ≠ 0 := by omega
  have below : 2 ^ Nat.log2 v ≤ v := Nat.log2_self_le hv
  have above : v < 2 ^ (Nat.log2 v + 1) := Nat.lt_log2_self
  have first : 7 ≤ Nat.log2 v := (Nat.le_log2 hv).2 hlow
  have last : Nat.log2 v < 18 := (Nat.log2_lt hv).2 (by omega)
  refine ⟨Nat.log2 v, rfl, below, above, first, by omega, ?_, ?_⟩
  · rw [Nat.le_div_iff_mul_le (by positivity), show 64 = 2 ^ 6 from rfl, ← pow_add, Nat.add_sub_cancel' (by omega)]
    exact below
  · refine Nat.le_of_lt_succ ((Nat.div_lt_iff_lt_mul (by positivity)).2 ?_)
    rwa [show Nat.succ 127 = 2 ^ 7 from rfl, ← pow_add, show 7 + (Nat.log2 v - 6) = Nat.log2 v + 1 by omega]

/-- An interpolation step of a fraction below one, rounded, lies between nothing and the whole difference (R20). -/
theorem interpolation_mem {d : Int} {r q : Nat} (hr : r < q) :
    min 0 d ≤ (d * r + (q / 2 : Nat)) / (q : Int) ∧ (d * r + (q / 2 : Nat)) / (q : Int) ≤ max 0 d := by
  have hq : (0 : Int) < q := by omega
  have half : ((q / 2 : Nat) : Int) < q := by omega
  have rest : (r : Int) ≤ q := by omega
  have nonneg : (0 : Int) ≤ r := by omega
  constructor
  · rw [Int.le_ediv_iff_mul_le hq]
    rcases le_total 0 d with hd | hd
    · rw [min_eq_left hd, zero_mul]
      positivity
    · rw [min_eq_right hd]
      have := mul_le_mul_of_nonpos_left rest hd
      omega
  · refine Int.le_of_lt_add_one ((Int.ediv_lt_iff_lt_mul hq).2 ?_)
    rcases le_total 0 d with hd | hd
    · rw [max_eq_right hd, add_mul, one_mul]
      have := mul_le_mul_of_nonneg_left rest hd
      omega
    · rw [max_eq_left hd, zero_add, one_mul]
      have := mul_nonpos_of_nonpos_of_nonneg hd nonneg
      omega

/-- Without a remainder the interpolation adds nothing. -/
theorem interpolation_zero (d : Int) {q : Nat} (hq : 0 < q) : (d * (0 : Nat) + (q / 2 : Nat)) / (q : Int) = 0 := by
  rw [Int.natCast_zero, mul_zero, zero_add]
  exact Int.ediv_eq_zero_of_lt (by omega) (by omega)

/-- Settles O16: the tone stage below 128 and, by index and remainder, above. -/
theorem toneStageInterpolates : Obligations.ToneStageInterpolates := by
  intro table v
  refine ⟨fun h => if_pos h, fun hlow hhigh => ?_⟩
  obtain ⟨k, hk, below, above, first, last, hm, hm'⟩ := toneIndex hlow hhigh
  obtain ⟨q, hq⟩ : ∃ q, q = 2 ^ (k - 6) := ⟨_, rfl⟩
  obtain ⟨m, hmv⟩ : ∃ m, m + 64 = v / q := ⟨v / q - 64, by rw [hq]; omega⟩
  have positive : 0 < q := by rw [hq]; positivity
  have split : v = (m + 64) * q + v % q := by
    rw [hmv, Nat.mul_comm]
    exact (Nat.div_add_mod v q).symm
  have out : (toneOutput table v : Int) = max 0 (min ((table (64 + (k - 6) * 64 + m) : Int) +
      (((table (64 + (k - 6) * 64 + m + 1) : Int) - table (64 + (k - 6) * 64 + m)) * (v % q : Nat) + (q / 2 : Nat)) / q)
        4095) := by
    unfold toneOutput
    rw [if_neg (by omega)]
    simp only [hk, ← hq, ← hmv, Nat.add_sub_cancel]
    rw [show v - (m + 64) * q = v % q by omega, clampInt_eq _ _ _ (by decide)]
    omega
  refine ⟨k, q, m, v % q, 64 + (k - 6) * 64 + m, below, above, first, last, hq, hmv, ?_, split, Nat.mod_lt v positive, rfl, ?_,
    ?_, out, fun hlo hhi => ?_⟩
  · rw [← hq] at hm'
    omega
  · omega
  · rw [← hq] at hm'
    omega
  · have between := interpolation_mem (d := (table (64 + (k - 6) * 64 + m + 1) : Int) - table (64 + (k - 6) * 64 + m))
      (Nat.mod_lt v positive)
    have interpolated : (toneOutput table v : Int) = (table (64 + (k - 6) * 64 + m) : Int) +
        (((table (64 + (k - 6) * 64 + m + 1) : Int) - table (64 + (k - 6) * 64 + m)) * (v % q : Nat) + (q / 2 : Nat)) / q := by
      rw [out]
      omega
    refine ⟨interpolated, by omega, by omega, fun hr => ?_⟩
    rw [hr, interpolation_zero _ positive] at interpolated
    omega

/-! ## A pixel of a frame (R10, R22, R23, R26, R60, R62) -/

/-- The zone along an axis that covers a position: it begins at or before the position and ends after it (R60). -/
theorem zoneAlong_spec {count extent position : Nat} (hcount : 0 < count) (hp : position < extent) :
    zoneAlong count extent position < count ∧ zoneAlong count extent position * extent / count ≤ position ∧
      position < (zoneAlong count extent position + 1) * extent / count := by
  obtain ⟨begun, ended, inside⟩ := countP_of_initial (fun j => decide ((j + 1) * extent / count ≤ position))
    (fun j k hjk hk => by
      have : (j + 1) * extent / count ≤ (k + 1) * extent / count :=
        Nat.div_le_div_right (Nat.mul_le_mul_right _ (by omega))
      simp only [decide_eq_true_eq] at hk ⊢
      omega) (count - 1)
  change (∀ j < zoneAlong count extent position, _) at begun
  change zoneAlong count extent position < _ →
    decide ((zoneAlong count extent position + 1) * extent / count ≤ position) = false at ended
  change zoneAlong count extent position ≤ _ at inside
  generalize zoneAlong count extent position = z at begun ended inside
  refine ⟨by omega, ?_, ?_⟩
  · cases z with
    | zero => simp
    | succ j => simpa using begun j (by omega)
  · by_cases hz : z < count - 1
    · simpa using ended hz
    · rw [show z + 1 = count by omega, Nat.mul_div_cancel_left _ hcount]
      exact hp

/-- The zone index is that of the zone row and the zone column (R60). -/
theorem zoneIndex_val {w h : Half} {column row : Nat} (hc : column < w.toNat) (hr : row < h.toNat) :
    (zoneIndex w h column row).val = 8 * zoneAlong 6 h.toNat row + zoneAlong 8 w.toNat column := by
  obtain ⟨hj, -⟩ := zoneAlong_spec (count := 8) (by omega) hc
  obtain ⟨hk, -⟩ := zoneAlong_spec (count := 6) (by omega) hr
  exact Nat.mod_eq_of_lt (by omega)

/-- A zone record with one pixel added (R62). -/
theorem ZoneRecord.add_eq (z : ZoneRecord) (darkFloor : Nat) (f : FrontStage) :
    z.add darkFloor f =
      if f.clipped = false ∧ darkFloor ≤ f.subtracted.g then
        ⟨z.pixelCount + 1, z.qualifying + 1, z.sumR + f.subtracted.r, z.sumG + f.subtracted.g, z.sumB + f.subtracted.b⟩
      else ⟨z.pixelCount + 1, z.qualifying, z.sumR, z.sumG, z.sumB⟩ := by
  unfold ZoneRecord.add qualifies
  simp only [Bool.and_eq_true, Bool.not_eq_true', decide_eq_true_eq]

/-- A pixel outside valid geometry, or not gathered, leaves the zone accumulator (R12, R13, R62). -/
theorem handPixel_of_not {s : State} (f : FrontStage)
    (h : s.pe.geometryValid = false ∨ s.pe.width.toNat * s.pe.height.toNat ≤ s.pe.pixelIndex ∨ s.zsa.state ≠ .gathering) :
    handPixel s f = s.zsa := by
  unfold handPixel
  simp only
  split
  · next inside =>
    simp only [Bool.and_eq_true, decide_eq_true_eq] at inside
    obtain ⟨hvalid, hindex⟩ := inside
    refine if_neg ?_
    rcases h with h | h | h
    · rw [hvalid] at h; cases h
    · omega
    · exact h
  · rfl

/-- A pixel inside valid geometry is added to the zone of its column and row (R60, R62). -/
theorem handPixel_of_inside {s : State} (f : FrontStage) (hvalid : s.pe.geometryValid = true)
    (hindex : s.pe.pixelIndex < s.pe.width.toNat * s.pe.height.toNat) (hg : s.zsa.state = .gathering) :
    handPixel s f =
      let z := zoneIndex s.zsa.width s.zsa.height (s.pe.pixelIndex % s.pe.width.toNat) (s.pe.pixelIndex / s.pe.width.toNat)
      { s.zsa with zones := s.zsa.zones.set z ((s.zsa.zones.get z).add s.zsa.darkFloor f) } := by
  unfold handPixel
  simp only
  rw [if_pos (by simp [hvalid, hindex])]
  exact if_pos hg

theorem exec_pixel {s : State} (vr vg vb : Half) (hr : s.resetLine = false) (hf : s.pe.frameState = .inFrame) :
    exec (.pixel vr vg vb) s = .next (transformPixel vr vg vb s) := by
  simp [exec, execPixel, State.isStarting, hr, hf]

theorem unchangedBut_transformPixel (vr vg vb : Half) (s : State) :
    s.unchangedBut (transformPixel vr vg vb s) [.counts, .outputs, .zones] := by
  refine ⟨rfl, fun part hp => ?_⟩
  cases part <;> simp at hp <;> simp [State.agrees, transformPixel]
  next q => cases q <;> rfl

/-- The monitor codes without a lattice, and with one (R26, R34, R37). -/
theorem monitorCodes_of_lattice (s : State) (w : Rgb) :
    let c := toneStage (s.slot (toneSlot s.pe.context.monitorTone)).content w
    (s.pe.context.monitorLattice = none → monitorCodes s w = ⟨monitorCode c.r, monitorCode c.g, monitorCode c.b⟩) ∧
      ∀ l, s.pe.context.monitorLattice = some l →
        let out := latticeStage (s.slot (latticeSlot l)).content c
        monitorCodes s w = ⟨monitorCode out.r, monitorCode out.g, monitorCode out.b⟩ := by
  unfold monitorCodes
  exact ⟨fun h => by simp only [h], fun l h => by simp only [h]⟩

/-- Settles O14: a pixel in a frame, its codes, its counts and its zone. -/
theorem pixelTransformed : Obligations.PixelTransformed := by
  intro vr vg vb s hr hf
  obtain ⟨bypass, lattice⟩ := monitorCodes_of_lattice s (frontStage s.pe.context vr vg vb).working
  refine ⟨transformPixel vr vg vb s, exec_pixel vr vg vb hr hf, rfl, fun h => ?_, fun l h => ?_, rfl, rfl, rfl, rfl,
    fun h => handPixel_of_not _ h, fun hvalid hindex hg hw hh _ _ => ?_, unchangedBut_transformPixel vr vg vb s⟩
  · exact congrArg (fun c : Rgb => some c.item) (bypass h)
  · exact congrArg (fun c : Rgb => some c.item) (lattice l h)
  · have column : s.pe.pixelIndex % s.pe.width.toNat < s.pe.width.toNat := Nat.mod_lt _ (by
      by_contra h0
      simp [show s.pe.width.toNat = 0 by omega] at hindex)
    have row : s.pe.pixelIndex / s.pe.width.toNat < s.pe.height.toNat := Nat.div_lt_of_lt_mul hindex
    obtain ⟨hj, hjlow, hjhigh⟩ := zoneAlong_spec (count := 8) (by omega) column
    obtain ⟨hk, hklow, hkhigh⟩ := zoneAlong_spec (count := 6) (by omega) row
    have handed := handPixel_of_inside (frontStage s.pe.context vr vg vb) hvalid hindex hg
    rw [hw, hh] at handed
    refine ⟨_, _, _, hj, hk, zoneIndex_val column row, hjlow, hjhigh, hklow, hkhigh, handPixel_eq s _, fun y hy => ?_, ?_⟩
    · show (handPixel s _).zones.get y = _
      rw [handed]
      exact (Tab.get_set ..).trans (if_neg (Ne.symm hy))
    · show (handPixel s _).zones.get _ = _
      rw [handed]
      exact (Tab.get_set_self ..).trans (ZoneRecord.add_eq ..)

end Sys2Proof.Machine
end

section
/-! O17 and O18: the lattice stage and the monitor conversion (R29 to R33, R36, R37). -/

namespace Sys2Proof.Machine

/-! ## The weighted sum of a path (R31, R32) -/

/-- 256 times what R32 gives along a path, before it is rounded. -/
def Path.weighted (corner : Rgb → Int) (p : Path) : Int :=
  256 * corner ⟨0, 0, 0⟩ + p.f1 * (corner p.n1 - corner ⟨0, 0, 0⟩) + p.f2 * (corner p.n2 - corner p.n1) +
    p.f3 * (corner ⟨1, 1, 1⟩ - corner p.n2)

/-- The paths of the table of R31 whose condition the three fractions meet: more than one on a tie. -/
inductive Meets (fr fg fb : Nat) : Path → Prop
  | rgb : fr ≥ fg → fg ≥ fb → Meets fr fg fb ⟨⟨1, 0, 0⟩, ⟨1, 1, 0⟩, fr, fg, fb⟩
  | rbg : fr ≥ fb → fb ≥ fg → Meets fr fg fb ⟨⟨1, 0, 0⟩, ⟨1, 0, 1⟩, fr, fb, fg⟩
  | brg : fb ≥ fr → fr ≥ fg → Meets fr fg fb ⟨⟨0, 0, 1⟩, ⟨1, 0, 1⟩, fb, fr, fg⟩
  | grb : fg ≥ fr → fr ≥ fb → Meets fr fg fb ⟨⟨0, 1, 0⟩, ⟨1, 1, 0⟩, fg, fr, fb⟩
  | gbr : fg ≥ fb → fb ≥ fr → Meets fr fg fb ⟨⟨0, 1, 0⟩, ⟨0, 1, 1⟩, fg, fb, fr⟩
  | bgr : fb ≥ fg → fg ≥ fr → Meets fr fg fb ⟨⟨0, 0, 1⟩, ⟨0, 1, 1⟩, fb, fg, fr⟩

/-- The table of R31 always has a path for the fractions. -/
theorem meets_tetrahedron (fr fg fb : Nat) : Meets fr fg fb (tetrahedron fr fg fb) := by
  unfold tetrahedron
  split
  · next h => exact .rgb h.1 h.2
  split
  · next h => exact .rbg h.1 h.2
  split
  · next h => exact .brg h.1 h.2
  split
  · next h => exact .grb h.1 h.2
  split
  · next h => exact .gbr h.1 h.2
  · exact .bgr (by omega) (by omega)

/-- The weighted sum with a weight for each corner, which no longer names an order of the three axes `a`, `b` and `c`. -/
def cornerSum (c0 c1 : Int) (a b c : Nat) (va vb vc vab vac vbc : Int) : Int :=
  (256 - (max a (max b c) : Nat)) * c0 + (a - max b c : Nat) * va + (b - max a c : Nat) * vb + (c - max a b : Nat) * vc +
    (min a b - c : Nat) * vab + (min a c - b : Nat) * vac + (min b c - a : Nat) * vbc + (min a (min b c) : Nat) * c1

theorem cornerSum_swap_first (c0 c1 : Int) (a b c : Nat) (va vb vc vab vac vbc : Int) :
    cornerSum c0 c1 a b c va vb vc vab vac vbc = cornerSum c0 c1 b a c vb va vc vab vbc vac := by
  unfold cornerSum
  rw [max_left_comm a b c, min_left_comm a b c, max_comm a b, min_comm a b]
  ring

theorem cornerSum_swap_last (c0 c1 : Int) (a b c : Nat) (va vb vc vab vac vbc : Int) :
    cornerSum c0 c1 a b c va vb vc vab vac vbc = cornerSum c0 c1 a c b va vc vb vac vab vbc := by
  unfold cornerSum
  rw [max_comm b c, min_comm b c]
  ring

/-- In the order of its axes it is the sum of R32. -/
theorem cornerSum_of_ordered (c0 c1 : Int) {a b c : Nat} (va vb vc vab vac vbc : Int) (hab : a ≥ b) (hbc : b ≥ c) :
    cornerSum c0 c1 a b c va vb vc vab vac vbc =
      256 * c0 + a * (va - c0) + b * (vab - va) + c * (c1 - vab) := by
  have hac : a ≥ c := hbc.trans hab
  unfold cornerSum
  simp only [max_eq_left hab, max_eq_left hbc, max_eq_left hac, min_eq_right hab, min_eq_right hbc, min_eq_right hac,
    Nat.sub_eq_zero_of_le hab, Nat.sub_eq_zero_of_le hbc, Nat.sub_eq_zero_of_le hac, Nat.cast_sub hab, Nat.cast_sub hbc]
  push_cast
  ring

/-- A tie makes no difference: every path whose condition the fractions meet has one and the same weighted sum (R31). -/
theorem weighted_of_meets (corner : Rgb → Int) {fr fg fb : Nat} {p : Path} (h : Meets fr fg fb p) :
    p.weighted corner =
      cornerSum (corner ⟨0, 0, 0⟩) (corner ⟨1, 1, 1⟩) fr fg fb (corner ⟨1, 0, 0⟩) (corner ⟨0, 1, 0⟩) (corner ⟨0, 0, 1⟩)
        (corner ⟨1, 1, 0⟩) (corner ⟨1, 0, 1⟩) (corner ⟨0, 1, 1⟩) := by
  symm
  cases h with
  | rgb h1 h2 => exact cornerSum_of_ordered _ _ _ _ _ _ _ _ h1 h2
  | rbg h1 h2 =>
    rw [cornerSum_swap_last]
    exact cornerSum_of_ordered _ _ _ _ _ _ _ _ h1 h2
  | brg h1 h2 =>
    rw [cornerSum_swap_last, cornerSum_swap_first]
    exact cornerSum_of_ordered _ _ _ _ _ _ _ _ h1 h2
  | grb h1 h2 =>
    rw [cornerSum_swap_first]
    exact cornerSum_of_ordered _ _ _ _ _ _ _ _ h1 h2
  | gbr h1 h2 =>
    rw [cornerSum_swap_first, cornerSum_swap_last]
    exact cornerSum_of_ordered _ _ _ _ _ _ _ _ h1 h2
  | bgr h1 h2 =>
    rw [cornerSum_swap_last, cornerSum_swap_first, cornerSum_swap_last]
    exact cornerSum_of_ordered _ _ _ _ _ _ _ _ h1 h2

/-- The corners of a pixel's cell, by their steps from its first node (R29, R30). -/
def cellCorner (content : Memory) (c : Rgb) (channel : Nat) (step : Rgb) : Int :=
  nodeValue content (c.r / 256 + step.r) (c.g / 256 + step.g) (c.b / 256 + step.b) channel

/-- A channel of the lattice stage along any path whose condition holds: the weighted sum, rounded and clamped (R31, R32). -/
theorem latticeChannel_of_meets (content : Memory) (c : Rgb) (channel : Nat) {p : Path}
    (h : Meets (c.r % 256) (c.g % 256) (c.b % 256) p) :
    (latticeChannel content c channel : Int) =
      max 0 (min ((p.weighted (cellCorner content c channel) + 128) / 256) 4095) := by
  rw [weighted_of_meets _ h, ← weighted_of_meets _ (meets_tetrahedron _ _ _)]
  exact latticeRound_eq ..

/-! ## The identity lattice (R36) -/

/-- A path weighs an axis with the fraction along that axis. -/
theorem weighted_axis {fr fg fb : Nat} {p : Path} (h : Meets fr fg fb p) :
    p.weighted (fun step => step.r) = fr ∧ p.weighted (fun step => step.g) = fg ∧ p.weighted (fun step => step.b) = fb := by
  cases h <;> simp [Path.weighted]

theorem weighted_affine (v d : Int) (axis : Rgb → Int) (p : Path) :
    p.weighted (fun step => v + d * axis step) = 256 * v + d * p.weighted axis := by
  unfold Path.weighted
  ring

/-- The weighted sum reads the corners of the cell alone. -/
theorem weighted_congr {fr fg fb : Nat} {p : Path} (h : Meets fr fg fb p) {corner corner' : Rgb → Int}
    (hc : ∀ step : Rgb, step.r ≤ 1 → step.g ≤ 1 → step.b ≤ 1 → corner step = corner' step) :
    p.weighted corner = p.weighted corner' := by
  have cube : p.n1.r ≤ 1 ∧ p.n1.g ≤ 1 ∧ p.n1.b ≤ 1 ∧ p.n2.r ≤ 1 ∧ p.n2.g ≤ 1 ∧ p.n2.b ≤ 1 := by
    cases h <;> simp
  obtain ⟨hr, hg, hb, hr', hg', hb'⟩ := cube
  unfold Path.weighted
  rw [hc p.n1 hr hg hb, hc p.n2 hr' hg' hb', hc ⟨0, 0, 0⟩ (by simp) (by simp) (by simp),
    hc ⟨1, 1, 1⟩ (by simp) (by simp) (by simp)]

/-- A code through the identity lattice: exact up to 3,968, one lower above, where the last node holds 4,095 (R36). -/
def throughIdentity (v : Nat) : Nat := if v ≤ 3968 then v else v - 1

/-- Between two nodes of the identity lattice along an axis, the values rise by 256, in the last cell by 255. -/
theorem identityNode_step {v k : Nat} (hv : v ≤ 4095) (hk : k ≤ 1) :
    ((min 4095 (256 * (v / 256 + k)) : Nat) : Int) = 256 * ((v : Int) / 256) + (if v < 3840 then 256 else 255) * (k : Int) := by
  obtain rfl | rfl : k = 0 ∨ k = 1 := by omega
  all_goals split <;> omega

/-- The rounded sum between two nodes of the identity lattice: the code itself, but for the upper half of the last cell (R32). -/
theorem round_identityCell {v : Nat} (hv : v ≤ 4095) :
    (256 * (256 * (v / 256)) + (if v < 3840 then 256 else 255) * (v % 256) + 128) / 256 = throughIdentity v := by
  unfold throughIdentity
  by_cases hlast : v < 3840
  · rw [if_pos hlast, if_pos (by omega)]
    omega
  · have cell : v / 256 = 15 := by omega
    rw [if_neg hlast, cell]
    split <;> omega

theorem throughIdentity_le {v : Nat} (hv : v ≤ 4095) : throughIdentity v ≤ 4095 := by
  unfold throughIdentity
  split <;> omega

/-- A channel whose corners step with one axis gives that axis's code through the identity lattice. -/
theorem latticeChannel_of_axis {content : Memory} {c : Rgb} {channel v : Nat} (axis : Rgb → Nat) (hv : v ≤ 4095)
    (hcorner : ∀ step : Rgb, step.r ≤ 1 → step.g ≤ 1 → step.b ≤ 1 →
      axis step ≤ 1 ∧ cellCorner content c channel step = (min 4095 (256 * (v / 256 + axis step)) : Nat))
    (haxis : (tetrahedron (c.r % 256) (c.g % 256) (c.b % 256)).weighted (fun step => axis step) = (v % 256 : Nat)) :
    latticeChannel content c channel = throughIdentity v := by
  have met := meets_tetrahedron (c.r % 256) (c.g % 256) (c.b % 256)
  have sum : (tetrahedron (c.r % 256) (c.g % 256) (c.b % 256)).weighted (cellCorner content c channel) =
      (256 * (256 * (v / 256)) + (if v < 3840 then 256 else 255) * (v % 256) : Nat) := by
    push_cast [← haxis]
    rw [← weighted_affine]
    refine weighted_congr met fun step hr hg hb => ?_
    obtain ⟨hstep, hvalue⟩ := hcorner step hr hg hb
    rw [hvalue, identityNode_step hv hstep]
  have out := latticeChannel_of_meets content c channel met
  have rounded := round_identityCell hv
  have range := throughIdentity_le hv
  rw [sum] at out
  omega

/-- A corner of the identity lattice holds its own place, channel by channel (R36). -/
theorem cellCorner_identityLattice {c : Rgb} (hr : c.r ≤ 4095) (hg : c.g ≤ 4095) (hb : c.b ≤ 4095) {step : Rgb}
    (hr' : step.r ≤ 1) (hg' : step.g ≤ 1) (hb' : step.b ≤ 1) :
    cellCorner identityLattice c 0 step = (min 4095 (256 * (c.r / 256 + step.r)) : Nat) ∧
      cellCorner identityLattice c 1 step = (min 4095 (256 * (c.g / 256 + step.g)) : Nat) ∧
      cellCorner identityLattice c 2 step = (min 4095 (256 * (c.b / 256 + step.b)) : Nat) := by
  obtain ⟨red, green, blue⟩ := nodeValue_identityLattice (c.r / 256 + step.r) (c.g / 256 + step.g) (c.b / 256 + step.b)
    (by omega) (by omega) (by omega)
  unfold cellCorner
  rw [red, green, blue]
  exact ⟨rfl, rfl, rfl⟩

/-- The identity lattice gives every code back, but for one step above 3,968 (R36). -/
theorem latticeStage_identityLattice {c : Rgb} (hr : c.r ≤ 4095) (hg : c.g ≤ 4095) (hb : c.b ≤ 4095) :
    latticeStage identityLattice c = ⟨throughIdentity c.r, throughIdentity c.g, throughIdentity c.b⟩ := by
  obtain ⟨axisR, axisG, axisB⟩ := weighted_axis (meets_tetrahedron (c.r % 256) (c.g % 256) (c.b % 256))
  have corners := fun (step : Rgb) h1 h2 h3 => cellCorner_identityLattice hr hg hb (step := step) h1 h2 h3
  have red : latticeChannel identityLattice c 0 = throughIdentity c.r :=
    latticeChannel_of_axis Rgb.r hr (fun step h1 h2 h3 => ⟨h1, (corners step h1 h2 h3).1⟩) axisR
  have green : latticeChannel identityLattice c 1 = throughIdentity c.g :=
    latticeChannel_of_axis Rgb.g hg (fun step h1 h2 h3 => ⟨h2, (corners step h1 h2 h3).2.1⟩) axisG
  have blue : latticeChannel identityLattice c 2 = throughIdentity c.b :=
    latticeChannel_of_axis Rgb.b hb (fun step h1 h2 h3 => ⟨h3, (corners step h1 h2 h3).2.2⟩) axisB
  unfold latticeStage
  rw [red, green, blue]

/-- Settles O17: the lattice stage on the identity lattice, and its sum under each of the six conditions. -/
theorem latticeStageInterpolates : Obligations.LatticeStageInterpolates := by
  refine ⟨fun c hr hg hb => ?_, fun content c channel => ?_⟩
  · rw [latticeStage_identityLattice hr hg hb]
    rfl
  have gives := fun {p} => latticeChannel_of_meets content c channel (p := p)
  exact ⟨fun h1 h2 => (gives (.rgb h1 h2) :), fun h1 h2 => (gives (.rbg h1 h2) :), fun h1 h2 => (gives (.brg h1 h2) :),
    fun h1 h2 => (gives (.grb h1 h2) :), fun h1 h2 => (gives (.gbr h1 h2) :), fun h1 h2 => (gives (.bgr h1 h2) :)⟩

/-! ## The monitor conversion (R37) -/

/-- Settles O18: the conversion to ten bits, at both ends of its range. -/
theorem monitorConversion : Obligations.MonitorConversion := by
  unfold Obligations.MonitorConversion monitorCode
  refine ⟨fun _ => rfl, fun _ => min_le_right _ _, ?_, ?_, ?_, ?_⟩ <;> omega

end Sys2Proof.Machine
end

section
/-! O8: the slots and the directory that start-up leaves (R36, R41, R136, R141; assumption logs 7, 13, 25). -/

namespace Sys2Proof.Machine

/-! ## What start-up reads (R138, R141) -/

/-- What start-up reads: the scan's directory, or one made now, and the pages given no longer matching (assumption logs 7, 13). -/
theorem ensureScanned_decayed (pages : List Nat) (s : State) :
    (ensureScanned s).decayed pages =
      { s with store := s.store.decay pages, directory := some (s.directory.getD s.store.scan) } := by
  unfold ensureScanned State.decayed scanStore
  cases hd : s.directory with
  | none => exact congrArg (State.decayed · pages) (if_pos rfl)
  | some d =>
    rw [if_neg (by simp)]
    exact congrArg (fun x => { s with store := s.store.decay pages, directory := x }) hd

/-- The reads of start-up see the scan's entries, the store's bytes, and the marks of the pages that fail or are given. -/
theorem startUpReads (pages : List Nat) (s : State) :
    let u := (ensureScanned s).decayed pages
    u.directory.isSome = true ∧ u.slots = s.slots ∧ (∀ n, u.sectorEntry n = (s.directory.getD s.store.scan).get n) ∧
      (∀ n k, u.store.byte n k = s.store.byte n k) ∧
      ∀ page, page ∈ u.store.mismatched ↔ page ∈ s.store.mismatched ∨ page ∈ pages := by
  intro u
  rw [show u = _ from ensureScanned_decayed pages s]
  exact ⟨rfl, rfl, fun _ => rfl, fun _ _ => rfl, mem_decay pages s.store⟩

theorem SectorEntry.isTone_iff (e : SectorEntry) : e.isTone = true ↔ ∃ info, e = .valid info ∧ info.kind = .tone := by
  cases e <;> simp [SectorEntry.isTone]

/-- Whether a sector reads back is settled by its entry and the page marks (R141). -/
theorem unreadable_congr {s t : State} {n : Fin 64} (he : t.sectorEntry n = s.sectorEntry n) (hs : t.store = s.store) :
    t.unreadable n ↔ s.unreadable n := by
  unfold State.unreadable
  rw [he, hs]

/-- A tone table reads back where its seven pages match (R139, R141). -/
theorem unreadable_tone_iff {s : State} {n : Fin 64} (h : ∃ info, s.sectorEntry n = .valid info ∧ info.kind = .tone) :
    s.unreadable n ↔ ∃ page, 1 ≤ page ∧ page ≤ 7 ∧ sectorPage n page ∈ s.store.mismatched := by
  obtain ⟨info, he, hk⟩ := h
  constructor
  · rintro ⟨info', page, he', hlow, hhigh, hfails⟩
    obtain rfl : info = info' := SectorEntry.valid.inj (he.symm.trans he')
    rw [hk] at hhigh
    exact ⟨page, hlow, hhigh, hfails⟩
  · rintro ⟨page, hlow, hhigh, hfails⟩
    exact ⟨info, page, he, hlow, by rwa [hk], hfails⟩

/-! ## The slots and the directory before the defaults are adopted (R41, R136) -/

/-- Start-up's reads and the filling of L0 and T0. -/
def State.filled (s : State) : State := fillSlots (loadCalibration s)

/-- The state in which T0 is filled: the calibration loaded, and L0 filled. -/
def State.beforeT0 (s : State) : State :=
  (loadCalibration s).setSlot 0 (((loadCalibration s).slot 0).filled .builtIn identityLattice)

theorem filled_eq (s : State) : s.filled = fillT0 s.beforeT0 := rfl

/-- Up to the filling of T0 the store and the slots but L0 stand, and sector 0 alone can be made TORN (R41, R141). -/
theorem beforeT0_parts (s : State) :
    s.beforeT0.store = s.store ∧ s.beforeT0.slots = s.slots.set 0 ((s.slot 0).filled .builtIn identityLattice) ∧
      s.beforeT0.directory.isSome = s.directory.isSome ∧
      ∀ n, s.beforeT0.sectorEntry n = (tearUnreadable s 0).sectorEntry n := by
  have entry : ∀ n, s.beforeT0.sectorEntry n = (tearUnreadable s 0).sectorEntry n := loadCalibration_sectorEntry s
  obtain ⟨d, c, b, he, hd, -⟩ := loadCalibration_eq s
  have same : s.beforeT0 = State.setSlot { s with
      directory := d, cu := { s.cu with calibration := some c, calFallback := b } } 0
        ((s.slot 0).filled .builtIn identityLattice) := by
    unfold State.beforeT0
    rw [he]
    rfl
  refine ⟨?_, ?_, ?_, entry⟩ <;> rw [same]
  · rfl
  · rfl
  · exact hd

/-- The filling of T0 leaves the calibration and the store (R136). -/
theorem filled_parts (s : State) : s.filled.cu = s.beforeT0.cu ∧ s.filled.store = s.store := by
  obtain ⟨d, x, he, -⟩ := fillT0_eq s.beforeT0
  rw [filled_eq, he]
  exact ⟨rfl, (beforeT0_parts s).1⟩

/-- A sector is the default tone sector of the set in use, found VALID and of kind TONE (R41, R136). -/
def State.foundDefaultTone (s : State) (n : Fin 64) : Prop :=
  defaultToneSector s.filled = some n ∧ ∃ info, s.sectorEntry n = .valid info ∧ info.kind = .tone

/-- Start-up makes sector 0 and the default tone sector TORN where one does not read back, and leaves every other entry (R141). -/
theorem filled_sectorEntry {s : State} (hd : s.directory.isSome = true) (n : Fin 64) :
    ((n = 0 ∨ s.foundDefaultTone n) ∧ s.unreadable n → s.filled.sectorEntry n = .torn) ∧
      (¬ ((n = 0 ∨ s.foundDefaultTone n) ∧ s.unreadable n) → s.filled.sectorEntry n = s.sectorEntry n) := by
  obtain ⟨hstore, -, hdirectory, hentry⟩ := beforeT0_parts s
  obtain ⟨hcu, -⟩ := filled_parts s
  obtain ⟨tears, keeps⟩ := tearUnreadable_sectorEntry s 0 n hd
  obtain ⟨tears', keeps'⟩ := fillT0_sectorEntry s.beforeT0 n (hdirectory.trans hd)
  rw [← hentry] at tears keeps
  rw [← filled_eq] at tears' keeps'
  by_cases h0 : 0 = n ∧ s.unreadable n
  · have torn := tears h0
    refine ⟨fun _ => ?_, fun h => absurd ⟨.inl h0.1.symm, h0.2⟩ h⟩
    rw [keeps' (fun h => by simp [torn, SectorEntry.isTone] at h), torn]
  · have kept := keeps h0
    have same : s.unreadable n → ((n = 0 ∨ s.foundDefaultTone n) ↔
        defaultToneSector s.beforeT0 = some n ∧ (s.beforeT0.sectorEntry n).isTone = true) := fun h => by
      rw [or_iff_right (fun e => h0 ⟨e.symm, h⟩), kept, SectorEntry.isTone_iff]
      unfold State.foundDefaultTone defaultToneSector
      rw [hcu]
    have reads := unreadable_congr kept hstore
    refine ⟨fun h => ?_, fun h => ?_⟩
    · obtain ⟨hdefault, htone⟩ := (same h.2).1 h.1
      exact tears' ⟨hdefault, htone, reads.2 h.2⟩
    · rw [keeps' (fun ⟨hdefault, htone, hu⟩ => h ⟨(same (reads.1 hu)).2 ⟨hdefault, htone⟩, reads.1 hu⟩), kept]

/-- T0 is filled from the default tone sector exactly where that was found VALID, of kind TONE, and reads back (R136, R141). -/
theorem filled_fillsT0_iff {s : State} (hd : s.directory.isSome = true) (n : Fin 64) :
    s.filled.fillsT0 n ↔ s.foundDefaultTone n ∧ ¬ s.unreadable n := by
  obtain ⟨tears, keeps⟩ := filled_sectorEntry hd n
  by_cases h : (n = 0 ∨ s.foundDefaultTone n) ∧ s.unreadable n
  · refine iff_of_false ?_ fun h' => h'.2 h.2
    rintro ⟨-, info, he, -⟩
    rw [tears h] at he
    cases he
  · have readable : s.foundDefaultTone n → ¬ s.unreadable n := fun ht hu => h ⟨.inr ht, hu⟩
    rw [and_iff_left_of_imp readable]
    unfold State.fillsT0 State.foundDefaultTone
    rw [keeps h]
    rfl

/-- From slots at reset, L0 holds the identity lattice, T0 the table found or the ramp, and the others stand (R123, R136). -/
theorem filled_slots {s : State} (hd : s.directory.isSome = true) (hs : s.slots = Tab.replicate 8 Slot.reset) :
    s.filled.slot 0 = Slot.reset.filled .builtIn identityLattice ∧
      (∀ n, s.filled.fillsT0 n → s.filled.slot 4 = Slot.reset.filled (.sector n) (recalledContent s.store 4 n)) ∧
      ((∀ n, ¬ s.filled.fillsT0 n) → s.filled.slot 4 = Slot.reset.filled .builtIn fallbackRamp) ∧
      ∀ i, i ≠ 0 → i ≠ 4 → s.filled.slot i = Slot.reset := by
  obtain ⟨hstore, hslots, hdirectory, -⟩ := beforeT0_parts s
  obtain ⟨table, ramp⟩ := fillT0_spec s.beforeT0 (hdirectory.trans hd)
  obtain ⟨d, x, he, -⟩ := fillT0_eq s.beforeT0
  have before : ∀ i, s.beforeT0.slot i = if 0 = i then Slot.reset.filled .builtIn identityLattice else Slot.reset := fun i => by
    unfold State.slot
    rw [hslots, Tab.get_set, State.slot, hs, Tab.get_replicate, Tab.get_replicate]
  have other : ∀ i, 4 ≠ i → s.filled.slot i = s.beforeT0.slot i := fun i hi => by
    rw [filled_eq, he]
    exact Tab.get_set_of_ne _ _ hi
  rw [before 4, if_neg (by decide), hstore, ← filled_eq] at table
  rw [before 4, if_neg (by decide), ← filled_eq] at ramp
  refine ⟨?_, fun n h => (table n h).1, ramp, fun i h0 h4 => ?_⟩
  · rw [other 0 (by decide), before 0, if_pos rfl]
  · rw [other i h4.symm, before i, if_neg h0.symm]

/-- T0 is filled from its reset values, with the one content or the other (R136). -/
theorem filled_slot_four {s : State} (hd : s.directory.isSome = true) (hs : s.slots = Tab.replicate 8 Slot.reset) :
    ∃ origin content, s.filled.slot 4 = Slot.reset.filled origin content := by
  obtain ⟨-, table, ramp, -⟩ := filled_slots hd hs
  by_cases h : ∃ n, s.filled.fillsT0 n
  · exact h.elim fun n hn => ⟨_, _, table n hn⟩
  · exact ⟨_, _, ramp (not_exists.1 h)⟩

/-- No slot has references or a saving mark (R91, R123). -/
theorem filled_unmarked {s : State} (hd : s.directory.isSome = true) (hs : s.slots = Tab.replicate 8 Slot.reset) (i : Fin 8) :
    (s.filled.slot i).references = 0 ∧ (s.filled.slot i).saving = false := by
  obtain ⟨identity, -, -, rest⟩ := filled_slots hd hs
  obtain ⟨origin, content, four⟩ := filled_slot_four hd hs
  by_cases h0 : i = 0
  · rw [h0, identity]
    exact ⟨rfl, rfl⟩
  by_cases h4 : i = 4
  · rw [h4, four]
    exact ⟨rfl, rfl⟩
  · rw [rest i h0 h4]
    exact ⟨rfl, rfl⟩

/-! ## The defaults adopted (R84, R99) -/

/-- At their defaults the binding fields name T0 alone (R84). -/
theorem binds_default (mired : Nat) (i : Fin 8) : (Fields.default mired).binds i = decide (4 = i) := by
  unfold Fields.binds Fields.default
  simp [show toneSlot 0 = 4 from rfl]

/-- The adoption of the defaults marks T0 bound, and leaves the calibration, the store and the directory. -/
theorem adoptDefaults_parts (s : State) :
    (adoptDefaults s).cu.calibration = s.cu.calibration ∧ (adoptDefaults s).store = s.store ∧
      (∀ n, (adoptDefaults s).sectorEntry n = s.sectorEntry n) ∧
      ∀ i, (adoptDefaults s).slot i = { s.slot i with bound := decide (4 = i) } := by
  refine ⟨rfl, rfl, fun _ => rfl, fun i => ?_⟩
  unfold adoptDefaults State.slot markBound
  rw [Tab.get_ofFn, binds_default]

/-- In STARTING start-up completes: its reads, the filling of the slots, the defaults (R4). -/
theorem completeStartUp_of_starting (pages : List Nat) {s : State} (hr : s.resetLine = false)
    (hs : s.pe.frameState = .starting) :
    completeStartUp pages s = adoptDefaults ((ensureScanned s).decayed pages).filled := by
  unfold completeStartUp
  rw [if_neg (by simp [State.isStarting, hr, hs])]
  rfl

/-- Settles O8: the slots and the directory at start-up completion. -/
theorem startUpFillsSlots : Obligations.StartUpFillsSlots := by
  intro pages s hr hs hlaw found fails unread
  obtain ⟨-, -, -, -, -, hslots, -⟩ := ((startingLaw_iff s).1 hlaw).2.1 hs
  have he := completeStartUp_of_starting pages hr hs
  obtain ⟨hd, reset, entry, bytes, fails_iff⟩ := startUpReads pages s
  generalize (ensureScanned s).decayed pages = u at he hd reset entry bytes fails_iff
  rw [hslots] at reset
  change ∀ n, u.sectorEntry n = found.get n at entry
  replace fails_iff : ∀ n page, sectorPage n page ∈ u.store.mismatched ↔ fails n page := fun n page => fails_iff _
  have unread_iff : ∀ n, u.unreadable n ↔ unread n := fun n => by
    simp only [State.unreadable, fails_iff, entry]
    refine exists_congr fun info => exists_congr fun page => ?_
    cases info.kind <;> exact Iff.rfl
  obtain ⟨identity, table, ramp, rest⟩ := filled_slots hd reset
  obtain ⟨origin, content, four⟩ := filled_slot_four hd reset
  obtain ⟨-, hstore, hentry, hslot⟩ := adoptDefaults_parts u.filled
  refine ⟨adoptDefaults u.filled, congrArg Host.Outcome.next he, ?_⟩
  intro isDefaultTone fills
  have default_iff : ∀ n, u.foundDefaultTone n ↔ isDefaultTone n := fun n => by
    unfold State.foundDefaultTone
    rw [entry]
    exact Iff.rfl
  have fills_iff : ∀ n, u.filled.fillsT0 n ↔ fills n := fun n => by
    rw [filled_fillsT0_iff hd]
    refine (and_congr_right fun h => ?_).trans (and_congr_left' (default_iff n))
    rw [unreadable_tone_iff h.2]
    simp only [fails_iff, not_exists, not_and]
  simp only [hslot, hentry, hstore]
  refine ⟨?_, ?_, ⟨fun n hn => ?_, fun hn => ?_⟩, fun i h0 h4 => ?_, filled_unmarked hd reset, fun n => ?_⟩
  · rw [identity]
    refine ⟨rfl, rfl, rfl, rfl, ?_⟩
    rw [Slot.filled_content]
    exact nodeValue_identityLattice
  · rw [four]
    exact ⟨rfl, rfl, rfl⟩
  · rw [table n ((fills_iff n).2 hn), (filled_parts u).2]
    refine ⟨rfl, fun page hlow hhigh => (fails_iff n page).not.2 (hn.2 page hlow hhigh), fun k hk => ?_⟩
    rw [Slot.filled_content, slotValue_recalledContent _ _ _ _ (Nat.lt_succ_of_le hk), bytes, bytes]
  · rw [ramp fun n => (fills_iff n).not.2 (hn n)]
    refine ⟨rfl, ?_⟩
    rw [Slot.filled_content]
    exact slotValue_fallbackRamp
  · rw [rest i h0 h4, decide_eq_false h4.symm]
    rfl
  · obtain ⟨torn, kept⟩ := filled_sectorEntry hd n
    rw [default_iff, unread_iff] at torn kept
    exact ⟨fun hread hunread => torn ⟨hread, hunread⟩, fun h => (kept h).trans (entry n), fills_iff n⟩

end Sys2Proof.Machine
end

section
/-! O7: the calibration load at start-up (R41 to R44, R182). -/

namespace Sys2Proof.Machine

/-! ## What a calibration content page spells (R177, R182) -/

/-- The unsigned 16-bit value at a position of a page, most significant byte first (R177). -/
def pageWord (page : Nat → Byte) (position : Nat) : Nat := 256 * (page position).toNat + (page (position + 1)).toNat

/-- The signed 16-bit value at a position of a page, in two's complement (R177). -/
def pageSignedWord (page : Nat → Byte) (position : Nat) : Int :=
  if pageWord page position < 32768 then (pageWord page position : Int) else (pageWord page position : Int) - 65536

theorem bytesNat_pageField_two (page : Nat → Byte) (position : Nat) :
    bytesNat (pageField page position 2) = pageWord page position := by
  simp [bytesNat, pageField, pageWord, List.range_succ]

theorem bytesNat_pageField_four (page : Nat → Byte) (position : Nat) :
    bytesNat (pageField page position 4) = 65536 * pageWord page position + pageWord page (position + 2) := by
  simp [bytesNat, pageField, pageWord, List.range_succ, Nat.add_assoc]
  omega

theorem bytesInt_pageField_two (page : Nat → Byte) (position : Nat) :
    bytesInt (pageField page position 2) = pageSignedWord page position := by
  have length : (pageField page position 2).length = 2 := rfl
  simp only [bytesInt, bytesNat_pageField_two, length, pageSignedWord]
  split <;> split <;> omega

/-- The items of the layout of R182, each at its position. -/
theorem pageCalibration_eq (page : Nat → Byte) :
    let matrix (position : Nat) : Mat3 :=
      ⟨pageSignedWord page position, pageSignedWord page (position + 2), pageSignedWord page (position + 4),
        pageSignedWord page (position + 6), pageSignedWord page (position + 8), pageSignedWord page (position + 10),
        pageSignedWord page (position + 12), pageSignedWord page (position + 14), pageSignedWord page (position + 16)⟩
    pageCalibration page =
      { id := BitVec.ofNat 32 (65536 * pageWord page 0 + pageWord page 2)
        warmMired := pageWord page 4
        coolMired := pageWord page 6
        warmMatrix := matrix 8
        coolMatrix := matrix 26
        locus := (List.range (page 44).toNat).map fun e =>
          ⟨pageWord page (48 + 6 * e), pageWord page (50 + 6 * e), pageWord page (52 + 6 * e)⟩
        defaultMired := pageWord page 45
        defaultToneSector := sectorOfNumber (page 47) } := by
  unfold pageCalibration pageMatrix
  simp only [bytesNat_pageField_two, bytesNat_pageField_four, bytesInt_pageField_two]
  refine congrArg (fun locus => CalibrationSet.mk _ _ _ _ _ locus _ _) (List.map_congr_left fun e _ => ?_)
  simp only [pageLocusEntry, bytesNat_pageField_two]

/-! ## The load (R41 to R44) -/

/-- A directory shows a sector VALID and of kind CALIBRATION (R41). -/
def State.showsCalibration (s : State) (n : Fin 64) : Prop :=
  ∃ info, s.sectorEntry n = .valid info ∧ info.kind = .calibration

/-- After its content page was read, sector 0 stands as a calibration where it stood as one and the page reads back
(R41, R141). -/
theorem showsCalibration_tearUnreadable {s : State} (hd : s.directory.isSome = true) :
    (tearUnreadable s 0).showsCalibration 0 ↔ s.showsCalibration 0 ∧ sectorPage 0 1 ∉ s.store.mismatched := by
  obtain ⟨tears, keeps⟩ := tearUnreadable_sectorEntry s 0 0 hd
  by_cases hu : s.unreadable 0
  · have torn := tears ⟨rfl, hu⟩
    refine iff_of_false (fun ⟨info, he, _⟩ => by rw [torn] at he; cases he) ?_
    rintro ⟨⟨info, he, hk⟩, hreads⟩
    obtain ⟨info', page, he', hlow, hhigh, hfails⟩ := hu
    obtain rfl : info = info' := SectorEntry.valid.inj (he.symm.trans he')
    rw [hk] at hhigh
    obtain rfl : page = 1 := le_antisymm hhigh hlow
    exact hreads hfails
  · have kept := keeps fun h => hu h.2
    unfold State.showsCalibration
    rw [kept]
    refine ⟨fun h => ⟨h, fun hfails => ?_⟩, fun h => h.1⟩
    obtain ⟨info, he, hk⟩ := h
    exact hu ⟨info, 1, he, le_rfl, by rw [hk]; exact le_rfl, hfails⟩

/-- Sector 0 gives its calibration set where it stands as a calibration and the set passes R42. -/
theorem loadedCalibration_of_passes {s : State} (hs : s.showsCalibration 0)
    (hp : (pageCalibration (calibrationContent s.store)).passes) :
    loadedCalibration s = some (pageCalibration (calibrationContent s.store)) := by
  obtain ⟨info, he, hk⟩ := hs
  unfold loadedCalibration
  simp [he, hk, (acceptable_iff _).2 hp]

/-- Elsewhere sector 0 gives no set (R42). -/
theorem loadedCalibration_eq_none {s : State}
    (h : ¬ (s.showsCalibration 0 ∧ (pageCalibration (calibrationContent s.store)).passes)) : loadedCalibration s = none := by
  unfold loadedCalibration
  split
  next info he =>
    refine if_neg fun ht => h ?_
    rw [Bool.and_eq_true, decide_eq_true_iff] at ht
    exact ⟨⟨info, he, ht.1⟩, (acceptable_iff _).1 ht.2⟩
  next => rfl

/-- Sector 0 holds a calibration that the load takes (R41, R42). -/
def State.calibrationLoads (s : State) : Prop :=
  s.showsCalibration 0 ∧ sectorPage 0 1 ∉ s.store.mismatched ∧ (pageCalibration (calibrationContent s.store)).passes

/-- The load puts in use the set that the content page of sector 0 spells, its default mired clamped, or the fallback
calibration (R41, R43, R44). -/
theorem loadCalibration_cu {s : State} (hd : s.directory.isSome = true) :
    (s.calibrationLoads → (loadCalibration s).cu =
      { s.cu with
        calibration := some (pageCalibration (calibrationContent s.store)).withDefaultClamped, calFallback := false }) ∧
    (¬ s.calibrationLoads → (loadCalibration s).cu =
      { s.cu with calibration := some fallbackCalibration.withDefaultClamped, calFallback := true }) := by
  have shows := showsCalibration_tearUnreadable hd
  have hstore : (tearUnreadable s 0).store = s.store := by rw [tearUnreadable_eq]
  have hcu : (tearUnreadable s 0).cu = s.cu := by rw [tearUnreadable_eq]
  constructor
  · rintro ⟨hshows, hreads, hpasses⟩
    have given := loadedCalibration_of_passes (shows.2 ⟨hshows, hreads⟩) (hstore ▸ hpasses)
    simp only [loadCalibration, given, hstore, hcu]
  · intro h
    have given := loadedCalibration_eq_none (s := tearUnreadable s 0) fun ⟨hshows, hpasses⟩ =>
      have ⟨hshows, hreads⟩ := shows.1 hshows
      h ⟨hshows, hreads, hstore ▸ hpasses⟩
    simp only [loadCalibration, given, hcu]

/-- The rest of start-up leaves the calibration set and CAL_FALLBACK (R4, R136). -/
theorem adoptDefaults_filled_calibration (s : State) :
    (adoptDefaults s.filled).cu.calibration = (loadCalibration s).cu.calibration ∧
      (adoptDefaults s.filled).cu.calFallback = (loadCalibration s).cu.calFallback := by
  have hcu : s.filled.cu = (loadCalibration s).cu := (filled_parts s).1
  rw [← hcu]
  exact ⟨rfl, rfl⟩

/-- Settles O7: the calibration load at start-up completion. -/
theorem calibrationLoaded : Obligations.CalibrationLoaded := by
  intro pages s d hr hs hdir
  have he := completeStartUp_of_starting pages hr hs
  obtain ⟨hd, -, entry, bytes, fails_iff⟩ := startUpReads pages s
  generalize (ensureScanned s).decayed pages = u at he hd entry bytes fails_iff
  rw [hdir, Option.getD_some] at entry
  obtain ⟨loaded, fallback⟩ := loadCalibration_cu hd
  obtain ⟨hset, hflag⟩ := adoptDefaults_filled_calibration u
  have content : calibrationContent u.store = calibrationContent s.store := funext fun k => bytes 0 (256 + k)
  refine ⟨adoptDefaults u.filled, congrArg Host.Outcome.next he, ?_⟩
  intro at_ unsigned signed matrix page loads
  have spells : pageCalibration (calibrationContent s.store) = page := pageCalibration_eq _
  have loads_iff : u.calibrationLoads ↔ loads := by
    unfold State.calibrationLoads State.showsCalibration
    rw [content, spells, entry, fails_iff, not_or, and_assoc]
  rw [content, spells, loads_iff] at loaded
  rw [loads_iff] at fallback
  rw [hset, hflag]
  exact ⟨fun h => by rw [loaded h]; exact ⟨rfl, rfl⟩, fun h => by rw [fallback h]; exact ⟨rfl, rfl⟩⟩

end Sys2Proof.Machine
end

section
/-! O22: derivation, every step from the calibration set and the fields (R47 to R57). -/

namespace Sys2Proof.Machine

/-! ## The locus interval (R48) -/

/-- The last number that a test keeps in an initial run is the greatest that it holds of, or 0. -/
theorem getLast?_filter_range (test : Nat → Prop) [DecidablePred test] (n : Nat) :
    (((List.range (n + 1)).filter fun i => decide (test i)).getLast?).getD 0 = Nat.findGreatest test n := by
  induction n with
  | zero =>
    rw [Nat.findGreatest_zero]
    by_cases h : test 0 <;> simp [List.range_succ, h]
  | succ n ih =>
    rw [List.range_succ, List.filter_append, Nat.findGreatest_succ, ← ih]
    by_cases h : test (n + 1) <;> simp [h]

theorem firstMired_eq (c : CalibrationSet) (h : 2 ≤ c.locus.length) : c.firstMired = (c.entry 0).mired := by
  unfold CalibrationSet.firstMired CalibrationSet.entry
  simp [List.getD_eq_getElem?_getD, List.head?_eq_getElem?, List.getElem?_eq_getElem (show 0 < c.locus.length by omega)]

theorem lastMired_eq (c : CalibrationSet) (h : 2 ≤ c.locus.length) :
    c.lastMired = (c.entry (c.locus.length - 1)).mired := by
  unfold CalibrationSet.lastMired CalibrationSet.entry
  simp [List.getD_eq_getElem?_getD, List.getLast?_eq_getElem?,
    List.getElem?_eq_getElem (show c.locus.length - 1 < c.locus.length by omega)]

/-- A value inside the locus lies in its interval, which is the last one that begins at or below it (R48). -/
theorem locusInterval_spec {c : CalibrationSet} {a : Nat} (hlen : 2 ≤ c.locus.length) (hlow : 16 * c.firstMired ≤ a)
    (hhigh : a ≤ 16 * c.lastMired) :
    let i := locusInterval c a
    i + 2 ≤ c.locus.length ∧ 16 * (c.entry i).mired ≤ a ∧ a ≤ 16 * (c.entry (i + 1)).mired ∧
      ∀ j, j + 2 ≤ c.locus.length → 16 * (c.entry j).mired ≤ a → j ≤ i := by
  obtain ⟨n, hn⟩ : ∃ n, c.locus.length = n + 2 := ⟨c.locus.length - 2, by omega⟩
  rw [firstMired_eq c hlen] at hlow
  rw [lastMired_eq c hlen, hn] at hhigh
  have greatest : locusInterval c a = Nat.findGreatest (fun i => 16 * (c.entry i).mired ≤ a) n := by
    unfold locusInterval
    rw [hn]
    exact getLast?_filter_range _ n
  have below := Nat.findGreatest_le (P := fun i => 16 * (c.entry i).mired ≤ a) n
  have begins := Nat.findGreatest_spec (P := fun i => 16 * (c.entry i).mired ≤ a) (Nat.zero_le n) hlow
  have last : ∀ j ≤ n, 16 * (c.entry j).mired ≤ a → j ≤ locusInterval c a := fun j hj h =>
    greatest ▸ Nat.le_findGreatest hj h
  rw [← greatest] at below begins
  refine ⟨by omega, begins, ?_, fun j hj h => last j (by omega) h⟩
  by_contra hover
  by_cases hend : locusInterval c a = n
  · rw [hend] at hover
    exact hover hhigh
  · have := last (locusInterval c a + 1) (by omega) (by omega)
    omega

/-! ## Ratios, gains and the matrix weight (R49 to R52) -/

/-- A rounded share of a difference does not exceed it. -/
theorem natAbs_roundHalfAway_le {n : Int} {d k : Nat} (hd : 0 < d) (h : n.natAbs ≤ k * d) :
    (roundHalfAway n d).natAbs ≤ k := by
  have quotient : (n.natAbs + d / 2) / d ≤ k := by
    rw [← Nat.lt_succ_iff, Nat.div_lt_iff_lt_mul hd, Nat.succ_mul]
    omega
  rw [roundHalfAway_eq _ _ hd, Int.natAbs_mul, Int.natAbs_natCast]
  have sign : n.sign.natAbs ≤ 1 := by
    obtain h | h | h := Int.sign_trichotomy n <;> simp [h]
  calc n.sign.natAbs * ((n.natAbs + d / 2) / d) ≤ 1 * k := Nat.mul_le_mul sign quotient
    _ = k := one_mul k

theorem roundHalfAway_nonneg {n : Int} (d : Nat) (h : 0 ≤ n) : 0 ≤ roundHalfAway n d :=
  mul_nonneg (Int.sign_nonneg_iff.2 h) (Int.natCast_nonneg _)

/-- Inside its interval an interpolated ratio stays off zero, so it is the exact sum, rounded as R49 says. -/
theorem interpolatedRatio_eq {low high lowMired highMired a : Nat} (hrise : lowMired < highMired) (hlow : 16 * lowMired ≤ a)
    (hhigh : a ≤ 16 * highMired) :
    (interpolatedRatio low high lowMired highMired a : Int) =
      low + roundHalfAway (((high : Int) - low) * ((a : Int) - 16 * lowMired)) (16 * (highMired - lowMired)) := by
  unfold interpolatedRatio
  refine Int.toNat_of_nonneg ?_
  by_cases hfall : high ≤ low
  · have share : (((high : Int) - low) * ((a : Int) - 16 * lowMired)).natAbs ≤
        (low - high) * (16 * (highMired - lowMired)) := by
      rw [Int.natAbs_mul]
      exact Nat.mul_le_mul (by omega) (by omega)
    have := natAbs_roundHalfAway_le (by omega) share
    omega
  · have : 0 ≤ ((high : Int) - low) * ((a : Int) - 16 * lowMired) := mul_nonneg (by omega) (by omega)
    have := roundHalfAway_nonneg (16 * (highMired - lowMired)) this
    omega

/-- Half up over an even divisor. -/
theorem roundHalfUp_two_mul (n d : Nat) : roundHalfUp n (2 * d) = (n + d) / (2 * d) := by
  unfold roundHalfUp
  rw [← Nat.mul_add, Nat.mul_div_mul_left _ _ two_pos]

theorem greenGain_eq {tint : Int} (h : -32 ≤ tint) : (greenGain tint : Int) = 4096 + 8 * tint :=
  Int.toNat_of_nonneg (by omega)

theorem matrixWeight_below {c : CalibrationSet} {a : Nat} (h : a < 16 * c.coolMired) : matrixWeight c a = 0 := if_pos h

theorem matrixWeight_above {c : CalibrationSet} {a : Nat} (h : 16 * c.coolMired ≤ a) :
    matrixWeight c a =
      min 256 ((256 * (a - 16 * c.coolMired) + 8 * (c.warmMired - c.coolMired)) / (16 * (c.warmMired - c.coolMired))) := by
  have even : 16 * (c.warmMired - c.coolMired) = 2 * (8 * (c.warmMired - c.coolMired)) := by omega
  unfold matrixWeight
  rw [if_neg h.not_gt, even, roundHalfUp_two_mul]

/-! ## The matrices, coefficient by coefficient (R53 to R57) -/

@[simp] theorem Mat3.coeff_zip (op : Int → Int → Int) (a b : Mat3) (j k : Fin 3) :
    (Mat3.zip op a b).coeff j k = op (a.coeff j k) (b.coeff j k) := by
  fin_cases j <;> fin_cases k <;> rfl

@[simp] theorem Mat3.coeff_map (op : Int → Int) (a : Mat3) (j k : Fin 3) : (Mat3.map op a).coeff j k = op (a.coeff j k) := by
  fin_cases j <;> fin_cases k <;> rfl

theorem Mat3.any_eq_true_iff (test : Int → Bool) (a : Mat3) : a.any test = true ↔ ∃ j k, test (a.coeff j k) = true := by
  simp only [Mat3.any, Bool.or_eq_true, Fin.exists_fin_succ, Mat3.coeff]
  simp [or_assoc]

/-- A coefficient of the trim product: the exact sum of a row with a column, rounded (R54). -/
theorem trimProduct_coeff (u m : Mat3) (j k : Fin 3) :
    (trimProduct u m).coeff j k =
      roundHalfAway (u.coeff j 0 * m.coeff 0 k + u.coeff j 1 * m.coeff 1 k + u.coeff j 2 * m.coeff 2 k) 4096 := by
  fin_cases j <;> fin_cases k <;> rfl

theorem saturate16_eq (x : Int) : saturate16 x = max (-32768) (min x 32767) := clampInt_eq _ _ _ (by decide)

/-- The sixteenth-stop step of an exposure is what its whole stops leave, and always names one of the mantissas (R55). -/
theorem exposureMantissa_eq (e fallback : Int) : exposureMantissa e = mantissas.getD (e - 16 * (e / 16)).toNat fallback := by
  have named : (e % 16).toNat < mantissas.length := by
    change _ < 16
    omega
  rw [← Int.emod_def, exposureMantissa, List.getD_eq_getElem _ _ named, List.getD_eq_getElem _ _ named]

/-- Some coefficient of a matrix is changed by saturation (R57). -/
theorem any_saturates16_iff (a : Mat3) : a.any saturates16 = true ↔ ∃ j k, saturate16 (a.coeff j k) ≠ a.coeff j k := by
  simp only [Mat3.any_eq_true_iff, saturates16, decide_eq_true_iff]

/-- The matrices of derivation, and the two parts of the saturation indicator, each from the one before it (R53 to R57). -/
theorem derive_matrices (c : CalibrationSet) (f : Fields) :
    let d := derive c f
    let product := trimProduct f.trim d.interpolated
    let folded := Mat3.map (exposureFold f.exposure) (Mat3.map saturate16 product)
    d.interpolated = Mat3.zip (blend d.weight) c.warmMatrix c.coolMatrix ∧ d.effective = Mat3.map saturate16 folded ∧
      d.trimSaturated = product.any saturates16 ∧ d.exposureSaturated = folded.any saturates16 :=
  ⟨rfl, rfl, rfl, rfl⟩

/-- Settles O22: the interval by `locusInterval_spec`, then each derived value by the equation of its formula. -/
theorem derivationFollowsFormulas : Obligations.DerivationFollowsFormulas := by
  intro c f hpasses hlow hhigh htint _ _ _ d i away ratio held stops mantissa product folded
  obtain ⟨hlen, -, -, hrises, -⟩ := hpasses
  obtain ⟨interpolated, effective, trimSaturated, exposureSaturated⟩ := derive_matrices c f
  obtain ⟨inside, begins, ends, last⟩ := locusInterval_spec hlen hlow hhigh
  have rise : (c.entry i).mired < (c.entry (i + 1)).mired := hrises i (i + 1) i.lt_succ_self inside
  have away_eq : ∀ n divisor, 0 < divisor → roundHalfAway n divisor = away n divisor := roundHalfAway_eq
  have held_eq : ∀ x, saturate16 x = held x := saturate16_eq
  have ratio_eq (low high : Nat) :
      (interpolatedRatio low high (c.entry i).mired (c.entry (i + 1)).mired f.mired : Int) = ratio low high := by
    rw [interpolatedRatio_eq rise begins ends, away_eq _ _ (by omega)]
  have product_eq : ∀ j k, (trimProduct f.trim (derive c f).interpolated).coeff j k = product j k := fun _ _ => by
    rw [trimProduct_coeff, away_eq _ _ (by decide)]
  have fold_eq : ∀ j k, exposureFold f.exposure (held (product j k)) = folded j k := fun j k => by
    unfold exposureFold
    rw [away_eq _ _ (by decide), away_eq _ _ (by positivity), exposureMantissa_eq _ 0]
    rfl
  refine ⟨rfl, ⟨inside, begins, ends, last⟩, ⟨ratio_eq _ _, ratio_eq _ _⟩, ⟨rfl, rfl, greenGain_eq htint⟩,
    ⟨matrixWeight_below, matrixWeight_above⟩, fun j k => ?_, fun j k => ?_, ?_, ?_⟩
  · rw [interpolated, Mat3.coeff_zip, blend, away_eq _ _ (by decide)]
  · rw [effective, Mat3.coeff_map, Mat3.coeff_map, Mat3.coeff_map, product_eq, held_eq, held_eq, fold_eq]
  · rw [trimSaturated, any_saturates16_iff]
    simp only [product_eq, held_eq]
  · rw [exposureSaturated, any_saturates16_iff]
    simp only [Mat3.coeff_map, product_eq, held_eq, fold_eq]

end Sys2Proof.Machine
end

section
/-! O10: the passes at a frame start and at the loss of input (R80, R91 to R100). -/

namespace Sys2Proof.Machine

/-- The pass of a frame start runs over the queue as it stood: truncation and the engine's part before it touch neither fields
nor slots, and what comes after it opens the record alone (R6). -/
theorem passMade_startFrame (w h : Half) (s : State) : s.passMade .frameStart s.cu.queue (startFrame w h s) := by
  obtain ⟨o, r, z, he, -⟩ := startFrame_eq w h s
  rw [he]
  exact passMade_congr (passMade_runPass .frameStart s _ rfl rfl rfl rfl rfl fun _ => ⟨rfl, rfl, rfl, rfl, rfl⟩)
    rfl rfl rfl rfl rfl rfl

/-- A frame start releases the references of the due entries (R91). -/
theorem references_startFrame (w h : Half) (s : State) (i : Fin 8) :
    ((startFrame w h s).slot i).references = (s.slot i).references - namingCount (dueEntries s.cu.queue) i := by
  obtain ⟨o, r, z, he, -⟩ := startFrame_eq w h s
  rw [he]
  exact congrArg Slot.references (slot_runPass .frameStart _ i)

/-- The pass at the loss of input runs over the queue as it stood (R8, R94). -/
theorem passMade_loseInput (s : State) : s.passMade .noInput s.cu.queue (loseInput s) := by
  obtain ⟨o, r, z, he, -⟩ := truncateIfInFrame_eq s
  unfold loseInput
  simp only [he]
  exact passMade_runPass .noInput s _ rfl rfl rfl rfl rfl fun _ => ⟨rfl, rfl, rfl, rfl, rfl⟩

/-- The loss of input keeps the items of its pass for the next record (R101). -/
theorem appliedChanges_loseInput (s : State) : (loseInput s).cu.appliedChanges = (applyDue .noInput s.cu).items := by
  obtain ⟨o, r, z, he, -⟩ := truncateIfInFrame_eq s
  unfold loseInput
  simp only [he]
  rfl

/-- The loss of input releases the references of the due entries (R91). -/
theorem references_loseInput (s : State) (i : Fin 8) :
    ((loseInput s).slot i).references = (s.slot i).references - namingCount (dueEntries s.cu.queue) i := by
  obtain ⟨o, r, z, he, -⟩ := truncateIfInFrame_eq s
  unfold loseInput
  simp only [he]
  exact congrArg Slot.references (slot_runPass .noInput _ i)

/-- Settles O10: the pass of each event, its items and its references. -/
theorem passMade : Obligations.PassMade := fun s =>
  ⟨fun w h hs => ⟨startFrame w h s, exec_frameStart hs, passMade_startFrame w h s, rfl, references_startFrame w h s⟩,
    fun _ _ hr hf hk hlimit => ⟨loseInput s, exec_inputLost_expired hr hf hk hlimit, passMade_loseInput s,
      appliedChanges_loseInput s, references_loseInput s⟩⟩

end Sys2Proof.Machine
end

section
/-! O23 and O24: one zone judged, and the vote list with its median (R67 to R71). -/

namespace Sys2Proof.Machine

/-! ## The nearest entry and the neighbour (R69, R70) -/

/-- The search that moves on only to what is smaller ends at the first of the smallest. -/
theorem foldl_argmin_range (d : Nat → Nat) (n : Nat) :
    let best := (List.range (n + 1)).foldl (fun best i => if d i < d best then i else best) 0
    best < n + 1 ∧ ∀ j < n + 1, d best ≤ d j ∧ (j < best → d best < d j) := by
  induction n with
  | zero => simp
  | succ n ih =>
    obtain ⟨hbest, hleast⟩ := ih
    rw [List.range_succ, List.foldl_append, List.foldl_cons, List.foldl_nil]
    generalize (List.range (n + 1)).foldl (fun best i => if d i < d best then i else best) 0 = best at hbest hleast ⊢
    have earlier {j : Nat} (hj : j < n + 1 + 1) (hne : j ≠ n + 1) := hleast j (by omega)
    split
    · next hless =>
      refine ⟨by omega, fun j hj => ?_⟩
      by_cases hne : j = n + 1
      · simp [hne]
      · have := earlier hj hne
        omega
    · next hmore =>
      refine ⟨by omega, fun j hj => ?_⟩
      by_cases hne : j = n + 1
      · subst hne
        omega
      · exact earlier hj hne

/-- The nearest entry of a locus: none is nearer, and every lower one is farther (R69). -/
theorem nearestEntry_spec {locus : List LocusEntry} (hlen : 0 < locus.length) (ratioR ratioB : Nat) :
    let d (j : Nat) : Nat := locusDistance ratioR ratioB (locus.getD j ⟨0, 0, 0⟩)
    let e := nearestEntry locus ratioR ratioB
    e < locus.length ∧ ∀ j < locus.length, d e ≤ d j ∧ (j < e → d e < d j) := by
  obtain ⟨n, hn⟩ : ∃ n, locus.length = n + 1 := ⟨locus.length - 1, by omega⟩
  unfold nearestEntry
  rw [hn]
  exact foldl_argmin_range _ n

theorem neighbourEntry_first (locus : List LocusEntry) (ratioR ratioB : Nat) : neighbourEntry locus ratioR ratioB 0 = 1 := rfl

theorem neighbourEntry_last {locus : List LocusEntry} {e : Nat} (ratioR ratioB : Nat) (hpos : 0 < e)
    (hlast : e + 1 = locus.length) : neighbourEntry locus ratioR ratioB e = e - 1 := by
  simp [neighbourEntry, hlast, Nat.ne_of_gt hpos]

/-- Between the ends the neighbour is the nearer of the two, of equals the lower (R70). -/
theorem neighbourEntry_inner {locus : List LocusEntry} {e : Nat} (ratioR ratioB : Nat) (hpos : 0 < e)
    (hinner : e + 1 < locus.length) :
    neighbourEntry locus ratioR ratioB e =
      if locusDistance ratioR ratioB (locus.getD (e + 1) ⟨0, 0, 0⟩) <
        locusDistance ratioR ratioB (locus.getD (e - 1) ⟨0, 0, 0⟩) then e + 1 else e - 1 := by
  simp only [neighbourEntry, Nat.ne_of_gt hpos, Nat.ne_of_lt hinner, if_false]

/-! ## One zone judged (R67 to R70) -/

theorem ZoneRecord.usable_iff (z : ZoneRecord) : z.usable = true ↔ z.pixelCount ≤ 16 * z.qualifying ∧ 0 < z.sumG := by
  simp [ZoneRecord.usable]

/-- A zone that is not usable reports zeros and does not vote (R67). -/
theorem judgeZone_of_not_usable (locus : List LocusEntry) (radius : Nat) {z : ZoneRecord} (h : ¬ z.usable = true) :
    judgeZone locus radius z =
      { handed := z, usable := false, ratioR := 0, ratioB := 0, nearest := 0, distance := 0, voted := false, vote16 := 0 } :=
  if_neg h

/-- A usable zone: its ratios, its nearest entry, and its vote where that entry is near enough (R68 to R70). -/
theorem judgeZone_of_usable (locus : List LocusEntry) (radius : Nat) {z : ZoneRecord} (h : z.usable = true) :
    let r := judgeZone locus radius z
    r.usable = true ∧ r.ratioR = zoneRatio z.sumR z.sumG ∧ r.ratioB = zoneRatio z.sumB z.sumG ∧
      r.nearest = nearestEntry locus r.ratioR r.ratioB ∧
      r.distance = locusDistance r.ratioR r.ratioB (locus.getD r.nearest ⟨0, 0, 0⟩) ∧
      r.voted = decide (r.distance ≤ radius) ∧
      r.vote16 = if r.voted then zoneVote locus r.ratioR r.ratioB r.nearest else 0 := by
  unfold judgeZone
  rw [if_pos h]
  exact ⟨rfl, rfl, rfl, rfl, rfl, rfl, rfl⟩

theorem judgeZone_handed (locus : List LocusEntry) (radius : Nat) (z : ZoneRecord) : (judgeZone locus radius z).handed = z := by
  unfold judgeZone
  split <;> rfl

/-- The refined vote, its rounding written out (R70). -/
theorem refinedVote_eq (mE dE mN dN : Nat) :
    refinedVote mE dE mN dN =
      if dE + dN = 0 then 16 * mE else (2 * 16 * (dN * mE + dE * mN) + (dE + dN)) / (2 * (dE + dN)) := by
  unfold refinedVote roundHalfUp
  rw [← Nat.mul_assoc]

/-- Settles O23: a zone that is not usable, and a usable one by its nearest entry and that entry's neighbour. -/
theorem zoneJudged : Obligations.ZoneJudged := by
  intro locus radius z hlen r e d vote
  refine ⟨judgeZone_handed locus radius z, fun hout => ?_, fun hqualifying hgreen => ?_⟩
  · have unusable : ¬ z.usable = true := by rw [ZoneRecord.usable_iff]; omega
    simp [r, judgeZone_of_not_usable locus radius unusable]
  · obtain ⟨usable, ratioR, ratioB, nearest, distance, voted, vote16⟩ :=
      judgeZone_of_usable locus radius ((ZoneRecord.usable_iff z).2 ⟨hqualifying, hgreen⟩)
    obtain ⟨inside, least⟩ := nearestEntry_spec (show 0 < locus.length by omega) r.ratioR r.ratioB
    rw [← nearest] at inside least
    have vote_eq (n : Nat) : refinedVote (e r.nearest).mired (d r.nearest) (e n).mired (d n) = vote n := refinedVote_eq _ _ _ _
    have silent (h : r.voted = false) : r.vote16 = 0 := vote16.trans (if_neg (Bool.eq_false_iff.1 h))
    have spoken (h : r.voted = true) : r.vote16 = vote (neighbourEntry locus r.ratioR r.ratioB r.nearest) :=
      (vote16.trans (if_pos h)).trans (vote_eq _)
    refine ⟨usable, ratioR, ratioB, inside, distance, least, by rw [voted, decide_eq_true_iff], silent,
      fun h hfirst => ?_, fun h hpos hlast => ?_, fun h hpos hinner => ?_⟩
    · rw [spoken h, hfirst, neighbourEntry_first]
    · rw [spoken h, neighbourEntry_last _ _ hpos hlast]
    · rw [spoken h, neighbourEntry_inner _ _ hpos hinner, apply_ite vote]
      rfl

/-! ## The vote list (R71) -/

/-- The votes of the voting zones, in the order of the zones. -/
def votesCast (results : List ZoneResult) : List Nat := (results.filter ZoneResult.voted).map ZoneResult.vote16

theorem voteList_eq (results : List ZoneResult) : voteList results = (votesCast results).foldr insertVote [] := rfl

theorem foldr_insertVote_perm (votes : List Nat) : (votes.foldr insertVote []).Perm votes := by
  induction votes with
  | nil => exact List.Perm.refl _
  | cons v votes ih => exact (insertVote_perm v _).trans (ih.cons v)

theorem foldr_insertVote_sorted (votes : List Nat) : (votes.foldr insertVote []).Pairwise (· ≤ ·) := by
  induction votes with
  | nil => exact List.Pairwise.nil
  | cons v votes ih => exact insertVote_sorted v _ ih

/-- Every voting zone gives one vote, and the other zones none. -/
theorem voteList_perm (results : List ZoneResult) : (voteList results).Perm (votesCast results) := foldr_insertVote_perm _

theorem voteList_sorted (results : List ZoneResult) : (voteList results).Pairwise (· ≤ ·) := foldr_insertVote_sorted _

theorem length_voteList_le (results : List ZoneResult) : (voteList results).length ≤ results.length := by
  rw [(voteList_perm results).length_eq, votesCast, List.length_map]
  exact List.length_filter_le _ _

/-! ## The median (R71) -/

theorem medianVote_of_none {votes : List Nat} (h : votes.length = 0) : medianVote votes = none := if_pos h

theorem medianVote_of_odd {votes : List Nat} (h : votes.length % 2 = 1) :
    medianVote votes = some (votes.getD ((votes.length + 1) / 2 - 1) 0) := by
  have inside : (votes.length + 1) / 2 - 1 < votes.length := by omega
  unfold medianVote
  rw [if_neg (by omega), if_pos h, List.getElem?_eq_getElem inside, List.getD_eq_getElem _ _ inside]

theorem medianVote_of_even {votes : List Nat} (hpos : 0 < votes.length) (h : votes.length % 2 = 0) :
    medianVote votes = some ((votes.getD (votes.length / 2 - 1) 0 + votes.getD (votes.length / 2) 0) / 2) := by
  unfold medianVote
  rw [if_neg (by omega), if_neg (by omega)]

/-- Settles O24: the vote list is the votes cast, sorted; its median by the number of votes. -/
theorem voteListMedian : Obligations.VoteListMedian := fun zones =>
  ⟨voteList_perm zones.list, voteList_sorted zones.list, (length_voteList_le zones.list).trans zones.len.le, medianVote_of_none,
    medianVote_of_odd, medianVote_of_even⟩

end Sys2Proof.Machine
end

section
/-! O25 and O26: the completion of an evaluation, and what the tracker does with it (R71 to R73, R77 to R79). -/

namespace Sys2Proof.Machine

/-! ## What a completion is taken on (R106; assumption logs 9 and 10) -/

theorem takeSubmission_of_none {s : State} (h : s.it.waiting = none) : takeSubmission s = s := by
  unfold takeSubmission
  rw [h]

/-- No act of the arbiter alters an evaluation in flight (R66). -/
theorem keptByEdits_evaluation (e : Option Evaluation) : KeptByEdits fun s => s.it.evaluation = e where
  quiet h hs := (congrArg Tracker.evaluation (h.2 .tracker (by simp))).trans hs
  enqueue _ hs := hs
  pass {s} _ hs := by
    change (trackerAfterPass s.it _ _).evaluation = e
    rw [trackerAfterPass_eq]
    exact hs
  close hs := hs
  remove hs := hs
  answer _ _ hs := hs

theorem exec_evaluationCompletion {s : State} {e : Evaluation} (h : s.it.evaluation = some e) :
    exec .evaluationCompletion s = .next (completeEvaluation e (takeSubmission s)) := by
  change Host.Outcome.next (evaluationCompletes s) = _
  unfold evaluationCompletes
  rw [h]

theorem exec_evaluationCompletion_of_none_waiting {s : State} {e : Evaluation} (h : s.it.evaluation = some e)
    (hw : s.it.waiting = none) : exec .evaluationCompletion s = .next (completeEvaluation e s) := by
  rw [exec_evaluationCompletion h, takeSubmission_of_none hw]

theorem exec_evaluationCompletion_of_idle {s : State} (h : s.it.evaluation = none) : exec .evaluationCompletion s = .next s := by
  change Host.Outcome.next (evaluationCompletes s) = _
  unfold evaluationCompletes
  rw [h]

/-! ## What the tracker does with a summary (R73, R77 to R79) -/

/-- A step is due from SETTLED beyond the dead band, from GLIDING at any distance (R77, R78). -/
theorem stepDue_iff (substate : Substate) (target a deadBand : Nat) :
    stepDue substate target a deadBand = true ↔
      (substate = .settled ∧ 16 * deadBand < ((target : Int) - a).natAbs) ∨ (substate = .gliding ∧ target ≠ a) := by
  cases substate with
  | settled => exact decide_eq_true_iff.trans (by simp [glideDistance])
  | gliding => exact decide_eq_true_iff.trans (by simp)

/-- A step that is due is submitted, its action unknown until the arbiter answers (R77 to R79; assumption logs 9 and 19). -/
theorem glide_of_due {it : Tracker} {f : Fields} {x : EvaluationSummary}
    (h : stepDue it.substate (x.estimate.getD it.target) f.mired f.deadBand = true) :
    let target := x.estimate.getD it.target
    let w := glideStep target f.mired f.glideRate
    glide it f x =
      { it with target := target, waiting := some w, summary := some { x with action := none, valueSubmitted := some w.value } } :=
  if_pos h

/-- Where no step is due the tracker is SETTLED (R77, R78). -/
theorem glide_of_not_due {it : Tracker} {f : Fields} {x : EvaluationSummary}
    (h : ¬ stepDue it.substate (x.estimate.getD it.target) f.mired f.deadBand = true) :
    glide it f x = { it with target := x.estimate.getD it.target, substate := .settled, summary := some x } :=
  if_neg h

/-- The tracker with the results of an evaluation in place and none in flight, before it acts on them (R73). -/
def State.evaluated (e : Evaluation) (s : State) : Tracker :=
  { s.it with evaluation := none, zoneResults := some (zoneResultsOf s.cu.calibration e) }

/-- The summary of an evaluation that completes, before its action is known (R71 to R73). -/
def State.summaryFor (e : Evaluation) (s : State) : EvaluationSummary :=
  summaryOf s.cu.calibration e (zoneResultsOf s.cu.calibration e)

/-- In AUTO out of NO_INPUT the tracker glides. -/
theorem completeEvaluation_of_auto {s : State} (e : Evaluation) (hm : s.it.mode = .auto) (hn : s.pe.frameState ≠ .noInput) :
    completeEvaluation e s = { s with it := glide (s.evaluated e) s.cu.fields (s.summaryFor e) } := by
  unfold completeEvaluation
  simp only
  rw [if_pos ⟨hm, by simp [State.isNoInput, hn]⟩]
  rfl

/-- In HOLD, MANUAL or NO_INPUT it reports alone. -/
theorem completeEvaluation_of_not_auto {s : State} (e : Evaluation) (h : s.it.mode ≠ .auto ∨ s.pe.frameState = .noInput) :
    completeEvaluation e s = { s with it := reportOnly (s.evaluated e) s.cu.fields (s.summaryFor e) } := by
  have out : ¬ (s.it.mode = .auto ∧ ¬ s.isNoInput = true) := by
    rintro ⟨hm, hn⟩
    exact h.elim (fun h => h hm) fun h => hn (by simp [State.isNoInput, h])
  unfold completeEvaluation
  simp only
  rw [if_neg out]
  rfl

/-- Whatever it does, it leaves the results and, but for action and value, the summary of the evaluation, with no evaluation in
flight (R73). -/
theorem completeEvaluation_results (e : Evaluation) (s : State) :
    let t := completeEvaluation e s
    t.it.evaluation = none ∧ t.it.mode = s.it.mode ∧ t.it.zoneResults = some (zoneResultsOf s.cu.calibration e) ∧
      ∃ action value, t.it.summary = some { s.summaryFor e with action := action, valueSubmitted := value } := by
  by_cases h : s.it.mode = .auto ∧ s.pe.frameState ≠ .noInput
  · obtain ⟨hm, hn⟩ := h
    rw [completeEvaluation_of_auto e hm hn]
    by_cases due : stepDue (s.evaluated e).substate ((s.summaryFor e).estimate.getD (s.evaluated e).target)
      s.cu.fields.mired s.cu.fields.deadBand = true
    · rw [glide_of_due due]
      exact ⟨rfl, rfl, rfl, _, _, rfl⟩
    · rw [glide_of_not_due due]
      exact ⟨rfl, rfl, rfl, _, _, rfl⟩
  · rw [completeEvaluation_of_not_auto e (by rwa [not_and_or, not_not] at h)]
    exact ⟨rfl, rfl, rfl, _, _, rfl⟩

/-! ## The summary (R71, R72) -/

theorem zoneResultsOf_get (c : CalibrationSet) (e : Evaluation) (k : Fin 48) :
    (zoneResultsOf (some c) e).zones.get k = judgeZone c.locus e.acceptRadius (e.zones.get k) :=
  Tab.get_map _ _ _

theorem estimateOf_eq {c : CalibrationSet} (h : c.firstMired ≤ c.lastMired) (bias : Int) (median : Nat) :
    estimateOf (some c) bias median =
      (max (16 * (c.firstMired : Int)) (min ((median : Int) + 16 * bias) (16 * c.lastMired))).toNat := by
  have range : miredRange (some c) = (16 * c.firstMired, 16 * c.lastMired) := rfl
  rw [estimateOf, range, clampInt_eq _ _ _ (by push_cast; omega)]
  push_cast
  rfl

/-- A starved evaluation has no estimate (R72). -/
theorem summaryOf_estimate_of_starved {cal : Option CalibrationSet} {e : Evaluation} {z : ZoneResults}
    (h : (summaryOf cal e z).starved = true) : (summaryOf cal e z).estimate = none :=
  if_pos h

/-- The estimate of an unstarved evaluation comes of its median (R72). -/
theorem summaryOf_estimate_of_unstarved {cal : Option CalibrationSet} {e : Evaluation} {z : ZoneResults}
    (h : (summaryOf cal e z).starved = false) :
    (summaryOf cal e z).estimate = (summaryOf cal e z).median.map (estimateOf cal e.bias) :=
  if_neg (Bool.eq_false_iff.1 h)

/-- Settles O25: the results and the summary that a completion leaves, the submission answered before it, and no evaluation. It
stands under `Tracker` since `evaluationCompletes` is the model's own name for the step. -/
theorem Tracker.evaluationCompletes : Obligations.EvaluationCompletes := by
  intro s
  refine ⟨fun e c he hw hc => ?_, fun e he => ?_, exec_evaluationCompletion_of_idle⟩
  · obtain ⟨idle, mode, results, action, value, summary⟩ := completeEvaluation_results e s
    refine ⟨completeEvaluation e s, _, _, exec_evaluationCompletion_of_none_waiting he hw, idle, mode, results, rfl, rfl,
      fun k => ?_, summary, rfl, rfl, rfl, rfl, rfl, rfl, rfl, rfl, decide_eq_true_iff, summaryOf_estimate_of_starved,
      fun m hrange hfed hmedian => ?_, unchangedBut_tracker s _⟩
    · rw [hc]
      exact zoneResultsOf_get c e k
    · rw [← estimateOf_eq hrange, ← hc]
      exact (summaryOf_estimate_of_unstarved hfed).trans (congrArg (Option.map _) hmedian)
  · have flying : (takeSubmission s).it.evaluation = some e := (keptByEdits_evaluation _).takeSubmission he
    refine ⟨takeSubmission s, rfl, ?_⟩
    rw [exec_evaluationCompletion he, exec_evaluationCompletion_of_none_waiting flying (takeSubmission_waiting s)]

/-- Settles O26: in AUTO out of NO_INPUT a step due or none, elsewhere a report. -/
theorem glideDecided : Obligations.GlideDecided := by
  intro s e he hw
  have completes := exec_evaluationCompletion_of_none_waiting he hw
  have due_iff := stepDue_iff s.it.substate ((s.summaryFor e).estimate.getD s.it.target) s.cu.fields.mired s.cu.fields.deadBand
  by_cases h : s.it.mode = .auto ∧ s.pe.frameState ≠ .noInput
  · obtain ⟨hm, hn⟩ := h
    have never : ¬ (s.it.mode ≠ .auto ∨ s.pe.frameState = .noInput) := by simp [hm, hn]
    rw [completeEvaluation_of_auto e hm hn] at completes
    by_cases due : stepDue s.it.substate ((s.summaryFor e).estimate.getD s.it.target) s.cu.fields.mired s.cu.fields.deadBand = true
    · rw [glide_of_due (it := s.evaluated e) due] at completes
      exact ⟨_, _, completes, rfl, fun _ _ _ => ⟨rfl, rfl, rfl, rfl, rfl⟩, fun _ _ hnot => absurd (due_iff.1 due) hnot,
        fun h => absurd h never⟩
    · rw [glide_of_not_due (it := s.evaluated e) due] at completes
      exact ⟨_, _, completes, rfl, fun _ _ hdue => absurd (due_iff.2 hdue) due, fun _ _ _ => ⟨rfl, rfl, rfl, rfl, hw⟩,
        fun h => absurd h never⟩
  · have report : s.it.mode ≠ .auto ∨ s.pe.frameState = .noInput := by rwa [not_and_or, not_not] at h
    rw [completeEvaluation_of_not_auto e report] at completes
    refine ⟨_, _, completes, rfl, fun hm hn => absurd ⟨hm, hn⟩ h, fun hm hn => absurd ⟨hm, hn⟩ h,
      fun _ => ⟨rfl, rfl, hw, rfl, fun hdue => ?_, fun hnot => ?_⟩⟩
    · exact congrArg some (if_pos (due_iff.2 hdue))
    · exact congrArg some (if_neg fun due => hnot (due_iff.1 due))

end Sys2Proof.Machine
end

section
/-! O27: the arbiter's answer to the tracker's waiting submission (R79, R93, R97, R106, R118). -/

namespace Sys2Proof.Machine

/-! ## A MIRED submission judged and accepted (R87, R88, R93) -/

/-- A MIRED entry of the tracker outside a group. -/
def trackerStep (value : Int) : Entry := ⟨.tracker, .mired, value, .ungrouped⟩

/-- A MIRED value names no slot: only a full queue refuses it (R87). -/
theorem judgeSubmission_mired (s : State) (v : Int) :
    (32 ≤ s.cu.queue.length → judgeSubmission s (Field.id .mired) v = .error .full) ∧
      (s.cu.queue.length < 32 → judgeSubmission s (Field.id .mired) v = .ok .mired) := by
  obtain ⟨-, judged⟩ := (judgeSubmission_spec s (Field.id .mired) v).2 .mired rfl
  exact (judged nofun).2 nofun

theorem submit_of_refused {source : Requester} {mark : GroupMark} {id : Byte} {v : Int} {s : State} {r : Result}
    (h : judgeSubmission s id v = .error r) : submit source mark id v s = (r, s) := by
  unfold submit
  rw [h]

/-- An accepted UNGROUPED entry: DONE or CLAMPED; out of NO_INPUT it waits, in NO_INPUT a pass follows (R88, R93). -/
theorem submit_of_accepted {source : Requester} {id : Byte} {v : Int} {s : State} {x : Field}
    (h : judgeSubmission s id v = .ok x) :
    ∃ r : Result, (r = .done ∨ r = .clamped) ∧
      let queued := enqueue s ⟨source, x, x.clampValue s.cu.calibration v, .ungrouped⟩
      (s.pe.frameState ≠ .noInput → submit source .ungrouped id v s = (r, queued)) ∧
      (s.pe.frameState = .noInput → submit source .ungrouped id v s = (r, runPass .noInput queued)) := by
  refine ⟨if x.clampValue s.cu.calibration v = v then .done else .clamped, by split <;> simp, fun hn => ?_, fun hn => ?_⟩ <;>
    simp [submit, h, State.isNoInput, hn]

/-! ## The tracker's step in a NO_INPUT pass (R97) -/

/-- A NO_INPUT pass discards a tracker's step, whatever the mode (R97). -/
theorem applyEntry_trackerStep (w : Pass) (v : Int) :
    applyEntry .noInput w (trackerStep v) = { w with items := pushItem w.items ⟨.tracker, .mired, .discarded⟩ } := rfl

/-- The most recent item of the applied-change list is its last (R101). -/
theorem pushItem_getLast? (items : List AppliedItem) (x : AppliedItem) : (pushItem items x).getLast? = some x := by
  unfold pushItem
  rw [List.drop_append_of_le_length (by omega), List.getLast?_concat]

/-- A NO_INPUT pass over a tracker's step alone: the fields and the derived values stand, the queue is empty, the item tells of
the discarding, and the tracker takes the mode that the field shows (R75, R97, R101). -/
theorem runPass_trackerStep {s : State} {v : Int} (h : s.cu.queue = [trackerStep v]) :
    (runPass .noInput s).cu =
        { s.cu with queue := [], appliedChanges := pushItem s.cu.appliedChanges ⟨.tracker, .mired, .discarded⟩ } ∧
      (runPass .noInput s).it = { s.it with mode := s.cu.fields.trackerMode } := by
  have due : applyDue .noInput s.cu =
      { Pass.begin s.cu with items := pushItem s.cu.appliedChanges ⟨.tracker, .mired, .discarded⟩ } := by
    unfold applyDue
    rw [h]
    exact applyEntry_trackerStep _ v
  have waiting : waitingEntries s.cu.queue = [] := by rw [h]; rfl
  unfold runPass
  rw [due, waiting]
  exact ⟨rfl, rfl⟩

/-! ## The submission taken (R79, R106, R118) -/

theorem takeSubmission_of_held {s : State} {w : Submission} (hw : s.it.waiting = some w) (ho : s.ca.owner.isSome = true) :
    takeSubmission s = { s.granted .tracker with it := trackerAnswered s.it w .held } := by
  unfold takeSubmission
  rw [hw]
  exact if_pos ho

theorem takeSubmission_of_free {s : State} {w : Submission} (hw : s.it.waiting = some w) (ho : s.ca.owner = none) :
    let answered := submit .tracker .ungrouped (Field.id .mired) w.value (s.granted .tracker)
    takeSubmission s = { answered.2 with it := trackerAnswered answered.2.it w answered.1 } := by
  have free : ¬ (s.granted .tracker).ca.owner.isSome = true := by
    change ¬ s.ca.owner.isSome = true
    simp [ho]
  unfold takeSubmission
  rw [hw]
  exact if_neg free

/-- The answer to a submission is a grant (R106, R118). -/
theorem takeSubmission_grantOrder {s : State} {w : Submission} (hw : s.it.waiting = some w) :
    (takeSubmission s).ca.grantOrder = grantTo .tracker s.ca.grantOrder := by
  cases ho : s.ca.owner with
  | some p => rw [takeSubmission_of_held hw (by simp [ho])]; rfl
  | none =>
    rw [takeSubmission_of_free hw ho]
    exact (unchangedBut_submit _ _ _ _ _).2 .grantOrder (by simp)

/-- The tracker with a submission answered: nothing waits, and the summary shows the action (R79). -/
def Tracker.answeredAs (it : Tracker) (x : EvaluationSummary) (a : TrackerAction) : Tracker :=
  { it with waiting := none, summary := some { x with action := some a } }

theorem trackerAnswered_held {it : Tracker} {x : EvaluationSummary} (w : Submission) (hx : it.summary = some x) :
    trackerAnswered it w .held = it.answeredAs x .refusedHeld := by
  simp [trackerAnswered, Tracker.answeredAs, hx]

theorem trackerAnswered_full {it : Tracker} {x : EvaluationSummary} (w : Submission) (hx : it.summary = some x) :
    trackerAnswered it w .full = it.answeredAs x .refusedFull := by
  simp [trackerAnswered, Tracker.answeredAs, hx]

/-- On acceptance, clamped or not, the proposed substate takes effect (R79). -/
theorem trackerAnswered_accepted {it : Tracker} {x : EvaluationSummary} (w : Submission) {r : Result}
    (hr : r = .done ∨ r = .clamped) (hx : it.summary = some x) :
    trackerAnswered it w r = { it.answeredAs x .submitted with substate := w.proposed } := by
  rcases hr with rfl | rfl <;> simp [trackerAnswered, Tracker.answeredAs, hx]

/-- A part that stands after all leaves the list of changed parts. -/
theorem State.unchangedBut_narrow {s t : State} {wide narrow : List Part} (h : s.unchangedBut t wide)
    (stands : ∀ part ∈ wide, part ∉ narrow → s.agrees t part) : s.unchangedBut t narrow := by
  refine ⟨h.1, fun part hp => ?_⟩
  by_cases hw : part ∈ wide
  · exact stands part hw hp
  · exact h.2 part hw

/-- A grant with an answer changes the tracker and the grant order alone (R79, R106). -/
theorem unchangedBut_granted_tracker (s : State) (it : Tracker) :
    s.unchangedBut { s.granted .tracker with it := it } [.tracker, .grantOrder] :=
  State.unchangedBut_trans (unchangedBut_granted s .tracker) (unchangedBut_tracker _ it) (by simp) (by simp)

/-- A refused submission: the queue stands (R79, R87). -/
theorem takeSubmission_of_full {s : State} {w : Submission} (hw : s.it.waiting = some w) (ho : s.ca.owner = none)
    (hq : 32 ≤ s.cu.queue.length) : takeSubmission s = { s.granted .tracker with it := trackerAnswered s.it w .full } := by
  rw [takeSubmission_of_free hw ho, submit_of_refused ((judgeSubmission_mired (s.granted .tracker) _).1 hq)]
  rfl

/-- A submission accepted out of NO_INPUT: its entry joins the tail of the queue (R79, R87, R118). -/
theorem takeSubmission_of_queued {s : State} {w : Submission} (hw : s.it.waiting = some w) (ho : s.ca.owner = none)
    (hq : s.cu.queue.length < 32) (hn : s.pe.frameState ≠ .noInput) :
    ∃ r : Result, (r = .done ∨ r = .clamped) ∧ takeSubmission s =
      { s.granted .tracker with
        cu := { s.cu with queue := s.cu.queue ++ [trackerStep (Field.mired.clampValue s.cu.calibration w.value)] }
        it := trackerAnswered s.it w r } := by
  obtain ⟨r, hr, queued, -⟩ :=
    submit_of_accepted (source := .tracker) ((judgeSubmission_mired (s.granted .tracker) w.value).2 hq)
  refine ⟨r, hr, ?_⟩
  rw [takeSubmission_of_free hw ho, queued hn]
  rfl

/-- A submission accepted in NO_INPUT: the pass made at once discards its entry (R79, R93, R97). -/
theorem takeSubmission_of_noInput {s : State} {w : Submission} (hw : s.it.waiting = some w) (ho : s.ca.owner = none)
    (hq : s.cu.queue = []) (hn : s.pe.frameState = .noInput) :
    ∃ r : Result, (r = .done ∨ r = .clamped) ∧
      (takeSubmission s).it = trackerAnswered { s.it with mode := s.cu.fields.trackerMode } w r ∧
      (takeSubmission s).cu =
        { s.cu with queue := [], appliedChanges := pushItem s.cu.appliedChanges ⟨.tracker, .mired, .discarded⟩ } := by
  obtain ⟨r, hr, -, passed⟩ :=
    submit_of_accepted (source := .tracker) ((judgeSubmission_mired (s.granted .tracker) w.value).2 (by
      change s.cu.queue.length < 32
      simp [hq]))
  have alone : (enqueue (s.granted .tracker) (trackerStep (Field.mired.clampValue s.cu.calibration w.value))).cu.queue =
      [trackerStep (Field.mired.clampValue s.cu.calibration w.value)] := by
    change s.cu.queue ++ _ = _
    rw [hq, List.nil_append]
  obtain ⟨hcu, hit⟩ := runPass_trackerStep alone
  rw [takeSubmission_of_free hw ho, passed hn]
  exact ⟨r, hr, congrArg (trackerAnswered · w r) hit, hcu⟩

/-- Settles O27: a group open, a full queue, an entry queued, an entry applied at once, and no submission waiting. -/
theorem trackerSubmissionAnswered : Obligations.TrackerSubmissionAnswered := by
  intro s
  refine ⟨fun w x hw hx => ⟨takeSubmission s, rfl, takeSubmission_grantOrder hw, fun ho => ?_, fun ho hq => ?_,
    fun ho hq hn => ?_, fun ho hq hn => ?_⟩, fun h => congrArg Host.Outcome.next (takeSubmission_of_none h)⟩
  · rw [takeSubmission_of_held hw ho]
    exact ⟨trackerAnswered_held w hx, unchangedBut_granted_tracker s _⟩
  · rw [takeSubmission_of_full hw ho hq]
    exact ⟨trackerAnswered_full w hx, unchangedBut_granted_tracker s _⟩
  · obtain ⟨r, hr, taken⟩ := takeSubmission_of_queued hw ho hq hn
    have framed := unchangedBut_takeSubmission s
    rw [taken] at framed ⊢
    exact ⟨trackerAnswered_accepted w hr hx, rfl, State.unchangedBut_narrow framed (by simp [State.agrees, State.granted])⟩
  · obtain ⟨r, hr, hit, hcu⟩ := takeSubmission_of_noInput hw ho hq hn
    refine ⟨hit.trans (trackerAnswered_accepted w hr hx), by rw [hcu], by rw [hcu], by rw [hcu],
      by rw [hcu]; exact pushItem_getLast? _ _, State.unchangedBut_narrow (unchangedBut_takeSubmission s) ?_⟩
    simp [State.agrees, hcu, hq]

end Sys2Proof.Machine
end

section
/-! The arbiter's acts with what each of them rests on: who owns the group, and what the Context Unit has accepted (chapters 5 and
6). A law that speaks of the owner or of accepted values is kept act by act. -/

namespace Sys2Proof.Machine

theorem isNoInput_iff (s : State) : s.isNoInput = true ↔ s.pe.frameState = .noInput := by simp [State.isNoInput]

/-- Who may submit an entry under which mark: the owner into its open group, anyone outside a group while none is open (R108,
R110, R118). -/
def State.admits (s : State) (source : Requester) (mark : GroupMark) : Prop :=
  (mark = .openGroup ∧ s.ca.owner.map portRequester = some source) ∨ (mark = .ungrouped ∧ s.ca.owner = none)

/-- A property of the state that every act of a request keeps, where the act rests on what the arbiter has tested. -/
structure KeptByRequests (P : State → Prop) : Prop where
  port : ∀ {s t : State} {p : Port}, s.portOnly t p → P s → P t
  grant : ∀ {s : State} (r : Requester), P s → P (s.granted r)
  answer : ∀ {s : State} (w : Submission) (r : Result), P s → P { s with it := trackerAnswered s.it w r }
  submit : ∀ {s : State} {source : Requester} {mark : GroupMark} (id : Byte) (v : Int), s.admits source mark → P s →
    P (submit source mark id v s).2
  /-- GROUP OPEN (R109). -/
  opened : ∀ {s : State} (p : Port), s.ca.owner = none → P s →
    P { s with ca := { s.ca.setOutcome p .opened with owner := some p, inactivityTimer := some 0 } }
  /-- An EXPIRED outcome cleared (R113). -/
  cleared : ∀ {s : State} {p : Port}, s.ca.outcome p = .expired → P s → P { s with ca := s.ca.setOutcome p .noGroup }
  /-- The group closed (R111). -/
  closed : ∀ {s : State} {p : Port}, s.ca.owner = some p → P s → P (closeGroup p s)
  /-- The group ended unapplied (R113, R115). -/
  removed : ∀ {s : State} {p : Port} {o : GroupOutcome}, s.ca.owner = some p → o ≠ .opened → P s →
    P ((removeGroupEntries s).freeGroup p o)
  /-- The expiry note (R115, R122). -/
  noted : ∀ {s : State}, P s → P { s with ca := { s.ca with expiryNote := true } }
  /-- The inactivity timer, while it runs (R114, R115). -/
  timer : ∀ {s : State} {k : Nat} (m : Nat), s.ca.inactivityTimer = some k → P s →
    P { s with ca := { s.ca with inactivityTimer := some m } }

/-- A property that does not speak of the arbiter and the ports, by the acts on the queue alone. -/
theorem KeptByRequests.of_acts {P : State → Prop} (quiet : ∀ {s t : State}, s.unchangedBut t arbiterParts → P s → P t)
    (enqueue : ∀ {s : State} {id : Byte} {v : Int} {x : Field} (source : Requester) (mark : GroupMark),
      judgeSubmission s id v = .ok x → P s → P (enqueue s ⟨source, x, x.clampValue s.cu.calibration v, mark⟩))
    (pass : ∀ {s : State}, s.pe.frameState = .noInput → P s → P (runPass .noInput s))
    (close : ∀ {s : State}, P s → P (closeGroupEntries s)) (remove : ∀ {s : State}, P s → P (removeGroupEntries s))
    (answer : ∀ {s : State} (w : Submission) (r : Result), P s → P { s with it := trackerAnswered s.it w r }) :
    KeptByRequests P where
  port h hs := quiet (State.unchangedBut_mono h.unchangedBut (by rename_i p; cases p <;> simp)) hs
  grant r hs := quiet (State.unchangedBut_mono (unchangedBut_granted _ r) (by simp)) hs
  answer := answer
  submit {s source mark} id v _ hs := by
    unfold Machine.submit
    split
    · exact hs
    · next x hx =>
      simp only
      split
      · next h => exact pass ((isNoInput_iff s).1 h.2) (enqueue source mark hx hs)
      · exact enqueue source mark hx hs
  opened {s} p _ hs := quiet (State.unchangedBut_mono (unchangedBut_group s _ (by cases p <;> rfl)) (by simp)) hs
  cleared {s p} _ hs := quiet (State.unchangedBut_mono (unchangedBut_group s _ (by cases p <;> rfl)) (by simp)) hs
  closed {s p} _ hs := by
    have freed : P ((closeGroupEntries s).freeGroup p .noGroup) :=
      quiet (State.unchangedBut_mono (unchangedBut_freeGroup _ p .noGroup) (by simp)) (close hs)
    unfold closeGroup
    simp only
    split
    · next h => exact pass ((isNoInput_iff s).1 h) freed
    · exact freed
  removed {s p o} _ _ hs := quiet (State.unchangedBut_mono (unchangedBut_freeGroup _ p o) (by simp)) (remove hs)
  noted {s} hs := quiet (State.unchangedBut_mono (unchangedBut_group s _ rfl) (by simp)) hs
  timer {s _} _ _ hs := quiet (State.unchangedBut_mono (unchangedBut_group s _ rfl) (by simp)) hs

namespace KeptByRequests

variable {P : State → Prop}

theorem takeSubmission (k : KeptByRequests P) {s : State} (hs : P s) : P (takeSubmission s) := by
  unfold Machine.takeSubmission
  split
  · exact hs
  simp only
  split
  · exact k.answer _ _ (k.grant _ hs)
  · next hfree => exact k.answer _ _ (k.submit _ _ (.inr ⟨rfl, by simpa using hfree⟩) (k.grant _ hs))

theorem editRequest (k : KeptByRequests P) (p : Port) (id : Byte) (value : Word) {s : State} (hs : P s) :
    P (editRequest p id value s).2 := by
  unfold Machine.editRequest
  split
  · exact hs
  split
  · next howner => exact k.submit _ _ (.inl ⟨rfl, by rw [howner]; rfl⟩) hs
  split
  · exact hs
  · next hfree => exact k.submit _ _ (.inr ⟨rfl, by simpa using hfree⟩) hs

theorem editCloseRequest (k : KeptByRequests P) (p : Port) (id : Byte) (value : Word) {s : State} (hs : P s) :
    P (editCloseRequest p id value s).2 := by
  unfold Machine.editCloseRequest
  split
  · exact hs
  split
  · next howner =>
    have edited := k.submit (s := s) (source := portRequester p) id value.toInt (.inl ⟨rfl, by rw [howner]; rfl⟩) hs
    have owned : (Machine.submit (portRequester p) .openGroup id value.toInt s).2.ca.owner = some p :=
      ((unchangedBut_submit _ _ _ _ s).2 .group (by simp)).1.trans howner
    split
    · next u hu =>
      rw [hu] at edited owned
      exact k.closed owned edited
    · next u hu =>
      rw [hu] at edited owned
      exact k.closed owned edited
    · exact edited
  · exact hs

theorem answerRequest (k : KeptByRequests P) (p : Port) (r : Request) {s : State} (hs : P s) :
    P (answerRequest p r s).2 := by
  cases r with
  | edit id value => exact k.editRequest p id value hs
  | editClose id value => exact k.editCloseRequest p id value hs
  | groupOpen =>
    change P (groupOpenRequest p s).2
    unfold groupOpenRequest
    split
    · exact hs
    · next hfree => exact k.opened p (by simpa using hfree) hs
  | groupClose =>
    change P (groupCloseRequest p s).2
    unfold groupCloseRequest
    split
    · exact hs
    split
    · next howner => exact k.closed howner hs
    · exact hs
  | groupAbandon =>
    change P (groupAbandonRequest p s).2
    unfold groupAbandonRequest
    split
    · next hexpired => exact k.cleared hexpired hs
    split
    · next howner => exact k.removed howner (by simp) hs
    · exact hs

theorem portRequest (k : KeptByRequests P) (p : Port) (r : Request) {s : State} (hs : P s) : P (portRequest p r s) := by
  have begun : P (s.closeSelection p) := k.port (s.portOnly_closeSelection p) hs
  have answered : P (takeRequest p (Machine.answerRequest p r) (s.closeSelection p)).2 := by
    unfold takeRequest
    simp only
    refine k.answerRequest p r (k.grant _ ?_)
    split
    · exact k.takeSubmission begun
    · exact begun
  unfold Machine.portRequest portCommand
  split
  · exact hs
  simp only
  refine k.port (State.portOnly_restartInactivity _ p) (k.port (State.portOnly_setPort _ p _) ?_)
  split
  · exact begun
  · exact answered

theorem portRequests (k : KeptByRequests P) (p : Port) (r : Request) (beside : Option Request) {s : State} (hs : P s) :
    P (portRequests p r beside s) := by
  unfold Machine.portRequests
  split
  · exact k.portRequest p r hs
  split
  · exact k.portRequest p r (k.portRequest _ _ hs)
  · exact k.portRequest _ _ (k.portRequest p r hs)

theorem elapseGroup (k : KeptByRequests P) (ms : Nat) {s : State} (hs : P s) : P (elapseGroup ms s) := by
  unfold Machine.elapseGroup
  split
  · exact hs
  next ht =>
    split
    · unfold expireGroup
      split
      · exact hs
      · next p howner => exact k.noted (k.removed howner (by simp) hs)
    · exact k.timer _ ht hs

/-- What every act of a request keeps, the commands of the arbiter keep. -/
theorem exec (k : KeptByRequests P) {c : Instr} (hc : isEdit c = true) {s t : State} (h : exec c s = .next t) (hs : P s) :
    P t := by
  cases c <;> simp [isEdit] at hc <;> obtain rfl := Host.Outcome.next.inj h
  case trackerSubmission => exact k.takeSubmission hs
  case groupExpiry ms => exact k.elapseGroup ms hs
  all_goals exact k.portRequests _ _ _ hs

end KeptByRequests

/-- The completion of an evaluation answers the submission before it, then changes the tracker alone (R73, R106). -/
theorem evaluationCompletes_cases (s : State) :
    evaluationCompletes s = s ∨ ∃ it, evaluationCompletes s = { takeSubmission s with it := it } := by
  unfold evaluationCompletes
  split
  · exact .inl rfl
  · exact .inr ⟨_, rfl⟩

end Sys2Proof.Machine
end

section
/-! The laws of the arbiter and of the Change Queue from step to step (R86, R90, R92 to R94, R105, R106). -/

namespace Sys2Proof.Machine

/-! ## Commands on a port -/

/-- What the body of a command other than a read keeps, the command keeps: the port's own share changes the port alone, and in
STARTING there is nothing else (R166, R174). -/
theorem portCommand_keeps {P Q : State → Prop} (portP : ∀ {s t : State} {p : Port}, s.portOnly t p → P s → P t)
    (portQ : ∀ {s t : State} {p : Port}, s.portOnly t p → Q s → Q t) (hPQ : ∀ {s : State}, P s → Q s) {p : Port}
    {body : State → Result × State} (hbody : ∀ {u : State}, u.pe.frameState ≠ .starting → P u → Q (body u).2) {s : State}
    (hs : P s) : Q (portCommand p body s) := by
  have begun : P (s.closeSelection p) := portP (s.portOnly_closeSelection p) hs
  unfold portCommand
  split
  · exact hPQ hs
  simp only
  refine portQ (State.portOnly_restartInactivity _ p) (portQ (State.portOnly_setPort _ p _) ?_)
  split
  · exact hPQ begun
  · next hn => exact hbody (by simpa [State.isStarting] using hn) begun

/-- A command of a port that waits for the rise and is no request: discarded, or a body that the slots and the store answer
(R127 to R130, R143, R146, R148, R173). -/
theorem exec_portCommand_cases {c : Instr} (hc : isPortCommand c = true) (he : isEdit c = false) {s t : State}
    (h : exec c s = .next t) :
    ∃ p, commandPort c = some p ∧ (t = discardSelection p .framing s ∨ ∃ body, t = portCommand p body s ∧
      ∀ u : State, u.unchangedBut (body u).2 [.port p, .slots, .directory, .controller, .recallEngine]) := by
  have onSlots : ∀ {p : Port} {u v : State}, u.unchangedBut v [.slots] →
      u.unchangedBut v [.port p, .slots, .directory, .controller, .recallEngine] :=
    fun hu => State.unchangedBut_mono hu (by simp)
  cases c <;> simp [isPortCommand, isEdit] at hc he <;> obtain rfl := Host.Outcome.next.inj h
  case slotOpen p id =>
    exact ⟨p, rfl, .inr ⟨_, rfl, fun u => onSlots (unchangedBut_onSlot id _ (fun i u => unchangedBut_openSlot p i u) u)⟩⟩
  case slotWrite p id page offset data =>
    refine ⟨p, rfl, ?_⟩
    split
    · exact .inl rfl
    · exact .inr ⟨_, rfl, fun u =>
        onSlots (unchangedBut_onSlot id _ (fun i u => unchangedBut_writeSlot p page offset data i u) u)⟩
  case slotFinish p id =>
    exact ⟨p, rfl, .inr ⟨_, rfl, fun u => onSlots (unchangedBut_onSlot id _ (fun i u => unchangedBut_finishSlot p i u) u)⟩⟩
  case slotDiscard p id =>
    exact ⟨p, rfl, .inr ⟨_, rfl, fun u => onSlots (unchangedBut_onSlot id _ (fun i u => unchangedBut_discardSlot i u) u)⟩⟩
  case writeEnable p =>
    exact ⟨p, rfl, .inr ⟨_, rfl, fun u => State.unchangedBut_mono (unchangedBut_setWriteEnable u p true) (by simp)⟩⟩
  case writeDisable p =>
    exact ⟨p, rfl, .inr ⟨_, rfl, fun u => State.unchangedBut_mono (unchangedBut_setWriteEnable u p false) (by simp)⟩⟩
  case save p id number name selector =>
    refine ⟨p, rfl, ?_⟩
    split
    · exact .inr ⟨_, rfl, fun u => State.unchangedBut_mono (unchangedBut_saveRequest p id number name selector u) (by simp)⟩
    · exact .inl rfl
  case erase p number complement =>
    exact ⟨p, rfl, .inr ⟨_, rfl, fun u => State.unchangedBut_mono (unchangedBut_eraseRequest p number complement u) (by simp)⟩⟩
  -- RECALL, whose name is a keyword of Mathlib, so that `case` cannot take it.
  next p number id =>
    exact ⟨p, rfl, .inr ⟨_, rfl, fun u => State.unchangedBut_mono (unchangedBut_recallRequest number id u) (by simp)⟩⟩

/-! ## The arbiter (R105, R106, R114) -/

theorem arbiterLaw_of_agrees {s t : State} (hg : s.agrees t .group) (ht : s.agrees t .inactivityTimer)
    (ho : s.agrees t .grantOrder) (hs : s.arbiterLaw) : t.arbiterLaw := by
  obtain ⟨howner, houtcome, -⟩ := agrees_group hg
  change t.ca.inactivityTimer = s.ca.inactivityTimer at ht
  change t.ca.grantOrder = s.ca.grantOrder at ho
  unfold State.arbiterLaw
  simp only [howner, houtcome, ht, ho]
  exact hs

/-- The timer may restart while the group is open (R114). -/
theorem State.portOnly.arbiterLaw {s t : State} {p : Port} (h : s.portOnly t p) (hs : s.arbiterLaw) : t.arbiterLaw := by
  obtain ⟨x, timer, rfl, htimer⟩ := h
  obtain ⟨howner, hrunning, horder⟩ := hs
  have running : timer.isSome = s.ca.owner.isSome := by
    rcases htimer with rfl | ⟨ho, rfl⟩
    · exact hrunning
    · rw [ho]; rfl
  exact ⟨fun q => by cases p <;> exact howner q, by cases p <;> exact running, by cases p <;> exact horder⟩

/-- A grant orders the three requesters anew (R106). -/
theorem grantTo_perm {order : List Requester} (h : order.Perm [.portS, .tracker, .portC]) (r : Requester) :
    (grantTo r order).Perm [.portS, .tracker, .portC] :=
  ((h.filter _).append_right _).trans (by cases r <;> decide)

/-- The owner's group ended, its outcome no longer OPEN: no port owns a group (R111, R113, R115). -/
theorem arbiterLaw_freeGroup {s : State} {p : Port} {o : GroupOutcome} (howner : s.ca.owner = some p) (ho : o ≠ .opened)
    (hs : s.arbiterLaw) : (s.freeGroup p o).arbiterLaw := by
  obtain ⟨hopen, -, horder⟩ := hs
  obtain ⟨hfree, hended, hothers, htimer, -⟩ := freeGroup_spec s p o
  refine ⟨fun q => ?_, by rw [hfree, htimer]; rfl, (State.freeGroup_ca_grantOrder s p o) ▸ horder⟩
  rw [hfree]
  refine iff_of_false nofun fun h => ?_
  by_cases hq : q = p
  · rw [hq, hended] at h
    exact ho h
  · rw [hothers q hq] at h
    exact hq (Option.some.inj (((hopen q).2 h).symm.trans howner))

theorem keptByRequests_arbiterLaw : KeptByRequests State.arbiterLaw where
  port h hs := h.arbiterLaw hs
  grant {s} r hs := by
    obtain ⟨howner, htimer, horder⟩ := hs
    exact ⟨fun p => (howner p).trans (by rw [outcome_granted]), htimer, grantTo_perm horder r⟩
  answer _ _ hs := hs
  submit {s source mark} id v _ hs := by
    have same := unchangedBut_submit source mark id v s
    exact arbiterLaw_of_agrees (same.2 .group (by simp)) (same.2 .inactivityTimer (by simp)) (same.2 .grantOrder (by simp)) hs
  opened {s} p hfree hs := by
    obtain ⟨howner, -, horder⟩ := hs
    refine ⟨fun q => ?_, rfl, by cases p <;> exact horder⟩
    change some p = some q ↔ (s.ca.setOutcome p .opened).outcome q = .opened
    rw [outcome_setOutcome]
    split
    · next h => simp [h]
    · next h => simp [h, ← howner, hfree]
  cleared {s p} hexpired hs := by
    obtain ⟨howner, htimer, horder⟩ := hs
    refine ⟨fun q => ?_, by cases p <;> exact htimer, by cases p <;> exact horder⟩
    have same : (s.ca.setOutcome p .noGroup).owner = s.ca.owner := by cases p <;> rfl
    change (s.ca.setOutcome p .noGroup).owner = some q ↔ (s.ca.setOutcome p .noGroup).outcome q = .opened
    rw [outcome_setOutcome, same, howner]
    split
    · next h => simp [← h, hexpired]
    · exact Iff.rfl
  closed {s p} howner hs := by
    have freed : ((closeGroupEntries s).freeGroup p .noGroup).arbiterLaw :=
      arbiterLaw_freeGroup (s := closeGroupEntries s) howner (by simp) hs
    unfold closeGroup
    simp only
    split <;> exact freed
  removed {s p o} howner ho hs := arbiterLaw_freeGroup (s := removeGroupEntries s) howner ho hs
  noted hs := hs
  timer {s k} m hk hs := by
    obtain ⟨howner, htimer, horder⟩ := hs
    refine ⟨howner, ?_, horder⟩
    rw [← htimer, hk]
    rfl

theorem arbiterLaw_exec_command {c : Instr} (hc : isSelection c = false) {s t : State} (hs : s.arbiterLaw)
    (h : exec c s = .next t) : t.arbiterLaw := by
  cases he : isEdit c with
  | true => exact keptByRequests_arbiterLaw.exec he h hs
  | false =>
  cases hp : isPortCommand c with
  | true =>
    obtain ⟨p, -, rfl | ⟨body, rfl, hbody⟩⟩ := exec_portCommand_cases hp he h
    · exact (portOnly_discardSelection p .framing s).arbiterLaw hs
    · refine portCommand_keeps State.portOnly.arbiterLaw State.portOnly.arbiterLaw id (fun {u} _ hu => ?_) hs
      exact arbiterLaw_of_agrees ((hbody u).2 .group (by simp)) ((hbody u).2 .inactivityTimer (by simp))
        ((hbody u).2 .grantOrder (by simp)) hu
  | false =>
  by_cases hread : ∃ p, (∃ bytes, readPort c = some (p, bytes)) ∨ c = .readStatus p
  · obtain ⟨p, hread⟩ := hread
    exact (portOnly_of_read hread h).arbiterLaw hs
  by_cases hq : .group ∉ Changes c ∧ .inactivityTimer ∉ Changes c ∧ .grantOrder ∉ Changes c
  · exact arbiterLaw_of_agrees (exec_agrees h hq.1) (exec_agrees h hq.2.1) (exec_agrees h hq.2.2) hs
  cases c <;> simp [Changes, commandParts, isSelection, isEdit, isPortCommand, readPort] at hq hc he hp hread
  case resetAssert acts =>
    obtain rfl := Host.Outcome.next.inj h
    exact arbiterLaw_reset
  case frameStart w h' =>
    rcases exec_frameStart_cases h with rfl | ⟨-, rfl⟩
    · exact hs
    · obtain ⟨o, r, z, he, -⟩ := startFrame_eq w h' s
      rw [he]
      exact hs
  case evaluationCompletion =>
    obtain rfl := Host.Outcome.next.inj h
    rcases evaluationCompletes_cases s with he | ⟨it, he⟩ <;> rw [he]
    · exact hs
    · exact keptByRequests_arbiterLaw.takeSubmission hs

theorem arbiterLaw_exec {c : Instr} {s t : State} (hs : s.arbiterLaw) (h : exec c s = .next t) : t.arbiterLaw :=
  exec_keeps (P := State.arbiterLaw) (Q := State.arbiterLaw) State.portOnly.arbiterLaw
    (fun hc hs h => arbiterLaw_exec_command hc hs h)
    (fun hs h => arbiterLaw_of_agrees (exec_agrees h (by simp [Changes, lineParts]))
      (exec_agrees h (by simp [Changes, lineParts])) (exec_agrees h (by simp [Changes, lineParts])) hs) id hs h

/-! ## What a submission has passed (R87) -/

/-- An accepted submission names a field, has passed the tests of a binding, and finds room in the queue (R87). -/
theorem judgeSubmission_ok {s : State} {id : Byte} {v : Int} {x : Field} (h : judgeSubmission s id v = .ok x) :
    fieldOfId id = some x ∧ (x.isBinding = true → x.namesSlot v = true) ∧
      (∀ i, x.boundSlot v = some i → (s.slot i).state = .ready) ∧ s.cu.queue.length < 32 := by
  obtain ⟨hnone, hsome⟩ := judgeSubmission_spec s id v
  cases hx : fieldOfId id with
  | none => rw [hnone hx] at h; cases h
  | some y =>
    obtain ⟨unnamed, named⟩ := hsome y hx
    by_cases hn : y.isBinding = true → y.namesSlot v = true
    · by_cases hr : ∀ i, y.boundSlot v = some i → (s.slot i).state = .ready
      · by_cases hq : s.cu.queue.length < 32
        · rw [((named hn).2 hr).2 hq] at h
          obtain rfl := Except.ok.inj h
          exact ⟨rfl, hn, hr, hq⟩
        · rw [((named hn).2 hr).1 (Nat.not_lt.1 hq)] at h
          cases h
      · rw [(named hn).1 hr] at h
        cases h
    · rw [unnamed hn] at h
      cases h

/-! ## The Change Queue (R86, R90, R92 to R94) -/

theorem dueEntries_append_waitingEntries (q : List Entry) : dueEntries q ++ waitingEntries q = q := List.takeWhile_append_dropWhile

theorem waitingEntries_waitingEntries (q : List Entry) : waitingEntries (waitingEntries q) = waitingEntries q :=
  List.dropWhile_idempotent _ q

theorem waitingEntries_eq_nil_iff (q : List Entry) : waitingEntries q = [] ↔ ∀ e ∈ q, e.mark ≠ .openGroup := by
  simp [waitingEntries]

/-- What a pass leaves in the queue, no later pass takes (R92). -/
theorem dueEntries_waitingEntries (q : List Entry) : dueEntries (waitingEntries q) = [] := by
  have split := dueEntries_append_waitingEntries (waitingEntries q)
  rw [waitingEntries_waitingEntries] at split
  exact List.append_left_eq_self.1 split

/-- An entry at the tail of a queue (R86, R92). -/
theorem waitingEntries_concat (q : List Entry) (e : Entry) :
    (e.mark = .openGroup → waitingEntries (q ++ [e]) = waitingEntries q ++ [e]) ∧
      (e.mark ≠ .openGroup → waitingEntries q = [] → waitingEntries (q ++ [e]) = []) := by
  unfold waitingEntries
  rw [List.dropWhile_append]
  refine ⟨fun h => ?_, fun h hq => ?_⟩
  · split
    · next hq => rw [List.isEmpty_iff.1 hq, List.dropWhile_cons_of_neg (by simp [h]), List.nil_append]
    · rfl
  · rw [hq, if_pos List.isEmpty_nil, List.dropWhile_cons_of_pos (by simp [h]), List.dropWhile_nil]

/-- The open group's entries end the queue of the owner (R86, R90). -/
def State.groupLast (s : State) : Prop :=
  ∀ e ∈ waitingEntries s.cu.queue, e.mark = .openGroup ∧ s.ca.owner.map portRequester = some e.source

theorem queueLaw_iff (s : State) : s.queueLaw ↔
    s.cu.queue.length ≤ 32 ∧ s.groupLast ∧ (s.pe.frameState = .noInput → dueEntries s.cu.queue = []) := Iff.rfl

theorem queueLaw_of_agrees {s t : State} (hq : s.agrees t .queue) (hg : s.agrees t .group) (he : s.agrees t .engine)
    (hs : s.queueLaw) : t.queueLaw := by
  change t.cu.queue = s.cu.queue at hq
  obtain ⟨howner, -⟩ := hg
  obtain ⟨hframe, -⟩ := he
  unfold State.queueLaw
  rw [hq, howner, hframe]
  exact hs

/-- While no group is open no entry of one waits. -/
theorem State.groupLast.of_free {s : State} (h : s.groupLast) (ho : s.ca.owner = none) : waitingEntries s.cu.queue = [] := by
  rw [waitingEntries_eq_nil_iff]
  by_contra hn
  obtain ⟨e, he⟩ : ∃ e, e ∈ waitingEntries s.cu.queue := by
    rw [← waitingEntries_eq_nil_iff] at hn
    exact List.exists_mem_of_ne_nil _ hn
  have := (h e he).2
  simp [ho] at this

/-- Without an open group's entries the law asks for the length, and in NO_INPUT for an empty queue. -/
theorem queueLaw_of_ungrouped {s : State} (hl : s.cu.queue.length ≤ 32) (hw : waitingEntries s.cu.queue = [])
    (hn : s.pe.frameState = .noInput → s.cu.queue = []) : s.queueLaw := by
  refine (queueLaw_iff s).2 ⟨hl, ?_, fun h => ?_⟩
  · intro e he
    rw [hw] at he
    cases he
  · rw [hn h]
    rfl

/-- A pass leaves the open group's entries alone (R92). -/
theorem queueLaw_runPass {kind : PassKind} {s : State} (hl : s.cu.queue.length ≤ 32) (hw : s.groupLast) :
    (runPass kind s).queueLaw := by
  refine (queueLaw_iff _).2 ⟨?_, ?_, fun _ => dueEntries_waitingEntries _⟩
  · exact (List.length_dropWhile_le _ _).trans hl
  · intro e he
    change e ∈ waitingEntries (waitingEntries s.cu.queue) at he
    rw [waitingEntries_waitingEntries] at he
    exact hw e he

/-- An entry accepted into the open group joins its end; one accepted outside a group waits, or is applied at once (R87, R93). -/
theorem queueLaw_submit {s : State} {source : Requester} {mark : GroupMark} (id : Byte) (v : Int) (ha : s.admits source mark)
    (hs : s.queueLaw) : (submit source mark id v s).2.queueLaw := by
  obtain ⟨-, hlast, hdue⟩ := (queueLaw_iff s).1 hs
  unfold submit
  split
  · exact hs
  next x hx =>
  obtain ⟨-, -, -, hroom⟩ := judgeSubmission_ok hx
  have length : ∀ e : Entry, (enqueue s e).cu.queue.length ≤ 32 := fun e => by
    simp only [enqueue, List.length_append, List.length_singleton]
    omega
  simp only
  generalize he : (⟨source, x, x.clampValue s.cu.calibration v, mark⟩ : Entry) = e
  obtain ⟨grouped, ungrouped⟩ := waitingEntries_concat s.cu.queue e
  rcases ha with ⟨rfl, howner⟩ | ⟨rfl, hfree⟩
  · have last : (enqueue s e).groupLast := by
      intro d hd
      change d ∈ waitingEntries (s.cu.queue ++ [e]) at hd
      rw [grouped (by rw [← he]), List.mem_append, List.mem_singleton] at hd
      rcases hd with hd | rfl
      · exact hlast d hd
      · rw [← he]
        exact ⟨rfl, howner⟩
    rw [if_neg (by simp)]
    refine (queueLaw_iff _).2 ⟨length e, last, fun hn => ?_⟩
    have hq := hdue hn
    change dueEntries (s.cu.queue ++ [e]) = []
    unfold dueEntries at hq ⊢
    cases hc : s.cu.queue with
    | nil => simp [← he]
    | cons d rest =>
      rw [hc] at hq
      rw [List.cons_append, List.takeWhile_cons]
      rw [List.takeWhile_cons] at hq
      split at hq
      · cases hq
      · next hd => rw [if_neg hd]
  · have none_waits : waitingEntries (enqueue s e).cu.queue = [] := ungrouped (by rw [← he]; simp) (hlast.of_free hfree)
    split
    · refine queueLaw_runPass (length e) fun d hd => ?_
      rw [none_waits] at hd
      cases hd
    · next hn => exact queueLaw_of_ungrouped (length e) none_waits fun h => absurd ⟨rfl, (isNoInput_iff s).2 h⟩ hn

/-- A group closed leaves no entry marked OPEN_GROUP, and in NO_INPUT no entry (R90, R94). -/
theorem queueLaw_closeGroup {s : State} (p : Port) (hs : s.queueLaw) : (closeGroup p s).queueLaw := by
  obtain ⟨hl, -⟩ := (queueLaw_iff s).1 hs
  have length : ((closeGroupEntries s).freeGroup p .noGroup).cu.queue.length ≤ 32 := by
    simpa [closeGroupEntries] using hl
  have none_waits : waitingEntries ((closeGroupEntries s).freeGroup p .noGroup).cu.queue = [] := by
    rw [waitingEntries_eq_nil_iff]
    intro e he
    obtain ⟨d, -, rfl⟩ := List.mem_map.1 he
    split
    · simp
    · assumption
  unfold closeGroup
  simp only
  split
  · refine queueLaw_runPass length fun d hd => ?_
    rw [none_waits] at hd
    cases hd
  · next hn => exact queueLaw_of_ungrouped length none_waits fun h => absurd ((isNoInput_iff s).2 h) hn

/-- A group ended unapplied leaves no entry marked OPEN_GROUP (R90, R91). -/
theorem queueLaw_removeGroupEntries {s : State} (p : Port) (o : GroupOutcome) (hs : s.queueLaw) :
    ((removeGroupEntries s).freeGroup p o).queueLaw := by
  obtain ⟨hl, hlast, hdue⟩ := (queueLaw_iff s).1 hs
  refine queueLaw_of_ungrouped ((List.length_filter_le _ _).trans hl) ?_ fun hn => ?_
  · rw [waitingEntries_eq_nil_iff]
    intro e he
    simpa using (List.mem_filter.1 he).2
  · have all_wait : waitingEntries s.cu.queue = s.cu.queue := by
      have split := dueEntries_append_waitingEntries s.cu.queue
      rwa [hdue hn, List.nil_append] at split
    change s.cu.queue.filter _ = []
    rw [List.filter_eq_nil_iff]
    intro e he
    have := (hlast e (by rwa [all_wait])).1
    simp [this]

theorem State.portOnly.queueLaw {s t : State} {p : Port} (h : s.portOnly t p) (hs : s.queueLaw) : t.queueLaw :=
  queueLaw_of_agrees (h.unchangedBut.2 .queue (by simp)) (h.unchangedBut.2 .group (by simp))
    (h.unchangedBut.2 .engine (by simp)) hs

theorem keptByRequests_queueLaw : KeptByRequests State.queueLaw where
  port h hs := h.queueLaw hs
  grant _ hs := hs
  answer _ _ hs := hs
  submit id v ha hs := queueLaw_submit id v ha hs
  opened {s} p hfree hs := by
    obtain ⟨hl, hlast, hdue⟩ := (queueLaw_iff s).1 hs
    refine (queueLaw_iff _).2 ⟨hl, fun e he => ?_, hdue⟩
    change e ∈ waitingEntries s.cu.queue at he
    rw [hlast.of_free hfree] at he
    cases he
  cleared {s p} _ hs := by cases p <;> exact hs
  closed _ hs := queueLaw_closeGroup _ hs
  removed _ _ hs := queueLaw_removeGroupEntries _ _ hs
  noted hs := hs
  timer _ _ hs := hs

/-- Out of NO_INPUT the law does not speak of the due entries. -/
theorem queueLaw_of_input {s t : State} (hq : s.agrees t .queue) (hg : s.agrees t .group) (ht : t.pe.frameState ≠ .noInput)
    (hs : s.queueLaw) : t.queueLaw := by
  change t.cu.queue = s.cu.queue at hq
  obtain ⟨howner, -⟩ := hg
  obtain ⟨hl, hlast, -⟩ := (queueLaw_iff s).1 hs
  unfold State.groupLast at hlast
  rw [← hq, ← howner] at hlast
  exact (queueLaw_iff t).2 ⟨hq ▸ hl, hlast, fun h => absurd h ht⟩

theorem queueLaw_startFrame {s : State} (hs : s.queueLaw) (w h : Half) : (startFrame w h s).queueLaw := by
  obtain ⟨hl, hlast, -⟩ := (queueLaw_iff s).1 hs
  obtain ⟨o, r, z, he, -⟩ := startFrame_eq w h s
  rw [he]
  exact queueLaw_runPass (kind := .frameStart)
    (s := { s with rr := { s.rr with openRecord := o, ring := r }, zsa := z, pe := s.pe.startFrame w h }) hl hlast

theorem queueLaw_loseInput {s : State} (hs : s.queueLaw) : (loseInput s).queueLaw := by
  obtain ⟨hl, hlast, -⟩ := (queueLaw_iff s).1 hs
  obtain ⟨o, r, z, he, -⟩ := truncateIfInFrame_eq s
  unfold loseInput
  simp only [he]
  exact queueLaw_runPass hl hlast

theorem queueLaw_exec_command {c : Instr} (hc : isSelection c = false) {s t : State} (hP : s.startingLaw ∧ s.queueLaw)
    (h : exec c s = .next t) : t.queueLaw := by
  obtain ⟨hstart, hs⟩ := hP
  cases he : isEdit c with
  | true => exact keptByRequests_queueLaw.exec he h hs
  | false =>
  by_cases hq : .queue ∉ Changes c ∧ .group ∉ Changes c ∧ .engine ∉ Changes c
  · exact queueLaw_of_agrees (exec_agrees h hq.1) (exec_agrees h hq.2.1) (exec_agrees h hq.2.2) hs
  cases c <;> simp [Changes, commandParts, isSelection, isEdit] at hq hc he
  case resetAssert acts =>
    obtain rfl := Host.Outcome.next.inj h
    exact queueLaw_of_ungrouped (Nat.zero_le _) rfl fun _ => rfl
  case startUpCompletion pages =>
    rcases exec_startUp_cases h with rfl | ⟨hline, hn, rfl⟩
    · exact hs
    · obtain ⟨-, -, -, hcu, -⟩ : s.atReset := hstart.2.1 hn
      have empty : (completeStartUp pages s).cu.queue = [] := by
        rw [show (completeStartUp pages s).cu.queue = s.cu.queue from (unchangedBut_completeStartUp pages s).2 .queue (by simp),
          hcu]
        rfl
      exact queueLaw_of_ungrouped (by simp [empty]) (by rw [empty]; rfl) fun _ => empty
  case frameStart w h' =>
    rcases exec_frameStart_cases h with rfl | ⟨-, rfl⟩
    · exact hs
    · exact queueLaw_startFrame hs w h'
  case frameEnd =>
    rcases exec_frameEnd_cases h with rfl | ⟨-, rfl⟩
    · exact hs
    · have same := unchangedBut_endFrame s
      exact queueLaw_of_input (same.2 .queue (by simp)) (same.2 .group (by simp)) (fun h => nomatch h) hs
  case inputLost ms =>
    obtain rfl := Host.Outcome.next.inj h
    rcases elapseInput_cases ms s with he | ⟨-, he | ⟨k, he⟩⟩ <;> rw [he]
    · exact hs
    · exact queueLaw_loseInput hs
    · exact hs
  case evaluationCompletion =>
    obtain rfl := Host.Outcome.next.inj h
    rcases evaluationCompletes_cases s with he | ⟨it, he⟩ <;> rw [he]
    · exact hs
    · exact keptByRequests_queueLaw.takeSubmission hs

theorem queueLaw_exec {c : Instr} {s t : State} (hstart : s.startingLaw) (hs : s.queueLaw) (h : exec c s = .next t) :
    t.queueLaw :=
  exec_keeps (P := fun s => s.startingLaw ∧ s.queueLaw) (Q := State.queueLaw) State.portOnly.queueLaw
    (fun hc hP h => queueLaw_exec_command hc hP h)
    (fun hP h => queueLaw_of_agrees (exec_agrees h (by simp [Changes, lineParts])) (exec_agrees h (by simp [Changes, lineParts]))
      (exec_agrees h (by simp [Changes, lineParts])) hP.2) And.right ⟨hstart, hs⟩ h

end Sys2Proof.Machine
end

section
/-! The laws of ranges and of derivation from step to step (R42, R44, R46, R47, R80, R84, R88, R100), and O57. -/

namespace Sys2Proof.Machine

/-! ## Values in their ranges (R84, R88) -/

theorem mem_allFields (x : Field) : x ∈ allFields := by cases x <;> decide

/-- The calibration set in use, if there is one, is acceptable, with its default mired inside the locus (R42, R44). -/
def calibrationLaw (cal : Option CalibrationSet) : Prop :=
  ∀ c, cal = some c → c.acceptable = true ∧ c.firstMired ≤ c.defaultMired ∧ c.defaultMired ≤ c.lastMired

/-- Every field holds a value of its range (R84). -/
def Fields.inRange (cal : Option CalibrationSet) (f : Fields) : Prop := ∀ x : Field, x.holds cal (f.get x)

/-- Every entry holds a value of its field's range (R88). -/
def entriesInRange (cal : Option CalibrationSet) (q : List Entry) : Prop := ∀ e ∈ q, e.field.holds cal e.value

theorem rangeLaw_iff (s : State) : s.rangeLaw ↔
    entriesInRange s.cu.calibration s.cu.queue ∧ s.cu.fields.inRange s.cu.calibration ∧ calibrationLaw s.cu.calibration := by
  have all : (∀ x ∈ allFields, x.holds s.cu.calibration (s.cu.fields.get x)) ↔ s.cu.fields.inRange s.cu.calibration :=
    ⟨fun h x => h x (mem_allFields x), fun h x _ => h x⟩
  unfold State.rangeLaw
  rw [all]
  exact Iff.rfl

theorem rangeLaw_of_agrees {s t : State} (hq : s.agrees t .queue) (hf : s.agrees t .fields) (hc : s.agrees t .calibration)
    (hs : s.rangeLaw) : t.rangeLaw := by
  change t.cu.queue = s.cu.queue at hq
  change t.cu.fields = s.cu.fields at hf
  obtain ⟨hcal, -⟩ := hc
  unfold State.rangeLaw
  rw [hq, hf, hcal]
  exact hs

theorem miredRange_le {cal : Option CalibrationSet} (h : calibrationLaw cal) : (miredRange cal).1 ≤ (miredRange cal).2 := by
  cases cal with
  | none => exact Nat.le_refl _
  | some c =>
    obtain ⟨-, hlow, hhigh⟩ := h c rfl
    exact Nat.mul_le_mul_left 16 (hlow.trans hhigh)

theorem range_le {cal : Option CalibrationSet} (h : calibrationLaw cal) (x : Field) : (x.range cal).1 ≤ (x.range cal).2 := by
  have mired := miredRange_le h
  cases x <;> simp only [Field.range] <;> omega

/-- The value an accepted entry stands with lies in its field's range, or names a slot (R87, R88). -/
theorem holds_clampValue {cal : Option CalibrationSet} (h : calibrationLaw cal) {x : Field} {v : Int}
    (hv : x.isBinding = true → x.namesSlot v = true) : x.holds cal (x.clampValue cal v) := by
  unfold Field.holds Field.clampValue
  split
  · next hb => exact hv hb
  · rw [clampInt_eq _ _ _ (range_le h x)]
    have := range_le h x
    omega

/-- A field set to a value of its range (R95). -/
theorem Fields.inRange.set {cal : Option CalibrationSet} {f : Fields} (h : f.inRange cal) {x : Field} {v : Int}
    (hv : x.holds cal v) : (f.set x v).inRange cal := by
  intro y
  by_cases hy : x = y
  · subst hy
    rwa [Fields.get_set_of_holds cal f x v hv]
  · rw [Fields.get_set_of_ne f x y v hy]
    exact h y

/-- A port's MIRED entry sets the mode to MANUAL, as a TRACKER_MODE entry of value 2 does (R84, R96). -/
theorem manual_eq_set (f : Fields) : { f with trackerMode := .manual } = f.set .trackerMode 2 := rfl

theorem mired_eq_set (f : Fields) (m : Nat) : { f with mired := m } = f.set .mired m := rfl

theorem inRange_applyField {cal : Option CalibrationSet} {f : Fields} (h : f.inRange cal) {e : Entry}
    (he : e.field.holds cal e.value) : (applyField f e).inRange cal := by
  unfold applyField
  split
  · next hm =>
    rw [manual_eq_set]
    rw [hm.1] at he
    exact (h.set he).set (by simp [Field.holds, Field.isBinding, Field.range])
  · exact h.set he

theorem inRange_applyEntry {cal : Option CalibrationSet} (kind : PassKind) {w : Pass} (h : w.fields.inRange cal) {e : Entry}
    (he : e.field.holds cal e.value) : (applyEntry kind w e).fields.inRange cal := by
  unfold applyEntry
  split
  · exact h
  · exact inRange_applyField h he

/-- The entries of a pass leave every field in its range. -/
theorem inRange_foldl_applyEntry {cal : Option CalibrationSet} (kind : PassKind) {q : List Entry} (hq : entriesInRange cal q)
    {w : Pass} (h : w.fields.inRange cal) : (q.foldl (applyEntry kind) w).fields.inRange cal := by
  induction q generalizing w with
  | nil => exact h
  | cons e rest ih =>
    exact ih (fun d hd => hq d (List.mem_cons_of_mem e hd)) (inRange_applyEntry kind h (hq e List.mem_cons_self))

theorem mired_holds_iff (cal : Option CalibrationSet) (m : Nat) :
    Field.mired.holds cal m ↔ (miredRange cal).1 ≤ m ∧ m ≤ (miredRange cal).2 := by
  simp [Field.holds, Field.isBinding, Field.range]

/-- The glide bound lies between the value before the pass and the value that the entries gave (R80). -/
theorem inRange_glideBound {cal : Option CalibrationSet} {before : Nat} (hb : Field.mired.holds cal before) {w : Pass}
    (h : w.fields.inRange cal) : (glideBound before w).inRange cal := by
  have after : Field.mired.holds cal w.fields.mired := h .mired
  rw [mired_holds_iff] at hb after
  unfold glideBound
  simp only
  split
  · split
    · rw [mired_eq_set]
      exact h.set ((mired_holds_iff cal _).2 (by omega))
    split
    · rw [mired_eq_set]
      exact h.set ((mired_holds_iff cal _).2 (by omega))
    · exact h
  · exact h

theorem rangeLaw_runPass (kind : PassKind) {s : State} (hs : s.rangeLaw) : (runPass kind s).rangeLaw := by
  obtain ⟨hq, hf, hc⟩ := (rangeLaw_iff s).1 hs
  have due : entriesInRange s.cu.calibration (dueEntries s.cu.queue) := fun e he =>
    hq e (List.takeWhile_subset _ he)
  have applied : (applyDue kind s.cu).fields.inRange s.cu.calibration := inRange_foldl_applyEntry kind due hf
  refine (rangeLaw_iff _).2 ⟨fun e he => hq e (List.dropWhile_subset _ he), ?_, hc⟩
  cases kind with
  | frameStart => exact inRange_glideBound (hf .mired) applied
  | noInput => exact applied

theorem keptByRequests_rangeLaw : KeptByRequests State.rangeLaw :=
  .of_acts
    (quiet := fun h hs =>
      rangeLaw_of_agrees (h.2 .queue (by simp)) (h.2 .fields (by simp)) (h.2 .calibration (by simp)) hs)
    (enqueue := fun {s id v x} source mark hx hs => by
      obtain ⟨hq, hf, hc⟩ := (rangeLaw_iff s).1 hs
      refine (rangeLaw_iff _).2 ⟨fun e he => ?_, hf, hc⟩
      rcases List.mem_append.1 he with he | he
      · exact hq e he
      · obtain rfl := List.mem_singleton.1 he
        exact holds_clampValue hc (judgeSubmission_ok hx).2.1)
    (pass := fun _ hs => rangeLaw_runPass .noInput hs)
    (close := fun {s} hs => by
      obtain ⟨hq, hf, hc⟩ := (rangeLaw_iff s).1 hs
      refine (rangeLaw_iff _).2 ⟨fun e he => ?_, hf, hc⟩
      obtain ⟨d, hd, rfl⟩ := List.mem_map.1 he
      split
      · exact hq d hd
      · exact hq d hd)
    (remove := fun {s} hs => by
      obtain ⟨hq, hf, hc⟩ := (rangeLaw_iff s).1 hs
      exact (rangeLaw_iff _).2 ⟨fun e he => hq e (List.mem_filter.1 he).1, hf, hc⟩)
    (answer := fun _ _ hs => hs)

/-! ## Start-up (R42 to R44, R84) -/

/-- The tests of R42 do not read the default mired (R44). -/
theorem acceptable_withDefaultClamped (c : CalibrationSet) : c.withDefaultClamped.acceptable = c.acceptable := rfl

/-- The set that the calibration load puts in use has passed the tests of R42, or is the fallback set (R43, R44). -/
theorem calibrationLaw_loadCalibration (s : State) : calibrationLaw (loadCalibration s).cu.calibration := by
  obtain ⟨d, c, b, he, -, hlow, hhigh⟩ := loadCalibration_eq s
  have same : (loadCalibration s).cu.calibration = some c := by rw [he]
  intro c' hc'
  obtain rfl : c = c' := Option.some.inj (same.symm.trans hc')
  refine ⟨?_, hlow, hhigh⟩
  unfold loadCalibration loadedCalibration at hc'
  simp only at hc'
  split at hc'
  · next loaded hloaded =>
    split at hloaded
    · split at hloaded
      · next hpass =>
        obtain rfl := Option.some.inj hloaded
        obtain rfl := Option.some.inj hc'
        exact (acceptable_withDefaultClamped _).trans (Bool.and_eq_true_iff.1 hpass).2
      · cases hloaded
    · cases hloaded
  · obtain rfl := Option.some.inj hc'
    decide

/-- The defaults lie in their ranges (R44, R84). -/
theorem inRange_default {c : CalibrationSet} (hlow : c.firstMired ≤ c.defaultMired) (hhigh : c.defaultMired ≤ c.lastMired) :
    (Fields.default (16 * c.defaultMired)).inRange (some c) := by
  intro x
  by_cases hx : x = .mired
  · subst hx
    exact (mired_holds_iff (some c) _).2 ⟨Nat.mul_le_mul_left 16 hlow, Nat.mul_le_mul_left 16 hhigh⟩
  · cases x <;> simp [Field.holds, Field.isBinding, Field.range, Fields.default, Fields.get, Field.namesSlot, Mat3.identity,
      TrackerMode.code, latticeBindingValue] at hx ⊢

theorem rangeLaw_completeStartUp {s : State} (pages : List Nat) (hr : s.resetLine = false) (hn : s.pe.frameState = .starting)
    (hq : s.cu.queue = []) : (completeStartUp pages s).rangeLaw := by
  have acceptable : calibrationLaw (completeStartUp pages s).cu.calibration := by
    rw [completeStartUp_of_starting pages hr hn, (adoptDefaults_parts _).1, (filled_parts _).1]
    exact calibrationLaw_loadCalibration _
  obtain ⟨d, slots, c, fallback, -, hlow, hhigh, he⟩ := completeStartUp_eq pages hr hn
  rw [he] at acceptable ⊢
  refine (rangeLaw_iff _).2 ⟨fun e h => ?_, inRange_default hlow hhigh, acceptable⟩
  change e ∈ s.cu.queue at h
  rw [hq] at h
  cases h

theorem rangeLaw_startFrame {s : State} (hs : s.rangeLaw) (w h : Half) : (startFrame w h s).rangeLaw := by
  obtain ⟨o, r, z, he, -⟩ := startFrame_eq w h s
  rw [he]
  exact rangeLaw_runPass .frameStart
    (s := { s with rr := { s.rr with openRecord := o, ring := r }, zsa := z, pe := s.pe.startFrame w h }) hs

theorem rangeLaw_loseInput {s : State} (hs : s.rangeLaw) : (loseInput s).rangeLaw := by
  obtain ⟨o, r, z, he, -⟩ := truncateIfInFrame_eq s
  unfold loseInput
  simp only [he]
  exact rangeLaw_runPass .noInput hs

theorem rangeLaw_exec_command {c : Instr} (hc : isSelection c = false) {s t : State} (hP : s.startingLaw ∧ s.rangeLaw)
    (h : exec c s = .next t) : t.rangeLaw := by
  obtain ⟨hstart, hs⟩ := hP
  cases he : isEdit c with
  | true => exact keptByRequests_rangeLaw.exec he h hs
  | false =>
  by_cases hq : .queue ∉ Changes c ∧ .fields ∉ Changes c ∧ .calibration ∉ Changes c
  · exact rangeLaw_of_agrees (exec_agrees h hq.1) (exec_agrees h hq.2.1) (exec_agrees h hq.2.2) hs
  cases c <;> simp [Changes, commandParts, isSelection, isEdit] at hq hc he
  case resetAssert acts =>
    obtain rfl := Host.Outcome.next.inj h
    exact rangeLaw_reset
  case startUpCompletion pages =>
    rcases exec_startUp_cases h with rfl | ⟨hline, hn, rfl⟩
    · exact hs
    · obtain ⟨-, -, -, hcu, -⟩ : s.atReset := hstart.2.1 hn
      exact rangeLaw_completeStartUp pages hline hn (by rw [hcu]; rfl)
  case frameStart w h' =>
    rcases exec_frameStart_cases h with rfl | ⟨-, rfl⟩
    · exact hs
    · exact rangeLaw_startFrame hs w h'
  case inputLost ms =>
    obtain rfl := Host.Outcome.next.inj h
    rcases elapseInput_cases ms s with he | ⟨-, he | ⟨k, he⟩⟩ <;> rw [he]
    · exact hs
    · exact rangeLaw_loseInput hs
    · exact hs
  case evaluationCompletion =>
    obtain rfl := Host.Outcome.next.inj h
    rcases evaluationCompletes_cases s with he | ⟨it, he⟩ <;> rw [he]
    · exact hs
    · exact keptByRequests_rangeLaw.takeSubmission hs

theorem rangeLaw_exec {c : Instr} {s t : State} (hstart : s.startingLaw) (hs : s.rangeLaw) (h : exec c s = .next t) :
    t.rangeLaw :=
  exec_keeps (P := fun s => s.startingLaw ∧ s.rangeLaw) (Q := State.rangeLaw) keptByRequests_rangeLaw.port
    (fun hc hP h => rangeLaw_exec_command hc hP h)
    (fun hP h => rangeLaw_of_agrees (exec_agrees h (by simp [Changes, lineParts])) (exec_agrees h (by simp [Changes, lineParts]))
      (exec_agrees h (by simp [Changes, lineParts])) hP.2) And.right ⟨hstart, hs⟩ h

/-! ## Derivation and the frame context (R46, R47, R100) -/

/-- Two sets of fields give derivation the same inputs (R47). -/
def Fields.derivesAs (f g : Fields) : Prop := f.mired = g.mired ∧ f.tint = g.tint ∧ f.exposure = g.exposure ∧ f.trim = g.trim

/-- Derivation reads MIRED, TINT, EXPOSURE and TRIM alone (R47). -/
theorem derive_congr (c : CalibrationSet) {f g : Fields} (h : f.derivesAs g) : derive c f = derive c g := by
  obtain ⟨hm, ht, he, hu⟩ := h
  unfold derive
  rw [hm, ht, he, hu]

theorem derivesAs_set (f : Fields) {x : Field} (v : Int) (hx : x.isDerivation = false) : (f.set x v).derivesAs f := by
  cases x <;> simp [Field.isDerivation] at hx <;> exact ⟨rfl, rfl, rfl, rfl⟩

/-- A pass has marked derivation as due, or has left its inputs as they were, with no tracker's step applied (R47, R80). -/
def Pass.derivesFrom (f : Fields) (w : Pass) : Prop := w.derives = true ∨ (w.fields.derivesAs f ∧ w.trackerMired = false)

theorem derivesFrom_applyEntry (kind : PassKind) {f : Fields} {w : Pass} (h : w.derivesFrom f) (e : Entry) :
    (applyEntry kind w e).derivesFrom f := by
  unfold applyEntry
  split
  · exact h
  cases hd : e.field.isDerivation with
  | true => exact .inl (by simp)
  | false =>
    have notMired : e.field ≠ .mired := fun hm => by rw [hm] at hd; cases hd
    rcases h with h | ⟨hf, ht⟩
    · exact .inl (by simp [h])
    · refine .inr ⟨?_, by simp [ht, Entry.isTrackerMired, notMired]⟩
      have same := derivesAs_set w.fields e.value hd
      unfold applyField
      rw [if_neg (fun h => notMired h.1)]
      exact ⟨same.1.trans hf.1, same.2.1.trans hf.2.1, same.2.2.1.trans hf.2.2.1, same.2.2.2.trans hf.2.2.2⟩

theorem derivesFrom_applyDue (kind : PassKind) (cu : ContextUnit) : (applyDue kind cu).derivesFrom cu.fields := by
  have fold : ∀ (q : List Entry) (w : Pass), w.derivesFrom cu.fields → (q.foldl (applyEntry kind) w).derivesFrom cu.fields := by
    intro q
    induction q with
    | nil => exact fun _ hw => hw
    | cons e rest ih => exact fun w hw => ih _ (derivesFrom_applyEntry kind hw e)
  exact fold _ _ (.inr ⟨⟨rfl, rfl, rfl, rfl⟩, rfl⟩)

/-- Without derivation a pass leaves derivation's inputs, the glide bound included (R47, R80). -/
theorem derivesAs_passFields (kind : PassKind) (cu : ContextUnit) (h : (applyDue kind cu).derives = false) :
    (passFields kind cu.fields.mired (applyDue kind cu)).derivesAs cu.fields := by
  rcases derivesFrom_applyDue kind cu with hd | ⟨hf, ht⟩
  · rw [h] at hd
    cases hd
  · cases kind with
    | noInput => exact hf
    | frameStart =>
      unfold passFields glideBound
      simp only [ht, Bool.false_and]
      exact hf

/-- A pass leaves the derived values of the fields as it leaves them, and the frame context formed from both (R47, R100). -/
theorem derived_runPass (kind : PassKind) {s : State}
    (hs : ∀ c, s.cu.calibration = some c → s.cu.derived = derive c s.cu.fields) :
    (∀ c, s.cu.calibration = some c → (runPass kind s).cu.derived = derive c (runPass kind s).cu.fields) ∧
      (runPass kind s).pe.context = formContext (runPass kind s).cu.fields (runPass kind s).cu.derived := by
  refine ⟨fun c hc => ?_, rfl⟩
  unfold runPass
  simp only
  cases hd : (applyDue kind s.cu).derives with
  | true => simp [hc, rederive]
  | false =>
    rw [derive_congr c (derivesAs_passFields kind s.cu hd)]
    simpa using hs c hc

theorem derivedLaw_of_agrees {s t : State} (hc : s.agrees t .calibration) (hd : s.agrees t .derived) (hf : s.agrees t .fields)
    (hx : s.agrees t .frameContext) (hn : t.pe.frameState ≠ .starting → s.pe.frameState ≠ .starting) (hs : s.derivedLaw) :
    t.derivedLaw := by
  obtain ⟨hcal, -⟩ := hc
  change t.cu.derived = s.cu.derived at hd
  change t.cu.fields = s.cu.fields at hf
  change t.pe.context = s.pe.context at hx
  intro h
  rw [hcal, hd, hf, hx]
  exact hs (hn h)

theorem keptByEdits_derivedLaw : KeptByEdits State.derivedLaw where
  quiet {s t} h hs := by
    have hframe : t.pe.frameState = s.pe.frameState := (h.2 .engine (by simp)).1
    exact derivedLaw_of_agrees (h.2 .calibration (by simp)) (h.2 .derived (by simp)) (h.2 .fields (by simp))
      (h.2 .frameContext (by simp)) (fun hn => hframe ▸ hn) hs
  enqueue _ hs := hs
  pass {s} hn hs := fun _ => derived_runPass .noInput (hs (by simp [hn])).1
  close hs := hs
  remove hs := hs
  answer _ _ hs := hs

theorem derivedLaw_startFrame {s : State} (hn : s.pe.frameState ≠ .starting) (hs : s.derivedLaw) (w h : Half) :
    (startFrame w h s).derivedLaw := by
  obtain ⟨o, r, z, he, -⟩ := startFrame_eq w h s
  rw [he]
  exact fun _ => derived_runPass .frameStart
    (s := { s with rr := { s.rr with openRecord := o, ring := r }, zsa := z, pe := s.pe.startFrame w h }) (hs hn).1

theorem derivedLaw_loseInput {s : State} (hn : s.pe.frameState ≠ .starting) (hs : s.derivedLaw) : (loseInput s).derivedLaw := by
  obtain ⟨o, r, z, he, -⟩ := truncateIfInFrame_eq s
  unfold loseInput
  simp only [he]
  exact fun _ => derived_runPass .noInput (hs hn).1

theorem derivedLaw_exec_command {c : Instr} (hc : isSelection c = false) {s t : State} (hs : s.derivedLaw)
    (h : exec c s = .next t) : t.derivedLaw := by
  cases he : isEdit c with
  | true => exact keptByEdits_derivedLaw.exec he h hs
  | false =>
  by_cases hq : .calibration ∉ Changes c ∧ .derived ∉ Changes c ∧ .fields ∉ Changes c ∧ .frameContext ∉ Changes c ∧
    .engine ∉ Changes c
  · obtain ⟨hcal, hd, hf, hx, hengine⟩ := hq
    have hframe : t.pe.frameState = s.pe.frameState := (exec_agrees h hengine).1
    exact derivedLaw_of_agrees (exec_agrees h hcal) (exec_agrees h hd) (exec_agrees h hf) (exec_agrees h hx)
      (fun hn => hframe ▸ hn) hs
  cases c <;> simp [Changes, commandParts, isSelection, isEdit] at hq hc he
  case resetAssert acts =>
    obtain rfl := Host.Outcome.next.inj h
    exact fun hn => absurd rfl hn
  case startUpCompletion pages =>
    rcases exec_startUp_cases h with rfl | ⟨hline, hn, rfl⟩
    · exact hs
    · obtain ⟨d, slots, cal, fallback, -, -, -, he⟩ := completeStartUp_eq pages hline hn
      rw [he]
      refine fun _ => ⟨fun c hc => ?_, rfl⟩
      obtain rfl := Option.some.inj hc
      rfl
  case frameStart w h' =>
    rcases exec_frameStart_cases h with rfl | ⟨ho, rfl⟩
    · exact hs
    · exact derivedLaw_startFrame ho.2 hs w h'
  case frameEnd =>
    rcases exec_frameEnd_cases h with rfl | ⟨hf, rfl⟩
    · exact hs
    · have same := unchangedBut_endFrame s
      exact derivedLaw_of_agrees (same.2 .calibration (by simp)) (same.2 .derived (by simp)) (same.2 .fields (by simp))
        (same.2 .frameContext (by simp)) (fun _ => by simp [hf]) hs
  case inputLost ms =>
    obtain rfl := Host.Outcome.next.inj h
    rcases elapseInput_cases ms s with he | ⟨hf, he | ⟨k, he⟩⟩ <;> rw [he]
    · exact hs
    · exact derivedLaw_loseInput (by rcases hf with hf | hf <;> simp [hf]) hs
    · exact hs
  case evaluationCompletion =>
    obtain rfl := Host.Outcome.next.inj h
    rcases evaluationCompletes_cases s with he | ⟨it, he⟩ <;> rw [he]
    · exact hs
    · exact keptByEdits_derivedLaw.takeSubmission hs

theorem derivedLaw_exec {c : Instr} {s t : State} (hs : s.derivedLaw) (h : exec c s = .next t) : t.derivedLaw :=
  exec_keeps (P := State.derivedLaw) (Q := State.derivedLaw) keptByEdits_derivedLaw.portOnly
    (fun hc hs h => derivedLaw_exec_command hc hs h)
    (fun {_ s t} hs h => by
      have hframe : t.pe.frameState = s.pe.frameState := (exec_agrees h (part := .engine) (by simp [Changes, lineParts])).1
      exact derivedLaw_of_agrees (exec_agrees h (by simp [Changes, lineParts])) (exec_agrees h (by simp [Changes, lineParts]))
        (exec_agrees h (by simp [Changes, lineParts])) (exec_agrees h (by simp [Changes, lineParts]))
        (fun hn => hframe ▸ hn) hs) id hs h

/-! ## Every step -/

/-- The laws of arbiter, queue, ranges and derivation, with those of STARTING and of Port R's transfers. -/
def State.editLaws (s : State) : Prop :=
  (s.startingLaw ∧ s.transferLaw) ∧ s.arbiterLaw ∧ s.queueLaw ∧ s.rangeLaw ∧ s.derivedLaw

theorem editLaws_exec {c : Instr} {s t : State} (hs : s.editLaws) (h : exec c s = .next t) : t.editLaws := by
  obtain ⟨⟨hstart, htransfer⟩, harbiter, hqueue, hrange, hderived⟩ := hs
  exact ⟨⟨startingLaw_exec hstart htransfer h, transferLaw_exec htransfer h⟩, arbiterLaw_exec harbiter h,
    queueLaw_exec hstart hqueue h, rangeLaw_exec hstart hrange h, derivedLaw_exec hderived h⟩

theorem editLaws_of_lawful {s : State} (h : s.lawful) : s.editLaws := by
  obtain ⟨-, hstart, harbiter, hqueue, hrange, hderived, -, -, -, hrecord, -, -⟩ := h
  exact ⟨⟨hstart, ((recordLaw_iff s).1 hrecord).2⟩, harbiter, hqueue, hrange, hderived⟩

/-- Settles O57: the laws of arbiter, queue, ranges and derivation, each kept by every command, are kept by every step. -/
theorem editLawsKept : Obligations.EditLawsKept := fun _ _ hs h =>
  (step_keeps (P := State.editLaws) (fun _ _ hs => hs) editLaws_exec (editLaws_of_lawful hs) h).2

end Sys2Proof.Machine
end

section
/-! The laws of the slots from step to step: the marks and the content under passes, requests and slot commands (R89, R91, R99,
R123 to R130). -/

namespace Sys2Proof.Machine

/-! ## The marks of a slot -/

/-- What slotLaw says of one slot, with `x` as its record (R89, R99, R125, R134, R135). -/
def State.marks (s : State) (i : Fin 8) (x : Slot) : Prop :=
  x.references = namingCount s.cu.queue i ∧
    (x.bound = true ↔ s.pe.frameState ≠ .starting ∧ s.cu.fields.binds i = true) ∧
    (x.saving = true ↔ s.controller.savingSlot = some i) ∧
    (x.state = .loading ↔ ∃ prior, s.recallEngine.target = some (i, prior)) ∧
    (x.inUse = true → x.state = .ready)

/-- The marks speak of the queue, the fields, the controller and the recall engine, and of the frame state as STARTING or not. -/
theorem marks_congr {s t : State} {i : Fin 8} {x : Slot} (hq : t.cu.queue = s.cu.queue) (hf : t.cu.fields = s.cu.fields)
    (hn : t.pe.frameState = .starting ↔ s.pe.frameState = .starting) (hc : t.controller.savingSlot = s.controller.savingSlot)
    (hr : t.recallEngine.target = s.recallEngine.target) : t.marks i x ↔ s.marks i x := by
  unfold State.marks
  rw [hq, hf, Ne, hn, hc, hr]

theorem slotLaw_of_agrees {s t : State} (hslots : s.agrees t .slots) (hq : s.agrees t .queue) (hf : s.agrees t .fields)
    (hn : t.pe.frameState = .starting ↔ s.pe.frameState = .starting) (hc : s.agrees t .controller)
    (hr : s.agrees t .recallEngine) (hs : s.slotLaw) : t.slotLaw := by
  change t.controller = s.controller at hc
  change t.recallEngine = s.recallEngine at hr
  intro i
  have same : t.slot i = s.slot i := congrArg (Tab.get · i) hslots
  rw [same]
  exact (marks_congr hq hf hn (by rw [hc]) (by rw [hr])).2 (hs i)

/-- A slot that an entry or a binding uses is READY (R125). -/
theorem slotLaw_ready {s : State} (hs : s.slotLaw) {i : Fin 8}
    (h : (s.slot i).bound = true ∨ 0 < (s.slot i).references ∨ (s.slot i).saving = true) : (s.slot i).state = .ready := by
  obtain ⟨-, -, -, -, hready⟩ := hs i
  exact hready ((Slot.inUse_eq_true _).2 h)

/-! ## Entries (R89) -/

theorem namingCount_append (p q : List Entry) (i : Fin 8) : namingCount (p ++ q) i = namingCount p i + namingCount q i :=
  List.countP_append

theorem namingCount_singleton (e : Entry) (i : Fin 8) : namingCount [e] i = if e.boundSlot = some i then 1 else 0 := by
  simp [namingCount, List.countP_cons]

theorem namingCount_pos_of_mem {q : List Entry} {e : Entry} {i : Fin 8} (he : e ∈ q) (hi : e.boundSlot = some i) :
    0 < namingCount q i := List.countP_pos_iff.2 ⟨e, he, by simpa using hi⟩

/-- A binding value stands as sent, so that the entry names the slot that the submission named (R88, R89). -/
theorem boundSlot_clampValue (cal : Option CalibrationSet) (x : Field) (v : Int) :
    x.boundSlot (x.clampValue cal v) = x.boundSlot v := by
  cases x <;> rfl

/-! ## The acts on the queue -/

/-- An accepted entry names a READY slot, whose reference count it raises (R87, R89). -/
theorem slotLaw_enqueue {s : State} {id : Byte} {v : Int} {x : Field} (source : Requester) (mark : GroupMark)
    (hx : judgeSubmission s id v = .ok x) (hs : s.slotLaw) :
    (enqueue s ⟨source, x, x.clampValue s.cu.calibration v, mark⟩).slotLaw := by
  obtain ⟨-, -, hready, -⟩ := judgeSubmission_ok hx
  rw [← boundSlot_clampValue s.cu.calibration x v] at hready
  generalize he : (⟨source, x, x.clampValue s.cu.calibration v, mark⟩ : Entry) = e
  replace hready : ∀ i, e.boundSlot = some i → (s.slot i).state = .ready := by rw [← he]; exact hready
  intro i
  obtain ⟨hreferences, hbound, hsaving, hloading, huse⟩ := hs i
  have counted : namingCount (s.cu.queue ++ [e]) i = namingCount s.cu.queue i + if e.boundSlot = some i then 1 else 0 := by
    rw [namingCount_append, namingCount_singleton]
  have slot : (enqueue s e).slot i =
      if e.boundSlot = some i then { s.slot i with references := (s.slot i).references + 1 } else s.slot i :=
    raiseReference_get s.slots e.boundSlot i
  change (_ = namingCount (s.cu.queue ++ [e]) i) ∧ _
  rw [slot, counted]
  split
  · next hi => exact ⟨congrArg (· + 1) hreferences, hbound, hsaving, hloading, fun _ => hready i hi⟩
  · exact ⟨hreferences, hbound, hsaving, hloading, huse⟩

/-- An entry that is applied binds the slot it names, and leaves the other bindings (R95, R99). -/
theorem binds_set {f : Fields} {x : Field} {v : Int} {i : Fin 8} (h : (f.set x v).binds i = true) :
    f.binds i = true ∨ x.boundSlot v = some i := by
  rw [Fields.binds_iff] at h ⊢
  cases x
  case programmeTone => rcases h with h | h | h <;> simp_all [Fields.set, Field.boundSlot]
  case monitorTone => rcases h with h | h | h <;> simp_all [Fields.set, Field.boundSlot]
  case monitorLattice =>
    rcases h with h | h | ⟨l, hl, hi⟩
    · exact .inl (.inl h)
    · exact .inl (.inr (.inl h))
    · exact .inr (Option.map_eq_some_iff.2 ⟨l, hl, hi⟩)
  all_goals exact .inl h

theorem binds_applyEntry {kind : PassKind} {w : Pass} {e : Entry} {i : Fin 8}
    (h : (applyEntry kind w e).fields.binds i = true) : w.fields.binds i = true ∨ e.boundSlot = some i := by
  unfold applyEntry at h
  split at h
  · exact .inl h
  · change (applyField w.fields e).binds i = true at h
    unfold applyField at h
    split at h
    · exact .inl h
    · exact binds_set h

/-- After a pass a binding field names a slot that it named before, or that a due entry named (R95, R99). -/
theorem binds_runPass {kind : PassKind} {s : State} {i : Fin 8} (h : (runPass kind s).cu.fields.binds i = true) :
    s.cu.fields.binds i = true ∨ 0 < namingCount (dueEntries s.cu.queue) i := by
  have fold : ∀ (q : List Entry) (w : Pass), (q.foldl (applyEntry kind) w).fields.binds i = true →
      w.fields.binds i = true ∨ 0 < namingCount q i := by
    intro q
    induction q with
    | nil => exact fun _ hw => .inl hw
    | cons e rest ih =>
      intro w hw
      have counted : namingCount (e :: rest) i = namingCount rest i + if e.boundSlot = some i then 1 else 0 := by
        simp [namingCount, List.countP_cons]
      rcases ih _ hw with hw | hw
      · rcases binds_applyEntry hw with hw | hw
        · exact .inl hw
        · exact .inr (namingCount_pos_of_mem List.mem_cons_self hw)
      · exact .inr (by omega)
  have bound : (runPass kind s).cu.fields.binds i = (applyDue kind s.cu).fields.binds i := by
    change (passFields kind s.cu.fields.mired (applyDue kind s.cu)).binds i = _
    unfold passFields glideBound
    split
    · simp only
      split
      · split
        · rfl
        · split <;> rfl
      · rfl
    · rfl
  exact fold _ _ (bound ▸ h)

/-- A pass releases the references of the entries that leave, and marks as bound what the fields then name (R91, R99). -/
theorem slotLaw_runPass (kind : PassKind) {s : State} (hn : s.pe.frameState ≠ .starting) (hs : s.slotLaw) :
    (runPass kind s).slotLaw := by
  intro i
  obtain ⟨hreferences, hbound, hsaving, hloading, -⟩ := hs i
  have split : namingCount s.cu.queue i =
      namingCount (dueEntries s.cu.queue) i + namingCount (waitingEntries s.cu.queue) i := by
    rw [← namingCount_append, dueEntries_append_waitingEntries]
  rw [slot_runPass]
  refine ⟨?_, ⟨fun h => ⟨hn, h⟩, fun h => h.2⟩, hsaving, hloading, fun h => ?_⟩
  · change (s.slot i).references - namingCount (dueEntries s.cu.queue) i = namingCount (waitingEntries s.cu.queue) i
    omega
  · refine slotLaw_ready hs ?_
    rcases (Slot.inUse_eq_true _).1 h with h | h | h
    · rcases binds_runPass h with h | h
      · exact .inl (hbound.2 ⟨hn, h⟩)
      · exact .inr (.inl (by omega))
    · exact .inr (.inl (Nat.lt_of_lt_of_le h (Nat.sub_le _ _)))
    · exact .inr (.inr h)

/-- Entries that are removed release their references (R91). -/
theorem slotLaw_removeGroupEntries {s : State} (hs : s.slotLaw) : (removeGroupEntries s).slotLaw := by
  intro i
  obtain ⟨hreferences, hbound, hsaving, hloading, huse⟩ := hs i
  have split : namingCount s.cu.queue i =
      namingCount (s.cu.queue.filter fun e => decide (e.mark = .openGroup)) i +
        namingCount (s.cu.queue.filter fun e => decide (e.mark ≠ .openGroup)) i := by
    simp only [namingCount, List.countP_filter]
    induction s.cu.queue with
    | nil => rfl
    | cons e rest ih =>
      simp only [List.countP_cons, ih]
      by_cases hm : e.mark = .openGroup <;> by_cases hi : e.boundSlot = some i <;> simp [hm, hi] <;> omega
  have slot : (removeGroupEntries s).slot i = { s.slot i with
      references := (s.slot i).references - namingCount (s.cu.queue.filter fun e => decide (e.mark = .openGroup)) i } :=
    releaseReferences_get _ _ i
  rw [slot]
  refine ⟨?_, hbound, hsaving, hloading, fun h => huse ?_⟩
  · change _ = namingCount (s.cu.queue.filter fun e => decide (e.mark ≠ .openGroup)) i
    simp only
    omega
  · rw [Slot.inUse_eq_true] at h ⊢
    rcases h with h | h | h
    · exact .inl h
    · exact .inr (.inl (Nat.lt_of_lt_of_le h (Nat.sub_le _ _)))
    · exact .inr (.inr h)

/-- A group mark names no slot (R89, R90). -/
theorem namingCount_closeGroupEntries (s : State) (i : Fin 8) :
    namingCount (closeGroupEntries s).cu.queue i = namingCount s.cu.queue i := by
  have same : ∀ e : Entry, (if e.mark = .openGroup then { e with mark := .closedGroup } else e).boundSlot = e.boundSlot := by
    intro e
    split <;> rfl
  simp only [closeGroupEntries, namingCount, List.countP_map, Function.comp_def, same]

theorem keptByRequests_slotLaw : KeptByRequests State.slotLaw :=
  .of_acts
    (quiet := fun {s t} h hs => by
      have hframe : t.pe.frameState = s.pe.frameState := (h.2 .engine (by simp)).1
      exact slotLaw_of_agrees (h.2 .slots (by simp)) (h.2 .queue (by simp)) (h.2 .fields (by simp)) (by rw [hframe])
        (h.2 .controller (by simp)) (h.2 .recallEngine (by simp)) hs)
    (enqueue := fun source mark hx hs => slotLaw_enqueue source mark hx hs)
    (pass := fun hn hs => slotLaw_runPass .noInput (by simp [hn]) hs)
    (close := fun {s} hs i => by
      obtain ⟨hreferences, rest⟩ := hs i
      exact ⟨hreferences.trans (namingCount_closeGroupEntries s i).symm, rest⟩)
    (remove := slotLaw_removeGroupEntries)
    (answer := fun _ _ hs => hs)

theorem slotLaw_startFrame {s : State} (hn : s.pe.frameState ≠ .starting) (hs : s.slotLaw) (w h : Half) :
    (startFrame w h s).slotLaw := by
  obtain ⟨o, r, z, he, -⟩ := startFrame_eq w h s
  have begun : State.slotLaw
      { s with rr := { s.rr with openRecord := o, ring := r }, zsa := z, pe := s.pe.startFrame w h } :=
    slotLaw_of_agrees (s := s) rfl rfl rfl (iff_of_false (fun h => nomatch h) hn) rfl rfl hs
  rw [he]
  exact slotLaw_runPass .frameStart (fun h => nomatch h) begun

theorem slotLaw_loseInput {s : State} (hn : s.pe.frameState ≠ .starting) (hs : s.slotLaw) : (loseInput s).slotLaw := by
  obtain ⟨o, r, z, he, -⟩ := truncateIfInFrame_eq s
  have lost : State.slotLaw
      { s with
        rr := { s.rr with openRecord := o, ring := r }, zsa := z
        pe := { s.pe with frameState := .noInput, inputLostTimer := none } } :=
    slotLaw_of_agrees (s := s) rfl rfl rfl (iff_of_false (fun h => nomatch h) hn) rfl rfl hs
  unfold loseInput
  simp only [he]
  exact slotLaw_runPass .noInput (fun h => nomatch h) lost

/-! ## Slot commands (R127 to R130) -/

/-- What a slot command makes of a slot: not LOADING before or after, its marks as they were, not in use if it was READY, and
READY only with every value in its range. -/
def Slot.reworked (i : Fin 8) (x y : Slot) : Prop :=
  (x.state ≠ .loading ∧ y.state ≠ .loading) ∧ (y.bound = x.bound ∧ y.references = x.references ∧ y.saving = x.saving) ∧
    (x.state = .ready → x.inUse = false) ∧ (y.state = .ready → finishedContent i y.content)

/-- A slot command leaves the state, or reworks its slot. -/
def State.reworks (s t : State) (i : Fin 8) : Prop := t = s ∨ ∃ y, (s.slot i).reworked i y ∧ t = s.setSlot i y

theorem State.reworks_setSlot {s : State} {i : Fin 8} {y : Slot} (h : (s.slot i).reworked i y) : s.reworks (s.setSlot i y) i :=
  .inr ⟨y, h, rfl⟩

theorem reworks_openSlot (p : Port) (i : Fin 8) (s : State) : s.reworks (openSlot p i s).2 i := by
  unfold openSlot
  simp only
  split
  · next hx => exact State.reworks_setSlot ⟨⟨by simp [hx], by simp⟩, ⟨rfl, rfl, rfl⟩, by simp [hx], by simp⟩
  · next hx =>
    split
    · exact .inl rfl
    · next hu => exact State.reworks_setSlot ⟨⟨by simp [hx], by simp⟩, ⟨rfl, rfl, rfl⟩, fun _ => by simpa using hu, by simp⟩
  · split <;> exact .inl rfl
  · exact .inl rfl

theorem reworks_writeSlot (p : Port) (page offset : Byte) (data : List Byte) (i : Fin 8) (s : State) :
    s.reworks (writeSlot p page offset data i s).2 i := by
  unfold writeSlot
  simp only
  split
  · next hx =>
    split
    · exact .inl rfl
    split
    · exact .inl rfl
    · exact State.reworks_setSlot ⟨⟨by simp [hx], by simp [hx]⟩, ⟨rfl, rfl, rfl⟩, by simp [hx], by simp [hx]⟩
  · exact .inl rfl

/-- Content clamped lies in its range (R129). -/
theorem finishedContent_clampContent (i : Fin 8) (content : Memory) : finishedContent i (clampContent i content) := by
  intro k hk
  rw [slotValue_clampContent i content k hk]
  exact Nat.min_le_right _ _

theorem reworks_finishSlot (p : Port) (i : Fin 8) (s : State) : s.reworks (finishSlot p i s).2 i := by
  unfold finishSlot
  simp only
  split
  · next hx =>
    split
    · exact .inl rfl
    · exact State.reworks_setSlot
        ⟨⟨by simp [hx], by simp⟩, ⟨rfl, rfl, rfl⟩, by simp [hx], fun _ => finishedContent_clampContent i _⟩
  · exact .inl rfl

theorem reworks_discardSlot (i : Fin 8) (s : State) : s.reworks (discardSlot i s).2 i := by
  unfold discardSlot Slot.emptied
  simp only
  split
  · exact .inl rfl
  · next hx => exact State.reworks_setSlot ⟨⟨by simp [hx], by simp⟩, ⟨rfl, rfl, rfl⟩, by simp [hx], by simp⟩
  · next hx =>
    split
    · exact .inl rfl
    · next hu => exact State.reworks_setSlot ⟨⟨by simp [hx], by simp⟩, ⟨rfl, rfl, rfl⟩, fun _ => by simpa using hu, by simp⟩
  · exact .inl rfl

/-- A slot reworked was not in use: its marks stand (R125). -/
theorem slotLaw_of_reworks {s t : State} {i : Fin 8} (h : s.reworks t i) (hs : s.slotLaw) : t.slotLaw := by
  rcases h with rfl | ⟨y, ⟨⟨hx, hy⟩, ⟨hbound, hreferences, hsaving⟩, hfree, -⟩, rfl⟩
  · exact hs
  intro k
  rw [State.slot_setSlot]
  split
  · next hk =>
    subst hk
    obtain ⟨lawReferences, lawBound, lawSaving, lawLoading, lawUse⟩ := hs i
    refine ⟨hreferences ▸ lawReferences, hbound ▸ lawBound, hsaving ▸ lawSaving,
      ⟨fun h => absurd h hy, fun h => absurd (lawLoading.2 h) hx⟩, fun hu => ?_⟩
    have used : (s.slot i).inUse = true := by
      rw [Slot.inUse_eq_true] at hu ⊢
      rwa [hbound, hreferences, hsaving] at hu
    rw [hfree (lawUse used)] at used
    cases used
  · exact hs k

/-! ## The content of READY slots (R123, R129, R134) -/

theorem contentLaw_of_slots {s t : State} (h : ∀ i, (t.slot i).state = (s.slot i).state ∧ (t.slot i).content = (s.slot i).content)
    (hr : s.agrees t .recallEngine) (hs : s.contentLaw) : t.contentLaw := by
  change t.recallEngine = s.recallEngine at hr
  obtain ⟨hready, htarget⟩ := hs
  refine ⟨fun i hi => ?_, fun i prior hi => ?_⟩
  · rw [(h i).2]
    exact hready i ((h i).1 ▸ hi)
  · rw [(h i).2]
    exact htarget i prior (hr ▸ hi)

theorem contentLaw_of_agrees {s t : State} (hslots : s.agrees t .slots) (hr : s.agrees t .recallEngine) (hs : s.contentLaw) :
    t.contentLaw :=
  contentLaw_of_slots (fun i => by
    have same : t.slot i = s.slot i := congrArg (Tab.get · i) hslots
    rw [same]
    exact ⟨rfl, rfl⟩) hr hs

theorem contentLaw_runPass (kind : PassKind) {s : State} (hs : s.contentLaw) : (runPass kind s).contentLaw :=
  contentLaw_of_slots (s := s) (fun i => by rw [slot_runPass]; exact ⟨rfl, rfl⟩) rfl hs

theorem keptByEdits_contentLaw : KeptByEdits State.contentLaw where
  quiet h hs := contentLaw_of_agrees (h.2 .slots (by simp)) (h.2 .recallEngine (by simp)) hs
  enqueue {s} e hs := contentLaw_of_slots (s := s) (fun i => by
    change ((raiseReference s.slots e.boundSlot).get i).state = _ ∧ ((raiseReference s.slots e.boundSlot).get i).content = _
    rw [raiseReference_get]
    split <;> exact ⟨rfl, rfl⟩) rfl hs
  pass _ hs := contentLaw_runPass .noInput hs
  close hs := hs
  remove {s} hs := contentLaw_of_slots (s := s) (fun i => by
    change ((releaseReferences s.slots _).get i).state = _ ∧ ((releaseReferences s.slots _).get i).content = _
    rw [releaseReferences_get]
    exact ⟨rfl, rfl⟩) rfl hs
  answer _ _ hs := hs

/-- A recall in flight is of a LOADING slot, which no slot command reworks (R127 to R130, R134). -/
theorem contentLaw_of_reworks {s t : State} {i : Fin 8} (h : s.reworks t i) (hslots : s.slotLaw) (hs : s.contentLaw) :
    t.contentLaw := by
  rcases h with rfl | ⟨y, ⟨⟨hx, -⟩, -, -, hy⟩, rfl⟩
  · exact hs
  obtain ⟨hready, htarget⟩ := hs
  refine ⟨fun k hk => ?_, fun k prior hk => ?_⟩
  · rw [State.slot_setSlot] at hk ⊢
    split
    · next hik =>
      subst hik
      rw [if_pos rfl] at hk
      exact hy hk
    · next hik =>
      rw [if_neg hik] at hk
      exact hready k hk
  · have loading : (s.slot k).state = .loading := (hslots k).2.2.2.1.2 ⟨prior, hk⟩
    rw [State.slot_setSlot, if_neg (fun hik : i = k => hx (hik ▸ loading))]
    exact htarget k prior hk

theorem contentLaw_startFrame {s : State} (hs : s.contentLaw) (w h : Half) : (startFrame w h s).contentLaw := by
  obtain ⟨o, r, z, he, -⟩ := startFrame_eq w h s
  rw [he]
  exact contentLaw_runPass .frameStart
    (s := { s with rr := { s.rr with openRecord := o, ring := r }, zsa := z, pe := s.pe.startFrame w h }) hs

theorem contentLaw_loseInput {s : State} (hs : s.contentLaw) : (loseInput s).contentLaw := by
  obtain ⟨o, r, z, he, -⟩ := truncateIfInFrame_eq s
  unfold loseInput
  simp only [he]
  exact contentLaw_runPass .noInput hs

end Sys2Proof.Machine
end

section
/-! The law of the store from step to step: the directory, the controller and the recall engine (R140 to R150). -/

namespace Sys2Proof.Machine

/-! ## The law of the store, part by part -/

/-- The entry that the directory shows of a sector while the controller works on it (R140, R142). -/
def ControllerState.entry : ControllerState → Option SectorEntry
  | .idle => none
  | .programming _ => some .programming
  | .erasing => some .erasing
  | .eraseSuspended _ => some .eraseSuspended

/-- An entry, where it is one of a sector that the controller works on (R140). -/
def SectorEntry.busy : SectorEntry → Option SectorEntry
  | .programming => some .programming
  | .erasing => some .erasing
  | .eraseSuspended => some .eraseSuspended
  | _ => none

/-- What the controller's work makes the directory show of a sector. -/
def Controller.shows (c : Controller) (n : Fin 64) : Option SectorEntry := if c.sector = some n then c.state.entry else none

/-- The directory and the controller agree (R140, R142). -/
def State.directoryLaw (s : State) : Prop := ∀ n, (s.sectorEntry n).busy = s.controller.shows n

/-- A controller at work has a sector, and a save a name of 16 bytes (R142, R146). -/
def Controller.wellHeld (c : Controller) : Prop :=
  (c.state ≠ .idle → c.sector.isSome = true) ∧ ∀ j, c.state = .programming j → j.name.length = 16

/-- A recall in flight has a slot and a sector (R142). -/
def RecallEngine.wellHeld (r : RecallEngine) : Prop := r.state ≠ .idle → r.slot.isSome = true ∧ r.sector.isSome = true

/-- A recall in flight shares no bank with a running operation, and a bank with a suspended one (R143, R145, R146). -/
def State.bankLaw (s : State) : Prop :=
  ∀ n, s.controller.sector = some n →
    ((∃ j, s.controller.state = .programming j) ∨ s.controller.state = .erasing → readsBank s n = false) ∧
      ((∃ b, s.controller.state = .eraseSuspended b) → readsBank s n = true)

theorem directoryLaw_iff (s : State) : s.directoryLaw ↔
    (∀ n, s.sectorEntry n = .programming ↔ (∃ j, s.controller.state = .programming j) ∧ s.controller.sector = some n) ∧
      (∀ n, s.sectorEntry n = .erasing ↔ s.controller.state = .erasing ∧ s.controller.sector = some n) ∧
      (∀ n, s.sectorEntry n = .eraseSuspended ↔
        (∃ b, s.controller.state = .eraseSuspended b) ∧ s.controller.sector = some n) := by
  rw [← forall_and, ← forall_and]
  refine forall_congr' fun n => ?_
  unfold Controller.shows
  by_cases hn : s.controller.sector = some n
  · cases s.sectorEntry n <;> cases s.controller.state <;> simp [hn, SectorEntry.busy, ControllerState.entry]
  · cases s.sectorEntry n <;> simp [hn, SectorEntry.busy]

theorem storeLaw_iff (s : State) :
    s.storeLaw ↔ s.directoryLaw ∧ s.controller.wellHeld ∧ s.recallEngine.wellHeld ∧ s.bankLaw := by
  rw [directoryLaw_iff]
  unfold State.storeLaw Controller.wellHeld RecallEngine.wellHeld State.bankLaw
  simp only [and_assoc]

theorem storeLaw_of_agrees {s t : State} (hd : s.agrees t .directory) (hc : s.agrees t .controller)
    (hr : s.agrees t .recallEngine) (hs : s.storeLaw) : t.storeLaw := by
  change t.directory = s.directory at hd
  change t.controller = s.controller at hc
  change t.recallEngine = s.recallEngine at hr
  unfold State.storeLaw readsBank State.sectorEntry
  rw [hd, hc, hr]
  exact hs

/-- The directory shows the controller's work of its own sector alone. -/
theorem shows_eq_none {c : Controller} {m n : Fin 64} (hm : c.state = .idle ∨ c.sector = some m) (h : m ≠ n) :
    c.shows n = none := by
  unfold Controller.shows
  rcases hm with hm | hm
  · simp [hm, ControllerState.entry]
  · simp [hm, h]

/-- No sector but the controller's own is busy. -/
theorem State.directoryLaw.others {s : State} {m : Fin 64} (hs : s.directoryLaw)
    (hm : s.controller.state = .idle ∨ s.controller.sector = some m) : ∀ n, m ≠ n → (s.sectorEntry n).busy = none :=
  fun n h => (hs n).trans (shows_eq_none hm h)

/-- One entry and the controller's state change together: at the beginning, the suspension, the resumption and the end of an
operation (R140, R142, R145). -/
theorem directoryLaw_set {s t : State} {m : Fin 64} {e : SectorEntry} (hother : ∀ n, m ≠ n → (s.sectorEntry n).busy = none)
    (ht : ∀ n, t.sectorEntry n = if m = n then e else s.sectorEntry n) (hsector : t.controller.sector = some m)
    (hstate : t.controller.state.entry = e.busy) : t.directoryLaw := by
  intro n
  rw [ht n]
  split
  · next h =>
    unfold Controller.shows
    rw [hsector, if_pos (congrArg some h), hstate]
  · next h => exact (hother n h).trans (shows_eq_none (.inr hsector) h).symm

theorem readsBank_of_idle {s : State} (h : s.recallEngine.state = .idle) (n : Fin 64) : readsBank s n = false := by
  simp [readsBank, h]

theorem readsBank_of_recalling {s : State} {prior : SlotState} {m : Fin 64} (h : s.recallEngine.state = .recalling prior)
    (hm : s.recallEngine.sector = some m) (n : Fin 64) : readsBank s n = decide (bankOf m = bankOf n) := by
  simp [readsBank, h, hm]

/-- A controller that is IDLE: the law asks for the directory and the recall engine. -/
theorem storeLaw_of_idle {s : State} (hc : s.controller.state = .idle) (hd : s.directoryLaw)
    (hr : s.recallEngine.wellHeld) : s.storeLaw :=
  (storeLaw_iff s).2 ⟨hd, ⟨fun h => absurd hc h, fun j h => by rw [hc] at h; cases h⟩, hr, fun n _ =>
    ⟨fun h => by simp [hc] at h, fun h => by simp [hc] at h⟩⟩

/-- The end of an operation: its sector no longer busy, the controller IDLE (R147, R149, R150). -/
theorem storeLaw_of_ended {s t : State} {m : Fin 64} {e : SectorEntry} (hs : s.storeLaw) (hm : s.controller.sector = some m)
    (ht : ∀ n, t.sectorEntry n = if m = n then e else s.sectorEntry n) (he : e.busy = none)
    (hstate : t.controller.state = .idle) (hsector : t.controller.sector = s.controller.sector)
    (hr : t.recallEngine = s.recallEngine) : t.storeLaw := by
  obtain ⟨hd, -, hrecall, -⟩ := (storeLaw_iff s).1 hs
  refine storeLaw_of_idle hstate ?_ (hr ▸ hrecall)
  exact directoryLaw_set (hd.others (.inr hm)) ht (hsector.trans hm) (by rw [hstate, he]; rfl)

/-- The beginning of an operation on a controller that was IDLE (R146, R148). -/
theorem storeLaw_of_begun {s t : State} {m : Fin 64} {e : SectorEntry} (hs : s.storeLaw) (hidle : s.controller.state = .idle)
    (ht : ∀ n, t.sectorEntry n = if m = n then e else s.sectorEntry n) (hsector : t.controller.sector = some m)
    (hstate : t.controller.state.entry = e.busy) (hname : ∀ j, t.controller.state = .programming j → j.name.length = 16)
    (hr : t.recallEngine = s.recallEngine) (hbank : t.bankLaw) : t.storeLaw := by
  obtain ⟨hd, -, hrecall, -⟩ := (storeLaw_iff s).1 hs
  exact (storeLaw_iff t).2 ⟨directoryLaw_set (hd.others (.inl hidle)) ht hsector hstate,
    ⟨fun _ => by rw [hsector]; rfl, hname⟩, hr ▸ hrecall, hbank⟩

/-! ## Judgements passed (R143, R146, R148) -/

/-- Of a table of tests every one passes, or one is the first that fails. -/
theorem allPass_or_firstFailing (tests : List (Prop × Result)) : allPass tests ∨ ∃ r, firstFailing tests r := by
  induction tests with
  | nil => exact .inl trivial
  | cons test rest ih =>
    obtain ⟨test, result⟩ := test
    by_cases h : test
    · rcases ih with hp | ⟨r, hr⟩
      · exact .inl ⟨h, hp⟩
      · exact .inr ⟨r, .inr ⟨h, hr⟩⟩
    · exact .inr ⟨result, .inl ⟨h, rfl⟩⟩

/-- A recall accepted: no recall in flight, the slot neither OPEN nor in use, and its sector's bank not programmed (R143). -/
theorem judgeRecall_ok {number id : Byte} {s : State} {i : Fin 8} {n : Fin 64} (h : judgeRecall number id s = .ok (i, n)) :
    s.recallEngine.state = .idle ∧ (∀ q, (s.slot i).state ≠ .opened q) ∧ (s.slot i).inUse = false ∧
      programsBank s n = false := by
  obtain ⟨fails, passes⟩ := judgeRecall_spec number id s
  rcases allPass_or_firstFailing (s.recallTests number id) with hp | ⟨r, hr⟩
  · rw [passes hp] at h
    obtain ⟨rfl, rfl⟩ := Prod.mk.inj (Except.ok.inj h)
    obtain ⟨-, -, -, -, hidle, hopen, hfree, hbank, -⟩ := hp
    refine ⟨hidle, hopen, (Slot.inUse_eq_false _).2 hfree, ?_⟩
    cases hb : programsBank s (Fin.ofNat 64 number.toNat) with
    | false => rfl
    | true => exact absurd ((programsBank_iff s _).1 hb) hbank
  · rw [fails r hr] at h
    cases h

/-- A save accepted: the controller IDLE, no recall in the sector's bank, and the slot READY (R146). -/
theorem judgeSave_ok {p : Port} {calibration : Bool} {number id : Byte} {s : State} {i : Fin 8} {n : Fin 64}
    (h : judgeSave (s.port p).writeEnable calibration id number s = .ok (i, n)) :
    s.controller.state = .idle ∧ readsBank s n = false ∧ (s.slot i).state = .ready := by
  obtain ⟨fails, passes⟩ := judgeSave_spec p calibration number id s
  rcases allPass_or_firstFailing (s.saveTests p id number calibration) with hp | ⟨r, hr⟩
  · rw [passes hp] at h
    obtain ⟨rfl, rfl⟩ := Prod.mk.inj (Except.ok.inj h)
    obtain ⟨-, -, -, -, -, -, hidle, hbank, -, hready, -⟩ := hp
    refine ⟨hidle, ?_, hready⟩
    cases hb : readsBank s (Fin.ofNat 64 number.toNat) with
    | false => rfl
    | true => exact absurd ((readsBank_iff s _).1 hb) hbank
  · rw [fails r hr] at h
    cases h

/-- An erase accepted: the controller IDLE (R148). -/
theorem judgeErase_ok {p : Port} {number complement : Byte} {s : State} {n : Fin 64}
    (h : judgeErase (s.port p).writeEnable number complement s = .ok n) : s.controller.state = .idle := by
  obtain ⟨fails, passes⟩ := judgeErase_spec p number complement s
  rcases allPass_or_firstFailing (s.eraseTests p number complement) with hp | ⟨r, hr⟩
  · obtain ⟨-, -, -, -, hidle, -⟩ := hp
    exact hidle
  · rw [fails r hr] at h
    cases h

/-! ## Suspension and resumption of an erase (R145) -/

theorem suspendErase_cases (n : Fin 64) (s : State) :
    (∃ m, s.controller.state = .erasing ∧ s.controller.sector = some m ∧ bankOf m = bankOf n ∧
      suspendErase n s =
        { s.setSectorEntry m .eraseSuspended with controller := { s.controller with state := .eraseSuspended true } }) ∨
    (suspendErase n s = s ∧
      ∀ m, s.controller.state = .erasing → s.controller.sector = some m → bankOf m ≠ bankOf n) := by
  unfold suspendErase
  split
  · next m hstate hsector =>
    split
    · next hb => exact .inl ⟨m, hstate, hsector, hb, rfl⟩
    · next hb =>
      refine .inr ⟨rfl, fun k _ hk => ?_⟩
      obtain rfl := Option.some.inj (hsector.symm.trans hk)
      exact hb
  · next hno => exact .inr ⟨rfl, fun m hstate hsector => (hno m hstate hsector).elim⟩

theorem resumeErase_cases (n : Fin 64) (s : State) :
    (∃ b m, s.controller.state = .eraseSuspended b ∧ s.controller.sector = some m ∧ bankOf m = bankOf n ∧
      resumeErase n s = { s.setSectorEntry m .erasing with controller := { s.controller with state := .erasing } }) ∨
    (resumeErase n s = s ∧
      ∀ b m, s.controller.state = .eraseSuspended b → s.controller.sector = some m → bankOf m ≠ bankOf n) := by
  unfold resumeErase
  split
  · next b m hstate hsector =>
    split
    · next hb => exact .inl ⟨b, m, hstate, hsector, hb, rfl⟩
    · next hb =>
      refine .inr ⟨rfl, fun _ k _ hk => ?_⟩
      obtain rfl := Option.some.inj (hsector.symm.trans hk)
      exact hb
  · next hno => exact .inr ⟨rfl, fun b m hstate hsector => (hno b m hstate hsector).elim⟩

/-- Neither touches a save in progress (R135, R145). -/
theorem savingSlot_suspendErase (n : Fin 64) (s : State) :
    (suspendErase n s).controller.savingSlot = s.controller.savingSlot := by
  rcases suspendErase_cases n s with ⟨m, hstate, -, -, he⟩ | ⟨he, -⟩ <;> rw [he]
  simp [Controller.savingSlot, hstate]

theorem savingSlot_resumeErase (n : Fin 64) (s : State) :
    (resumeErase n s).controller.savingSlot = s.controller.savingSlot := by
  rcases resumeErase_cases n s with ⟨b, m, hstate, -, -, he⟩ | ⟨he, -⟩ <;> rw [he]
  simp [Controller.savingSlot, hstate]

@[simp] theorem resumeErase_recallEngine (n : Fin 64) (s : State) : (resumeErase n s).recallEngine = s.recallEngine :=
  (unchangedBut_resumeErase s n).2 .recallEngine (by simp)

/-! ## Recall (R143 to R145) -/

/-- A recall refused, or taken: its slot LOADING, an erase in its bank suspended, the engine reading. -/
theorem recallRequest_cases (number id : Byte) (s : State) :
    (recallRequest number id s).2 = s ∨ ∃ i n, judgeRecall number id s = .ok (i, n) ∧
      (recallRequest number id s).2 =
        { suspendErase n (s.setSlot i { s.slot i with state := .loading }) with
          recallEngine := { s.recallEngine with state := .recalling (s.slot i).state, slot := some i, sector := some n } } := by
  unfold recallRequest
  split
  · exact .inl rfl
  · next i n h => exact .inr ⟨i, n, h, rfl⟩

/-- A recall in a bank where no save programs; an erase there is suspended (R143, R145). -/
theorem storeLaw_recallRequest (number id : Byte) {s : State} (hd : s.directory.isSome = true) (hs : s.storeLaw) :
    (recallRequest number id s).2.storeLaw := by
  rcases recallRequest_cases number id s with he | ⟨i, n, hj, he⟩ <;> rw [he]
  · exact hs
  obtain ⟨hidle, -, -, hprogram⟩ := judgeRecall_ok hj
  obtain ⟨directory, ⟨hsector, hname⟩, -, hbank⟩ := (storeLaw_iff s).1 hs
  refine (storeLaw_iff _).2 ?_
  rcases suspendErase_cases n (s.setSlot i { s.slot i with state := .loading }) with
    ⟨m, hstate, hm, hb, hsuspend⟩ | ⟨hsuspend, hother⟩ <;> rw [hsuspend]
  · refine ⟨?_, ⟨fun _ => ?_, fun j h => nomatch h⟩, fun _ => ⟨rfl, rfl⟩, fun k hk => ⟨fun h => ?_, fun _ => ?_⟩⟩
    · exact directoryLaw_set (s := s) (directory.others (.inr hm)) (fun k => sectorEntry_of_directory m k .eraseSuspended hd rfl) hm rfl
    · exact hsector (by rw [show s.controller.state = .erasing from hstate]; simp)
    · rcases h with ⟨_, h⟩ | h <;> cases h
    · obtain rfl : m = k := Option.some.inj ((show s.controller.sector = some m from hm).symm.trans hk)
      exact (readsBank_of_recalling rfl rfl m).trans (by simp [hb])
  · refine ⟨directory, ⟨hsector, hname⟩, fun _ => ⟨rfl, rfl⟩, fun k hk => ⟨fun h => ?_, fun h => ?_⟩⟩
    · refine (readsBank_of_recalling rfl rfl k).trans (decide_eq_false fun hb => ?_)
      rcases h with ⟨j, hj⟩ | h
      · have := (programsBank_iff s n).2 ⟨j, k, hj, hk, hb.symm⟩
        rw [hprogram] at this
        cases this
      · exact hother k h hk hb.symm
    · have := (hbank k hk).2 h
      rw [readsBank_of_idle hidle] at this
      cases this

/-- The end of a recall: its sector may be found TORN, and a suspended erase, which is in its bank, resumes (R144, R145). -/
theorem storeLaw_resumeErase {s e : State} {prior : SlotState} {n : Fin 64} (hs : s.storeLaw) (hd : e.directory.isSome = true)
    (hstate : s.recallEngine.state = .recalling prior) (hn : s.recallEngine.sector = some n)
    (hc : e.controller = s.controller) (hidle : e.recallEngine.state = .idle)
    (hentry : ∀ m, e.sectorEntry m = s.sectorEntry m ∨ (m = n ∧ e.sectorEntry m = .torn)) : (resumeErase n e).storeLaw := by
  obtain ⟨directory, ⟨hsector, hname⟩, -, hbank⟩ := (storeLaw_iff s).1 hs
  have reads := readsBank_of_recalling hstate hn
  have engine : (resumeErase n e).recallEngine.wellHeld := fun h => absurd (by simpa using hidle) h
  have noBank : ∀ k, readsBank (resumeErase n e) k = false := readsBank_of_idle (by simpa using hidle)
  have torn : ∀ m, (s.controller.shows m = none → (e.sectorEntry m).busy = none) := fun m h => by
    rcases hentry m with he | ⟨-, he⟩ <;> rw [he]
    · rw [directory m, h]
    · rfl
  refine (storeLaw_iff _).2 ?_
  rcases resumeErase_cases n e with ⟨b, m, hsuspended, hm, hb, he⟩ | ⟨he, hother⟩
  · rw [hc] at hsuspended hm
    rw [he] at noBank engine ⊢
    refine ⟨?_, ⟨fun _ => ?_, fun j h => nomatch h⟩, engine, fun k _ => ⟨fun _ => noBank k, fun ⟨b, h⟩ => nomatch h⟩⟩
    · exact directoryLaw_set (s := e) (fun k hk => torn k (shows_eq_none (.inr hm) hk))
        (fun k => sectorEntry_of_directory m k .erasing hd rfl) (hc ▸ hm) rfl
    · rw [show e.controller.sector = some m from hc ▸ hm]
      rfl
  · have running : ∀ b, s.controller.state ≠ .eraseSuspended b := fun b h => by
      obtain ⟨m, hm⟩ := Option.isSome_iff_exists.1 (hsector (by simp [h]))
      have same := (hbank m hm).2 ⟨b, h⟩
      rw [reads m, decide_eq_true_eq] at same
      exact hother b m (hc ▸ h) (hc ▸ hm) same.symm
    have unused : s.controller.shows n = none := by
      unfold Controller.shows
      split
      · next hk =>
        have apart := (hbank n hk).1
        rw [reads n, decide_eq_true rfl] at apart
        cases hstate' : s.controller.state with
        | idle => rfl
        | programming j => exact absurd (apart (.inl ⟨j, hstate'⟩)) (by simp)
        | erasing => exact absurd (apart (.inr hstate')) (by simp)
        | eraseSuspended b => exact absurd hstate' (running b)
      · rfl
    rw [he] at noBank engine ⊢
    refine ⟨fun k => ?_, hc ▸ ⟨hsector, hname⟩, engine, fun k _ => ⟨fun _ => noBank k, fun ⟨b, h⟩ => ?_⟩⟩
    · rw [hc]
      rcases hentry k with h | ⟨rfl, h⟩ <;> rw [h]
      · exact directory k
      · exact unused.symm
    · exact absurd (hc ▸ h) (running b)

end Sys2Proof.Machine
end

section
/-! Recall, save, erase and the cut, under the laws of the slots, their content and the store (R123 to R150). -/

namespace Sys2Proof.Machine

/-! ## The three laws together -/

/-- The laws of the slots, of their content and of the store. -/
def State.storageLaws (s : State) : Prop := s.slotLaw ∧ s.contentLaw ∧ s.storeLaw

/-- The parts of the state that the laws of slots, content and store speak of, the engine apart. -/
abbrev storageParts : List Part := [.slots, .queue, .fields, .controller, .recallEngine, .directory]

theorem storageLaws_of_agrees {s t : State} (h : ∀ part ∈ storageParts, s.agrees t part)
    (hn : t.pe.frameState = .starting ↔ s.pe.frameState = .starting) (hs : s.storageLaws) : t.storageLaws := by
  obtain ⟨hslot, hcontent, hstore⟩ := hs
  exact ⟨slotLaw_of_agrees (h _ (by simp)) (h _ (by simp)) (h _ (by simp)) hn (h _ (by simp)) (h _ (by simp)) hslot,
    contentLaw_of_agrees (h _ (by simp)) (h _ (by simp)) hcontent,
    storeLaw_of_agrees (h _ (by simp)) (h _ (by simp)) (h _ (by simp)) hstore⟩

/-- Outside STARTING the directory stands (R141); the controller and the recall engine work there alone. -/
theorem directory_isSome_of_busy {s : State} (hs : s.startingLaw)
    (h : s.controller.state ≠ .idle ∨ s.recallEngine.state ≠ .idle) : s.directory.isSome = true := by
  obtain ⟨-, hreset, hset⟩ := hs
  by_cases hn : s.pe.frameState = .starting
  · obtain ⟨-, -, -, -, -, -, hcontroller, hrecall, -⟩ := hreset hn
    rw [hcontroller, hrecall] at h
    simp [Controller.reset, RecallEngine.reset] at h
  · exact (hset hn).2

/-! ## One slot's state or saving mark changes -/

/-- Two states with the same entries, fields and frame state, so that the same slots are referenced and bound. -/
def State.sameUsers (s t : State) : Prop :=
  t.cu.queue = s.cu.queue ∧ t.cu.fields = s.cu.fields ∧ t.pe.frameState = s.pe.frameState

theorem State.unchangedBut.sameUsers {s t : State} {parts : List Part} (h : s.unchangedBut t parts)
    (hq : .queue ∉ parts := by simp) (hf : .fields ∉ parts := by simp) (he : .engine ∉ parts := by simp) : s.sameUsers t :=
  ⟨h.2 _ hq, h.2 _ hf, (h.2 _ he).1⟩

/-- A slot that is not in use changes its state; the recall engine's target is the slot that is LOADING (R125, R134). -/
theorem slotLaw_of_state {s t : State} {i : Fin 8} {y : Slot} (hs : s.slotLaw) (hfree : (s.slot i).inUse = false)
    (hsame : s.sameUsers t) (hsaving : t.controller.savingSlot = s.controller.savingSlot)
    (hslot : ∀ k, t.slot k = if i = k then y else s.slot k)
    (hy : y.bound = (s.slot i).bound ∧ y.references = (s.slot i).references ∧ y.saving = (s.slot i).saving)
    (hstate : ∀ k, (t.slot k).state = .loading ↔ ∃ prior, t.recallEngine.target = some (k, prior)) : t.slotLaw := by
  obtain ⟨bound, references, saving⟩ := hy
  obtain ⟨hq, hf, he⟩ := hsame
  intro k
  obtain ⟨lawReferences, lawBound, lawSaving, -, lawUse⟩ := hs k
  have loading := hstate k
  rw [hq, hf, he, hsaving]
  rw [hslot k] at loading ⊢
  split
  · next hk =>
    subst hk
    rw [if_pos rfl] at loading
    have unused : y.inUse = false := by
      rw [Slot.inUse_eq_false] at hfree ⊢
      rwa [bound, references, saving]
    exact ⟨references ▸ lawReferences, bound ▸ lawBound, saving ▸ lawSaving, loading, fun h => by simp [unused] at h⟩
  · next hk =>
    rw [if_neg hk] at loading
    exact ⟨lawReferences, lawBound, lawSaving, loading, lawUse⟩

/-- A save begins or ends: the slot that it reads is marked, and READY (R135). -/
theorem slotLaw_of_saving {s t : State} (hs : s.slotLaw) (hsame : s.sameUsers t) (hr : t.recallEngine = s.recallEngine)
    (hslot : ∀ k, t.slot k = { s.slot k with saving := decide (t.controller.savingSlot = some k) })
    (hready : ∀ k, t.controller.savingSlot = some k → (s.slot k).state = .ready) : t.slotLaw := by
  obtain ⟨hq, hf, he⟩ := hsame
  intro k
  obtain ⟨lawReferences, lawBound, -, lawLoading, lawUse⟩ := hs k
  rw [hq, hf, he, hr, hslot k]
  refine ⟨lawReferences, lawBound, decide_eq_true_iff, lawLoading, fun h => ?_⟩
  rcases (Slot.inUse_eq_true _).1 h with h | h | h
  · exact slotLaw_ready hs (.inl h)
  · exact slotLaw_ready hs (.inr (.inl h))
  · exact hready k (of_decide_eq_true h)

/-- A slot's saving mark, as the law has it. -/
theorem slotLaw_saving {s : State} (hs : s.slotLaw) (k : Fin 8) :
    (s.slot k).saving = decide (s.controller.savingSlot = some k) := by
  obtain ⟨-, -, hsaving, -, -⟩ := hs k
  exact Bool.eq_iff_iff.2 (hsaving.trans decide_eq_true_iff.symm)

/-- Without a recall in flight no slot is LOADING (R134). -/
theorem slotLaw_not_loading {s : State} (hs : s.slotLaw) (h : s.recallEngine.target = none) (i : Fin 8) :
    (s.slot i).state ≠ .loading := by
  obtain ⟨-, -, -, hloading, -⟩ := hs i
  intro hl
  obtain ⟨prior, hp⟩ := hloading.1 hl
  rw [h] at hp
  cases hp

theorem target_of_idle {r : RecallEngine} (h : r.state = .idle) : r.target = none := by simp [RecallEngine.target, h]

/-! ## Recall (R134, R143 to R145) -/

/-- A recall accepted leaves its slot LOADING and every other slot. -/
theorem slot_recallStarted (s : State) (i : Fin 8) (n : Fin 64) (x : Slot) (k : Fin 8) :
    (suspendErase n (s.setSlot i x)).slot k = if i = k then x else s.slot k :=
  (congrArg (Tab.get · k) ((unchangedBut_suspendErase _ n).2 .slots (by simp))).trans (State.slot_setSlot s i k x)

theorem slotLaw_recallRequest (number id : Byte) {s : State} (hs : s.slotLaw) : (recallRequest number id s).2.slotLaw := by
  have same := (unchangedBut_recallRequest number id s).sameUsers
  rcases recallRequest_cases number id s with he | ⟨i, n, hj, he⟩ <;> rw [he] at same ⊢
  · exact hs
  obtain ⟨hidle, -, hfree, -⟩ := judgeRecall_ok hj
  have slot := slot_recallStarted s i n { s.slot i with state := .loading }
  refine slotLaw_of_state hs hfree same (savingSlot_suspendErase _ _) slot ⟨rfl, rfl, rfl⟩ fun k => ?_
  change (State.slot _ k).state = _ ↔ ∃ prior, some (i, (s.slot i).state) = some (k, prior)
  refine (iff_of_eq (congrArg (fun x : Slot => x.state = .loading) (slot k))).trans ?_
  by_cases hk : i = k
  · simp [hk]
  · simpa [hk] using slotLaw_not_loading hs (target_of_idle hidle) k

/-- The state that an accepted recall keeps for its slot is EMPTY or READY (R134, R143). -/
theorem contentLaw_recallRequest (number id : Byte) {s : State} (hslots : s.slotLaw) (hs : s.contentLaw) :
    (recallRequest number id s).2.contentLaw := by
  rcases recallRequest_cases number id s with he | ⟨i, n, hj, he⟩ <;> rw [he]
  · exact hs
  obtain ⟨hidle, hopen, -, -⟩ := judgeRecall_ok hj
  have slot := slot_recallStarted s i n { s.slot i with state := .loading }
  have unloaded := slotLaw_not_loading hslots (target_of_idle hidle) i
  refine ⟨fun k => ?_, fun k prior hk => ?_⟩
  · change (State.slot (suspendErase _ _) k).state = _ → finishedContent k (State.slot (suspendErase _ _) k).content
    rw [slot k]
    split
    · exact fun h => nomatch h
    · exact hs.1 k
  · obtain ⟨rfl, rfl⟩ := Prod.mk.inj (Option.some.inj (show some (i, (s.slot i).state) = some (k, prior) from hk))
    change _ ∨ _ ∧ finishedContent i (State.slot (suspendErase _ _) i).content
    rw [slot i, if_pos rfl]
    cases hx : (s.slot i).state with
    | empty => exact .inl rfl
    | loading => exact absurd hx unloaded
    | opened q => exact absurd hx (hopen q)
    | ready => exact .inr ⟨rfl, hs.1 i hx⟩

/-- RECALL_COMPLETION with no recall in flight, or with one (R144; assumption logs 7, 10). -/
theorem recallCompletes_cases (pages : List Nat) (s : State) :
    recallCompletes pages s = { s with store := s.store.decay pages } ∨
      ∃ prior i n, s.recallEngine.state = .recalling prior ∧ s.recallEngine.slot = some i ∧ s.recallEngine.sector = some n ∧
        recallCompletes pages s = endRecall prior i n { s with store := s.store.decay pages } := by
  unfold recallCompletes
  simp only
  split
  · next prior i n hstate hslot hsector => exact .inr ⟨prior, i, n, hstate, hslot, hsector, rfl⟩
  · exact .inl rfl

/-- Recalled content lies in its range (R134). -/
theorem finishedContent_recalledContent (st : Store) (i : Fin 8) (n : Fin 64) : finishedContent i (recalledContent st i n) :=
  finishedContent_clampContent i _

/-- The end of a recall: its slot as it was before, or filled with values in their range; its sector as it was, or TORN; then
an erase in its bank resumes (R134, R144, R145). -/
theorem endRecall_cases (prior : SlotState) (i : Fin 8) (n : Fin 64) (s : State) :
    ∃ (x : Slot) (e : State), endRecall prior i n s = resumeErase n e ∧ e.recallEngine.state = .idle ∧
      (x.bound = (s.slot i).bound ∧ x.references = (s.slot i).references ∧ x.saving = (s.slot i).saving) ∧
      ((x.state = prior ∧ x.content = (s.slot i).content) ∨ (x.state = .ready ∧ finishedContent i x.content)) ∧
      (∀ k, e.slot k = if i = k then x else s.slot k) ∧ e.controller = s.controller ∧
      (s.directory.isSome = true → e.directory.isSome = true ∧
        ∀ m, e.sectorEntry m = s.sectorEntry m ∨ (m = n ∧ e.sectorEntry m = .torn)) := by
  unfold endRecall
  simp only
  split
  · refine ⟨{ s.slot i with state := prior }, _, rfl, rfl, ⟨rfl, rfl, rfl⟩, .inl ⟨rfl, rfl⟩, fun k => ?_, rfl,
      fun hd => ⟨?_, fun m => ?_⟩⟩
    · exact State.slot_setSlot s i k _
    · exact (State.setSectorEntry_directory_isSome _ _ _).trans hd
    · have entry := sectorEntry_of_directory (s := s) n m .torn hd rfl
      by_cases hm : n = m
      · exact .inr ⟨hm.symm, entry.trans (if_pos hm)⟩
      · exact .inl (entry.trans (if_neg hm))
  · refine ⟨{ s.slot i with
        state := .ready, generation := (s.slot i).generation + 1, origin := .sector n,
        content := recalledContent s.store i n }, _, rfl, rfl, ⟨rfl, rfl, rfl⟩,
      .inr ⟨rfl, finishedContent_recalledContent s.store i n⟩, fun k => ?_, rfl, fun hd => ⟨hd, fun m => .inl rfl⟩⟩
    exact State.slot_setSlot s i k _

theorem storageLaws_recallCompletes (pages : List Nat) {s : State} (hstart : s.startingLaw) (hs : s.storageLaws) :
    (recallCompletes pages s).storageLaws := by
  obtain ⟨hslot, hcontent, hstore⟩ := hs
  have same := (unchangedBut_recallCompletes pages s).sameUsers
  rcases recallCompletes_cases pages s with he | ⟨prior, i, n, hstate, hi, hn, he⟩
  · rw [he]
    exact ⟨hslot, hcontent, hstore⟩
  have hd := directory_isSome_of_busy hstart (.inr (by simp [hstate]))
  have target : s.recallEngine.target = some (i, prior) := by simp [RecallEngine.target, hstate, hi]
  have loading : (s.slot i).state = .loading := by
    obtain ⟨-, -, -, hloading, -⟩ := hslot i
    exact hloading.2 ⟨prior, target⟩
  have kept := hcontent.2 i prior target
  obtain ⟨x, e, hend, hidle, marks, state, slot, controller, directory⟩ :=
    endRecall_cases prior i n { s with store := s.store.decay pages }
  obtain ⟨hdirectory, hentry⟩ := directory hd
  rw [hend] at he
  rw [he] at same ⊢
  have slots : ∀ k, (resumeErase n e).slot k = if i = k then x else s.slot k := fun k =>
    (congrArg (Tab.get · k) ((unchangedBut_resumeErase e n).2 .slots (by simp))).trans (slot k)
  have idle : (resumeErase n e).recallEngine.target = none := target_of_idle (by simpa using hidle)
  refine ⟨?_, ⟨fun k => ?_, fun k q h => by rw [idle] at h; cases h⟩,
    storeLaw_resumeErase (s := s) hstore hdirectory hstate hn controller hidle hentry⟩
  · refine slotLaw_of_state hslot ?_ same ((savingSlot_resumeErase n e).trans (congrArg Controller.savingSlot controller)) slots marks fun k => ?_
    · obtain ⟨-, -, -, -, huse⟩ := hslot i
      cases h : (s.slot i).inUse with
      | false => rfl
      | true => rw [loading] at huse; cases huse h
    · refine iff_of_false (fun h => ?_) fun ⟨q, hq⟩ => by rw [idle] at hq; cases hq
      rw [slots k] at h
      split at h
      · rcases state with ⟨hx, -⟩ | ⟨hx, -⟩ <;> rw [hx] at h
        · rcases kept with rfl | ⟨rfl, -⟩ <;> cases h
        · cases h
      · next hk =>
        obtain ⟨-, -, -, hloading, -⟩ := hslot k
        obtain ⟨q, hq⟩ := hloading.1 h
        exact hk (Prod.mk.inj (Option.some.inj (target.symm.trans hq))).1
  · rw [slots k]
    split
    · next hk =>
      subst hk
      rcases state with ⟨hx, hc⟩ | ⟨-, hx⟩
      · intro h
        rcases kept with rfl | ⟨rfl, hkept⟩
        · cases hx.symm.trans h
        · exact hc ▸ hkept
      · exact fun _ => hx
    · exact hcontent.1 k

/-! ## Save (R135, R146, R147) -/

/-- The state in which a save of a slot has begun (R135, R146). -/
def saveBegun (i : Fin 8) (n : Fin 64) (calibration : Bool) (name : List Byte) (s : State) : State :=
  { (s.setSlot i { s.slot i with saving := true }).setSectorEntry n .programming with
    controller := { s.controller with state := .programming ⟨i, calibration, name⟩, sector := some n } }

/-- A save refused, or begun; either way the latch is cleared. -/
theorem saveRequest_cases (p : Port) (id number : Byte) (name : List Byte) (selector : Byte) (s : State) :
    (saveRequest p id number name selector s).2 = s.setWriteEnable p false ∨
      ∃ calibration i n, judgeSave (s.port p).writeEnable calibration id number s = .ok (i, n) ∧
        (saveRequest p id number name selector s).2 = (saveBegun i n calibration name s).setWriteEnable p false := by
  unfold saveRequest
  simp only
  split
  · exact .inl rfl
  · next i n h => exact .inr ⟨_, i, n, h, by cases p <;> rfl⟩

theorem storageLaws_portOnly {s t : State} {p : Port} (h : s.portOnly t p) (hs : s.storageLaws) : t.storageLaws := by
  obtain ⟨x, timer, rfl, -⟩ := h
  cases p <;> exact hs

theorem storageLaws_setWriteEnable (p : Port) (b : Bool) {s : State} (hs : s.storageLaws) :
    (s.setWriteEnable p b).storageLaws :=
  storageLaws_portOnly (State.portOnly_setPort s p _) hs

/-- A save begins of a READY slot into a bank that no recall reads, on an IDLE controller (R135, R146). -/
theorem storageLaws_saveBegun {i : Fin 8} {n : Fin 64} (calibration : Bool) {name : List Byte} (hname : name.length = 16)
    {s : State} (hd : s.directory.isSome = true) (hidle : s.controller.state = .idle) (hbank : readsBank s n = false)
    (hready : (s.slot i).state = .ready) (hs : s.storageLaws) : (saveBegun i n calibration name s).storageLaws := by
  obtain ⟨hslot, hcontent, hstore⟩ := hs
  have slot : ∀ k, (saveBegun i n calibration name s).slot k = { s.slot k with saving := decide (some i = some k) } := fun k => by
    refine (State.slot_setSlot s i k _).trans ?_
    split
    · next hk => simp [hk]
    · next hk =>
      have unmarked := slotLaw_saving hslot k
      rw [decide_eq_false (by simp [Controller.savingSlot, hidle])] at unmarked
      simp [hk, ← unmarked]
  refine ⟨?_, contentLaw_of_slots (s := s) (fun k => by rw [slot k]; exact ⟨rfl, rfl⟩) rfl hcontent, ?_⟩
  · exact slotLaw_of_saving hslot ⟨rfl, rfl, rfl⟩ rfl slot fun k hk => Option.some.inj hk ▸ hready
  · refine storeLaw_of_begun hstore hidle (fun m => sectorEntry_of_directory (s := s) n m .programming hd rfl) rfl rfl
      (fun j hj => ControllerState.programming.inj hj ▸ hname) rfl fun m hm => ⟨fun _ => ?_, fun ⟨b, h⟩ => nomatch h⟩
    exact Option.some.inj hm ▸ hbank

theorem storageLaws_saveRequest (p : Port) (id number : Byte) {name : List Byte} (hname : name.length = 16) (selector : Byte)
    {s : State} (hd : s.directory.isSome = true) (hs : s.storageLaws) :
    (saveRequest p id number name selector s).2.storageLaws := by
  rcases saveRequest_cases p id number name selector s with he | ⟨calibration, i, n, hj, he⟩ <;> rw [he]
  · exact storageLaws_setWriteEnable p false hs
  · obtain ⟨hidle, hbank, hready⟩ := judgeSave_ok hj
    exact storageLaws_setWriteEnable p false (storageLaws_saveBegun calibration hname hd hidle hbank hready hs)

/-- The end of a save, whatever of the store it leaves (R135, R147, R150). -/
theorem storageLaws_finishSave {j : SaveJob} {n : Fin 64} {e : SectorEntry} (o : StoreOutcome) {s : State} (st : Store)
    (free : Nat) (he : e.busy = none) (hstart : s.startingLaw) (hj : s.controller.state = .programming j)
    (hn : s.controller.sector = some n) (hs : s.storageLaws) :
    (finishSave j n e o { s with store := st, freeIndex := free }).storageLaws := by
  obtain ⟨hslot, hcontent, hstore⟩ := hs
  have hd := directory_isSome_of_busy hstart (.inl (by simp [hj]))
  have slot : ∀ k, (finishSave j n e o { s with store := st, freeIndex := free }).slot k = { s.slot k with saving := false } := fun k => by
    refine (State.slot_setSlot s j.slot k _).trans ?_
    split
    · next hk =>
      rw [hk]
      rfl
    · next hk =>
      have unmarked := slotLaw_saving hslot k
      rw [decide_eq_false (by simp [Controller.savingSlot, hj, hk])] at unmarked
      rw [← unmarked]
  refine ⟨?_, contentLaw_of_slots (s := s) (fun k => by rw [slot k]; exact ⟨rfl, rfl⟩) rfl hcontent, ?_⟩
  · exact slotLaw_of_saving hslot ⟨rfl, rfl, rfl⟩ rfl slot fun k h => nomatch h
  · exact storeLaw_of_ended hstore hn (fun m => sectorEntry_of_directory (s := s) n m e hd rfl) he rfl rfl rfl

theorem storageLaws_saveCompletes (failedAct : Option Nat) {s : State} (hstart : s.startingLaw) (hs : s.storageLaws) :
    (saveCompletes failedAct s).storageLaws := by
  unfold saveCompletes
  split
  · next j n hj hn =>
    cases failedAct with
    | none => exact storageLaws_finishSave .completed _ _ rfl hstart hj hn hs
    | some k => exact storageLaws_finishSave .failed _ _ rfl hstart hj hn hs
  · exact hs

/-! ## Erase and the cut (R145, R148 to R150) -/

/-- A controller and an entry that speak of no save leave the laws of the slots as they are. -/
theorem storageLaws_of_store {s t : State} (hslots : t.slots = s.slots) (hsame : s.sameUsers t)
    (hr : t.recallEngine = s.recallEngine) (hsaving : t.controller.savingSlot = s.controller.savingSlot)
    (hstore : t.storeLaw) (hs : s.storageLaws) : t.storageLaws := by
  obtain ⟨hq, hf, he⟩ := hsame
  obtain ⟨hslot, hcontent, -⟩ := hs
  refine ⟨fun i => ?_, contentLaw_of_agrees hslots hr hcontent, hstore⟩
  have same : t.slot i = s.slot i := congrArg (Tab.get · i) hslots
  rw [same]
  exact (marks_congr hq hf (by rw [he]) hsaving (by rw [hr])).2 (hslot i)

/-- The state in which an erase has begun, running or suspended (R145, R148). -/
def eraseBegun (n : Fin 64) (e : SectorEntry) (c : ControllerState) (s : State) : State :=
  { s.setSectorEntry n e with controller := { s.controller with state := c, sector := some n } }

/-- An erase refused, or begun: suspended if the recall reads its bank; either way the latch is cleared. -/
theorem eraseRequest_cases (p : Port) (number complement : Byte) (s : State) :
    (eraseRequest p number complement s).2 = s.setWriteEnable p false ∨
      ∃ n, judgeErase (s.port p).writeEnable number complement s = .ok n ∧
        ((readsBank s n = true ∧ (eraseRequest p number complement s).2 =
            (eraseBegun n .eraseSuspended (.eraseSuspended false) s).setWriteEnable p false) ∨
          (readsBank s n = false ∧ (eraseRequest p number complement s).2 =
            (eraseBegun n .erasing .erasing s).setWriteEnable p false)) := by
  unfold eraseRequest
  simp only
  split
  · exact .inl rfl
  · next n h =>
    split
    · next hb => exact .inr ⟨n, h, .inl ⟨hb, by cases p <;> rfl⟩⟩
    · next hb => exact .inr ⟨n, h, .inr ⟨by simpa using hb, by cases p <;> rfl⟩⟩

theorem storageLaws_eraseRequest (p : Port) (number complement : Byte) {s : State} (hd : s.directory.isSome = true)
    (hs : s.storageLaws) : (eraseRequest p number complement s).2.storageLaws := by
  rcases eraseRequest_cases p number complement s with he | ⟨n, hj, he⟩
  · rw [he]
    exact storageLaws_setWriteEnable p false hs
  have hidle := judgeErase_ok hj
  obtain ⟨-, -, hstore⟩ := id hs
  have unsaved : s.controller.savingSlot = none := by simp [Controller.savingSlot, hidle]
  have entry := fun e m => sectorEntry_of_directory (s := s) (t := eraseBegun n e .idle s) n m e hd rfl
  rcases he with ⟨hb, he⟩ | ⟨hb, he⟩ <;> rw [he] <;> refine storageLaws_setWriteEnable p false ?_
  · refine storageLaws_of_store (s := s) rfl ⟨rfl, rfl, rfl⟩ rfl unsaved.symm ?_ hs
    exact storeLaw_of_begun hstore hidle (entry .eraseSuspended) rfl rfl (fun j h => nomatch h) rfl fun m hm =>
      ⟨fun h => h.elim (fun ⟨j, h⟩ => nomatch h) (fun h => nomatch h), fun _ => Option.some.inj hm ▸ hb⟩
  · refine storageLaws_of_store (s := s) rfl ⟨rfl, rfl, rfl⟩ rfl unsaved.symm ?_ hs
    exact storeLaw_of_begun hstore hidle (entry .erasing) rfl rfl (fun j h => nomatch h) rfl fun m hm =>
      ⟨fun _ => Option.some.inj hm ▸ hb, fun ⟨b, h⟩ => nomatch h⟩

/-- The end of an erase, whatever of the store it leaves (R149, R150). -/
theorem storageLaws_finishErase {n : Fin 64} {e : SectorEntry} (o : StoreOutcome) {s : State} (st : Store) (free : Nat)
    (he : e.busy = none) (hstart : s.startingLaw) (hc : s.controller.state ≠ .idle) (hsave : s.controller.savingSlot = none)
    (hn : s.controller.sector = some n) (hs : s.storageLaws) :
    (finishErase n e o { s with store := st, freeIndex := free }).storageLaws := by
  obtain ⟨-, -, hstore⟩ := id hs
  have hd := directory_isSome_of_busy hstart (.inl hc)
  refine storageLaws_of_store (s := s) rfl ⟨rfl, rfl, rfl⟩ rfl hsave.symm ?_ hs
  exact storeLaw_of_ended hstore hn (fun m => sectorEntry_of_directory (s := s) n m e hd rfl) he rfl rfl rfl

theorem storageLaws_eraseCompletes (failedAct : Option Nat) {s : State} (hstart : s.startingLaw) (hs : s.storageLaws) :
    (eraseCompletes failedAct s).storageLaws := by
  unfold eraseCompletes
  split
  · next n hc hn =>
    have busy : s.controller.state ≠ .idle := by simp [hc]
    have unsaved : s.controller.savingSlot = none := by simp [Controller.savingSlot, hc]
    cases failedAct with
    | none => exact storageLaws_finishErase .completed _ _ rfl hstart busy unsaved hn hs
    | some k => exact storageLaws_finishErase .failed _ _ rfl hstart busy unsaved hn hs
  · exact hs

theorem storageLaws_cutOperation (acts : Nat) {s : State} (hstart : s.startingLaw) (hs : s.storageLaws) :
    (cutOperation acts s).storageLaws := by
  unfold cutOperation
  simp only
  split
  · next j n hj hn => exact storageLaws_finishSave .cut _ _ rfl hstart hj hn hs
  · next n hc hn =>
    exact storageLaws_finishErase .cut _ _ rfl hstart (by simp [hc]) (by simp [Controller.savingSlot, hc]) hn hs
  · next b n hc hn =>
    exact storageLaws_finishErase .cut _ _ rfl hstart (by simp [hc]) (by simp [Controller.savingSlot, hc]) hn hs
  · exact hs

end Sys2Proof.Machine
end

section
/-! O58: the laws of the slots, their content and the store, kept by every step (R89, R125, R134 to R150). -/

namespace Sys2Proof.Machine

/-! ## The scan and start-up (R136, R141) -/

/-- The scan finds no sector busy (R141). -/
theorem busy_scan (st : Store) (n : Fin 64) : (st.scan.get n).busy = none := by
  unfold Store.scan
  rw [Tab.get_ofFn]
  unfold Store.scanSector
  split
  · rfl
  · split <;> rfl

/-- With the controller and the recall engine IDLE the law asks that no sector be busy. -/
theorem storeLaw_of_quiet {s : State} (hc : s.controller.state = .idle) (hr : s.recallEngine.state = .idle)
    (hbusy : ∀ n, (s.sectorEntry n).busy = none) : s.storeLaw := by
  refine storeLaw_of_idle hc (fun n => ?_) fun h => absurd hr h
  rw [hbusy n]
  unfold Controller.shows
  rw [hc]
  split <;> rfl

/-- A directory stands outside STARTING, where the line is released (R141). -/
theorem starting_of_unscanned {s : State} (hs : s.startingLaw) (h : s.resetLine = true ∨ s.directory.isNone = true) :
    s.pe.frameState = .starting := by
  obtain ⟨hline, -, hset⟩ := hs
  by_contra hn
  rcases h with h | h
  · exact hn (hline h)
  · rw [Option.isNone_iff_eq_none.1 h] at hset
    cases (hset hn).2

theorem storageLaws_releaseReset (pages : List Nat) {s : State} (hstart : s.startingLaw) (hs : s.storageLaws) :
    (releaseReset pages s).storageLaws := by
  obtain ⟨hslot, hcontent, -⟩ := id hs
  unfold releaseReset
  split
  · next h =>
    rw [Bool.or_eq_true] at h
    have reset : s.atReset := hstart.2.1 (starting_of_unscanned hstart h)
    refine ⟨hslot, hcontent, storeLaw_of_quiet ?_ ?_ fun n => busy_scan _ n⟩
    · exact congrArg Controller.state reset.controller
    · exact congrArg RecallEngine.state reset.recallEngine
  · exact hs

/-- The identity lattice lies in its range (R36). -/
theorem finishedContent_identityLattice : finishedContent 0 identityLattice := by
  intro k hk
  change k < 14739 at hk
  unfold identityLattice
  rw [slotValue_slotContent _ _ _ hk (by simp only; omega)]
  exact Nat.min_le_left _ _

/-- The ramp lies in its range (R136). -/
theorem finishedContent_fallbackRamp : finishedContent 4 fallbackRamp := by
  intro k hk
  change k < 833 at hk
  rw [slotValue_fallbackRamp k (by omega)]
  omega

/-- A slot as start-up leaves it: L0 and T0 READY, with every value in its range, the others at reset (R123, R136). -/
theorem filled_slot_cases {s : State} (hd : s.directory.isSome = true) (hs : s.slots = Tab.replicate 8 Slot.reset) (i : Fin 8) :
    (i ≠ 4 ∧ s.filled.slot i = Slot.reset) ∨
      ∃ origin content, s.filled.slot i = Slot.reset.filled origin content ∧ finishedContent i content := by
  obtain ⟨identity, table, ramp, rest⟩ := filled_slots hd hs
  by_cases h0 : i = 0
  · exact .inr ⟨_, _, h0 ▸ identity, h0 ▸ finishedContent_identityLattice⟩
  by_cases h4 : i = 4
  · subst h4
    by_cases h : ∃ n, s.filled.fillsT0 n
    · obtain ⟨n, hn⟩ := h
      exact .inr ⟨_, _, table n hn, finishedContent_recalledContent s.store 4 n⟩
    · exact .inr ⟨_, _, ramp (not_exists.1 h), finishedContent_fallbackRamp⟩
  · exact .inl ⟨h4, rest i h0 h4⟩

/-- What start-up reads of the directory is not busy: the scan's entries, or those of a controller that is IDLE (R140, R141). -/
theorem busy_read {s : State} (hc : s.controller.state = .idle) (hs : s.storeLaw) (n : Fin 64) :
    ((s.directory.getD s.store.scan).get n).busy = none := by
  cases hd : s.directory with
  | none => exact busy_scan s.store n
  | some d =>
    have entry : s.sectorEntry n = d.get n := by
      unfold State.sectorEntry
      rw [hd]
    change (d.get n).busy = none
    rw [← entry, ((storeLaw_iff s).1 hs).1 n]
    unfold Controller.shows
    rw [hc]
    split <;> rfl

/-- Start-up makes a sector TORN or leaves its entry: none becomes busy (R141). -/
theorem busy_filled {s : State} (hd : s.directory.isSome = true) {n : Fin 64} (h : (s.sectorEntry n).busy = none) :
    (s.filled.sectorEntry n).busy = none := by
  obtain ⟨tears, keeps⟩ := filled_sectorEntry hd n
  by_cases ht : (n = 0 ∨ s.foundDefaultTone n) ∧ s.unreadable n
  · rw [tears ht]
    rfl
  · rw [keeps ht]
    exact h

/-- At start-up completion T0 is bound, L0 and T0 are READY, and the rest stands at reset (R84, R99, R136). -/
theorem storageLaws_completeStartUp (pages : List Nat) {s : State} (hline : s.resetLine = false) (hs : s.atReset)
    (hstore : s.storeLaw) : (completeStartUp pages s).storageLaws := by
  have same := unchangedBut_completeStartUp pages s
  have queue : (completeStartUp pages s).cu.queue = [] := by
    obtain ⟨-, -, -, hcu, -⟩ := hs
    exact (same.2 .queue (by simp)).trans (congrArg ContextUnit.queue hcu)
  have controller : (completeStartUp pages s).controller = .reset := (same.2 .controller (by simp)).trans hs.controller
  have engine : (completeStartUp pages s).recallEngine = .reset := (same.2 .recallEngine (by simp)).trans hs.recallEngine
  obtain ⟨hd, slots, entry, -, -⟩ := startUpReads pages s
  have he := completeStartUp_of_starting pages hline hs.frameState
  generalize (ensureScanned s).decayed pages = u at hd slots entry he
  replace slots : u.slots = Tab.replicate 8 Slot.reset := by
    obtain ⟨-, -, -, -, -, hslots, -⟩ := hs
    exact slots.trans hslots
  obtain ⟨-, -, hentry, hslot⟩ := adoptDefaults_parts u.filled
  have frame : (completeStartUp pages s).pe.frameState = .noInput := by rw [he]; rfl
  have fields : ∀ i, (completeStartUp pages s).cu.fields.binds i = decide (4 = i) := fun i => by
    rw [he]
    exact binds_default _ i
  rw [← he] at hentry hslot
  refine ⟨fun i => ?_, ⟨fun i => ?_, fun i prior h => by rw [engine] at h; cases h⟩,
    storeLaw_of_quiet (congrArg Controller.state controller) (congrArg RecallEngine.state engine) fun n => ?_⟩
  · obtain ⟨references, saving⟩ := filled_unmarked hd slots i
    rw [queue, frame, fields i, controller, engine, hslot i]
    refine ⟨references, ?_, ?_, ?_, fun h => ?_⟩
    · simp
    · simp [saving, Controller.savingSlot, Controller.reset]
    · refine iff_of_false (fun h => ?_) fun ⟨q, hq⟩ => nomatch hq
      rcases filled_slot_cases hd slots i with ⟨-, hi⟩ | ⟨origin, content, hi, -⟩ <;> rw [hi] at h <;> cases h
    · rcases filled_slot_cases hd slots i with ⟨h4, hi⟩ | ⟨origin, content, hi, -⟩ <;> rw [hi] at h ⊢
      · simp [Slot.inUse, Slot.reset, h4.symm] at h
      · rfl
  · rw [hslot i]
    rcases filled_slot_cases hd slots i with ⟨-, hi⟩ | ⟨origin, content, hi, hc⟩ <;> rw [hi]
    · exact fun h => nomatch h
    · exact fun _ => hc
  · rw [hentry n]
    refine busy_filled hd ?_
    rw [entry n]
    exact busy_read (congrArg Controller.state hs.controller) hstore n

/-! ## Every command -/

theorem storageLaws_startFrame {s : State} (hn : s.pe.frameState ≠ .starting) (hs : s.storageLaws) (w h : Half) :
    (startFrame w h s).storageLaws := by
  obtain ⟨hslot, hcontent, hstore⟩ := hs
  refine ⟨slotLaw_startFrame hn hslot w h, contentLaw_startFrame hcontent w h, ?_⟩
  have same := unchangedBut_startFrame w h s
  exact storeLaw_of_agrees (same.2 .directory (by simp)) (same.2 .controller (by simp)) (same.2 .recallEngine (by simp)) hstore

theorem storageLaws_loseInput {s : State} (hn : s.pe.frameState ≠ .starting) (hs : s.storageLaws) :
    (loseInput s).storageLaws := by
  obtain ⟨hslot, hcontent, hstore⟩ := hs
  refine ⟨slotLaw_loseInput hn hslot, contentLaw_loseInput hcontent, ?_⟩
  have same := unchangedBut_loseInput s
  exact storeLaw_of_agrees (same.2 .directory (by simp)) (same.2 .controller (by simp)) (same.2 .recallEngine (by simp)) hstore

theorem storageLaws_edit {c : Instr} (hc : isEdit c = true) {s t : State} (h : exec c s = .next t) (hs : s.storageLaws) :
    t.storageLaws := by
  obtain ⟨hslot, hcontent, hstore⟩ := hs
  have kept : ∀ part ∈ [Part.directory, .controller, .recallEngine], part ∉ Changes c := by
    cases c <;> simp [isEdit] at hc <;> simp [Changes, commandParts, requestsParts]
  exact ⟨keptByRequests_slotLaw.exec hc h hslot, keptByEdits_contentLaw.exec hc h hcontent,
    storeLaw_of_agrees (exec_agrees h (kept _ (by simp))) (exec_agrees h (kept _ (by simp)))
      (exec_agrees h (kept _ (by simp))) hstore⟩

/-- A slot command, or an identifier that names no slot (R126 to R130). -/
theorem storageLaws_onSlot {body : Fin 8 → State → Result × State} {s : State} (id : Byte)
    (hbody : ∀ i, s.reworks (body i s).2 i) (hparts : ∀ i, s.unchangedBut (body i s).2 [.slots]) (hs : s.storageLaws) :
    (onSlot id body s).2.storageLaws := by
  unfold onSlot
  split
  · exact hs
  · next i _ =>
    obtain ⟨hslot, hcontent, hstore⟩ := hs
    have same := hparts i
    exact ⟨slotLaw_of_reworks (hbody i) hslot, contentLaw_of_reworks (hbody i) hslot hcontent,
      storeLaw_of_agrees (same.2 .directory (by simp)) (same.2 .controller (by simp)) (same.2 .recallEngine (by simp)) hstore⟩

/-- The laws that the commands of the ports rest on. -/
def State.standingLaws (s : State) : Prop := s.startingLaw ∧ s.storageLaws

/-- A body that keeps the laws outside STARTING, taken from a port (R167). -/
theorem storageLaws_portCommand (p : Port) {body : State → Result × State}
    (hbody : ∀ {u : State}, u.directory.isSome = true → u.storageLaws → (body u).2.storageLaws) {s : State}
    (hs : s.standingLaws) : (portCommand p body s).storageLaws :=
  portCommand_keeps (P := State.standingLaws) (fun h hs => ⟨h.startingLaw hs.1, storageLaws_portOnly h hs.2⟩)
    storageLaws_portOnly And.right (fun hn hu => hbody (hu.1.2.2 hn).2 hu.2) hs

theorem storageLaws_portCommands {c : Instr} (hc : isPortCommand c = true) (he : isEdit c = false) {s t : State}
    (hs : s.standingLaws) (h : exec c s = .next t) : t.storageLaws := by
  cases c <;> simp [isPortCommand, isEdit] at hc he <;> obtain rfl := Host.Outcome.next.inj h
  case slotOpen p id =>
    exact storageLaws_portCommand p
      (fun _ hu => storageLaws_onSlot id (fun i => reworks_openSlot p i _) (fun i => unchangedBut_openSlot p i _) hu) hs
  case slotWrite p id page offset data =>
    split
    · exact storageLaws_portOnly (portOnly_discardSelection p .framing s) hs.2
    · exact storageLaws_portCommand p (fun _ hu => storageLaws_onSlot id (fun i => reworks_writeSlot p page offset data i _)
        (fun i => unchangedBut_writeSlot p page offset data i _) hu) hs
  case slotFinish p id =>
    exact storageLaws_portCommand p
      (fun _ hu => storageLaws_onSlot id (fun i => reworks_finishSlot p i _) (fun i => unchangedBut_finishSlot p i _) hu) hs
  case slotDiscard p id =>
    exact storageLaws_portCommand p
      (fun _ hu => storageLaws_onSlot id (fun i => reworks_discardSlot i _) (fun i => unchangedBut_discardSlot i _) hu) hs
  case writeEnable p => exact storageLaws_portCommand p (fun _ hu => storageLaws_setWriteEnable p true hu) hs
  case writeDisable p => exact storageLaws_portCommand p (fun _ hu => storageLaws_setWriteEnable p false hu) hs
  case save p id number name selector =>
    split
    · next hname =>
      exact storageLaws_portCommand p (fun hd hu => storageLaws_saveRequest p id number hname selector hd hu) hs
    · exact storageLaws_portOnly (portOnly_discardSelection p .framing s) hs.2
  case erase p number complement =>
    exact storageLaws_portCommand p (fun hd hu => storageLaws_eraseRequest p number complement hd hu) hs
  -- RECALL, whose name is a keyword of Mathlib, so that `case` cannot take it.
  next p number id =>
    exact storageLaws_portCommand p (fun hd hu => ⟨slotLaw_recallRequest number id hu.1,
      contentLaw_recallRequest number id hu.1 hu.2.1, storeLaw_recallRequest number id hd hu.2.2⟩) hs

theorem storageLaws_exec_command {c : Instr} (hc : isSelection c = false) {s t : State} (hs : s.standingLaws)
    (h : exec c s = .next t) : t.storageLaws := by
  cases he : isEdit c with
  | true => exact storageLaws_edit he h hs.2
  | false =>
  cases hp : isPortCommand c with
  | true => exact storageLaws_portCommands hp he hs h
  | false =>
  obtain ⟨hstart, hslot, hcontent, hstore⟩ := id hs
  by_cases hq : (∀ part ∈ storageParts, part ∉ Changes c) ∧ .engine ∉ Changes c
  · have frame : t.pe.frameState = s.pe.frameState := (exec_agrees h hq.2).1
    exact storageLaws_of_agrees (fun part hpart => exec_agrees h (hq.1 part hpart)) (by rw [frame]) hs.2
  cases c <;> simp [isSelection, isEdit, isPortCommand] at hc he hp <;> simp [Changes, commandParts] at hq
  case resetAssert acts =>
    obtain rfl := Host.Outcome.next.inj h
    exact ⟨slotLaw_reset, contentLaw_reset, storeLaw_reset⟩
  case resetRelease pages =>
    obtain rfl := Host.Outcome.next.inj h
    exact storageLaws_releaseReset pages hstart hs.2
  case startUpCompletion pages =>
    rcases exec_startUp_cases h with rfl | ⟨hline, hn, rfl⟩
    · exact hs.2
    · exact storageLaws_completeStartUp pages hline (hstart.2.1 hn) hstore
  case frameStart w h' =>
    rcases exec_frameStart_cases h with rfl | ⟨hn, rfl⟩
    · exact hs.2
    · exact storageLaws_startFrame hn.2 hs.2 w h'
  case frameEnd =>
    rcases exec_frameEnd_cases h with rfl | ⟨hn, rfl⟩
    · exact hs.2
    · have same := unchangedBut_endFrame s
      exact storageLaws_of_agrees (fun part hpart => same.2 part (by revert hpart; cases part <;> simp))
        (iff_of_false (fun h => nomatch h) (by simp [hn])) hs.2
  case inputLost ms =>
    obtain rfl := Host.Outcome.next.inj h
    rcases elapseInput_cases ms s with he | ⟨hn, he | ⟨k, he⟩⟩ <;> rw [he]
    · exact hs.2
    · exact storageLaws_loseInput (by rcases hn with hn | hn <;> simp [hn]) hs.2
    · exact hs.2
  case evaluationCompletion =>
    obtain rfl := Host.Outcome.next.inj h
    rcases evaluationCompletes_cases s with he | ⟨it, he⟩ <;> rw [he]
    · exact hs.2
    · have taken : (takeSubmission s).storageLaws := storageLaws_edit (c := .trackerSubmission) rfl rfl hs.2
      exact taken
  case recallCompletion pages =>
    obtain rfl := Host.Outcome.next.inj h
    exact storageLaws_recallCompletes pages hstart hs.2
  case saveCompletion failedAct =>
    obtain rfl := Host.Outcome.next.inj h
    exact storageLaws_saveCompletes failedAct hstart hs.2
  case eraseCompletion failedAct =>
    obtain rfl := Host.Outcome.next.inj h
    exact storageLaws_eraseCompletes failedAct hstart hs.2
  case supplyLowAssert acts =>
    obtain rfl := Host.Outcome.next.inj h
    exact storageLaws_cutOperation acts hstart hs.2

theorem storageLaws_exec {c : Instr} {s t : State} (hs : s.standingLaws) (h : exec c s = .next t) : t.storageLaws :=
  exec_keeps (P := State.standingLaws) (Q := State.storageLaws) storageLaws_portOnly
    (fun hc hs h => storageLaws_exec_command hc hs h)
    (fun {_ s t} hs h => by
      have frame : t.pe.frameState = s.pe.frameState := (exec_agrees h (part := .engine) (by simp [Changes, lineParts])).1
      have other : ∀ part ∈ storageParts, s.agrees t part := fun part hpart =>
        exec_agrees h (by revert hpart; cases part <;> simp [Changes, lineParts])
      exact storageLaws_of_agrees other (by rw [frame]) hs.2) And.right hs h

/-! ## Every step -/

/-- What the commands rest on, of all the laws. -/
theorem standingLaws_exec {c : Instr} {s t : State} (hs : s.standingLaws ∧ s.transferLaw) (h : exec c s = .next t) :
    t.standingLaws ∧ t.transferLaw :=
  ⟨⟨startingLaw_exec hs.1.1 hs.2 h, storageLaws_exec hs.1 h⟩, transferLaw_exec hs.2 h⟩

/-- Settles O58: the laws of slots, content and store, each kept by every command, are kept by every step. -/
theorem slotAndStoreLawsKept : Obligations.SlotAndStoreLawsKept := fun _ _ hs h => by
  obtain ⟨-, hstart, -, -, -, -, hslot, hcontent, hstore, hrecord, -, -⟩ := hs
  obtain ⟨⟨-, laws⟩, -⟩ := step_keeps (P := fun s => s.standingLaws ∧ s.transferLaw) (fun _ _ hs => hs) standingLaws_exec
    ⟨⟨hstart, hslot, hcontent, hstore⟩, ((recordLaw_iff _).1 hrecord).2⟩ h
  exact laws

end Sys2Proof.Machine
end

section
/-! O11 and O12: the entries of a pass, and the record that a frame start opens (R80, R92 to R101, R155, R156). -/

namespace Sys2Proof.Machine

/-! ## One entry at its turn (R80, R92 to R99) -/

/-- An entry is discarded at its turn where it is a tracker's MIRED entry met by NO_INPUT or by a mode other than AUTO (R80, R97). -/
theorem discards_iff (kind : PassKind) (f : Fields) (e : Entry) :
    discards kind f e = true ↔ e.field = .mired ∧ e.source = .tracker ∧ (kind = .noInput ∨ f.trackerMode ≠ .auto) := by
  simp only [discards, Entry.isTrackerMired, Bool.and_eq_true, Bool.or_eq_true, decide_eq_true_eq, and_assoc]

theorem applyEntry_of_discards {kind : PassKind} {w : Pass} {e : Entry} (h : discards kind w.fields e = true) :
    applyEntry kind w e = { w with items := pushItem w.items ⟨e.source, e.field, .discarded⟩ } := if_pos h

/-- An applied entry: its field, its item and the marks that it sets. -/
theorem applyEntry_of_applied {kind : PassKind} {w : Pass} {e : Entry} (h : discards kind w.fields e = false) :
    applyEntry kind w e =
      { fields := applyField w.fields e
        items := pushItem w.items ⟨e.source, e.field, .applied⟩
        derives := w.derives || e.field.isDerivation
        trackerMired := w.trackerMired || e.isTrackerMired
        portMired := w.portMired || (decide (e.field = .mired) && decide (e.source ≠ .tracker))
        autoApplied := w.autoApplied || (decide (e.field = .trackerMode) && decide (trackerModeOf e.value = .auto)) } :=
  if_neg (by simp [h])

/-- AUTO is the mode of value 0 (R75, R84). -/
theorem trackerModeOf_eq_auto_iff (v : Int) : trackerModeOf v = .auto ↔ v = 0 := by
  unfold trackerModeOf
  split
  · next h => simp [h]
  · next h => split <;> simp [h]

theorem applyField_of_not_port {f : Fields} {e : Entry} (h : e.field = .mired → e.source = .tracker) :
    applyField f e = f.set e.field e.value := if_neg fun ⟨hm, hs⟩ => hs (h hm)

theorem applyField_of_port {f : Fields} {e : Entry} (hm : e.field = .mired) (hs : e.source ≠ .tracker) :
    applyField f e = { f.set .mired e.value with trackerMode := .manual } := if_pos ⟨hm, hs⟩

/-- Settles O11, by the branches of `applyEntry` and `applyField`. -/
theorem entryApplied : Obligations.EntryApplied := by
  intro kind cal w e hholds v item
  have pushed : ∀ o, v.items = pushItem w.items ⟨e.source, e.field, o⟩ → item o := fun o h => by
    obtain ⟨dropped, hitems, hlength⟩ := pushItem_spec w.items ⟨e.source, e.field, o⟩
    exact ⟨dropped, h ▸ hitems, h ▸ hlength⟩
  have holds : ∀ f : Fields, (f.set e.field e.value).get e.field = e.value := fun f => f.get_set_of_holds cal _ _ hholds
  refine ⟨fun hm => ?_, fun hm hs => ?_, fun hm hs hdiscard => ?_, fun hm hs hframe hauto => ?_⟩
  · have he : v = _ := applyEntry_of_applied (Bool.eq_false_iff.2 fun h => hm ((discards_iff _ _ _).1 h).1)
    rw [applyField_of_not_port fun h => absurd h hm] at he
    refine ⟨?_, fun y hy => ?_, pushed _ (by rw [he]), by rw [he], ?_, ?_, ?_⟩ <;> rw [he]
    · exact holds w.fields
    · exact w.fields.get_set_of_ne _ _ _ hy.symm
    · simp [trackerModeOf_eq_auto_iff]
    · simp [Entry.isTrackerMired, hm]
    · simp [hm]
  · have he : v = _ := applyEntry_of_applied (Bool.eq_false_iff.2 fun h => hs ((discards_iff _ _ _).1 h).2.1)
    rw [applyField_of_port hm hs] at he
    refine ⟨?_, by rw [he], fun y hy hmode => ?_, pushed _ (by rw [he]), ?_, ?_, ?_, ?_⟩ <;> rw [he]
    · rw [hm] at holds
      exact holds w.fields
    · change (Fields.get { w.fields.set .mired e.value with trackerMode := .manual } y) = _
      rw [manual_eq_set, Fields.get_set_of_ne _ _ _ _ hmode.symm, Fields.get_set_of_ne _ _ _ _ hy.symm]
    · simp [hm, Field.isDerivation]
    · simp [hm, hs]
    · simp [Entry.isTrackerMired, hs]
    · simp [hm]
  · have he : v = _ := applyEntry_of_discards ((discards_iff _ _ _).2 ⟨hm, hs, hdiscard⟩)
    refine ⟨by rw [he], pushed _ (by rw [he]), ?_, ?_, ?_, ?_⟩ <;> rw [he]
  · have he : v = _ := applyEntry_of_applied (Bool.eq_false_iff.2 fun h => by
      obtain ⟨-, -, h | h⟩ := (discards_iff _ _ _).1 h
      · exact nomatch hframe.symm.trans h
      · exact h hauto)
    rw [applyField_of_not_port fun _ => hs] at he
    refine ⟨?_, fun y hy => ?_, pushed _ (by rw [he]), ?_, ?_, ?_, ?_⟩ <;> rw [he]
    · exact hm ▸ holds w.fields
    · exact w.fields.get_set_of_ne _ _ _ (hm ▸ hy.symm)
    · simp [hm, Field.isDerivation]
    · simp [Entry.isTrackerMired, hm, hs]
    · simp [hs]
    · simp [hm]

/-! ## The record opened (R101, R122, R155, R156) -/

/-- The generation and origin that a record carries of a lattice binding are the slot's (R137, R155). -/
theorem latticeBinding_of_openingOf {s : State} {b : RecordBinding} (h : (openingOf s).monitorLattice = some b) :
    b.generation = (s.slot (latticeSlot b.slot)).generation ∧ b.origin = (s.slot (latticeSlot b.slot)).origin := by
  obtain ⟨l, -, rfl⟩ := Option.map_eq_some_iff.1 h
  exact ⟨rfl, rfl⟩

theorem slot_of_openingOf (s : State) :
    (openingOf s).monitorLattice.map RecordBinding.slot = s.pe.context.monitorLattice := by
  unfold openingOf
  rw [Option.map_map]
  exact Option.map_id_apply

theorem calibrationId_of_openingOf {s : State} {c : CalibrationSet} (h : s.cu.calibration = some c) :
    (openingOf s).calibrationId = c.id := by
  change (s.cu.calibration.map CalibrationSet.id).getD 0 = _
  rw [h]
  rfl

/-- A frame start opens its record last, of the state that the engine's part, the pass and the ZSA's new frame have left (R6). -/
theorem startFrame_opens (w h : Half) (s : State) :
    ∃ u, startFrame w h s = openRecord u ∧ u.pe.width = w ∧ u.pe.height = h ∧ u.ca.expiryNote = s.ca.expiryNote ∧
      u.cu.calFallback = s.cu.calFallback ∧ u.cu.calibration = s.cu.calibration ∧
      u.cu.appliedChanges = (applyDue .frameStart s.cu).items := by
  obtain ⟨o, r, z, he, -⟩ := startFrame_eq w h s
  exact ⟨_, he, rfl, rfl, rfl, rfl, rfl, rfl⟩

/-- Settles O12: the record is formed of the state that the pass of the frame start leaves. -/
theorem frameStartOpensRecord : Obligations.FrameStartOpensRecord := by
  intro w h s hs
  obtain ⟨u, he, hwidth, hheight, hnote, hfallback, hcalibration, hitems⟩ := startFrame_opens w h s
  refine ⟨openRecord u, openingOf u, he ▸ exec_frameStart hs, rfl, rfl, rfl, hwidth, hheight, rfl, hnote, hfallback,
    fun c hc => calibrationId_of_openingOf (hcalibration.trans hc), rfl, rfl, rfl, rfl, rfl, rfl, rfl, rfl, rfl, rfl, rfl, rfl,
    rfl, rfl, rfl, rfl, rfl, rfl, slot_of_openingOf u, fun b hb => latticeBinding_of_openingOf hb, hitems, rfl, rfl⟩

end Sys2Proof.Machine
end

section
/-! Requests that a port's command makes alone: the rules of their answers, and the judgement of an EDIT (R87, R105 to R117). -/

namespace Sys2Proof.Machine

/-! ## The state in which a request is answered (R106, R114) -/

/-- The state in which the request of a port is answered: an earlier selection ended, the grant made. -/
def State.requested (s : State) (p : Port) : State := (s.closeSelection p).granted (portRequester p)

namespace State

variable (s : State) (p : Port)

@[simp] theorem requested_cu : (s.requested p).cu = s.cu := closeSelection_cu s p

@[simp] theorem requested_slots : (s.requested p).slots = s.slots := closeSelection_slots s p

@[simp] theorem requested_slot (i : Fin 8) : (s.requested p).slot i = s.slot i := closeSelection_slot s p i

@[simp] theorem requested_it : (s.requested p).it = s.it := closeSelection_it s p

@[simp] theorem requested_pe : (s.requested p).pe = s.pe := closeSelection_pe s p

@[simp] theorem requested_owner : (s.requested p).ca.owner = s.ca.owner := closeSelection_ca_owner s p

@[simp] theorem requested_outcome (q : Port) : (s.requested p).ca.outcome q = s.ca.outcome q :=
  (outcome_granted _ _ q).trans (outcome_closeSelection s p q)

@[simp] theorem requested_expiryNote : (s.requested p).ca.expiryNote = s.ca.expiryNote :=
  (agrees_group ((closeSelection_spec s p).2.2.2 .group (by simp))).2.2

end State

theorem exec_requestCommand (p : Port) (r : Request) (s : State) :
    exec (requestCommand p r none) s = .next (portRequest p r s) := by cases r <;> rfl

/-- A request taken first is answered in the state that the end of the earlier selection and its grant leave. -/
theorem takeRequest_requested {p : Port} {s : State} (r : Request) (hf : s.portFirst p) :
    takeRequest p (answerRequest p r) (s.closeSelection p) = answerRequest p r (s.requested p) :=
  takeRequest_of_portFirst _ (portFirst_closeSelection hf)

theorem unchangedBut_granted_trans {s u : State} {p : Port} {changed : List Part}
    (hu : (s.requested p).unchangedBut u changed) : (s.closeSelection p).unchangedBut u (.grantOrder :: changed) :=
  State.unchangedBut_trans (unchangedBut_granted _ _) hu (by simp) (by simp)

/-- The answer to a request that leaves the owner as it is. -/
theorem portRequest_answers {p : Port} {r : Request} {s u : State} {result : Result} {changed : List Part} (ho : s.operating)
    (hf : s.portFirst p) (hb : answerRequest p r (s.requested p) = (result, u))
    (hu : (s.requested p).unchangedBut u changed) (hp : .port p ∉ changed) (ht : .inactivityTimer ∉ changed)
    (howner : u.ca.owner = s.ca.owner) : s.answers (portRequest p r s) p result (.grantOrder :: changed) :=
  portCommand_answers ho ((takeRequest_requested r hf).trans hb) (unchangedBut_granted_trans hu) (by simp [hp]) (by simp [ht])
    howner

/-- The answer to a request, with what it leaves of the owner. -/
theorem portRequest_answered {p : Port} {r : Request} {s u : State} {result : Result} {changed : List Part} (ho : s.operating)
    (hf : s.portFirst p) (hb : answerRequest p r (s.requested p) = (result, u))
    (hu : (s.requested p).unchangedBut u changed) (hp : .port p ∉ changed) :
    s.answered (portRequest p r s) p result ∧
      (portRequest p r s).ca.inactivityTimer = (if u.ca.owner = some p then some 0 else u.ca.inactivityTimer) ∧
      u.unchangedBut (portRequest p r s) [.port p, .inactivityTimer] ∧
      s.unchangedBut (portRequest p r s) (.port p :: .inactivityTimer :: .grantOrder :: changed) :=
  portCommand_answered ho ((takeRequest_requested r hf).trans hb) (unchangedBut_granted_trans hu) (by simp [hp])

/-- A request refused: the grant alone beside the port and the timer. -/
theorem portRequest_refused {p : Port} {r : Request} {s : State} {result : Result} (ho : s.operating) (hf : s.portFirst p)
    (hb : answerRequest p r (s.requested p) = (result, s.requested p)) :
    s.answers (portRequest p r s) p result [.grantOrder] :=
  portRequest_answers ho hf hb (State.unchangedBut_refl _ _) (by simp) (by simp) (by simp)

/-! ## EDIT (R87 to R89, R108, R110, R116) -/

/-- The result of an accepted entry: CLAMPED where its value is not the one sent (R88). -/
def acceptedResult (value sent : Int) : Result := if value = sent then .done else .clamped

/-- An accepted entry that no pass applies at once (R87 to R89, R93). -/
theorem submit_of_queued {source : Requester} {mark : GroupMark} {id : Byte} {v : Int} {s : State} {x : Field}
    (h : judgeSubmission s id v = .ok x) (hn : mark = .ungrouped → s.pe.frameState ≠ .noInput) :
    submit source mark id v s =
      (acceptedResult (x.clampValue s.cu.calibration v) v, enqueue s ⟨source, x, x.clampValue s.cu.calibration v, mark⟩) := by
  unfold submit
  rw [h]
  exact if_neg fun ⟨hm, hi⟩ => hn hm ((isNoInput_iff s).1 hi)

/-- An accepted UNGROUPED entry in NO_INPUT: a pass follows at once (R93). -/
theorem submit_of_applied {source : Requester} {id : Byte} {v : Int} {s : State} {x : Field}
    (h : judgeSubmission s id v = .ok x) (hn : s.pe.frameState = .noInput) :
    submit source .ungrouped id v s =
      (acceptedResult (x.clampValue s.cu.calibration v) v,
        runPass .noInput (enqueue s ⟨source, x, x.clampValue s.cu.calibration v, .ungrouped⟩)) := by
  unfold submit
  rw [h]
  exact if_pos ⟨rfl, (isNoInput_iff s).2 hn⟩

/-- The value that an accepted entry takes, between the ends of its field's range (R88). -/
theorem clampValue_eq {cal : Option CalibrationSet} (h : calibrationLaw cal) (x : Field) (v : Int) :
    x.clampValue cal v = if x.isBinding then v else max (x.range cal).1 (min v (x.range cal).2) := by
  unfold Field.clampValue
  rw [clampInt_eq _ _ _ (range_le h x), min_comm]

/-- An EDIT that the arbiter passes on and the Context Unit refuses. -/
theorem edit_refused {p : Port} {id : Byte} {value : Word} {s : State} {r : Result} (ho : s.operating) (hf : s.portFirst p)
    (hl : s.ca.outcome p ≠ .expired) (howner : s.ca.owner = none ∨ s.ca.owner = some p)
    (hj : judgeSubmission (s.requested p) id value.toInt = .error r) :
    s.answers (portRequest p (.edit id value) s) p r [.grantOrder] :=
  portRequest_refused ho hf ((editRequest_of_passed (by simpa using hl) (by simpa using howner)).trans (submit_of_refused hj))

/-- An EDIT accepted, that no pass applies at once. -/
theorem edit_queued {p : Port} {id : Byte} {value : Word} {s : State} {x : Field} (hl : s.ca.outcome p ≠ .expired)
    (howner : s.ca.owner = none ∨ s.ca.owner = some p) (hj : judgeSubmission (s.requested p) id value.toInt = .ok x)
    (hframe : s.ca.owner = none → s.pe.frameState ≠ .noInput) :
    answerRequest p (.edit id value) (s.requested p) =
      (acceptedResult (x.clampValue s.cu.calibration value.toInt) value.toInt,
        enqueue (s.requested p) ⟨portRequester p, x, x.clampValue s.cu.calibration value.toInt,
          if s.ca.owner = some p then .openGroup else .ungrouped⟩) := by
  have waits : (if s.ca.owner = some p then GroupMark.openGroup else .ungrouped) = .ungrouped →
      (s.requested p).pe.frameState ≠ .noInput := fun hm => by
    rcases howner with h | h
    · simpa using hframe h
    · rw [if_pos h] at hm
      cases hm
  refine (editRequest_of_passed (by simpa using hl) (by simpa using howner)).trans ?_
  rw [State.requested_owner, submit_of_queued hj waits, State.requested_cu]

/-- The judgement of a submission depends on the slots and the queue alone. -/
theorem judgeSubmission_requested (s : State) (p : Port) (id : Byte) (v : Int) :
    judgeSubmission (s.requested p) id v = judgeSubmission s id v := by
  unfold judgeSubmission
  simp only [State.requested_slot, State.requested_cu]

/-- The slot counts after an entry has joined the queue (R89). -/
theorem slot_enqueue (s : State) (e : Entry) (i : Fin 8) :
    (enqueue s e).slot i =
      if e.boundSlot = some i then { s.slot i with references := (s.slot i).references + 1 } else s.slot i :=
  raiseReference_get s.slots e.boundSlot i

/-- Settles O29, by the tests in their order; the accepted entry joins the tail of the queue. -/
theorem editJudged : Obligations.EditJudged := by
  intro p id value s ho hf v refused passedOn
  obtain ⟨unnamed, judged⟩ := judgeSubmission_spec s id v
  have refuse : ∀ {r}, passedOn → judgeSubmission s id v = .error r → refused r := fun hpass hj =>
    ⟨_, rfl, edit_refused ho hf hpass.1 hpass.2 ((judgeSubmission_requested s p id v).trans hj)⟩
  refine ⟨fun hl => ⟨_, rfl, portRequest_refused ho hf ?_⟩, fun hl hother hany => ⟨_, rfl, portRequest_refused ho hf ?_⟩,
    fun hpass hid => refuse hpass (unnamed hid), fun hpass x hx => ?_⟩
  · simp [answerRequest, editRequest, hl]
  · simp [answerRequest, editRequest, hl, hother, Option.isSome_iff_ne_none.2 hany]
  intro named ready entryValue
  obtain ⟨badSlot, tests⟩ := judged x hx
  have named_iff : named ↔ (x.isBinding = true → x.namesSlot v = true) := imp_congr_right fun _ => (namesSlot_iff x v).symm
  rw [named_iff]
  refine ⟨fun hn => refuse hpass (badSlot hn), fun hn hr => refuse hpass ((tests hn).1 hr),
    fun hn hr hq => refuse hpass (((tests hn).2 hr).1 hq), fun hn hr hq hframe hrange _ => ?_⟩
  have hj : judgeSubmission (s.requested p) id v = .ok x :=
    (judgeSubmission_requested s p id v).trans (((tests hn).2 hr).2 hq)
  have value_eq : x.clampValue s.cu.calibration v = entryValue := clampValue_eq ((rangeLaw_iff s).1 hrange).2.2 x v
  have hb := edit_queued hpass.1 hpass.2 hj hframe
  rw [value_eq] at hb
  have same := unchangedBut_enqueue (s.requested p)
    ⟨portRequester p, x, entryValue, if s.ca.owner = some p then .openGroup else .ungrouped⟩
  obtain ⟨-, -, left, -⟩ := portRequest_answered ho hf hb same (by simp)
  refine ⟨_, rfl, portRequest_answers ho hf hb same (by simp) (by simp) (by simp [enqueue]), ?_, fun i => ?_⟩
  · exact (left.2 .queue (by simp)).trans (by simp [enqueue])
  · refine (congrArg (Tab.get · i) (left.2 .slots (by simp))).trans ((slot_enqueue _ _ i).trans ?_)
    rw [State.requested_slot, ← value_eq]
    exact congrArg (fun b => if b = some i then _ else _) (boundSlot_clampValue s.cu.calibration x v)

end Sys2Proof.Machine
end

section
/-! O30: an EDIT that NO_INPUT applies at once (R93). -/

namespace Sys2Proof.Machine

theorem portRequester_ne_tracker (p : Port) : portRequester p ≠ .tracker := by cases p <;> decide

/-- A port's entry is applied at its turn: none but the tracker's are discarded (R97). -/
theorem items_applyEntry_port (kind : PassKind) (w : Pass) (p : Port) (x : Field) (v : Int) (mark : GroupMark) :
    (applyEntry kind w ⟨portRequester p, x, v, mark⟩).items = pushItem w.items ⟨portRequester p, x, .applied⟩ := by
  rw [applyEntry_of_applied (Bool.eq_false_iff.2 fun h => portRequester_ne_tracker p ((discards_iff _ _ _).1 h).2.1)]

/-- An EDIT accepted in NO_INPUT with the group FREE. -/
theorem edit_applied {p : Port} {id : Byte} {value : Word} {s : State} {x : Field} (hl : s.ca.outcome p ≠ .expired)
    (howner : s.ca.owner = none) (hj : judgeSubmission (s.requested p) id value.toInt = .ok x)
    (hframe : s.pe.frameState = .noInput) :
    answerRequest p (.edit id value) (s.requested p) =
      (acceptedResult (x.clampValue s.cu.calibration value.toInt) value.toInt,
        runPass .noInput (enqueue (s.requested p)
          ⟨portRequester p, x, x.clampValue s.cu.calibration value.toInt, .ungrouped⟩)) := by
  refine (editRequest_of_passed (by simpa using hl) (.inl (by simpa using howner))).trans ?_
  rw [State.requested_owner, if_neg (by simp [howner]), submit_of_applied hj (by simpa using hframe), State.requested_cu]

/-- A pass in NO_INPUT over one entry that has joined an empty queue: the reference raised is released (R89, R91, R93). -/
theorem passAlone {s : State} {e : Entry} (hq : s.cu.queue = []) (he : e.mark = .ungrouped) :
    s.passMade .noInput [e] (runPass .noInput (enqueue s e)) ∧ (runPass .noInput (enqueue s e)).cu.queue = [] ∧
      (runPass .noInput (enqueue s e)).cu.appliedChanges = (applyEntry .noInput (Pass.begin s.cu) e).items ∧
      ∀ i, ((runPass .noInput (enqueue s e)).slot i).references = (s.slot i).references := by
  have queue : (enqueue s e).cu.queue = [e] := by simp [enqueue, hq]
  have due : dueEntries (enqueue s e).cu.queue = [e] := by simp [queue, dueEntries, he]
  refine ⟨queue ▸ passMade_runPass .noInput s (enqueue s e) rfl rfl rfl rfl rfl fun i => ?_, ?_, ?_, fun i => ?_⟩
  · rw [slot_enqueue]
    split <;> exact ⟨rfl, rfl, rfl, rfl, rfl⟩
  · change waitingEntries (enqueue s e).cu.queue = []
    simp [queue, waitingEntries, he]
  · change (applyDue .noInput (enqueue s e).cu).items = _
    unfold applyDue
    rw [due]
    rfl
  · rw [slot_runPass, due, slot_enqueue, namingCount_singleton]
    split <;> simp

/-- Settles O30: the entry is judged and queued, and the pass over it is made before the answer. -/
theorem editAppliedInNoInput : Obligations.EditAppliedInNoInput := by
  intro p id value s x ho hf hl howner hframe hq hid hnamed hready
  have hj : judgeSubmission (s.requested p) id value.toInt = .ok x := by
    rw [judgeSubmission_requested]
    exact ((((judgeSubmission_spec s id value.toInt).2 x hid).2 hnamed).2 hready).2 (by simp [hq])
  have hb := edit_applied hl howner hj hframe
  generalize x.clampValue s.cu.calibration value.toInt = v at hb ⊢
  have same := State.unchangedBut_trans (c := [.queue, .slots, .fields, .derived, .appliedChanges, .frameContext, .tracker])
    (unchangedBut_enqueue (s.requested p) ⟨portRequester p, x, v, .ungrouped⟩) (unchangedBut_runPass .noInput _)
    (by simp) (by simp)
  obtain ⟨pass, queue, items, references⟩ :=
    passAlone (s := s.requested p) (e := ⟨portRequester p, x, v, .ungrouped⟩) (by simpa using hq) rfl
  have howner' : (runPass .noInput (enqueue (s.requested p) ⟨portRequester p, x, v, .ungrouped⟩)).ca.owner = s.ca.owner :=
    (same.2 .group (by simp)).1.trans (s.requested_owner p)
  obtain ⟨answered, timer, framed⟩ := portRequest_answers ho hf hb same (by simp) (by simp) howner'
  obtain ⟨-, -, left, -⟩ := portRequest_answered ho hf hb same (by simp)
  generalize runPass .noInput (enqueue (s.requested p) ⟨portRequester p, x, v, .ungrouped⟩) = u at pass queue items references left
  have emptied := (left.2 .queue (by simp)).trans queue
  refine ⟨_, exec_requestCommand p (.edit id value) s, ⟨answered, timer, State.unchangedBut_narrow framed ?_⟩, ?_, emptied, ?_, fun i => ?_⟩
  · have stands : s.agrees (portRequest p (.edit id value) s) .queue := emptied.trans hq.symm
    simp [stands]
  · exact passMade_of_source (passMade_of_unchangedBut pass left (by simp)) (by simp) (by simp) (by simp)
  · rw [show (portRequest p (.edit id value) s).cu.appliedChanges = _ from (left.2 .appliedChanges (by simp)).trans items,
      items_applyEntry_port]
    exact pushItem_getLast? _ _
  · rw [show (portRequest p (.edit id value) s).slot i = u.slot i from congrArg (Tab.get · i) (left.2 .slots (by simp)),
      references i, State.requested_slot]

end Sys2Proof.Machine
end

section
/-! O32 and O33: a group closed, alone or with a last entry (R90, R94, R111, R112, R116). -/

namespace Sys2Proof.Machine

/-! ## GROUP CLOSE (R111, R116) -/

/-- The parts that a close changes, the pass of NO_INPUT included (R111). -/
abbrev closeParts : List Part :=
  [.inactivityTimer, .group, .queue, .appliedChanges, .derived, .fields, .slots, .tracker, .frameContext]

theorem unchangedBut_requested (s : State) (p : Port) :
    s.unchangedBut (s.requested p) [.port p, .inactivityTimer, .grantOrder] :=
  State.unchangedBut_trans (closeSelection_spec s p).2.2 (unchangedBut_granted _ _) (by simp) (by simp)

theorem groupClose_of_owner {p : Port} {s : State} (hl : s.ca.outcome p ≠ .expired) (howner : s.ca.owner = some p) :
    answerRequest p .groupClose (s.requested p) = (.done, closeGroup p (s.requested p)) := by
  simp [answerRequest, groupCloseRequest, hl, howner]

/-- Settles O32: the two refusals, and the close, whose pass in NO_INPUT is over the whole closed group. -/
theorem groupClosed : Obligations.GroupClosed := by
  intro p s ho hf closed
  refine ⟨fun hl => ⟨_, rfl, portRequest_refused ho hf ?_⟩, fun hl hn => ⟨_, rfl, portRequest_refused ho hf ?_⟩,
    fun hl howner => ?_⟩
  · simp [answerRequest, groupCloseRequest, hl]
  · simp [answerRequest, groupCloseRequest, hl, hn]
  have hb := groupClose_of_owner hl howner
  obtain ⟨answered, timer, left, -⟩ := portRequest_answered ho hf hb (unchangedBut_closeGroup p _) (by simp)
  obtain ⟨free, outcome, others, stopped, note, waits, passes⟩ := closeGroup_spec p (s.requested p)
  have pass := closeGroup_pass p (s.requested p)
  have begun := unchangedBut_requested s p
  simp only [State.requested_cu, State.requested_pe, State.requested_outcome, State.requested_expiryNote,
    State.requested_slot] at others note waits passes pass
  generalize closeGroup p (s.requested p) = u at *
  obtain ⟨owner, outcomes, notes⟩ := agrees_group (left.2 .group (by simp))
  refine ⟨_, exec_requestCommand p .groupClose s, answered, owner.trans free, (outcomes p).trans outcome,
    fun q hq => (outcomes q).trans (others q hq), by simpa [free, stopped] using timer, notes.trans note, fun hn => ?_, fun hn => ?_⟩
  · obtain ⟨queue, framed⟩ := waits hn
    refine ⟨(left.2 .queue (by simp)).trans queue, ?_⟩
    exact State.unchangedBut_trans begun (State.unchangedBut_trans (c := [.port p, .inactivityTimer, .group, .queue])
      framed left (by simp) (by simp)) (by simp) (by simp)
  · obtain ⟨made, framed⟩ := passes hn
    obtain ⟨emptied, items, references⟩ := pass hn
    refine ⟨passMade_of_source (passMade_of_unchangedBut made left (by simp)) (by simp) (by simp) (by simp),
      (left.2 .queue (by simp)).trans emptied, (left.2 .appliedChanges (by simp)).trans items, fun i => ?_, ?_⟩
    · exact (congrArg (fun slots => (Tab.get slots i).references) (left.2 .slots (by simp))).trans (references i)
    · exact State.unchangedBut_trans begun (State.unchangedBut_trans (c := .port p :: closeParts) framed left (by simp) (by simp))
        (by simp) (by simp)

end Sys2Proof.Machine
end

section
/-! O33: EDIT CLOSE, as EDIT and GROUP CLOSE in one request (R112, R116). -/

namespace Sys2Proof.Machine

/-- The answer to a request: its result set, and the end of its selection (R106, R114, R171). -/
theorem portRequest_eq {p : Port} {r : Request} {s u : State} {result : Result} (ho : s.operating) (hf : s.portFirst p)
    (hb : answerRequest p r (s.requested p) = (result, u)) :
    portRequest p r s = (u.setLastResult p result).restartInactivity p := by
  obtain ⟨a, ha, he⟩ := portCommand_spec p (takeRequest p (answerRequest p r)) s ho
  rw [takeRequest_requested r hf, hb] at ha
  exact he.trans (by rw [ha])

/-- Of a command answered the port keeps its result alone. -/
theorem port_of_answered {s t u : State} {p : Port} {r : Result} (ht : s.answered t p r) (hu : s.answered u p r) :
    t.port p = u.port p := by
  obtain ⟨tselection, tresult, tlatch, treading, tshifted⟩ := ht
  obtain ⟨uselection, uresult, ulatch, ureading, ushifted⟩ := hu
  cases h : t.port p
  cases h' : u.port p
  simp_all

/-- An EDIT from the owner is a submission to its group (R110). -/
theorem edit_of_owner {p : Port} {s : State} (id : Byte) (value : Word) (hl : s.ca.outcome p ≠ .expired)
    (howner : s.ca.owner = some p) :
    answerRequest p (.edit id value) (s.requested p) = submit (portRequester p) .openGroup id value.toInt (s.requested p) := by
  refine (editRequest_of_passed (by simpa using hl) (.inr (by simpa using howner))).trans ?_
  rw [State.requested_owner, if_pos howner]

/-- EDIT CLOSE from the owner: the EDIT's answer, with the group closed where the entry was accepted (R112). -/
theorem editClose_of_owner {p : Port} {s u : State} {id : Byte} {value : Word} {r : Result} (hl : s.ca.outcome p ≠ .expired)
    (howner : s.ca.owner = some p) (hedit : answerRequest p (.edit id value) (s.requested p) = (r, u)) :
    (r = .done ∨ r = .clamped → answerRequest p (.editClose id value) (s.requested p) = (r, closeGroup p u)) ∧
      (r ≠ .done → r ≠ .clamped → answerRequest p (.editClose id value) (s.requested p) = (r, u)) := by
  rw [edit_of_owner id value hl howner] at hedit
  change (_ → editCloseRequest p id value (s.requested p) = _) ∧ (_ → _ → editCloseRequest p id value (s.requested p) = _)
  unfold editCloseRequest
  rw [if_neg (by simpa using hl), if_pos (by simpa using howner), hedit]
  refine ⟨fun h => ?_, fun hd hc => ?_⟩
  · rcases h with rfl | rfl <;> rfl
  · split
    · next h => exact absurd (congrArg Prod.fst h) hd
    · next h => exact absurd (congrArg Prod.fst h) hc
    · rfl

/-- What an accepted EDIT CLOSE leaves beside the EDIT that it holds (R112, R114). -/
theorem editClose_accepted {p : Port} {s q : State} {id : Byte} {value : Word} {r : Result} (ho : s.operating)
    (hf : s.portFirst p) (hedit : answerRequest p (.edit id value) (s.requested p) = (r, q))
    (hclose : answerRequest p (.editClose id value) (s.requested p) = (r, closeGroup p q))
    (hq : (s.requested p).unchangedBut q [.queue, .slots, .fields, .derived, .appliedChanges, .frameContext, .tracker]) :
    let u := portRequest p (.edit id value) s
    let t := portRequest p (.editClose id value) s
    let closed := u.cu.queue.map fun e => if e.mark = .openGroup then { e with mark := .closedGroup } else e
    s.answered t p r ∧ t.ca.owner = none ∧ t.ca.outcome p = .noGroup ∧ (∀ k, k ≠ p → t.ca.outcome k = s.ca.outcome k) ∧
      t.ca.inactivityTimer = none ∧ t.ca.expiryNote = s.ca.expiryNote ∧
      (s.pe.frameState ≠ .noInput → t.cu.queue = closed ∧ u.unchangedBut t [.inactivityTimer, .group, .queue]) ∧
      (s.pe.frameState = .noInput → u.passMade .noInput closed t ∧ t.cu.queue = [] ∧
        t.cu.appliedChanges = (closed.foldl (applyEntry .noInput) (Pass.begin u.cu)).items ∧
        (∀ i, (t.slot i).references = (u.slot i).references - namingCount closed i) ∧ u.unchangedBut t closeParts) := by
  intro u t closed
  have whole : (s.requested p).unchangedBut (closeGroup p q) closeParts :=
    State.unchangedBut_trans hq (unchangedBut_closeGroup p q) (by simp) (by simp)
  obtain ⟨edited, -, editLeft, -⟩ := portRequest_answered ho hf hedit hq (by simp)
  obtain ⟨answered, timer, left, -⟩ := portRequest_answered ho hf hclose whole (by simp)
  have ucu : u.cu = q.cu := (congrArg State.cu (portRequest_eq ho hf hedit)).trans (by simp)
  have uslots : u.slots = q.slots := (congrArg State.slots (portRequest_eq ho hf hedit)).trans (by simp)
  have uit : u.it = q.it := (congrArg State.it (portRequest_eq ho hf hedit)).trans (by simp)
  have hclosed : q.cu.queue.map (fun e => if e.mark = .openGroup then { e with mark := .closedGroup } else e) = closed := by
    rw [← ucu]
  obtain ⟨free, outcome, others, stopped, note, waits, passes⟩ := closeGroup_spec p q
  have pass := closeGroup_pass p q
  obtain ⟨-, begunOutcomes, begunNote⟩ := agrees_group (hq.2 .group (by simp))
  have frame : q.pe.frameState = s.pe.frameState := (hq.2 .engine (by simp)).1.trans (by simp)
  simp only [frame, hclosed] at waits passes pass
  generalize closeGroup p q = v at *
  obtain ⟨owner, outcomes, notes⟩ := agrees_group (left.2 .group (by simp))
  have port : u.agrees t (.port p) := port_of_answered answered edited
  have framed : ∀ {parts : List Part}, q.unchangedBut v parts → .inactivityTimer ∈ parts → u.unchangedBut t parts :=
    fun {parts} h ht => by
      have wide : u.unchangedBut t (.port p :: .inactivityTimer :: parts) :=
        State.unchangedBut_trans (State.unchangedBut_symm editLeft)
          (State.unchangedBut_trans (c := .port p :: .inactivityTimer :: parts) h left (by intro x hx; simp [hx]) (by simp))
          (by simp) (by simp)
      refine State.unchangedBut_narrow wide fun part hpart hn => ?_
      rcases List.mem_cons.1 hpart with rfl | hpart
      · exact port
      rcases List.mem_cons.1 hpart with rfl | hpart
      · exact absurd ht hn
      · exact absurd hpart hn
  refine ⟨answered, owner.trans free, (outcomes p).trans outcome, fun k hk => ?_, by simpa [free, stopped] using timer, ?_,
    fun hn => ?_, fun hn => ?_⟩
  · exact ((outcomes k).trans (others k hk)).trans ((begunOutcomes k).trans (s.requested_outcome p k))
  · exact (notes.trans note).trans (begunNote.trans (s.requested_expiryNote p))
  · exact ⟨(left.2 .queue (by simp)).trans (waits hn).1, framed (waits hn).2 (by simp)⟩
  · obtain ⟨made, close⟩ := passes hn
    obtain ⟨emptied, items, references⟩ := pass hn
    refine ⟨passMade_of_source (passMade_of_unchangedBut made left (by simp)) ucu uslots uit,
      (left.2 .queue (by simp)).trans emptied, ?_, fun i => ?_, framed close (by simp)⟩
    · rw [ucu]
      exact (left.2 .appliedChanges (by simp)).trans items
    · rw [show u.slot i = q.slot i from congrArg (Tab.get · i) uslots]
      exact (congrArg (fun slots => (Tab.get slots i).references) (left.2 .slots (by simp))).trans (references i)

/-- Settles O33: the two refusals, a refused entry, an accepted one, and the answer where the tests of R87 pass. -/
theorem editClosed : Obligations.EditClosed := by
  intro p id value s ho hf refused
  have accepted : s.ca.outcome p ≠ .expired → s.ca.owner = some p → ∃ r q,
      answerRequest p (.edit id value) (s.requested p) = (r, q) ∧
      (s.requested p).unchangedBut q [.queue, .slots, .fields, .derived, .appliedChanges, .frameContext, .tracker] :=
    fun hl howner => ⟨_, _, edit_of_owner id value hl howner, unchangedBut_submit _ _ _ _ _⟩
  refine ⟨fun hl => ⟨_, rfl, portRequest_refused ho hf ?_⟩, fun hl hn => ⟨_, rfl, portRequest_refused ho hf ?_⟩,
    fun hl howner => ?_, fun hl howner x hx hnamed hready hroom => ?_⟩
  · simp [answerRequest, editCloseRequest, hl]
  · simp [answerRequest, editCloseRequest, hl, hn]
  · obtain ⟨r, q, hedit, hq⟩ := accepted hl howner
    obtain ⟨close, keep⟩ := editClose_of_owner hl howner hedit
    obtain ⟨⟨-, result, -⟩, -⟩ := portRequest_answered ho hf hedit hq (by simp)
    refine ⟨_, exec_requestCommand p (.edit id value) s, ?_⟩
    rw [result]
    refine ⟨fun hd hc => ?_, fun hr => ⟨_, exec_requestCommand p (.editClose id value) s,
      editClose_accepted ho hf hedit (close hr) hq⟩⟩
    have same : portRequest p (.editClose id value) s = portRequest p (.edit id value) s :=
      (portRequest_eq ho hf (keep hd hc)).trans (portRequest_eq ho hf hedit).symm
    exact congrArg Host.Outcome.next same
  · have hj : judgeSubmission (s.requested p) id value.toInt = .ok x :=
      (judgeSubmission_requested s p id value.toInt).trans
        (((((judgeSubmission_spec s id value.toInt).2 x hx).2 hnamed).2 hready).2 hroom)
    have hedit := edit_queued hl (.inr howner) hj (fun h => by rw [howner] at h; cases h)
    rw [if_pos howner] at hedit
    have hr : ∀ v, acceptedResult v value.toInt = .done ∨ acceptedResult v value.toInt = .clamped := fun v => by
      unfold acceptedResult
      split <;> simp
    have hq := State.unchangedBut_mono (unchangedBut_enqueue (s.requested p) ⟨portRequester p, x,
      x.clampValue s.cu.calibration value.toInt, .openGroup⟩)
      (show [Part.queue, .slots] ⊆ [.queue, .slots, .fields, .derived, .appliedChanges, .frameContext, .tracker] by simp)
    obtain ⟨answered, owner, -, -, -, -, waits, -⟩ :=
      editClose_accepted ho hf hedit ((editClose_of_owner hl howner hedit).1 (hr _)) hq
    refine ⟨_, exec_requestCommand p (.editClose id value) s, answered, owner, fun hn => (waits hn).1.trans ?_⟩
    rw [portRequest_eq ho hf hedit]
    simp [enqueue]

end Sys2Proof.Machine
end

section
/-! O34: the group ended without being applied, and the inactivity timer after the owner's commands (R113 to R117). -/

namespace Sys2Proof.Machine

/-! ## The inactivity timer after a command of the owner (R114, R117) -/

/-- A port owns the group, or no group is open and the timer is stopped. -/
def State.ownedOrFree (s : State) (p : Port) : Prop :=
  s.ca.owner = some p ∨ (s.ca.owner = none ∧ s.ca.inactivityTimer = none)

/-- A port owns the group with the timer at 0, or no group is open and the timer is stopped: so a command of the owner leaves
them (R114). -/
def State.restarted (s : State) (p : Port) : Prop :=
  (s.ca.owner = some p ∧ s.ca.inactivityTimer = some 0) ∨ (s.ca.owner = none ∧ s.ca.inactivityTimer = none)

theorem State.restarted.ownedOrFree {s : State} {p : Port} (h : s.restarted p) : s.ownedOrFree p := h.imp And.left id

theorem State.ownedOrFree.restart {s : State} {p : Port} (h : s.ownedOrFree p) : (s.restartInactivity p).restarted p := by
  unfold State.restartInactivity
  rcases h with h | ⟨h, ht⟩
  · rw [if_pos h]
    exact .inl ⟨h, rfl⟩
  · rw [if_neg (by simp [h])]
    exact .inr ⟨h, ht⟩

theorem ownedOrFree_of_ca {s t : State} {p : Port} (h : t.ca = s.ca) (hs : s.ownedOrFree p) : t.ownedOrFree p := by
  unfold State.ownedOrFree
  rw [h]
  exact hs

theorem State.ownedOrFree.endSelection {s : State} {p : Port} (h : s.ownedOrFree p) : (s.endSelection p).restarted p :=
  State.ownedOrFree.restart (ownedOrFree_of_ca (State.deselect_ca s p) h)

theorem restarted_discardSelection {s : State} {p : Port} (r : Result) (hr : s.resetLine = false) (h : s.ca.owner = some p) :
    (discardSelection p r s).restarted p := by
  unfold discardSelection
  rw [if_neg (by simp [hr])]
  exact State.ownedOrFree.restart (.inl (by simpa using h))

/-- A command whose body leaves the owner, or ends the group with its timer. -/
theorem restarted_portCommand {s : State} {p : Port} {body : State → Result × State} (hr : s.resetLine = false)
    (h : s.ca.owner = some p) (hbody : ∀ u : State, u.ca.owner = some p → (body u).2.ownedOrFree p) :
    (portCommand p body s).restarted p := by
  unfold portCommand
  rw [if_neg (by simp [hr])]
  refine State.ownedOrFree.restart (ownedOrFree_of_ca (State.setLastResult_ca _ p _) ?_)
  split
  · exact .inl (by simpa using h)
  · exact hbody _ (by simpa using h)

theorem ownedOrFree_closeGroup (p : Port) (s : State) : (closeGroup p s).ownedOrFree p := by
  obtain ⟨free, -, -, stopped, -⟩ := closeGroup_spec p s
  exact .inr ⟨free, stopped⟩

/-- A request of the owner leaves its group open, or ends it with its timer (R108 to R113). -/
theorem ownedOrFree_answerRequest {p : Port} {s : State} (r : Request) (h : s.ca.owner = some p) :
    (answerRequest p r s).2.ownedOrFree p := by
  have submitted : ∀ mark id v, (submit (portRequester p) mark id v s).2.ca.owner = some p := fun mark id v =>
    ((unchangedBut_submit _ _ _ _ s).2 .group (by simp)).1.trans h
  cases r with
  | edit id value =>
    change (editRequest p id value s).2.ownedOrFree p
    unfold editRequest
    split
    · exact .inl h
    · exact .inl (submitted _ _ _)
  | editClose id value =>
    change (editCloseRequest p id value s).2.ownedOrFree p
    unfold editCloseRequest
    split
    · exact .inl h
    split
    · exact ownedOrFree_closeGroup p _
    · exact ownedOrFree_closeGroup p _
    · exact .inl (submitted _ _ _)
  | groupOpen =>
    change (groupOpenRequest p s).2.ownedOrFree p
    unfold groupOpenRequest
    rw [if_pos (by simp [h])]
    exact .inl h
  | groupClose =>
    change (groupCloseRequest p s).2.ownedOrFree p
    unfold groupCloseRequest
    split
    · exact .inl h
    · exact ownedOrFree_closeGroup p s
  | groupAbandon =>
    change (groupAbandonRequest p s).2.ownedOrFree p
    unfold groupAbandonRequest
    split
    · exact .inl (by cases p <;> exact h)
    · exact .inr ⟨rfl, rfl⟩

theorem restarted_portRequest {p : Port} {s : State} (r : Request) (hr : s.resetLine = false) (h : s.ca.owner = some p) :
    (portRequest p r s).restarted p := by
  refine restarted_portCommand hr h fun u hu => ownedOrFree_answerRequest r ?_
  split
  · exact ((unchangedBut_takeSubmission u).2 .group (by simp)).1.trans hu
  · exact hu

/-- A command that waits for the rise of its line is one request, or is answered by the slots and the store (R167). -/
theorem commandPort_cases {c : Instr} {p : Port} (h : commandPort c = some p) :
    (∃ r, c = requestCommand p r none) ∨ (isPortCommand c = true ∧ isEdit c = false) := by
  cases c
  case edit q id value beside =>
    cases beside with
    | none => exact .inl ⟨.edit id value, by rw [← Option.some.inj h]; rfl⟩
    | some _ => cases h
  case editClose q id value beside =>
    cases beside with
    | none => exact .inl ⟨.editClose id value, by rw [← Option.some.inj h]; rfl⟩
    | some _ => cases h
  case groupOpen q beside =>
    cases beside with
    | none => exact .inl ⟨.groupOpen, by rw [← Option.some.inj h]; rfl⟩
    | some _ => cases h
  case groupClose q beside =>
    cases beside with
    | none => exact .inl ⟨.groupClose, by rw [← Option.some.inj h]; rfl⟩
    | some _ => cases h
  case groupAbandon q beside =>
    cases beside with
    | none => exact .inl ⟨.groupAbandon, by rw [← Option.some.inj h]; rfl⟩
    | some _ => cases h
  all_goals simp [commandPort] at h
  all_goals exact .inr ⟨rfl, rfl⟩

/-- After a command of the owner the timer runs from 0 again, or is stopped with the group ended (R114, R117). -/
theorem restarted_commandPort {p : Port} {c : Instr} {s t : State} (hc : commandPort c = some p) (hr : s.resetLine = false)
    (h : s.ca.owner = some p) (he : exec c s = .next t) : t.restarted p := by
  rcases commandPort_cases hc with ⟨r, rfl⟩ | ⟨hport, hedit⟩
  · rw [exec_requestCommand] at he
    obtain rfl := Host.Outcome.next.inj he
    exact restarted_portRequest r hr h
  · obtain ⟨q, hq, rfl | ⟨body, rfl, hbody⟩⟩ := exec_portCommand_cases hport hedit he <;>
      obtain rfl := Option.some.inj (hc.symm.trans hq)
    · exact restarted_discardSelection .framing hr h
    · exact restarted_portCommand hr h fun u hu => .inl (((hbody u).2 .group (by simp)).1.trans hu)

/-! ## The rise of the owner's select line (R114, R167) -/

theorem frameMeaning_of_read {p : Port} {c : Instr} (hc : (∃ bytes, readPort c = some (p, bytes)) ∨ c = .readStatus p) :
    frameMeaning c = exec c := by
  rcases hc with ⟨bytes, hc⟩ | rfl
  · cases c <;> first | rfl | simp [readPort] at hc
  · rfl

/-- A read leaves its port selected (R168). -/
theorem selection_of_read {p : Port} {c : Instr} {s t : State} (hr : s.resetLine = false)
    (hc : (∃ bytes, readPort c = some (p, bytes)) ∨ c = .readStatus p) (h : exec c s = .next t) :
    (t.port p).selection ≠ .idle := by
  have read : ∀ (received : List Byte) (body : State → Except Result (List Byte)),
      ((portRead p received body s).port p).selection ≠ .idle := fun received body => by
    unfold portRead
    rw [if_neg (by simp [hr])]
    simp only
    split <;> simp
  rcases hc with ⟨bytes, hc⟩ | rfl
  · cases c <;> simp [readPort] at hc <;> obtain ⟨rfl, -⟩ := hc <;> obtain rfl := Host.Outcome.next.inj h
    all_goals exact read _ _
  · obtain rfl := Host.Outcome.next.inj h
    simp [portStatus, hr]

/-- The owner's selection ends with the command that it held (R114, R167). -/
theorem restarted_riseAfterCommand {p : Port} {t : State}
    (h : t.restarted p ∨ (t.ca.owner = some p ∧ t.resetLine = false ∧ (t.port p).selection ≠ .idle)) :
    (riseAfterCommand p t).restarted p := by
  unfold riseAfterCommand
  rcases h with h | ⟨howner, hr, hsel⟩
  · split
    · exact h
    · exact h.ownedOrFree.endSelection
  · rw [if_neg (by simp [hr, hsel])]
    exact State.ownedOrFree.endSelection (.inl howner)

/-- Whatever the owner's selection held, at its rise the timer runs from 0 again, or is stopped with the group ended (R114). -/
theorem restarted_takeSelection {p : Port} {received : List Byte} {part : List Bool} {s t : State} (hr : s.resetLine = false)
    (h : s.ca.owner = some p) (he : takeSelection p (judgeFrame p received part) s = .next t) : t.restarted p := by
  cases hj : judgeFrame p received part with
  | framing =>
    rw [hj] at he
    obtain rfl := Host.Outcome.next.inj he
    exact restarted_discardSelection .framing hr h
  | unknown =>
    rw [hj] at he
    obtain rfl := Host.Outcome.next.inj he
    exact restarted_discardSelection .unknown hr h
  | command c =>
    obtain ⟨u, hu, -⟩ := frameMeaning_parts c s
    rw [hj] at he
    simp only [takeSelection, hu] at he
    obtain rfl := Host.Outcome.next.inj he
    refine restarted_riseAfterCommand ?_
    rcases judgeFrame_command hj with hc | hc
    · rw [frameMeaning_of_commandPort hc] at hu
      exact .inl (restarted_commandPort hc hr h hu)
    · rw [frameMeaning_of_read hc] at hu
      have only := (portOnly_of_read hc hu).unchangedBut
      exact .inr ⟨(only.2 .group (by cases p <;> simp)).1.trans h, (only.2 .resetLine (by cases p <;> simp)).trans hr,
        selection_of_read hr hc hu⟩

theorem restarted_rise {p : Port} {s t : State} (hr : s.resetLine = false) (h : s.ca.owner = some p)
    (hsel : (s.port p).selection ≠ .idle) (he : exec (.selectionEnd (portLine p) .rise) s = .next t) : t.restarted p := by
  have rise : riseOnPort p s = .next t := by
    rw [← he]
    change _ = selectionMoment (portLine p) .rise s
    unfold selectionMoment
    rw [if_neg (by simp [hr])]
    cases p <;> rfl
  unfold riseOnPort at rise
  split at rise
  · next hidle => exact absurd hidle hsel
  split at rise
  · obtain rfl := Host.Outcome.next.inj rise
    exact State.ownedOrFree.endSelection (.inl h)
  · exact restarted_takeSelection hr h rise

end Sys2Proof.Machine
end

section
/-! O34: GROUP ABANDON and the expiry (R113, R115, R117). -/

namespace Sys2Proof.Machine

/-- What a group ended unapplied leaves: its entries gone with their references, the group FREE, its owner's outcome as given
(R90, R91, R113, R115). -/
theorem endedUnapplied (s : State) (p : Port) (o : GroupOutcome) :
    let t := (removeGroupEntries s).freeGroup p o
    t.cu.queue = s.cu.queue.filter (fun e => decide (e.mark ≠ .openGroup)) ∧
      (∀ i, t.slot i = { s.slot i with references :=
        (s.slot i).references - namingCount (s.cu.queue.filter fun e => decide (e.mark = .openGroup)) i }) ∧
      t.ca.owner = none ∧ t.ca.outcome p = o ∧ (∀ q, q ≠ p → t.ca.outcome q = s.ca.outcome q) ∧
      t.ca.inactivityTimer = none ∧ t.ca.expiryNote = s.ca.expiryNote ∧
      s.unchangedBut t [.queue, .slots, .group, .inactivityTimer] := by
  obtain ⟨free, outcome, others, stopped, note, framed⟩ := freeGroup_spec (removeGroupEntries s) p o
  exact ⟨rfl, fun i => releaseReferences_get _ _ i, free, outcome, others, stopped, note,
    State.unchangedBut_trans (unchangedBut_removeGroupEntries s) framed (by simp) (by simp)⟩

theorem unchangedBut_outcome (s : State) (p : Port) (o : GroupOutcome) :
    s.unchangedBut { s with ca := s.ca.setOutcome p o } [.group] :=
  State.unchangedBut_narrow (unchangedBut_group s _ (by cases p <;> rfl)) (by cases p <;> simp [State.agrees, Arbiter.setOutcome])

/-- The expiry of a group: ended unapplied, its owner's outcome EXPIRED, with the note set (R115, R122). -/
theorem expireGroup_of_owner {s : State} {p : Port} (h : s.ca.owner = some p) :
    let u := (removeGroupEntries s).freeGroup p .expired
    expireGroup s = { u with ca := { u.ca with expiryNote := true } } := by
  unfold expireGroup
  rw [h]

/-- Before 200 ms the timer alone advances (R115). -/
theorem exec_groupExpiry_before {s : State} {k ms : Nat} (hk : s.ca.inactivityTimer = some k) (h : k + ms < 200) :
    exec (.groupExpiry ms) s = .next { s with ca := { s.ca with inactivityTimer := some (k + ms) } } :=
  congrArg Host.Outcome.next (((elapseGroup_spec ms s).2 k hk).2 h)

theorem exec_groupExpiry_stopped {s : State} (ms : Nat) (h : s.ca.inactivityTimer = none) :
    exec (.groupExpiry ms) s = .next s := congrArg Host.Outcome.next ((elapseGroup_spec ms s).1 h)

/-- The expiry after a command of the owner taken first: the timer ran from 0, or is stopped (R117). -/
theorem exec_groupExpiry_restarted {u : State} {p : Port} {ms : Nat} (h : u.restarted p) (hms : ms < 200) :
    (u.ca.owner = some p → exec (.groupExpiry ms) u = .next { u with ca := { u.ca with inactivityTimer := some ms } }) ∧
      (u.ca.owner ≠ some p → u.ca.owner = none ∧ exec (.groupExpiry ms) u = .next u) := by
  rcases h with ⟨howner, htimer⟩ | ⟨hfree, hstopped⟩
  · refine ⟨fun _ => ?_, fun hn => absurd howner hn⟩
    rw [exec_groupExpiry_before htimer (by omega), Nat.zero_add]
  · exact ⟨fun ho => (nomatch hfree.symm.trans ho), fun _ => ⟨hfree, exec_groupExpiry_stopped ms hstopped⟩⟩

/-- Settles O34: the expiry, the timer before it, the command taken first, and GROUP ABANDON. -/
theorem groupEndedUnapplied : Obligations.GroupEndedUnapplied := by
  intro s kept dropped released
  refine ⟨fun p k ms howner hk hms => ?_, fun k ms hk hms => exec_groupExpiry_before hk hms,
    fun ms h => exec_groupExpiry_stopped ms h, fun p c ms hr howner hc hms => ?_, fun p ho hf => ⟨fun hl howner => ?_,
    fun hl => ?_, fun hl hn => ⟨_, rfl, portRequest_refused ho hf ?_⟩⟩⟩
  · obtain ⟨queue, slots, free, outcome, others, stopped, -, framed⟩ := endedUnapplied s p .expired
    have expired : exec (.groupExpiry ms) s = .next (expireGroup s) :=
      congrArg Host.Outcome.next (((elapseGroup_spec ms s).2 k hk).1 hms)
    rw [expireGroup_of_owner howner] at expired
    exact ⟨_, expired, queue, slots, free, outcome, others, rfl, stopped, exec_unchangedBut expired⟩
  · rcases hc with hc | ⟨rfl, hsel⟩
    · obtain ⟨u, hu, -⟩ := exec_commandParts c (isSelection_of_commandPort hc) s
      exact ⟨u, hu, exec_groupExpiry_restarted (restarted_commandPort hc hr howner hu) hms⟩
    · obtain ⟨u, hu, -⟩ := exec_changes (.selectionEnd (portLine p) .rise) s
      exact ⟨u, hu, exec_groupExpiry_restarted (restarted_rise hr howner hsel hu) hms⟩
  · have hb : answerRequest p .groupAbandon (s.requested p) =
        (.done, (removeGroupEntries (s.requested p)).freeGroup p .noGroup) := by
      simp [answerRequest, groupAbandonRequest, hl, howner]
    obtain ⟨queue, slots, free, outcome, others, stopped, note, framed⟩ := endedUnapplied (s.requested p) p .noGroup
    obtain ⟨answered, timer, left, whole⟩ := portRequest_answered ho hf hb framed (by simp)
    simp only [State.requested_cu, State.requested_slot, State.requested_outcome, State.requested_expiryNote]
      at queue slots others note
    generalize (removeGroupEntries (s.requested p)).freeGroup p .noGroup = u at *
    obtain ⟨owner, outcomes, notes⟩ := agrees_group (left.2 .group (by simp))
    refine ⟨_, exec_requestCommand p .groupAbandon s, answered, (left.2 .queue (by simp)).trans queue, fun i => ?_,
      owner.trans free, (outcomes p).trans outcome, fun q hq => (outcomes q).trans (others q hq), notes.trans note,
      by simpa [free, stopped] using timer, State.unchangedBut_mono whole (by simp)⟩
    exact (congrArg (Tab.get · i) (left.2 .slots (by simp))).trans (slots i)
  · have hb : answerRequest p .groupAbandon (s.requested p) =
        (.done, { s.requested p with ca := (s.requested p).ca.setOutcome p .noGroup }) := by
      simp [answerRequest, groupAbandonRequest, hl]
    have framed := unchangedBut_outcome (s.requested p) p .noGroup
    obtain ⟨-, -, left, -⟩ := portRequest_answered ho hf hb framed (by simp)
    obtain ⟨owner, outcomes, notes⟩ := agrees_group (left.2 .group (by simp))
    have sameOwner : ((s.requested p).ca.setOutcome p .noGroup).owner = s.ca.owner := by cases p <;> simp [Arbiter.setOutcome]
    have sameNote : ((s.requested p).ca.setOutcome p .noGroup).expiryNote = s.ca.expiryNote := by
      cases p <;> simp [Arbiter.setOutcome]
    refine ⟨_, exec_requestCommand p .groupAbandon s, portRequest_answers ho hf hb framed (by simp) (by simp) sameOwner,
      owner.trans sameOwner, (outcomes p).trans ?_, fun q hq => (outcomes q).trans ?_, notes.trans sameNote⟩
    · exact (outcome_setOutcome _ p p _).trans (if_pos rfl)
    · exact (outcome_setOutcome _ p q _).trans ((if_neg hq.symm).trans (s.requested_outcome p q))
  · simp [answerRequest, groupAbandonRequest, hl, hn]

end Sys2Proof.Machine
end

section
/-! O39: the reads other than READ STATUS (R58, R82, R83, R103, R132, R133, R153, R168, R180). -/

namespace Sys2Proof.Machine

/-! ## A reply shifted out (R165, R168) -/

/-- What the bytes that the host clocks after a read shift out: the reply once, then zeros. -/
def State.shiftsOut (t : State) (p : Port) (received bytes : List Byte) : Prop :=
  ∀ sent : List Byte, ∃ u, exec (.selectionEnd (portLine p) (.clocked (sent.flatMap byteBits))) t = .next u ∧
    u.port p = { t.port p with
      selection := .selected (received ++ sent) [],
      reading := some { reply := bytes, repeated := false, position := min sent.length bytes.length },
      shifted := List.replicate received.length 0 ++ (List.range sent.length).map fun k => bytes.getD k 0 } ∧
    t.unchangedBut u [.port p]

/-- A read is answered with a reply, and the reply is shifted out. -/
def State.readGives (s : State) (c : Instr) (p : Port) (received bytes : List Byte) (r : Result) : Prop :=
  ∃ t, exec c s = .next t ∧
    s.readAnswered t p received (some { reply := bytes, repeated := false, position := 0 }) r ∧ t.shiftsOut p received bytes

theorem exec_clocked {p : Port} {bits : List Bool} {t : State} (hr : t.resetLine = false) :
    exec (.selectionEnd (portLine p) (.clocked bits)) t = bitsOnLine (portLine p) bits t := by
  change selectionMoment (portLine p) (.clocked bits) t = _
  unfold selectionMoment
  exact if_neg (by simp [hr])

theorem shiftsOut_of_readAnswered {s t : State} {p : Port} {received bytes : List Byte} {r : Result} (hs : s.resetLine = false)
    (h : s.readAnswered t p received (some { reply := bytes, repeated := false, position := 0 }) r) :
    t.shiftsOut p received bytes := by
  obtain ⟨hport, -, framed⟩ := h
  have hr : t.resetLine = false := (framed.2 .resetLine (by simp)).trans hs
  intro sent
  rw [exec_clocked hr]
  cases sent with
  | nil =>
    refine ⟨t, rfl, ?_, State.unchangedBut_refl _ _⟩
    rw [hport]
    simp
  | cons b rest =>
    refine ⟨_, bitsOnPort_reply p (b :: rest) received _ t (by rw [hport]) (by rw [hport]) (by simp), ?_,
      t.unchangedBut_setPort p _⟩
    rw [State.port_setPort_self, hport]
    simp

/-- A read of an operating part, its reply formed. -/
theorem readGives_of_ok {s : State} {c : Instr} {p : Port} {received bytes : List Byte}
    {body : State → Except Result (List Byte)} (ho : s.operating) (hc : exec c s = .next (portRead p received body s))
    (hb : body (s.closeSelection p) = .ok bytes) : s.readGives c p received bytes .done :=
  ⟨_, hc, portRead_ok ho hb, shiftsOut_of_readAnswered ho.1 (portRead_ok ho hb)⟩

/-- A read of an operating part, refused. -/
theorem readGives_of_error {s : State} {c : Instr} {p : Port} {received : List Byte} {r : Result}
    {body : State → Except Result (List Byte)} (ho : s.operating) (hc : exec c s = .next (portRead p received body s))
    (hb : body (s.closeSelection p) = .error r) : s.readGives c p received [] r :=
  ⟨_, hc, portRead_error ho hb, shiftsOut_of_readAnswered ho.1 (portRead_error ho hb)⟩

/-! ## The replies (R180) -/

theorem length_intBytes (k : Nat) (x : Int) : (intBytes k x).length = k := natBytes_length _ _

theorem length_summaryBytes (free : Nat) (summary : Option EvaluationSummary) : (summaryBytes free summary).length = 20 := by
  cases summary with
  | none => rfl
  | some x => simp [summaryBytes, natBytes_length, length_intBytes]

theorem length_trackerReply (s : State) : (trackerReply s).length = 33 := by
  simp [trackerReply, natBytes_length, length_summaryBytes]

theorem length_zoneBytes (z : ZoneResult) : z.bytes.length = 38 := by
  simp [ZoneResult.bytes, natBytes_length]

/-- Of pieces of one length, joined, each stands at its place. -/
theorem take_drop_flatMap {α β : Type} {f : α → List β} {m : Nat} (hf : ∀ a, (f a).length = m) (l : List α) (k : Nat)
    (hk : k < l.length) : ((l.flatMap f).drop (m * k)).take m = f l[k] := by
  induction l generalizing k with
  | nil => cases hk
  | cons a rest ih =>
    rw [List.flatMap_cons]
    cases k with
    | zero => simp [hf]
    | succ k =>
      have later : m * (k + 1) = (f a).length + m * k := by rw [hf, Nat.mul_succ, Nat.add_comm]
      rw [later, List.drop_append, List.drop_eq_nil_of_le (Nat.le_add_right _ _), List.getElem_cons_succ]
      simpa using ih k (by simpa using hk)

/-- READ DERIVED with a calibration set in use (R58). -/
theorem derivedReply_eq {s : State} {c : CalibrationSet} (hc : s.cu.calibration = some c) :
    let d := s.cu.derived
    derivedReply s = natBytes 2 d.applied ++ [BitVec.ofNat 8 d.interval] ++ natBytes 2 d.ratioRg ++ natBytes 2 d.ratioBg ++
      natBytes 2 d.gainR ++ natBytes 2 d.gainG ++ natBytes 2 d.gainB ++ natBytes 2 d.weight ++ d.interpolated.bytes ++
      d.effective.bytes ++ [(if d.trimSaturated then 1 else 0) + 2 * (if d.exposureSaturated then 1 else 0)] ++
      natBytes 4 c.id.toNat ++ [if s.cu.calFallback then 1 else 0] := by
  unfold derivedReply Derived.saturationByte
  simp only [hc, bitsByte_two]
  rfl

/-- The summary of an evaluation whose submission is answered (R82). -/
theorem summaryBytes_answered {x : EvaluationSummary} {a : TrackerAction} (free : Nat) (ha : x.action = some a) :
    summaryBytes free (some x) = natBytes 4 x.frameNumber.toNat ++ natBytes 2 x.darkFloor ++ natBytes 2 x.acceptRadius ++
      [BitVec.ofNat 8 x.minVotes] ++ intBytes 1 x.bias ++ [BitVec.ofNat 8 x.usableZones, BitVec.ofNat 8 x.votes,
        (if x.median.isSome then 1 else 0) + 2 * (if x.estimate.isSome then 1 else 0) + 4 * (if x.starved then 1 else 0)] ++
      natBytes 2 (x.median.getD 0) ++ natBytes 2 (x.estimate.getD 0) ++ [a.code] ++ natBytes 2 (x.valueSubmitted.getD 0) := by
  unfold summaryBytes EvaluationSummary.presenceByte
  simp only [ha, bitsByte_three, Option.map_some, Option.getD_some]

/-- READ ZONES after an evaluation: the header, then 38 bytes of each zone (R83). -/
theorem zonesReply_of_some {s : State} {z : ZoneResults} (hz : s.it.zoneResults = some z) :
    (zonesReply s).length = 1830 ∧ (zonesReply s).take 6 = natBytes 4 z.frameNumber.toNat ++ natBytes 2 z.darkFloor ∧
      ∀ k : Fin 48, ((zonesReply s).drop (6 + 38 * k.val)).take 38 = (z.zones.get k).bytes := by
  have reply : zonesReply s = natBytes 4 z.frameNumber.toNat ++ natBytes 2 z.darkFloor ++ z.zones.list.flatMap ZoneResult.bytes := by
    unfold zonesReply
    rw [hz]
  have header : (natBytes 4 z.frameNumber.toNat ++ natBytes 2 z.darkFloor).length = 6 := by simp [natBytes_length]
  rw [reply]
  refine ⟨?_, List.take_left' header, fun k => ?_⟩
  · have zones : (z.zones.list.map fun r => r.bytes.length) = List.replicate 48 38 := by
      simp [length_zoneBytes, List.map_const', z.zones.len]
    rw [List.length_append, header, List.length_flatMap, zones]
    rfl
  · rw [← header, List.drop_append, List.drop_eq_nil_of_le (Nat.le_add_right _ _)]
    simpa [Tab.get] using take_drop_flatMap length_zoneBytes z.zones.list k.val (by simp [z.zones.len])

theorem zoneBytes_eq (r : ZoneResult) : r.bytes =
    natBytes 4 r.handed.pixelCount ++ natBytes 4 r.handed.qualifying ++ natBytes 6 r.handed.sumR ++ natBytes 6 r.handed.sumG ++
      natBytes 6 r.handed.sumB ++ [(if r.usable then 1 else 0) + 2 * (if r.voted then 1 else 0)] ++ natBytes 2 r.ratioR ++
      natBytes 2 r.ratioB ++ [BitVec.ofNat 8 r.nearest] ++ natBytes 4 r.distance ++ natBytes 2 r.vote16 := by
  unfold ZoneResult.bytes ZoneResult.flagsByte
  rw [bitsByte_two]

/-- Settles O39, reply by reply. -/
theorem readsAnswered : Obligations.ReadsAnswered := by
  intro p s ho once shiftsOut answersWith refuses flag d
  have answers : ∀ {c received bytes} {body : State → Except Result (List Byte)},
      exec c s = .next (portRead p received body s) → body (s.closeSelection p) = .ok bytes → answersWith c received bytes :=
    readGives_of_ok ho
  have refused : ∀ {c received r} {body : State → Except Result (List Byte)},
      exec c s = .next (portRead p received body s) → body (s.closeSelection p) = .error r → refuses c received r :=
    readGives_of_error ho
  refine ⟨fun id h => refused rfl ?_, fun id x h => answers rfl ?_, fun c h => answers rfl ?_,
    fun summary hnone hsome hanswered => answers rfl ?_, ⟨_, length_trackerReply _, answers rfl rfl⟩,
    fun h => answers rfl ?_, fun z h => ?_, fun id page h => refused rfl ?_,
    fun i id page h => ⟨fun hp => refused rfl ?_, fun hp => answers rfl ?_⟩, fun id h => refused rfl ?_,
    fun i id h => answers rfl ?_, fun n h => refused rfl ?_,
    fun m n h => ⟨fun info hi => answers rfl ?_, fun hi => answers rfl ?_⟩⟩
  · simp [fieldReply, h]
  · simp [fieldReply, h]
  · have same : derivedReply (s.closeSelection p) = derivedReply s := by simp only [derivedReply, State.closeSelection_cu]
    exact congrArg Except.ok (same.trans (derivedReply_eq h))
  · have given : summaryBytes s.freeIndex s.it.summary = summary := by
      cases hx : s.it.summary with
      | none => exact (hnone hx).symm
      | some x =>
        obtain ⟨a, ha⟩ := Option.isSome_iff_exists.1 (hanswered x hx)
        rw [hsome x a hx ha, summaryBytes_answered _ ha]
        cases a <;> rfl
    rw [← given]
    simp only [trackerReply, State.closeSelection_cu, State.closeSelection_it, State.closeSelection_freeIndex]
    cases s.it.evaluation <;> rfl
  · unfold zonesReply
    rw [State.closeSelection_it, h]
  · obtain ⟨length, header, zones⟩ := zonesReply_of_some (s := s.closeSelection p) (by simpa using h)
    exact ⟨_, length, answers rfl rfl, header, fun k => (zones k).trans (zoneBytes_eq _)⟩
  · simp [slotPageReply, slotOfId_none (show ¬ id.toNat ≤ 7 by omega)]
  · unfold slotPageReply
    rw [slotOfId_eq h]
    exact if_pos (by simpa [slotPageCount, isLatticeSlot] using hp)
  · unfold slotPageReply
    rw [slotOfId_eq h]
    refine (if_neg (by simpa [slotPageCount, isLatticeSlot] using hp)).trans ?_
    simp only [pageByte, slotByteCount_eq, closeSelection_slot]
    rfl
  · simp [slotInfoReply, slotOfId_none (show ¬ id.toNat ≤ 7 by omega)]
  · unfold slotInfoReply
    rw [slotOfId_eq h]
    simp only [closeSelection_slot]
    rfl
  · simp [sectorReply, sectorOfNumber_none (show ¬ n.toNat ≤ 63 by omega)]
  · unfold sectorReply
    rw [sectorOfNumber_eq h]
    simp only [closeSelection_sectorEntry, hi]
    rfl
  · unfold sectorReply
    rw [sectorOfNumber_eq h]
    simp only [closeSelection_sectorEntry]
    cases he : s.sectorEntry m with
    | valid info => exact absurd he (hi info)
    | _ => rfl

end Sys2Proof.Machine
end

section
/-! O28 and O31: requests as grants, and GROUP OPEN (R106, R109, R116, R118, R184). -/

namespace Sys2Proof.Machine

/-! ## The grant order (R106) -/

/-- What a request is answered with leaves the grant order as the grant made it (R106). -/
theorem grantOrder_answerRequest (p : Port) (r : Request) (s : State) :
    (answerRequest p r s).2.ca.grantOrder = s.ca.grantOrder := by
  have submitted : ∀ mark id v, (submit (portRequester p) mark id v s).2.ca.grantOrder = s.ca.grantOrder := fun mark id v =>
    (unchangedBut_submit _ _ _ _ s).2 .grantOrder (by simp)
  have closed : ∀ u : State, (closeGroup p u).ca.grantOrder = u.ca.grantOrder := fun u =>
    (unchangedBut_closeGroup p u).2 .grantOrder (by simp)
  cases r with
  | edit id value =>
    change (editRequest p id value s).2.ca.grantOrder = _
    unfold editRequest
    split
    · rfl
    split
    · exact submitted _ _ _
    split
    · rfl
    · exact submitted _ _ _
  | editClose id value =>
    have edited := submitted .openGroup id value.toInt
    change (editCloseRequest p id value s).2.ca.grantOrder = _
    unfold editCloseRequest
    split
    · rfl
    split
    · split
      · next u hu => exact (closed u).trans (by simpa [hu] using edited)
      · next u hu => exact (closed u).trans (by simpa [hu] using edited)
      · exact edited
    · rfl
  | groupOpen =>
    change (groupOpenRequest p s).2.ca.grantOrder = _
    unfold groupOpenRequest
    split
    · rfl
    · exact Arbiter.setOutcome_grantOrder _ _ _
  | groupClose =>
    change (groupCloseRequest p s).2.ca.grantOrder = _
    unfold groupCloseRequest
    split
    · rfl
    split
    · exact closed s
    · rfl
  | groupAbandon =>
    change (groupAbandonRequest p s).2.ca.grantOrder = _
    unfold groupAbandonRequest
    split
    · exact Arbiter.setOutcome_grantOrder _ _ _
    split
    · exact State.freeGroup_ca_grantOrder _ _ _
    · rfl

/-- A request that nothing stands before moves its port to the end of the grant order (R106). -/
theorem grantOrder_portRequest {p : Port} {s : State} (r : Request) (ho : s.operating) (hf : s.portFirst p) :
    (portRequest p r s).ca.grantOrder = grantTo (portRequester p) s.ca.grantOrder := by
  rw [portRequest_eq ho hf rfl, State.restartInactivity_ca_grantOrder, State.setLastResult_ca]
  exact (grantOrder_answerRequest p r _).trans (congrArg (grantTo _) (s.closeSelection_ca_grantOrder p))

/-! ## Requesters that wait together (R106, R118, R184) -/

theorem not_portFirst_iff {p : Port} {s : State} :
    ¬ s.portFirst p ↔ s.it.waiting.isSome = true ∧ standsBefore s.ca.grantOrder .tracker (portRequester p) = true := by
  simp [State.portFirst]

theorem portFirst_of_not_waiting {p : Port} {s : State} (h : s.it.waiting = none) : s.portFirst p := by
  simp [State.portFirst, h]

theorem operating_takeSubmission {s : State} (h : s.operating) : (takeSubmission s).operating := by
  have same := unchangedBut_takeSubmission s
  obtain ⟨frame, -⟩ := same.2 .engine (by simp)
  exact ⟨(same.2 .resetLine (by simp)).trans h.1, by rw [frame]; exact h.2⟩

/-- The tracker's submission that stands before a port is taken before the port's request (R106, R118). -/
theorem portRequest_of_not_portFirst {p : Port} {s : State} (r : Request) (ho : s.operating) (hf : ¬ s.portFirst p) :
    portRequest p r s = portRequest p r (takeSubmission s) := by
  obtain ⟨a, ha, he⟩ := portCommand_spec p (takeRequest p (answerRequest p r)) s ho
  have taken : takeRequest p (answerRequest p r) (s.closeSelection p) =
      answerRequest p r ((takeSubmission s).requested p) := by
    obtain ⟨waits, before⟩ := not_portFirst_iff.1 hf
    unfold takeRequest State.requested
    rw [State.closeSelection_it, State.closeSelection_ca_grantOrder, waits, before, ← takeSubmission_closeSelection]
    rfl
  refine he.trans ?_
  rw [ha, taken]
  exact (portRequest_eq (operating_takeSubmission ho) (portFirst_of_not_waiting (takeSubmission_waiting s)) rfl).symm

theorem portRequester_otherPort_ne (p : Port) : portRequester (otherPort p) ≠ portRequester p := by cases p <;> decide

theorem exec_requestCommand_beside (p : Port) (r o : Request) (s : State) :
    exec (requestCommand p r (some o)) s = .next (portRequests p r (some o) s) := by cases r <;> rfl

/-- A command that is one request of a port. -/
theorem requestPort_cases {c : Instr} {p : Port} (h : requestPort c = some p) : ∃ r, c = requestCommand p r none := by
  have request : commandPort c = some p ∧ isEdit c = true := by
    unfold requestPort at h
    split at h <;> first | exact ⟨h, rfl⟩ | cases h
  rcases commandPort_cases request.1 with one | ⟨-, hn⟩
  · exact one
  · rw [request.2] at hn
    cases hn

/-- Settles O28: a request alone, behind the tracker's submission, and beside the other port's. -/
theorem requestsGranted : Obligations.RequestsGranted := by
  constructor
  · intro c p s hc ho
    obtain ⟨r, rfl⟩ := requestPort_cases hc
    simp only [exec_requestCommand]
    exact ⟨fun hf => ⟨_, rfl, grantOrder_portRequest r ho hf⟩, fun hf => ⟨_, rfl, takeSubmission_waiting s,
      congrArg Host.Outcome.next (portRequest_of_not_portFirst r ho hf)⟩⟩
  · intro p r o s q both
    have order := standsBefore_eq_true s.ca.grantOrder _ _ (portRequester_otherPort_ne p)
    have both_eq : both = .next (portRequests p r (some o) s) := exec_requestCommand_beside p r o s
    refine ⟨fun hq => ⟨_, _, exec_requestCommand q o s, exec_requestCommand p r _, both_eq.trans ?_⟩,
      fun hp => ⟨_, _, exec_requestCommand p r s, exec_requestCommand q o _, both_eq.trans ?_⟩⟩
    · exact congrArg Host.Outcome.next (if_pos (order.2 hq))
    · exact congrArg Host.Outcome.next (if_neg fun h => Nat.not_lt.2 hp (order.1 h))

/-! ## GROUP OPEN (R109, R116) -/

/-- Settles O31: the group taken while it is FREE, and the refusal while one is open. -/
theorem groupOpened : Obligations.GroupOpened := by
  intro p s ho hf
  refine ⟨fun hfree => ?_, fun hopen => ⟨_, exec_requestCommand p .groupOpen s, portRequest_refused ho hf ?_⟩⟩
  · have hb : answerRequest p .groupOpen (s.requested p) = (.done, { s.requested p with
        ca := { (s.requested p).ca.setOutcome p .opened with owner := some p, inactivityTimer := some 0 } }) := by
      simp [answerRequest, groupOpenRequest, hfree]
    obtain ⟨answered, timer, left, whole⟩ :=
      portRequest_answered ho hf hb (unchangedBut_group _ _ (Arbiter.setOutcome_grantOrder _ _ _)) (by simp)
    obtain ⟨owner, outcomes, note⟩ := agrees_group (left.2 .group (by simp))
    have opened : ∀ q, (portRequest p .groupOpen s).ca.outcome q = if p = q then .opened else s.ca.outcome q := fun q =>
      (outcomes q).trans ((outcome_setOutcome _ p q _).trans (by rw [s.requested_outcome p q]))
    exact ⟨_, exec_requestCommand p .groupOpen s, answered, owner, (opened p).trans (if_pos rfl),
      fun q hq => (opened q).trans (if_neg hq.symm), timer.trans (if_pos rfl),
      note.trans ((Arbiter.setOutcome_expiryNote _ _ _).trans (s.requested_expiryNote p)), State.unchangedBut_mono whole (by simp)⟩
  · simp [answerRequest, groupOpenRequest, Option.isSome_iff_ne_none.2 hopen]

end Sys2Proof.Machine
end

section
/-! O38: READ STATUS (R119, R165 to R172, R180). -/

namespace Sys2Proof.Machine

/-! ## The record (R172, R180) -/

/-- The end of an earlier selection is not seen in the record. -/
theorem statusBytes_closeSelection (s : State) (p : Port) : (s.closeSelection p).statusBytes p = s.statusBytes p := by
  simp only [State.statusBytes, Arbiter.shownOutcome, outcome_closeSelection, State.linesByte, State.statusFlagsByte,
    State.partStateByte, State.isStarting, State.closeSelection_lastResult, State.closeSelection_writeEnable,
    State.closeSelection_ca_owner, State.closeSelection_pe, State.closeSelection_it, State.closeSelection_cu,
    State.closeSelection_controller, State.closeSelection_recallEngine, State.closeSelection_protectLine,
    State.closeSelection_supplyLowLine]

theorem shownOutcome_eq (a : Arbiter) (p : Port) : a.shownOutcome p =
    (match a.outcome p, a.owner with | .expired, _ => 3 | .opened, _ => 1 | .noGroup, none => 0 | .noGroup, some _ => 2) := by
  unfold Arbiter.shownOutcome
  cases a.outcome p <;> cases a.owner <;> rfl

theorem modeByte_eq (m : TrackerMode) : BitVec.ofNat 8 m.code = (match m with | .auto => 0 | .hold => 1 | .manual => 2) := by
  cases m <;> rfl

theorem partStateByte_eq (s : State) : s.partStateByte = if s.pe.frameState = .starting then 0 else 1 := by
  unfold State.partStateByte State.isStarting
  split <;> simp [*, boolByte]

/-! ## The record shifted out (R165, R168) -/

/-- READ STATUS is answered in every state with its record, the last result as it stood (R168, R171, R174). -/
theorem portStatus_answered {p : Port} {s : State} (hr : s.resetLine = false) :
    s.readAnswered (portStatus p s) p [0x0C] (some (Reading.repeating (s.statusBytes p))) (s.port p).lastResult := by
  have same : portStatus p s = (s.closeSelection p).setPort p
      { ((s.closeSelection p).port p).replying [0x0C] (Reading.repeating (s.statusBytes p)) with
        lastResult := (s.port p).lastResult } := by
    rw [← statusBytes_closeSelection s p, ← s.closeSelection_lastResult p p]
    simp [portStatus, hr, PortState.replying]
  rw [same]
  exact readAnswered_setPort ..

/-- A repeated reply goes out byte by byte, from its first again after its last (R168). -/
theorem repeats_of_readAnswered {s t : State} {p : Port} {received bytes : List Byte} {r : Result} (hs : s.resetLine = false)
    (h : s.readAnswered t p received (some { reply := bytes, repeated := true, position := 0 }) r) (sent : List Byte) :
    ∃ u, exec (.selectionEnd (portLine p) (.clocked (sent.flatMap byteBits))) t = .next u ∧
      u.port p = { t.port p with
        selection := .selected (received ++ sent) [],
        reading := some { reply := bytes, repeated := true, position := sent.length % bytes.length },
        shifted := List.replicate received.length 0 ++ (List.range sent.length).map fun k => bytes.getD (k % bytes.length) 0 } ∧
      t.unchangedBut u [.port p] := by
  obtain ⟨hport, -, framed⟩ := h
  rw [exec_clocked ((framed.2 .resetLine (by simp)).trans hs)]
  cases sent with
  | nil =>
    refine ⟨t, rfl, ?_, State.unchangedBut_refl _ _⟩
    rw [hport]
    simp
  | cons b rest =>
    refine ⟨_, bitsOnPort_reply p (b :: rest) received _ t (by rw [hport]) (by rw [hport]) (by simp), ?_,
      t.unchangedBut_setPort p _⟩
    rw [State.port_setPort_self, hport]
    simp

/-- Settles O38: the record item by item, and its bytes on the clock. -/
theorem statusRead : Obligations.StatusRead := by
  intro p s hr
  have answered := portStatus_answered (p := p) hr
  refine ⟨_, s.statusBytes p, rfl, answered, ?_, repeats_of_readAnswered hr answered⟩
  unfold State.statusBytes State.linesByte State.statusFlagsByte Derived.deriveSat
  rw [shownOutcome_eq, modeByte_eq, bitsByte_two_nat, bitsByte_two_nat, partStateByte_eq]
  rfl

end Sys2Proof.Machine
end

section
/-! O42: what restarts the inactivity timer, and what leaves it alone (R114, R166). -/

namespace Sys2Proof.Machine

/-- The group stands with its owner, and its timer as it was. -/
def State.sameTimer (s t : State) : Prop :=
  t.ca.owner = s.ca.owner ∧ t.ca.inactivityTimer = s.ca.inactivityTimer

theorem State.sameTimer_refl (s : State) : s.sameTimer s := ⟨rfl, rfl⟩

theorem State.sameTimer.trans {s t u : State} (h : s.sameTimer t) (k : t.sameTimer u) : s.sameTimer u :=
  ⟨k.1.trans h.1, k.2.trans h.2⟩

theorem sameTimer_of_unchangedBut {s t : State} {l : List Part} (h : s.unchangedBut t l) (hg : .group ∉ l)
    (ht : .inactivityTimer ∉ l) : s.sameTimer t := ⟨(h.2 .group hg).1, h.2 .inactivityTimer ht⟩

/-- A port that does not own the group restarts no timer (R114). -/
theorem State.portOnly.sameTimer {s t : State} {q : Port} (h : s.portOnly t q) (hq : s.ca.owner ≠ some q) : s.sameTimer t := by
  obtain ⟨x, timer, rfl, htimer⟩ := h
  obtain rfl := htimer.resolve_right fun ⟨ho, _⟩ => hq ho
  cases q <;> exact ⟨rfl, rfl⟩

/-- Beside the end of the port's selection a command of a port leaves the timer as its body does. -/
theorem sameTimer_portCommand {s : State} {q : Port} {body : State → Result × State} (hq : s.ca.owner ≠ some q)
    (hbody : ∀ u : State, u.ca.owner = s.ca.owner → u.sameTimer (body u).2) : s.sameTimer (portCommand q body s) := by
  have begun := (s.portOnly_closeSelection q).sameTimer hq
  have ended : ∀ {u : State} (r : Result), s.sameTimer u → s.sameTimer ((u.setLastResult q r).restartInactivity q) :=
    fun {u} r hu => hu.trans (((State.portOnly_setPort u q _).trans (State.portOnly_restartInactivity _ q)).sameTimer
      (by rw [hu.1]; exact hq))
  unfold portCommand
  split
  · exact s.sameTimer_refl
  simp only
  split
  · exact ended _ begun
  · exact ended _ (begun.trans (hbody _ begun.1))

/-- While a group is open, a request of the other port is answered without touching it (R109 to R113, R116). -/
theorem sameTimer_answerRequest {s : State} {q : Port} (r : Request) (hopen : s.ca.owner ≠ none) (hq : s.ca.owner ≠ some q) :
    s.sameTimer (answerRequest q r s).2 := by
  have isSome : s.ca.owner.isSome = true := Option.isSome_iff_ne_none.2 hopen
  cases r with
  | edit id value =>
    change s.sameTimer (editRequest q id value s).2
    unfold editRequest
    rw [if_neg hq, if_pos isSome]
    split <;> exact s.sameTimer_refl
  | editClose id value =>
    change s.sameTimer (editCloseRequest q id value s).2
    unfold editCloseRequest
    rw [if_neg hq]
    split <;> exact s.sameTimer_refl
  | groupOpen =>
    change s.sameTimer (groupOpenRequest q s).2
    unfold groupOpenRequest
    rw [if_pos isSome]
    exact s.sameTimer_refl
  | groupClose =>
    change s.sameTimer (groupCloseRequest q s).2
    unfold groupCloseRequest
    rw [if_neg hq]
    split <;> exact s.sameTimer_refl
  | groupAbandon =>
    change s.sameTimer (groupAbandonRequest q s).2
    unfold groupAbandonRequest
    rw [if_neg hq]
    split
    · exact ⟨Arbiter.setOutcome_owner _ _ _, Arbiter.setOutcome_inactivityTimer _ _ _⟩
    · exact s.sameTimer_refl

theorem sameTimer_portRequest {s : State} {q : Port} (r : Request) (hopen : s.ca.owner ≠ none) (hq : s.ca.owner ≠ some q) :
    s.sameTimer (portRequest q r s) := by
  refine sameTimer_portCommand hq fun u hu => ?_
  have taken : ∀ v : State, u.sameTimer v → u.sameTimer (answerRequest q r (v.granted (portRequester q))).2 := fun v hv =>
    hv.trans (sameTimer_answerRequest (s := v.granted (portRequester q)) r (by rw [State.granted_ca_owner, hv.1, hu]; exact hopen)
      (by rw [State.granted_ca_owner, hv.1, hu]; exact hq))
  unfold takeRequest
  refine taken _ ?_
  split
  · exact sameTimer_of_unchangedBut (unchangedBut_takeSubmission u) (by simp) (by simp)
  · exact u.sameTimer_refl

/-- A command of the other port that waits for the rise leaves the open group with its timer. -/
theorem sameTimer_commandPort {s t : State} {q : Port} {c : Instr} (hc : commandPort c = some q) (hopen : s.ca.owner ≠ none)
    (hq : s.ca.owner ≠ some q) (h : exec c s = .next t) : s.sameTimer t := by
  rcases commandPort_cases hc with ⟨r, rfl⟩ | ⟨hport, hedit⟩
  · obtain rfl := Host.Outcome.next.inj ((exec_requestCommand q r s).symm.trans h)
    exact sameTimer_portRequest r hopen hq
  · obtain ⟨q', hq', rfl | ⟨body, rfl, hbody⟩⟩ := exec_portCommand_cases hport hedit h <;>
      obtain rfl := Option.some.inj (hc.symm.trans hq')
    · exact (portOnly_discardSelection q .framing s).sameTimer hq
    · exact sameTimer_portCommand hq fun u _ => sameTimer_of_unchangedBut (hbody u) (by simp) (by simp)

/-- A selection of the other port, of which at most one command comes, leaves the open group with its timer. -/
theorem State.selected.sameTimer {s t : State} {q : Port} (h : s.selected t q) (hopen : s.ca.owner ≠ none)
    (hq : s.ca.owner ≠ some q) : s.sameTimer t := by
  rcases h with h | ⟨c, u, hc, hu, h⟩
  · exact h.sameTimer hq
  · have executed := sameTimer_commandPort hc hopen hq hu
    exact executed.trans (h.sameTimer (by rw [executed.1]; exact hq))

/-- A frame start clears the expiry note, and leaves the group and its timer (R6, R122). -/
theorem sameTimer_frameStart {s t : State} {w h : Half} (he : exec (.frameStart w h) s = .next t) : s.sameTimer t := by
  rcases exec_frameStart_cases he with rfl | ⟨-, rfl⟩
  · exact ⟨rfl, rfl⟩
  · obtain ⟨o, r, z, started, -⟩ := startFrame_eq w h s
    rw [started]
    exact ⟨rfl, rfl⟩

/-- No command but the owner's, time on the timer, a reset and two requests together touches the open group's timer (R114). -/
theorem sameTimer_exec {s t : State} {p : Port} {c : Instr} (howner : s.ca.owner = some p)
    (hreset : ∀ acts, c ≠ .resetAssert acts) (htime : ∀ ms, c ≠ .groupExpiry ms) (htwo : isTwoRequests c = false)
    (hcommand : commandPort c ≠ some p) (hread : ¬ ((∃ received, readPort c = some (p, received)) ∨ c = .readStatus p))
    (hframing : ∀ received part, c ≠ .framing p received part) (hunknown : ∀ received, c ≠ .unknown p received)
    (hmoment : ∀ moment, c ≠ .selectionEnd (portLine p) moment) (h : exec c s = .next t) : s.sameTimer t := by
  have hopen : s.ca.owner ≠ none := by simp [howner]
  have other : ∀ {q : Port}, q ≠ p → s.ca.owner ≠ some q := fun hq ho => hq (Option.some.inj (ho.symm.trans howner))
  cases hq : commandPort c with
  | some q => exact sameTimer_commandPort hq hopen (other fun he => hcommand (he ▸ hq)) h
  | none =>
  by_cases hr : ∃ q, (∃ received, readPort c = some (q, received)) ∨ c = .readStatus q
  · obtain ⟨q, hr⟩ := hr
    exact (portOnly_of_read hr h).sameTimer (other fun he => hread (he ▸ hr))
  by_cases quiet : .group ∉ Changes c ∧ .inactivityTimer ∉ Changes c
  · exact sameTimer_of_unchangedBut (exec_unchangedBut h) quiet.1 quiet.2
  cases c
  case framing q received part =>
    exact (takeSelection_selected h).sameTimer hopen (other fun he => hframing received part (he ▸ rfl))
  case unknown q received =>
    exact (takeSelection_selected h).sameTimer hopen (other fun he => hunknown received (he ▸ rfl))
  case selectionEnd line moment =>
    cases line with
    | c => exact (selectionMoment_selected (p := .c) h).sameTimer hopen (other fun he => hmoment moment (he ▸ rfl))
    | s => exact (selectionMoment_selected (p := .s) h).sameTimer hopen (other fun he => hmoment moment (he ▸ rfl))
    | r => simp [Changes, lineParts] at quiet
  case resetAssert acts => exact absurd rfl (hreset acts)
  case groupExpiry ms => exact absurd rfl (htime ms)
  case frameStart => exact sameTimer_frameStart h
  case edit _ _ _ beside => cases beside <;> simp [commandPort, isTwoRequests] at hq htwo
  case editClose _ _ _ beside => cases beside <;> simp [commandPort, isTwoRequests] at hq htwo
  case groupOpen _ beside => cases beside <;> simp [commandPort, isTwoRequests] at hq htwo
  case groupClose _ beside => cases beside <;> simp [commandPort, isTwoRequests] at hq htwo
  case groupAbandon _ beside => cases beside <;> simp [commandPort, isTwoRequests] at hq htwo
  all_goals simp [Changes, commandParts, commandPort, readPort] at quiet hq hr

/-- Settles O42: the ends of the owner's selections, and every other command. -/
theorem inactivityTimerRestarted : Obligations.InactivityTimerRestarted := by
  refine fun s t c h => ⟨fun p hr hc howner => ?_,
    fun p howner hreset htime htwo hcommand hread hstatus hframing hunknown hmoment => ?_⟩
  · rcases hc with hc | ⟨received, part, rfl⟩ | ⟨received, rfl⟩ | ⟨rfl, hsel⟩
    · exact restarted_commandPort hc hr howner h
    · exact restarted_takeSelection hr howner h
    · exact restarted_takeSelection hr howner h
    · exact restarted_rise hr howner hsel h
  · obtain ⟨owner, timer⟩ := sameTimer_exec howner hreset htime htwo hcommand
      (fun hr => hr.elim (fun ⟨received, he⟩ => hread received he) hstatus) hframing hunknown hmoment h
    exact ⟨owner.trans howner, timer⟩

end Sys2Proof.Machine
end

section
/-! The tests of R167 one by one, with the codes and lengths of R178, and the frame of each command. -/

namespace Sys2Proof.Machine

/-! ## Codes and lengths (R178) -/

/-- The commands of Ports C and S by their codes, with the number of argument bytes: of SLOT WRITE those before its data. -/
def argumentLengths : List (Byte × Nat) :=
  [(0x0C, 0), (0x11, 1), (0x12, 0), (0x14, 0), (0x15, 0), (0x21, 5), (0x22, 5), (0x28, 0), (0x29, 0), (0x2A, 0), (0x31, 1),
   (0x32, 3), (0x33, 1), (0x34, 1), (0x35, 2), (0x36, 1), (0x41, 0), (0x42, 0), (0x48, 2), (0x49, 19), (0x4A, 2), (0x4C, 1)]

theorem argumentLength_eq_some {code : Byte} {n : Nat} : argumentLength code = some n ↔ (code, n) ∈ argumentLengths := by
  have listed : ∀ x ∈ argumentLengths, argumentLength x.1 = some x.2 := by decide
  refine ⟨fun h => ?_, fun h => listed _ h⟩
  have spelled : code = BitVec.ofNat 8 code.toNat := by simp
  unfold argumentLength at h
  split at h <;> rename_i hcode
  case h_23 => cases h
  all_goals
    obtain rfl := Option.some.inj h
    rw [spelled, hcode]
    decide

theorem argumentLength_eq_none {code : Byte} (h : ∀ n, (code, n) ∉ argumentLengths) : argumentLength code = none :=
  Option.eq_none_iff_forall_ne_some.2 fun n hn => h n (argumentLength_eq_some.1 hn)

theorem lengthFits_iff {code : Byte} {n received : Nat} :
    lengthFits code n received = true ↔ if code = 0x32 then n < received else received = n := by
  unfold lengthFits slotWriteCode
  split <;> simp

/-- A read is of a fixed length: its bytes fit where they are as many (R167, R178). -/
theorem lengthFits_read {code : Byte} {n received : Nat} (h : code ∈ readCodes) :
    lengthFits code n received = true ↔ received = n := by
  rw [lengthFits_iff, if_neg]
  rintro rfl
  revert h
  decide

/-! ## The tests (R167) -/

section

variable {p : Port} {code : Byte} {rest : List Byte} {part : List Bool}

theorem judgeFrame_of_no_code (h : argumentLength code = none) :
    judgeFrame p (code :: rest) part = if part.isEmpty then .unknown else .framing := by
  simp only [judgeFrame, h]

theorem judgeFrame_of_code {n : Nat} (h : argumentLength code = some n) :
    judgeFrame p (code :: rest) part =
      if code ∈ readCodes ∧ n ≤ rest.length then .command (commandOfCode p code (rest.take n))
      else if part ≠ [] then .framing
      else if lengthFits code n rest.length then .command (commandOfCode p code rest)
      else .framing := by
  simp [judgeFrame, h]

/-- The bytes of a command's length are the command (R167). -/
theorem judgeFrame_of_fits {n : Nat} (h : argumentLength code = some n) (hf : lengthFits code n rest.length = true) :
    judgeFrame p (code :: rest) [] = .command (commandOfCode p code rest) := by
  rw [judgeFrame_of_code h]
  split
  · next hread => rw [List.take_of_length_le ((lengthFits_read hread.1).1 hf).le]
  · simp

/-- A read that has all its argument bytes is that read, whatever follows (R168). -/
theorem judgeFrame_of_read {n : Nat} (h : argumentLength code = some n) (hread : code ∈ readCodes) (hn : n ≤ rest.length) :
    judgeFrame p (code :: rest) part = .command (commandOfCode p code (rest.take n)) := by
  rw [judgeFrame_of_code h, if_pos ⟨hread, hn⟩]

/-- A frame that is no executed read is FRAMING with a part byte, or with bytes of another number (R167). -/
theorem judgeFrame_of_not_fits {n : Nat} (h : argumentLength code = some n) (hread : ¬ (code ∈ readCodes ∧ n ≤ rest.length))
    (hf : part ≠ [] ∨ ¬ lengthFits code n rest.length = true) : judgeFrame p (code :: rest) part = .framing := by
  rw [judgeFrame_of_code h, if_neg hread]
  split
  · rfl
  · next hpart => rw [if_neg (hf.resolve_left hpart)]

end

/-! ## The frames of the commands (R177, R178) -/

theorem wordOfBytes_natBytes (value : Word) : wordOfBytes (natBytes 4 value.toNat) = value := by
  apply BitVec.eq_of_toNat_eq
  simp [wordOfBytes, natBytes, List.range_succ]
  omega

/-- The frame of an EDIT, a value's four bytes most significant first (R177, R178). -/
theorem judgeFrame_edit (p : Port) (id : Byte) (value : Word) :
    judgeFrame p ([0x21, id] ++ natBytes 4 value.toNat) [] = .command (.edit p id value none) :=
  (judgeFrame_of_fits (n := 5) rfl rfl).trans
    (congrArg (fun v => Frame.command (.edit p id v none)) (wordOfBytes_natBytes value))

theorem judgeFrame_editClose (p : Port) (id : Byte) (value : Word) :
    judgeFrame p ([0x22, id] ++ natBytes 4 value.toNat) [] = .command (.editClose p id value none) :=
  (judgeFrame_of_fits (n := 5) rfl rfl).trans
    (congrArg (fun v => Frame.command (.editClose p id v none)) (wordOfBytes_natBytes value))

theorem judgeFrame_slotWrite (p : Port) (slot page offset : Byte) {data : List Byte} (h : data ≠ []) :
    judgeFrame p ([0x32, slot, page, offset] ++ data) [] = .command (.slotWrite p slot page offset data) :=
  judgeFrame_of_fits (n := 3) rfl (lengthFits_iff.2 (by simpa using List.length_pos_iff.2 h))

theorem judgeFrame_save (p : Port) (slot sector selector : Byte) {name : List Byte} (h : name.length = 16) :
    judgeFrame p ([0x49, slot, sector] ++ name ++ [selector]) [] = .command (.save p slot sector name selector) := by
  refine (judgeFrame_of_fits (n := 19) rfl (lengthFits_iff.2 (by simp [h]))).trans ?_
  change Frame.command (.save p slot sector ((name ++ [selector]).take 16) ((slot :: sector :: (name ++ [selector])).getD 18 0)) = _
  rw [← h, List.take_left]
  simp [h]

/-! ## Reads by their last byte (R168) -/

theorem completedRead_eq_some {p : Port} {received : List Byte} {c : Instr} :
    completedRead p received = some c ↔ ∃ code arguments, received = code :: arguments ∧ code ∈ readCodes ∧
      argumentLength code = some arguments.length ∧ c = commandOfCode p code arguments := by
  cases received with
  | nil => simp [completedRead]
  | cons code arguments =>
    simp only [completedRead, List.contains_eq_mem, Bool.and_eq_true, decide_eq_true_eq, Option.ite_none_right_eq_some,
      Option.some.injEq, List.cons.injEq]
    constructor
    · rintro ⟨⟨hread, length⟩, rfl⟩
      exact ⟨code, arguments, ⟨rfl, rfl⟩, hread, length, rfl⟩
    · rintro ⟨_, _, ⟨rfl, rfl⟩, hread, length, rfl⟩
      exact ⟨⟨hread, length⟩, rfl⟩

/-- The bytes of a read complete it with their last (R168, R178). -/
theorem completedRead_of_read {p : Port} {received : List Byte} {c : Instr}
    (h : readPort c = some (p, received) ∨ (c = .readStatus p ∧ received = [0x0C])) : completedRead p received = some c := by
  rcases h with h | ⟨rfl, rfl⟩
  · cases c <;> simp [readPort] at h <;> obtain ⟨rfl, rfl⟩ := h <;> rfl
  · rfl

/-- A read is completed once: a beginning of its bytes is none. -/
theorem completedRead_unique {p : Port} {taken received : List Byte} {c d : Instr} (hp : taken <+: received)
    (ht : completedRead p taken = some d) (hr : completedRead p received = some c) : taken = received := by
  obtain ⟨code, arguments, rfl, -, length, -⟩ := completedRead_eq_some.1 hr
  obtain ⟨code', arguments', rfl, -, length', -⟩ := completedRead_eq_some.1 ht
  obtain ⟨rfl, -⟩ := List.cons_prefix_cons.1 hp
  refine hp.eq_of_length ?_
  rw [List.length_cons, List.length_cons, Option.some.inj (length'.symm.trans length)]

/-- A selection in which a read was completed is that read (R167, R168). -/
theorem judgeFrame_of_completedRead {p : Port} {taken received : List Byte} {c : Instr} (hp : taken <+: received)
    (h : completedRead p taken = some c) (part : List Bool) : judgeFrame p received part = .command c := by
  obtain ⟨code, arguments, rfl, hread, length, rfl⟩ := completedRead_eq_some.1 h
  obtain ⟨sent, rfl⟩ := hp
  rw [List.cons_append, judgeFrame_of_read length hread (by simp), List.take_left]

end Sys2Proof.Machine
end

section
/-! The commands of a port end its earlier selection, and leave it idle or with a read in progress (R165 to R169). -/

namespace Sys2Proof.Machine

/-! ## The end of the earlier selection (R166; assumption log 8) -/

/-- A command that is a selection of a port whole: one that waits for the rise, a read, or a selection given by its bytes. -/
def wholeSelection (p : Port) (c : Instr) : Prop :=
  commandPort c = some p ∨ (∃ received, readPort c = some (p, received)) ∨ c = .readStatus p ∨
    (∃ received part, c = .framing p received part) ∨ (∃ received, c = .unknown p received)

section

variable {p : Port} {s : State}

theorem portCommand_closeSelection (body : State → Result × State) (hr : s.resetLine = false) :
    portCommand p body (s.closeSelection p) = portCommand p body s := by
  simp only [portCommand, State.closeSelection_resetLine, hr, closeSelection_closeSelection, Bool.false_eq_true,
    if_false]

theorem discardSelection_closeSelection (r : Result) (hr : s.resetLine = false) :
    discardSelection p r (s.closeSelection p) = discardSelection p r s := by
  simp only [discardSelection, State.closeSelection_resetLine, hr, closeSelection_closeSelection, Bool.false_eq_true,
    if_false]

theorem portRead_closeSelection (received : List Byte) (body : State → Except Result (List Byte)) (hr : s.resetLine = false) :
    portRead p received body (s.closeSelection p) = portRead p received body s := by
  simp only [portRead, State.closeSelection_resetLine, hr, closeSelection_closeSelection, Bool.false_eq_true,
    if_false]

theorem portStatus_closeSelection (hr : s.resetLine = false) : portStatus p (s.closeSelection p) = portStatus p s := by
  simp only [portStatus, State.closeSelection_resetLine, hr, closeSelection_closeSelection, Bool.false_eq_true,
    if_false]

theorem exec_commandPort_closeSelection {c : Instr} (hc : commandPort c = some p) (hr : s.resetLine = false) :
    exec c (s.closeSelection p) = exec c s := by
  rcases commandPort_cases hc with ⟨r, rfl⟩ | ⟨hport, hedit⟩
  · rw [exec_requestCommand, exec_requestCommand]
    exact congrArg Host.Outcome.next (portCommand_closeSelection _ hr)
  · cases c <;> simp [isPortCommand, isEdit] at hport hedit <;> obtain rfl := Option.some.inj hc
    case slotWrite q slot page offset data =>
      refine congrArg Host.Outcome.next ?_
      split
      · exact discardSelection_closeSelection .framing hr
      · exact portCommand_closeSelection _ hr
    case save q slot sector name selector =>
      refine congrArg Host.Outcome.next ?_
      split
      · exact portCommand_closeSelection _ hr
      · exact discardSelection_closeSelection .framing hr
    all_goals exact congrArg Host.Outcome.next (portCommand_closeSelection _ hr)

theorem exec_read_closeSelection {c : Instr} (hc : (∃ received, readPort c = some (p, received)) ∨ c = .readStatus p)
    (hr : s.resetLine = false) : exec c (s.closeSelection p) = exec c s := by
  rcases hc with ⟨received, hc⟩ | rfl
  · cases c <;> simp [readPort] at hc <;> obtain ⟨rfl, -⟩ := hc
    all_goals exact congrArg Host.Outcome.next (portRead_closeSelection _ _ hr)
  · exact congrArg Host.Outcome.next (portStatus_closeSelection hr)

/-- What the tests of R167 find to be a command is executed as that command. -/
theorem frameMeaning_of_judged {received : List Byte} {part : List Bool} {c : Instr}
    (h : judgeFrame p received part = .command c) : frameMeaning c = exec c := by
  rcases judgeFrame_command h with hc | hc
  · exact frameMeaning_of_commandPort hc
  · exact frameMeaning_of_read hc

theorem takeSelection_closeSelection (received : List Byte) (part : List Bool) (hr : s.resetLine = false) :
    takeSelection p (judgeFrame p received part) (s.closeSelection p) = takeSelection p (judgeFrame p received part) s := by
  cases hj : judgeFrame p received part with
  | framing => exact congrArg Host.Outcome.next (discardSelection_closeSelection .framing hr)
  | unknown => exact congrArg Host.Outcome.next (discardSelection_closeSelection .unknown hr)
  | command c =>
    have same : exec c (s.closeSelection p) = exec c s := by
      rcases judgeFrame_command hj with hc | hc
      · exact exec_commandPort_closeSelection hc hr
      · exact exec_read_closeSelection hc hr
    simp only [takeSelection, frameMeaning_of_judged hj, same]

/-- A whole selection begins with the end of the one before it: it does not depend on how far that one had come. -/
theorem exec_closeSelection {c : Instr} (hc : wholeSelection p c) (hr : s.resetLine = false) :
    exec c (s.closeSelection p) = exec c s := by
  rcases hc with hc | hc | hc | ⟨received, part, rfl⟩ | ⟨received, rfl⟩
  · exact exec_commandPort_closeSelection hc hr
  · exact exec_read_closeSelection (.inl hc) hr
  · exact exec_read_closeSelection (.inr hc) hr
  · exact takeSelection_closeSelection received part hr
  · exact takeSelection_closeSelection received [] hr

/-- A selection in which no read was executed ends without a restart of the timer. -/
theorem closeSelection_of_unread (h : (s.port p).reading = none) : s.closeSelection p = s.deselect p := by
  simp [State.closeSelection, h]

/-- The end of a selection does not depend on what the port has taken in it. -/
theorem deselect_setPort (s : State) (p : Port) (selection : Selection) (reading : Option Reading) (shifted : List Byte) :
    (s.setPort p { s.port p with selection := selection, reading := reading, shifted := shifted }).deselect p =
      s.deselect p := by simp [State.deselect]

/-! ## What a command leaves of its port's selection (R166, R168) -/

/-- A body that leaves its port unselected. -/
def leavesIdle (p : Port) (body : State → Result × State) : Prop :=
  ∀ u : State, (u.port p).selection = .idle → ((body u).2.port p).selection = .idle

theorem leavesIdle_of_unchangedBut {body : State → Result × State} {parts : List Part}
    (h : ∀ u : State, u.unchangedBut (body u).2 parts) (hp : .port p ∉ parts) : leavesIdle p body := fun u hu => by
  rw [show (body u).2.port p = u.port p from (h u).2 (.port p) hp]
  exact hu

theorem setWriteEnable_selection (s : State) (p : Port) (b : Bool) :
    ((s.setWriteEnable p b).port p).selection = (s.port p).selection := by simp [State.setWriteEnable]

theorem leavesIdle_saveRequest (p : Port) (id number : Byte) (name : List Byte) (selector : Byte) :
    leavesIdle p (saveRequest p id number name selector) := fun u hu => by
  rcases saveRequest_cases p id number name selector u with he | ⟨calibration, i, n, -, he⟩
  · rw [he, setWriteEnable_selection, hu]
  · rw [he, setWriteEnable_selection, ← hu]
    cases p <;> rfl

theorem leavesIdle_eraseRequest (p : Port) (number complement : Byte) : leavesIdle p (eraseRequest p number complement) :=
  fun u hu => by
    rcases eraseRequest_cases p number complement u with he | ⟨n, -, ⟨-, he⟩ | ⟨-, he⟩⟩
    · rw [he, setWriteEnable_selection, hu]
    all_goals
      rw [he, setWriteEnable_selection, ← hu]
      cases p <;> rfl

theorem selection_portCommand {body : State → Result × State} (hr : s.resetLine = false) (hbody : leavesIdle p body) :
    ((portCommand p body s).port p).selection = .idle := by
  unfold portCommand
  rw [if_neg (by simp [hr])]
  simp only [State.restartInactivity_port, State.setLastResult, State.port_setPort_self]
  split
  · exact State.closeSelection_selection s p
  · exact hbody _ (State.closeSelection_selection s p)

theorem selection_discardSelection (r : Result) (hr : s.resetLine = false) :
    ((discardSelection p r s).port p).selection = .idle := (discardSelection_answers hr).1.1

/-- A command that waits for the rise of its line leaves its port unselected (R166, R167). -/
theorem selection_of_commandPort {c : Instr} {t : State} (hc : commandPort c = some p) (hr : s.resetLine = false)
    (h : exec c s = .next t) : (t.port p).selection = .idle := by
  have onSlots : ∀ (id : Byte) {body : Fin 8 → State → Result × State}, (∀ i (u : State), u.unchangedBut (body i u).2 [.slots]) →
      ((portCommand p (onSlot id body) s).port p).selection = .idle := fun id _ hb =>
    selection_portCommand hr (leavesIdle_of_unchangedBut (unchangedBut_onSlot id _ hb) (by simp))
  rcases commandPort_cases hc with ⟨r, rfl⟩ | ⟨hport, hedit⟩
  · obtain rfl := Host.Outcome.next.inj ((exec_requestCommand p r s).symm.trans h)
    exact selection_portCommand hr
      (leavesIdle_of_unchangedBut (unchangedBut_takeRequest p _ (unchangedBut_answerRequest p r)) (by simp))
  · cases c <;> simp [isPortCommand, isEdit] at hport hedit <;> obtain rfl := Option.some.inj hc <;>
      obtain rfl := Host.Outcome.next.inj h
    case slotOpen q id => exact onSlots id (unchangedBut_openSlot q)
    case slotWrite q id page offset data =>
      split
      · exact selection_discardSelection .framing hr
      · exact onSlots id (unchangedBut_writeSlot q page offset data)
    case slotFinish q id => exact onSlots id (unchangedBut_finishSlot q)
    case slotDiscard q id => exact onSlots id unchangedBut_discardSlot
    case writeEnable q => exact selection_portCommand hr fun u hu => (setWriteEnable_selection u q true).trans hu
    case writeDisable q => exact selection_portCommand hr fun u hu => (setWriteEnable_selection u q false).trans hu
    case save q id number name selector =>
      split
      · exact selection_portCommand hr (leavesIdle_saveRequest q id number name selector)
      · exact selection_discardSelection .framing hr
    case erase q number complement => exact selection_portCommand hr (leavesIdle_eraseRequest q number complement)
    -- RECALL, whose name is a keyword of Mathlib, so that `case` cannot take it.
    next q number id =>
      exact selection_portCommand hr (leavesIdle_of_unchangedBut (unchangedBut_recallRequest number id) (by simp))

/-- A read leaves its port selected with a read in progress: its reply, or zeros (R168). -/
theorem portRead_answered (received : List Byte) (body : State → Except Result (List Byte)) (hr : s.resetLine = false) :
    ∃ reading r, s.readAnswered (portRead p received body s) p received (some reading) r := by
  by_cases hs : s.pe.frameState = .starting
  · exact ⟨_, _, portRead_starting hr hs⟩
  · cases hb : body (s.closeSelection p) with
    | ok bytes => exact ⟨_, _, portRead_ok ⟨hr, hs⟩ hb⟩
    | error r => exact ⟨_, _, portRead_error ⟨hr, hs⟩ hb⟩

theorem exec_read_answered {c : Instr} {received : List Byte}
    (hc : readPort c = some (p, received) ∨ (c = .readStatus p ∧ received = [0x0C])) (hr : s.resetLine = false) :
    ∃ t reading r, exec c s = .next t ∧ s.readAnswered t p received (some reading) r := by
  have read : ∀ body : State → Except Result (List Byte), exec c s = .next (portRead p received body s) →
      ∃ t reading r, exec c s = .next t ∧ s.readAnswered t p received (some reading) r := fun body he =>
    have ⟨reading, r, h⟩ := portRead_answered received body hr
    ⟨_, reading, r, he, h⟩
  rcases hc with hc | ⟨rfl, rfl⟩
  · cases c <;> simp [readPort] at hc <;> obtain ⟨rfl, rfl⟩ := hc
    all_goals exact read _ rfl
  · exact ⟨_, _, _, rfl, portStatus_answered hr⟩

end

end Sys2Proof.Machine
end

section
/-! The moments of a selection of Port C or S: the fall, the bits, the rise (R165 to R169). -/

namespace Sys2Proof.Machine

/-! ## The rise and the fall of select (R166, R167) -/

section

variable {p : Port} {s : State}

theorem exec_rise (hr : s.resetLine = false) : exec (.selectionEnd (portLine p) .rise) s = riseOnPort p s := by
  change selectionMoment (portLine p) .rise s = _
  unfold selectionMoment
  rw [if_neg (by simp [hr])]
  cases p <;> rfl

/-- A fall begins a selection after the rise that it implies (assumption log 26). -/
theorem exec_fall {t : State} (hr : s.resetLine = false) (h : riseOnPort p s = .next t) :
    exec (.selectionEnd (portLine p) .fall) s = .next (t.beginSelection p) := by
  have rise : riseOfSelect (portLine p) s = .next t := by rw [← h]; cases p <;> rfl
  change selectionMoment (portLine p) .fall s = _
  unfold selectionMoment
  rw [if_neg (by simp [hr])]
  simp only [rise]
  cases p <;> rfl

theorem riseOnPort_of_idle (h : (s.port p).selection = .idle) : riseOnPort p s = .next s := by
  unfold riseOnPort
  rw [h]

theorem riseOnPort_of_reading {received : List Byte} {part : List Bool} (h : (s.port p).selection = .selected received part)
    (hread : (s.port p).reading.isSome = true) : riseOnPort p s = .next (s.endSelection p) := by
  unfold riseOnPort
  simp only [h, hread, if_true]

theorem riseOnPort_of_unread {received : List Byte} {part : List Bool} (h : (s.port p).selection = .selected received part)
    (hread : (s.port p).reading = none) : riseOnPort p s = takeSelection p (judgeFrame p received part) s := by
  unfold riseOnPort
  simp only [h, hread, Option.isSome_none, Bool.false_eq_true, if_false]

theorem resetLine_of_unchangedBut {t : State} {l : List Part} (h : s.unchangedBut t l) (hl : .resetLine ∉ l)
    (hr : s.resetLine = false) : t.resetLine = false := (h.2 .resetLine hl).trans hr

theorem selection_endSelection (s : State) (p : Port) : ((s.endSelection p).port p).selection = .idle := by simp

theorem selection_riseAfterCommand (hr : s.resetLine = false) : ((riseAfterCommand p s).port p).selection = .idle := by
  unfold riseAfterCommand
  split
  · next h => simpa [hr] using h
  · exact selection_endSelection s p

/-- What its selection was is settled at the rise: the port is idle (R166). -/
theorem selection_riseOnPort {t : State} (hr : s.resetLine = false) (h : riseOnPort p s = .next t) :
    (t.port p).selection = .idle := by
  unfold riseOnPort at h
  split at h
  · next hidle =>
    obtain rfl := Host.Outcome.next.inj h
    exact hidle
  split at h
  · obtain rfl := Host.Outcome.next.inj h
    exact selection_endSelection s p
  · next received part _ _ =>
    cases hj : judgeFrame p received part with
    | framing =>
      rw [hj] at h
      obtain rfl := Host.Outcome.next.inj h
      exact selection_discardSelection .framing hr
    | unknown =>
      rw [hj] at h
      obtain rfl := Host.Outcome.next.inj h
      exact selection_discardSelection .unknown hr
    | command c =>
      obtain ⟨u, hu, framed⟩ := frameMeaning_parts c s
      rw [hj] at h
      simp only [takeSelection, hu] at h
      obtain rfl := Host.Outcome.next.inj h
      have framed := State.unchangedBut_mono framed (commandParts_subset (judgeFrame_command hj))
      exact selection_riseAfterCommand (resetLine_of_unchangedBut framed (by simp) hr)

/-- Where a command was executed, the rise of the line is what ends its selection (R166, R168). -/
theorem riseOnPort_of_executed (hr : s.resetLine = false)
    (h : (s.port p).selection = .idle ∨ (s.port p).reading.isSome = true) :
    riseOnPort p s = .next (riseAfterCommand p s) := by
  unfold riseAfterCommand
  cases hsel : (s.port p).selection with
  | idle => rw [riseOnPort_of_idle hsel, if_pos (by simp)]
  | selected received part =>
    rw [riseOnPort_of_reading hsel (h.resolve_left (by simp [hsel])), if_neg (by simp [hr])]

/-- A selection that is a command's frame is the command and the rise after it (R167, R168; assumption log 17). -/
theorem takeSelection_of_command {received : List Byte} {part : List Bool} {c : Instr} (hr : s.resetLine = false)
    (hj : judgeFrame p received part = .command c) :
    ∃ u, exec c s = .next u ∧ u.resetLine = false ∧ takeSelection p (judgeFrame p received part) s = riseOnPort p u := by
  obtain ⟨u, hu, framed⟩ := frameMeaning_parts c s
  have hc := judgeFrame_command hj
  have hur := resetLine_of_unchangedBut (State.unchangedBut_mono framed (commandParts_subset hc)) (by simp) hr
  have meaning : exec c s = .next u := frameMeaning_of_judged hj ▸ hu
  have executed : (u.port p).selection = .idle ∨ (u.port p).reading.isSome = true := by
    rcases hc with hc | hc
    · exact .inl (selection_of_commandPort hc hr meaning)
    · have ⟨bytes, hc⟩ : ∃ bytes, readPort c = some (p, bytes) ∨ (c = .readStatus p ∧ bytes = [0x0C]) :=
        hc.elim (fun ⟨bytes, h⟩ => ⟨bytes, .inl h⟩) fun h => ⟨_, .inr ⟨h, rfl⟩⟩
      obtain ⟨t, reading, r, ht, hport, -⟩ := exec_read_answered hc hr
      obtain rfl := Host.Outcome.next.inj (meaning.symm.trans ht)
      exact .inr (by rw [hport]; rfl)
  refine ⟨u, meaning, hur, ?_⟩
  rw [riseOnPort_of_executed hur executed, hj]
  simp only [takeSelection, hu]

/-- The end of a selection in which a read was executed does not depend on how far its reply had come (R168). -/
theorem riseOnPort_setPort_reading {t : State} {received : List Byte} {part : List Bool} {reading : Reading}
    {shifted : List Byte} :
    riseOnPort p (t.setPort p { t.port p with
      selection := .selected received part, reading := some reading, shifted := shifted }) = .next (t.endSelection p) := by
  rw [riseOnPort_of_reading (received := received) (part := part) (by simp) (by simp)]
  unfold State.endSelection
  rw [deselect_setPort]

/-! ## The bytes of a selection as they come (R165, R168) -/

/-- An idle port takes no bits (R166). -/
theorem bitsOnPort_idle (bits : List Bool) (h : (s.port p).selection = .idle) :
    bitsOnLine (portLine p) bits s = .next s := by
  induction bits with
  | nil => rfl
  | cons bit rest ih =>
    have one : bitOnPort p bit s = .next s := by
      unfold bitOnPort
      rw [h]
    simp only [bitsOnLine, bitOnLine_port, one, ih]

/-- A port that has received bytes and bits, and executed no read. -/
def PortState.receiving (x : PortState) (received : List Byte) (part : List Bool) : PortState :=
  { x with selection := .selected received part, reading := none, shifted := List.replicate received.length 0 }

/-- With each byte that completes no read the port takes the byte, and a zero goes out (R165, R169). -/
theorem byteOnPort_receiving {taken : List Byte} {b : Byte} (h : completedRead p (taken ++ [b]) = none) :
    byteOnPort p (taken ++ [b]) (s.setPort p ((s.port p).receiving taken [])) =
      .next (s.setPort p ((s.port p).receiving (taken ++ [b]) [])) := by
  simp [byteOnPort, PortState.takeByte, PortState.receiving, h, List.replicate_succ']

theorem bitsOnPort_receiving (s : State) {received : List Byte}
    (h : ∀ taken, taken <+: received → completedRead p taken = none) :
    bitsOnLine (portLine p) (received.flatMap byteBits) (s.beginSelection p) =
      .next (s.setPort p ((s.port p).receiving received [])) := by
  induction received using List.reverseRecOn with
  | nil => rfl
  | append_singleton taken b ih =>
    rw [List.flatMap_append, bitsOnLine_append, ih fun t ht => h t (ht.trans (List.prefix_append _ _))]
    simp only [List.flatMap_singleton]
    rw [bitsOnPort_byte p taken b _ (by simp [PortState.receiving])]
    exact byteOnPort_receiving (h _ List.prefix_rfl)

/-- With the last byte that it has a read is executed (R168). -/
theorem bitsOnPort_completedRead {received : List Byte} {c : Instr} (hr : s.resetLine = false)
    (hidle : (s.port p).selection = .idle) (h : completedRead p received = some c) :
    bitsOnLine (portLine p) (received.flatMap byteBits) (s.beginSelection p) = exec c s := by
  have hc := completedRead_read h
  rcases List.eq_nil_or_concat received with rfl | ⟨taken, b, rfl⟩
  · cases h
  rw [List.concat_eq_append] at h ⊢
  have before : ∀ t, t <+: taken → completedRead p t = none := fun t ht => by
    cases hd : completedRead p t with
    | none => rfl
    | some d =>
      have whole := completedRead_unique (ht.trans (List.prefix_append _ _)) hd h
      have short := ht.length_le
      rw [whole, List.length_append] at short
      simp at short
  have unread : ((s.setPort p ((s.port p).receiving (taken ++ [b]) [])).port p).reading = none := by simp [PortState.receiving]
  have same : (s.setPort p ((s.port p).receiving (taken ++ [b]) [])).closeSelection p = s.closeSelection p := by
    rw [closeSelection_of_unread unread, s.closeSelection_of_idle p hidle]
    exact deselect_setPort s p _ _ _
  have executed : byteOnPort p (taken ++ [b]) (s.setPort p ((s.port p).receiving taken [])) =
      exec c (s.setPort p ((s.port p).receiving (taken ++ [b]) [])) := by
    rw [← frameMeaning_of_read hc]
    simp [byteOnPort, PortState.takeByte, PortState.receiving, h, List.replicate_succ']
  rw [List.flatMap_append, bitsOnLine_append, bitsOnPort_receiving s before]
  simp only [List.flatMap_singleton]
  rw [bitsOnPort_byte p taken b _ (by simp [PortState.receiving]), executed, ← exec_read_closeSelection hc (by simp [hr]), same,
    exec_read_closeSelection hc hr]

/-- What comes after a read moves its reply on, and nothing else (R168). -/
theorem bitsOnPort_afterRead {t : State} {taken : List Byte} {reading : Reading} (sent : List Byte) {part : List Bool}
    (hsel : (t.port p).selection = .selected taken []) (hread : (t.port p).reading = some reading) (hpart : part.length < 8) :
    ∃ moved shifted, bitsOnLine (portLine p) (sent.flatMap byteBits ++ part) t = .next (t.setPort p { t.port p with
      selection := .selected (taken ++ sent) part, reading := some moved, shifted := shifted }) := by
  obtain ⟨moved, shifted, hbytes⟩ : ∃ moved shifted, bitsOnLine (portLine p) (sent.flatMap byteBits) t =
      .next (t.setPort p { t.port p with
        selection := .selected (taken ++ sent) [], reading := some moved, shifted := shifted }) := by
    cases sent with
    | nil =>
      refine ⟨reading, (t.port p).shifted, congrArg Host.Outcome.next (State.setPort_self_eq t p _ ?_).symm⟩
      rw [List.append_nil, ← hsel, ← hread]
    | cons b rest => exact ⟨_, _, bitsOnPort_reply p (b :: rest) taken reading t hsel hread (by simp)⟩
  refine ⟨moved, shifted, ?_⟩
  rw [bitsOnLine_append, hbytes]
  simp only
  rw [bitsOnPort_part p (taken ++ sent) part [] _ (by simp) (by simpa using hpart)]
  simp

end

end Sys2Proof.Machine
end

section
/-! O41: selections of Ports C and S, by their bytes and by their moments (R114, R165 to R169, R178). -/

namespace Sys2Proof.Machine

section

variable {p : Port} {s : State}

theorem commandPort_of_read {c : Instr} (h : (∃ received, readPort c = some (p, received)) ∨ c = .readStatus p) :
    commandPort c = none := by
  rcases h with ⟨received, h⟩ | rfl
  · cases c <;> first | rfl | simp [readPort] at h
  · rfl

/-- A selection from its fall to its rise is what the row of its bytes and bits does; and until the rise, where no read is among
its bytes, the port takes them and nothing else (R165 to R169). -/
theorem selection_by_moments (hr : s.resetLine = false) (hidle : (s.port p).selection = .idle) (received : List Byte)
    {part : List Bool} (hpart : part.length < 8) :
    ∃ u, exec (.selectionEnd (portLine p) (.clocked (received.flatMap byteBits ++ part))) (s.beginSelection p) = .next u ∧
      exec (.selectionEnd (portLine p) .rise) u = exec (.framing p received part) s ∧
      ((∀ c, judgeFrame p received [] = .command c → commandPort c = some p) →
        u = s.setPort p ((s.port p).receiving received part)) := by
  have begun : (s.beginSelection p).resetLine = false := by simp [State.beginSelection, hr]
  rw [exec_clocked begun]
  by_cases hnone : ∀ taken, taken <+: received → completedRead p taken = none
  · have bits : bitsOnLine (portLine p) (received.flatMap byteBits ++ part) (s.beginSelection p) =
        .next (s.setPort p ((s.port p).receiving received part)) := by
      rw [bitsOnLine_append, bitsOnPort_receiving s hnone]
      simp only
      rw [bitsOnPort_part p received part [] _ (by simp [PortState.receiving]) (by simpa using hpart)]
      simp [PortState.receiving]
    refine ⟨_, bits, ?_, fun _ => rfl⟩
    have unread : ((s.setPort p ((s.port p).receiving received part)).port p).reading = none := by simp [PortState.receiving]
    have same : (s.setPort p ((s.port p).receiving received part)).closeSelection p = s.closeSelection p := by
      rw [closeSelection_of_unread unread, s.closeSelection_of_idle p hidle]
      exact deselect_setPort s p _ _ _
    rw [exec_rise (by simp [hr]), riseOnPort_of_unread (received := received) (part := part)
        (by simp [PortState.receiving]) unread,
      ← takeSelection_closeSelection received part (by simp [hr]), same, takeSelection_closeSelection received part hr]
    rfl
  · push Not at hnone
    obtain ⟨taken, ⟨sent, rfl⟩, hc⟩ := hnone
    obtain ⟨c, hc⟩ := Option.ne_none_iff_exists'.1 hc
    have judged := judgeFrame_of_completedRead (List.prefix_append taken sent) hc
    obtain ⟨t, reading, r, ht, hport, -, framed⟩ := exec_read_answered (completedRead_received hc) hr
    obtain ⟨moved, shifted, bits⟩ :=
      bitsOnPort_afterRead sent (congrArg PortState.selection hport) (congrArg PortState.reading hport) hpart
    have htr := resetLine_of_unchangedBut framed (by simp) hr
    have executed : bitsOnLine (portLine p) ((taken ++ sent).flatMap byteBits ++ part) (s.beginSelection p) =
        bitsOnLine (portLine p) (sent.flatMap byteBits ++ part) t := by
      rw [List.flatMap_append, List.append_assoc, bitsOnLine_append, bitsOnPort_completedRead hr hidle hc, ht]
    refine ⟨_, executed.trans bits, ?_, fun hread => ?_⟩
    · obtain ⟨u, hu, -, rise⟩ := takeSelection_of_command hr (judged part)
      obtain rfl := Host.Outcome.next.inj (ht.symm.trans hu)
      rw [exec_rise (by simp [htr]), riseOnPort_setPort_reading]
      exact (rise.trans (riseOnPort_of_reading (congrArg PortState.selection hport) (by rw [hport]; rfl))).symm
    · have waits := hread c (judged [])
      rw [commandPort_of_read (completedRead_read hc)] at waits
      cases waits

/-- No command but those of its own port, and a reset, alters a selection under way (R166). -/
theorem port_of_other_command {c : Instr} {t : State} (h : exec c s = .next t) (hwhole : ¬ wholeSelection p c)
    (htwo : isTwoRequests c = false) (hmoment : ∀ m, c ≠ .selectionEnd (portLine p) m)
    (hreset : ∀ acts, c ≠ .resetAssert acts) : t.port p = s.port p := by
  have other : ∀ {q : Port}, p ≠ q → .port p ∉ momentParts q := fun hq => by simp [hq]
  cases hq : commandPort c with
  | some q =>
    obtain ⟨u, hu, framed⟩ := exec_commandParts c (isSelection_of_commandPort hq) s
    obtain rfl := Host.Outcome.next.inj (hu.symm.trans h)
    exact (State.unchangedBut_mono framed (commandParts_subset (.inl hq))).2 (.port p)
      (other fun he => hwhole (.inl (he ▸ hq)))
  | none =>
  by_cases hread : ∃ q, (∃ received, readPort c = some (q, received)) ∨ c = .readStatus q
  · obtain ⟨q, hread⟩ := hread
    have hne : p ≠ q := fun he => hwhole (.inr ((he ▸ hread).imp_right .inl))
    exact (portOnly_of_read hread h).unchangedBut.2 (.port p) (by simp [hne])
  refine exec_agrees h (part := .port p) ?_
  cases c
  case resetAssert acts => exact absurd rfl (hreset acts)
  case framing q received part =>
    exact not_mem_selectionParts (other fun he => hwhole (.inr (.inr (.inr (.inl ⟨received, part, he ▸ rfl⟩)))))
  case unknown q received =>
    exact not_mem_selectionParts (other fun he => hwhole (.inr (.inr (.inr (.inr ⟨received, he ▸ rfl⟩)))))
  case selectionEnd line moment =>
    cases line with
    | c => exact other (q := .c) fun he => hmoment moment (he ▸ rfl)
    | s => exact other (q := .s) fun he => hmoment moment (he ▸ rfl)
    | r => simp [Changes, lineParts]
  case edit _ _ _ beside => cases beside <;> simp [commandPort, isTwoRequests] at hq htwo
  case editClose _ _ _ beside => cases beside <;> simp [commandPort, isTwoRequests] at hq htwo
  case groupOpen _ beside => cases beside <;> simp [commandPort, isTwoRequests] at hq htwo
  case groupClose _ beside => cases beside <;> simp [commandPort, isTwoRequests] at hq htwo
  case groupAbandon _ beside => cases beside <;> simp [commandPort, isTwoRequests] at hq htwo
  all_goals simp [Changes, commandParts, commandPort, readPort] at hq hread ⊢

/-! ## A selection under way (R165, R166, R168) -/

theorem exec_clocked_append (p : Port) (first rest : List Bool) (hr : s.resetLine = false) :
    ∃ t, exec (.selectionEnd (portLine p) (.clocked first)) s = .next t ∧
      exec (.selectionEnd (portLine p) (.clocked (first ++ rest))) s = exec (.selectionEnd (portLine p) (.clocked rest)) t := by
  obtain ⟨t, ht, framed⟩ := bitsOnLine_parts (portLine p) first s
  have htr := resetLine_of_unchangedBut framed (by cases p <;> simp [bitParts, portLine]) hr
  refine ⟨t, (exec_clocked hr).trans ht, ?_⟩
  rw [exec_clocked hr, exec_clocked htr, bitsOnLine_append, ht]

/-- A fall without the rise before it implies that rise (assumption log 26). -/
theorem exec_fall_after_rise (p : Port) (hr : s.resetLine = false) :
    ∃ t, exec (.selectionEnd (portLine p) .rise) s = .next t ∧
      exec (.selectionEnd (portLine p) .fall) s = exec (.selectionEnd (portLine p) .fall) t := by
  obtain ⟨t, ht, framed⟩ := riseOnPort_parts p s
  have again := exec_fall (resetLine_of_unchangedBut framed (by simp) hr) (riseOnPort_of_idle (selection_riseOnPort hr ht))
  exact ⟨t, (exec_rise hr).trans ht, (exec_fall hr ht).trans again.symm⟩

/-- A whole selection does the same from two states in which the earlier one ends the same way (assumption log 8). -/
theorem exec_of_same_closeSelection {c : Instr} {t : State} (hc : wholeSelection p c) (hs : s.resetLine = false)
    (ht : t.resetLine = false) (h : t.closeSelection p = s.closeSelection p) : exec c s = exec c t := by
  rw [← exec_closeSelection hc hs, ← h, exec_closeSelection hc ht]

/-- The end of a selection in which a read was executed, made twice, is made once. -/
theorem closeSelection_endSelection {received : List Byte} {part : List Bool} {r : Reading}
    (hsel : (s.port p).selection = .selected received part) (hread : (s.port p).reading = some r) :
    (s.endSelection p).closeSelection p = s.closeSelection p := by
  have ended : s.closeSelection p = s.endSelection p := by
    unfold State.closeSelection
    rw [if_neg (by simp [hsel, hread])]
  rw [← ended, closeSelection_closeSelection]

end

/-! ## The statement -/

/-- Settles O41: the tests on the bytes, the frames of the commands, and the moments of a selection. -/
theorem selectionsEnd : Obligations.SelectionsEnd := by
  refine ⟨?tests, ?frames, ?moments⟩
  case tests =>
    intro p code rest part lengths reads judged argumentsFit
    refine ⟨rfl, fun h => ?_, fun n h => ?_⟩
    · have judged_eq : judged = if part.isEmpty then .unknown else .framing :=
        judgeFrame_of_no_code (argumentLength_eq_none h)
      exact ⟨fun hp => by simp [judged_eq, hp], fun hp => by simp [judged_eq, hp]⟩
    have hn : argumentLength code = some n := argumentLength_eq_some.2 h
    have framing : ¬ (code ∈ reads ∧ n ≤ rest.length) → part ≠ [] ∨ ¬ argumentsFit n → judged = .framing := fun hread hf =>
      judgeFrame_of_not_fits hn hread (hf.imp_right fun hf hl => hf (lengthFits_iff.1 hl))
    refine ⟨fun hread hl => ?_, fun hread hl => framing (fun ⟨_, hl'⟩ => by omega) (.inr fun hf => ?_),
      fun hread hp => framing (fun hr => hread hr.1) (.inl hp), fun hread _ hf => framing (fun hr => hread hr.1) (.inr hf),
      fun _ hp hf => ⟨_, (congrArg (judgeFrame p (code :: rest)) hp).trans (judgeFrame_of_fits hn (lengthFits_iff.2 hf))⟩⟩
    · refine (judgeFrame_of_read hn hread hl).trans ?_
      rw [judgeFrame_of_read hn hread (by simp [hl]), List.take_take, Nat.min_self]
    · have := (lengthFits_read hread).1 (lengthFits_iff.2 hf)
      omega
  case frames =>
    intro p slot page offset sector complement selector id value data name hdata hname frames
    simp only [frames, List.forall_mem_cons, List.not_mem_nil, false_imp_iff, implies_true, and_true]
    exact ⟨rfl, rfl, rfl, rfl, rfl, judgeFrame_edit p id value, judgeFrame_editClose p id value, rfl, rfl, rfl, rfl,
      judgeFrame_slotWrite p slot page offset hdata, rfl, rfl, rfl, rfl, rfl, rfl, rfl,
      judgeFrame_save p slot sector selector hname, rfl, rfl⟩
  case moments =>
    intro s p hr moment bits whole deselected
    refine ⟨fun received part c hj => ?_, fun hidle => ?_, fun received part hsel => ?_⟩
    · obtain ⟨u, hu, hur, rise⟩ := takeSelection_of_command hr hj
      have framing : exec (.framing p received part) s = exec (moment .rise) u := rise.trans (exec_rise hur).symm
      exact ⟨u, hu, framing, fun hp => by rw [← framing, hp]; rfl⟩
    · have rise := riseOnPort_of_idle hidle
      refine ⟨(exec_rise hr).trans rise, fun part => (exec_clocked hr).trans (bitsOnPort_idle part hidle), s.beginSelection p,
        exec_fall hr rise, s.port_setPort_self p _, s.unchangedBut_setPort p _, fun received part hpart => ?_,
        fun c received hc => ?_⟩
      · obtain ⟨u, hu, ended, standing⟩ := selection_by_moments hr hidle received hpart
        refine ⟨u, hu, ended, fun hwaits => ?_⟩
        obtain rfl := standing hwaits
        exact ⟨s.port_setPort_self p _, s.unchangedBut_setPort p _⟩
      · refine (exec_clocked (by simp [State.beginSelection, hr])).trans ?_
        rw [List.append_nil]
        exact bitsOnPort_completedRead hr hidle (completedRead_of_read hc)
    · refine ⟨fun more hl => (exec_clocked hr).trans (bitsOnPort_part p received more part s hsel hl),
        fun first rest => exec_clocked_append p first rest hr, exec_fall_after_rise p hr, fun hunread => ⟨?_, fun c hc => ?_⟩,
        fun r hread => ⟨⟨s.endSelection p, (exec_rise hr).trans (riseOnPort_of_reading hsel (by simp [hread])), ?_⟩,
          fun sent hp hsent => ?_, fun c t h hc htwo hm hreset => port_of_other_command h hc htwo hm hreset⟩⟩
      · exact (exec_rise hr).trans (riseOnPort_of_unread hsel hunread)
      · refine exec_of_same_closeSelection hc hr (by simp [hr]) ?_
        rw [State.closeSelection_of_idle _ p (by simp [deselected]), closeSelection_of_unread hunread]
        exact deselect_setPort s p _ _ _
      · obtain ⟨port, timer, framed⟩ := endSelection_spec s p
        exact ⟨port, timer, framed, fun c hc =>
          exec_of_same_closeSelection hc hr (by simp [hr]) (closeSelection_endSelection hsel hread)⟩
      · subst hp
        refine (exec_clocked hr).trans ?_
        rw [List.append_nil]
        exact bitsOnPort_reply p sent received r s hsel hread hsent

end Sys2Proof.Machine
end

section
/-! The numbers of a slot by its kind, and what a command on a slot identifier leaves (R123, R124, R126, R143). -/

namespace Sys2Proof.Machine

/-! ## The numbers of a slot (R123, R124, R143) -/

theorem slotPageCount_eq (i : Fin 8) : slotPageCount i = if i.val < 4 then 116 else 7 := by
  simp [slotPageCount, isLatticeSlot]

theorem slotValueCount_eq (i : Fin 8) : slotValueCount i = if i.val < 4 then 14739 else 833 := by
  simp [slotValueCount, isLatticeSlot]

theorem slotKind_eq (i : Fin 8) : slotKind i = if i.val < 4 then .lattice else .tone := by
  simp [slotKind, isLatticeSlot]

/-- The content pages of a table are the pages of its slot (R124, R139). -/
theorem slotKind_pages (i : Fin 8) : (slotKind i).pages = if i.val < 4 then 116 else 7 := by
  rw [slotKind_eq]
  split <;> rfl

/-! ## A command on a slot identifier (R126) -/

section

variable {p : Port} {id : Byte} {body : Fin 8 → State → Result × State} {s : State} {r : Result} {i : Fin 8}

/-- An identifier above 7 (R126). -/
theorem slotCommand_badSlot (ho : s.operating) (hid : 8 ≤ id.toNat) :
    s.answers (portCommand p (onSlot id body) s) p .badSlot [] := by
  have hb : onSlot id body (s.closeSelection p) = (.badSlot, s.closeSelection p) := by
    simp [onSlot, slotOfId_none (show ¬ id.toNat ≤ 7 by omega)]
  exact portCommand_answers ho hb (State.unchangedBut_refl _ _) (by simp) (by simp) (by simp)

theorem onSlot_of_id (hid : id.toNat = i.val) (u : State) : onSlot id body u = body i u := by
  simp [onSlot, slotOfId_eq hid]

/-- A command that leaves every slot as it is, judged by the slot alone. -/
theorem slotCommand_keeps (ho : s.operating) (hid : id.toNat = i.val)
    (hb : ∀ u : State, u.slot i = s.slot i → body i u = (r, u)) : s.answers (portCommand p (onSlot id body) s) p r [] :=
  portCommand_answers ho ((onSlot_of_id hid _).trans (hb _ (closeSelection_slot s p i))) (State.unchangedBut_refl _ _)
    (by simp) (by simp) (by simp)

/-- A command that replaces its slot, judged by the slot alone. -/
theorem slotCommand_sets {y : Slot} (ho : s.operating) (hid : id.toNat = i.val)
    (hb : ∀ u : State, u.slot i = s.slot i → body i u = (r, u.setSlot i y)) :
    let t := portCommand p (onSlot id body) s
    s.answers t p r [.slots] ∧ t.slot i = y ∧ ∀ j, j ≠ i → t.slot j = s.slot j := by
  intro t
  have hbody := (onSlot_of_id hid _).trans (hb (s.closeSelection p) (closeSelection_slot s p i))
  have slot : ∀ j, t.slot j = if i = j then y else s.slot j := fun j => by
    rw [slot_of_slots i j y (portCommand_slots ho hbody), closeSelection_slot]
  refine ⟨portCommand_answers ho hbody (State.unchangedBut_setSlot _ i y) (by simp) (by simp) (by simp),
    (slot i).trans (if_pos rfl), fun j hj => (slot j).trans (if_neg hj.symm)⟩

end

end Sys2Proof.Machine
end

section
/-! O35, O36 and O37: SLOT OPEN, SLOT WRITE, SLOT FINISH and SLOT DISCARD by the slot's state (R125 to R130). -/

namespace Sys2Proof.Machine

/-- Settles O35, by the states of the slot. -/
theorem slotOpened : Obligations.SlotOpened := by
  intro p id s ho refused
  refine ⟨fun hid => ⟨_, rfl, slotCommand_badSlot ho hid⟩, ?_⟩
  intro i hid x inUse
  have refuse : ∀ r, (∀ u : State, u.slot i = x → openSlot p i u = (r, u)) → refused r := fun r hb =>
    ⟨_, rfl, slotCommand_keeps ho hid hb⟩
  have used : x.inUse = true ↔ inUse := Slot.inUse_eq_true x
  refine ⟨fun free => ?_, fun hx hu => refuse _ fun u h => ?_, fun q hx hq => refuse _ fun u h => ?_,
    fun hx => refuse _ fun u h => ?_, fun hx => refuse _ fun u h => ?_⟩
  · have opens : ∀ u : State, u.slot i = x →
        openSlot p i u = (.done, u.setSlot i { x with state := .opened p }) := fun u h => by
      rcases free with hx | ⟨hx, hu⟩
      · simp [openSlot, h, hx]
      · simp [openSlot, h, hx, used, hu]
    exact ⟨_, rfl, slotCommand_sets ho hid opens⟩
  · simp [openSlot, h, hx, used, hu]
  · simp [openSlot, h, hx, hq]
  · simp [openSlot, h, hx]
  · simp [openSlot, h, hx]

/-- A slot that is not OPEN takes no bytes (R128). -/
theorem writeSlot_of_not_open {p : Port} {page offset : Byte} {data : List Byte} {i : Fin 8} {u : State}
    (h : ∀ q, (u.slot i).state ≠ .opened q) : writeSlot p page offset data i u = (.notOpen, u) := by
  cases hx : (u.slot i).state with
  | opened q => exact absurd hx (h q)
  | _ => simp [writeSlot, hx]

/-- A slot that is not OPEN is not finished (R129). -/
theorem finishSlot_of_not_open {p : Port} {i : Fin 8} {u : State} (h : ∀ q, (u.slot i).state ≠ .opened q) :
    finishSlot p i u = (.notOpen, u) := by
  cases hx : (u.slot i).state with
  | opened q => exact absurd hx (h q)
  | _ => simp [finishSlot, hx]

/-- Settles O36, by the tests in their order; the bytes are those of `writePage_spec`. -/
theorem slotWritten : Obligations.SlotWritten := by
  intro p id page offset data s ho hdata refused
  have command : exec (.slotWrite p id page offset data) s =
      .next (portCommand p (onSlot id (writeSlot p page offset data)) s) :=
    congrArg Host.Outcome.next (if_neg (by simpa using hdata))
  refine ⟨fun hid => ⟨_, command, slotCommand_badSlot ho hid⟩, ?_⟩
  intro i hid x pages size at_
  have refuse : ∀ r, (∀ u : State, u.slot i = x → writeSlot p page offset data i u = (r, u)) → refused r := fun r hb =>
    ⟨_, command, slotCommand_keeps ho hid hb⟩
  have hpages : slotPageCount i = pages := slotPageCount_eq i
  refine ⟨fun hx => refuse _ fun u h => writeSlot_of_not_open (h ▸ hx), fun q hx hq => refuse _ fun u h => ?_,
    fun hx hp => refuse _ fun u h => ?_, fun hx hp => ?_⟩
  · simp [writeSlot, h, hx, hq]
  · simp [writeSlot, h, hx, hpages, hp]
  · have writes : ∀ u : State, u.slot i = x → writeSlot p page offset data i u =
        (.done, u.setSlot i { x with content := writePage i page.toNat offset.toNat data x.content }) := fun u h => by
      simp [writeSlot, h, hx, hpages, Nat.not_le.2 hp]
    obtain ⟨answered, slot, others⟩ := slotCommand_sets ho hid writes
    obtain ⟨written, unwritten⟩ := writePage_spec i page.toNat data offset.toNat x.content
    rw [slotByteCount_eq i] at written unwritten
    refine ⟨_, command, answered, others, ?_⟩
    rw [slot]
    exact ⟨rfl, written, unwritten⟩

/-- Some value of a slot is above 4,095 (R129). -/
theorem exceeds4095_iff (i : Fin 8) (content : Memory) :
    exceeds4095 i content = true ↔ ∃ k < slotValueCount i, 4095 < slotValue content k := by
  simp [exceeds4095]

/-- Settles O37, each command by the states of the slot. -/
theorem slotFinishedOrDiscarded : Obligations.SlotFinishedOrDiscarded := by
  intro p id s ho refused
  refine ⟨fun hid => ⟨⟨_, rfl, slotCommand_badSlot ho hid⟩, ⟨_, rfl, slotCommand_badSlot ho hid⟩⟩, ?_⟩
  intro i hid x values inUse
  have refuseFinish : ∀ r, (∀ u : State, u.slot i = x → finishSlot p i u = (r, u)) → refused (.slotFinish p id) r :=
    fun r hb => ⟨_, rfl, slotCommand_keeps ho hid hb⟩
  have refuseDiscard : ∀ r, (∀ u : State, u.slot i = x → discardSlot i u = (r, u)) → refused (.slotDiscard p id) r :=
    fun r hb => ⟨_, rfl, slotCommand_keeps ho hid hb⟩
  have used : x.inUse = true ↔ inUse := Slot.inUse_eq_true x
  have hvalues : slotValueCount i = values := slotValueCount_eq i
  refine ⟨fun hx => refuseFinish _ fun u h => finishSlot_of_not_open (h ▸ hx), fun q hx hq => refuseFinish _ fun u h => ?_,
    fun hx => ?_, fun hx => refuseDiscard _ fun u h => ?_, fun free => ?_, fun hx hu => refuseDiscard _ fun u h => ?_,
    fun hx => refuseDiscard _ fun u h => ?_⟩
  · simp [finishSlot, h, hx, hq]
  · have finishes : ∀ u : State, u.slot i = x → finishSlot p i u =
        (if exceeds4095 i x.content then .clamped else .done, u.setSlot i
          { x with
            state := .ready, generation := x.generation + 1, origin := .port p, content := clampContent i x.content }) :=
      fun u h => by simp [finishSlot, h, hx]
    obtain ⟨answered, slot, others⟩ := slotCommand_sets ho hid finishes
    have exceeds := exceeds4095_iff i x.content
    rw [hvalues] at exceeds
    refine ⟨_, rfl, others, by rw [slot], fun k hk => ?_, fun above => ?_, fun within => ?_⟩
    · rw [slot]
      exact slotValue_clampContent i x.content k (hvalues ▸ hk)
    · rwa [if_pos (exceeds.2 above)] at answered
    · rwa [if_neg fun h => ?_] at answered
      obtain ⟨k, hk, above⟩ := exceeds.1 h
      exact absurd (within k hk) (Nat.not_le.2 above)
  · simp [discardSlot, h, hx]
  · have empties : ∀ u : State, u.slot i = x → discardSlot i u = (.done, u.setSlot i x.emptied) := fun u h => by
      rcases free with ⟨q, hx⟩ | ⟨hx, hu⟩
      · simp [discardSlot, h, hx]
      · simp [discardSlot, h, hx, used, hu]
    obtain ⟨answered, slot, others⟩ := slotCommand_sets ho hid empties
    refine ⟨_, rfl, answered, others, slot, fun k => ?_⟩
    rw [slot]
    exact slotValue_nil k
  · simp [discardSlot, h, hx, used, hu]
  · simp [discardSlot, h, hx]

end Sys2Proof.Machine
end

section
/-! O45: the completion of a recall (R134, R144, R145). -/

namespace Sys2Proof.Machine

/-- The end of a recall, as a state whose suspended erase is still to resume: FAILED with the slot as it was before and the
sector TORN where a content page does not match its check, else COMPLETED with the slot filled (R134, R144). -/
theorem endRecall_spec (prior : SlotState) (i : Fin 8) (n : Fin 64) {s : State} (hd : s.directory.isSome = true) :
    let x := s.slot i
    let fails : Prop := ∃ q, 1 ≤ q ∧ q ≤ (if i.val < 4 then 116 else 7) ∧ sectorPage n q ∈ s.store.mismatched
    ∃ e, endRecall prior i n s = resumeErase n e ∧ e.directory.isSome = true ∧ e.store = s.store ∧
      e.controller = s.controller ∧ (∀ j, j ≠ i → e.slot j = s.slot j) ∧
      (¬ fails → e.recallEngine = { s.recallEngine with state := .idle, outcome := some .completed } ∧
        e.slot i = { x with
          state := .ready, generation := x.generation + 1, origin := .sector n, content := recalledContent s.store i n } ∧
        ∀ m, e.sectorEntry m = s.sectorEntry m) ∧
      (fails → e.recallEngine = { s.recallEngine with state := .idle, outcome := some .failed } ∧
        e.slot i = { x with state := prior } ∧ ∀ m, e.sectorEntry m = if n = m then .torn else s.sectorEntry m) := by
  intro x fails
  have meets : s.store.anyPageFails n 1 (slotKind i).pages = true ↔ fails := by
    rw [Store.anyPageFails_eq_true, slotKind_pages]
    simp only [fails, Nat.add_comm 1, Nat.lt_succ_iff]
  unfold endRecall
  simp only
  split
  · next hf =>
    refine ⟨_, rfl, (State.setSectorEntry_directory_isSome _ n .torn).trans hd, rfl, rfl, fun j hj => ?_,
      fun h => absurd (meets.1 hf) h, fun _ => ⟨rfl, State.slot_setSlot_self s i _, fun m => ?_⟩⟩
    · exact (State.slot_setSlot s i j _).trans (if_neg hj.symm)
    · exact sectorEntry_of_directory (s := s) n m .torn hd rfl
  · next hf =>
    refine ⟨_, rfl, hd, rfl, rfl, fun j hj => ?_, fun _ => ⟨rfl, State.slot_setSlot_self s i _, fun _ => rfl⟩,
      fun h => absurd (meets.2 h) hf⟩
    exact (State.slot_setSlot s i j _).trans (if_neg hj.symm)

/-- With a recall in flight its completion ends it, on the store as it has decayed (R144). -/
theorem recallCompletes_of_recalling {s : State} {prior : SlotState} {i : Fin 8} {n : Fin 64} (decayed : List Nat)
    (hstate : s.recallEngine.state = .recalling prior) (hi : s.recallEngine.slot = some i)
    (hn : s.recallEngine.sector = some n) :
    recallCompletes decayed s = endRecall prior i n { s with store := s.store.decay decayed } := by
  simp [recallCompletes, hstate, hi, hn]

/-- With no recall in flight only the decay stands (assumption logs 7, 10). -/
theorem recallCompletes_of_idle {s : State} (decayed : List Nat) (h : s.recallEngine.state = .idle) :
    recallCompletes decayed s = { s with store := s.store.decay decayed } := by
  simp [recallCompletes, h]

/-- Settles O45: the end of the recall by `endRecall_spec`, then the erase that resumes by `resumeErase_spec`. -/
theorem recallCompleted : Obligations.RecallCompleted := by
  intro decayed s
  refine ⟨fun prior i n hstate hi hn hd => ?_, fun hidle => ?_⟩
  · obtain ⟨e, he, directory, store, controller, others, completed, failed⟩ :=
      endRecall_spec prior i n (s := { s with store := s.store.decay decayed }) hd
    have ended := (recallCompletes_of_recalling decayed hstate hi hn).trans he
    obtain ⟨resumed, entries, untouched, -⟩ := resumeErase_spec e n directory
    rw [controller] at resumed entries untouched
    have stored : (resumeErase n e).store = s.store.decay decayed := (resumeErase_store n e).trans store
    have slot : ∀ j, (resumeErase n e).slot j = e.slot j := fun j => congrArg (Tab.get · j) (resumeErase_slots n e)
    refine ⟨resumeErase n e, congrArg Host.Outcome.next ended, ?_, fun page => ?_, ?_⟩
    · rw [stored, decay_bytes]
    · rw [stored]
      exact mem_decay decayed s.store page
    intro x fails resumes
    have hfails : fails ↔ ∃ q, 1 ≤ q ∧ q ≤ (if i.val < 4 then 116 else 7) ∧
        sectorPage n q ∈ (s.store.decay decayed).mismatched := by
      simp only [fails, stored]
    refine ⟨fun hf => ?_, fun hf => ?_, fun j hj => (slot j).trans (others j hj), fun m hm => (resumed m hm).symm, untouched,
      ended ▸ unchangedBut_recallCompletes decayed s⟩
    · obtain ⟨engine, filled, entry⟩ := completed (hf ∘ hfails.2)
      rw [slot i, filled]
      refine ⟨(resumeErase_recallEngine n e).trans engine, rfl, fun k hk => ?_, fun m hm => (entries m hm).trans (entry m)⟩
      exact slotValue_recalledContent _ i n k (slotValueCount_eq i ▸ hk)
    · obtain ⟨engine, restored, entry⟩ := failed (hfails.1 hf)
      refine ⟨(resumeErase_recallEngine n e).trans engine, (slot i).trans restored, fun hn => ?_, fun m hmn hm => ?_⟩
      · exact (entries n hn).trans ((entry n).trans (if_pos rfl))
      · exact (entries m hm).trans ((entry m).trans (if_neg hmn.symm))
  · exact ⟨_, congrArg Host.Outcome.next (recallCompletes_of_idle decayed hidle), rfl, unchangedBut_store s _⟩

end Sys2Proof.Machine
end

section
/-! O47: the end of a save (R135, R139, R147, R182, R183). -/

namespace Sys2Proof.Machine

/-! ## What a save writes (R139, R147, R183) -/

theorem SaveJob.kind_eq (j : SaveJob) :
    j.kind = if j.calibration then .calibration else if j.slot.val < 4 then .lattice else .tone := by
  unfold SaveJob.kind
  rw [slotKind_eq]

theorem SaveJob.length_content_eq (j : SaveJob) (x : Slot) :
    (j.content x).length = if j.calibration then 192 else if j.slot.val < 4 then 29478 else 1666 := by
  rw [SaveJob.length_content, slotByteCount_eq]

/-- A table is saved byte by byte as its slot holds it (R147). -/
theorem SaveJob.content_of_table {j : SaveJob} (h : j.calibration = false) (x : Slot) {k : Nat}
    (hk : k < slotByteCount j.slot) : (j.content x).getD k storeFill = Memory.read slotFill x.content k := by
  simp [SaveJob.content, h, Memory.readRun, hk]

/-- A calibration set is saved as the page formed of its slot (R183). -/
theorem SaveJob.content_of_calibration {j : SaveJob} (h : j.calibration = true) (x : Slot) :
    j.content x = calibrationPage x.content := by
  simp [SaveJob.content, h]

/-- The calibration id of the header: the first bytes of a calibration set, else 0 (R139, R183). -/
theorem SaveJob.idBytes_getD (j : SaveJob) (x : Slot) {k : Nat} (hk : k < 4) :
    (j.idBytes x).getD k storeFill = if j.calibration then (j.content x).getD k storeFill else 0 := by
  unfold SaveJob.idBytes
  split
  · simp [List.getElem?_take_of_lt hk]
  · interval_cases k <;> rfl

/-- The directory shows a calibration id for a calibration set alone: the number of its id bytes (R140, R147). -/
theorem SaveJob.info_calibrationId (j : SaveJob) (x : Slot) :
    (j.info x).calibrationId.map BitVec.toNat = if j.calibration then some (bytesNat (j.idBytes x)) else none := by
  have small := bytesNat_lt (j.idBytes x)
  rw [SaveJob.length_idBytes] at small
  unfold SaveJob.info
  split
  · exact congrArg some (Nat.mod_eq_of_lt small)
  · rfl

/-! ## The sector after all acts of a save (R147, R182) -/

section

variable (st : Store) (n : Fin 64) {j : SaveJob} (x : Slot) (hname : j.name.length = 16)

include hname

/-- Bytes 2 to 23: kind, content length, name and calibration id (R182). -/
theorem byte_saved_header {k : Nat} (hk : k < 22) :
    (saveActs n j x j.acts st).byte n (2 + k) =
      ([j.kind.code, BitVec.ofNat 8 j.kind.pages] ++ j.name ++ j.idBytes x).getD k storeFill := by
  rw [byte_saveActs_whole st n j x _ (by omega) hname, if_neg (by omega), if_pos (by omega), Nat.add_sub_cancel_left]

theorem byte_saved_pages : ((saveActs n j x j.acts st).byte n 3).toNat = j.kind.pages := by
  have fits := j.kind.pages_le
  rw [byte_saved_header st n x hname (k := 1) (by omega)]
  simp only [List.cons_append, List.getD_cons_succ, List.getD_cons_zero, BitVec.toNat_ofNat]
  omega

theorem byte_saved_name (k : Nat) (hk : k < j.name.length) : (saveActs n j x j.acts st).byte n (4 + k) = j.name[k] := by
  rw [show 4 + k = 2 + (k + 2) by omega, byte_saved_header st n x hname (by omega)]
  simp [List.getElem?_append_left hk, hk]

theorem byte_saved_id (k : Nat) (hk : k < 4) :
    (saveActs n j x j.acts st).byte n (20 + k) = (j.idBytes x).getD k storeFill := by
  rw [show 20 + k = 2 + (k + 18) by omega, byte_saved_header st n x hname (by omega),
    List.getD_append_right _ _ _ _ (by simp [hname])]
  simp [hname]

theorem byte_saved_content (k : Nat) (hk : k < (j.content x).length) :
    (saveActs n j x j.acts st).byte n (256 + k) = (j.content x).getD k storeFill := by
  have fits := j.content_fits x
  rw [byte_saveActs_whole st n j x _ (by omega) hname, if_neg (by omega), if_neg (by omega), if_neg (by omega),
    if_neg (by omega), if_pos (by omega), Nat.add_sub_cancel_left]

theorem byte_saved_rest (k : Nat) (hk : k < 32768) (hrest : (24 ≤ k ∧ k ≤ 253) ∨ 256 + (j.content x).length ≤ k) :
    (saveActs n j x j.acts st).byte n k = st.byte n k := by
  rw [byte_saveActs_whole st n j x k hk hname, if_neg (by omega), if_neg (by omega), if_neg (by omega), if_neg (by omega),
    if_neg (by omega)]

/-- The id bytes of a calibration set as the sector's first content bytes (R139, R183). -/
theorem idBytes_saved (hc : j.calibration = true) :
    j.idBytes x = (List.range 4).map fun k => (saveActs n j x j.acts st).byte n (256 + k) := by
  have hlen := j.length_content_eq x
  rw [if_pos hc] at hlen
  refine List.ext_getElem (by simp [SaveJob.length_idBytes]) fun k hk _ => ?_
  rw [SaveJob.length_idBytes] at hk
  have id := j.idBytes_getD x hk
  rw [if_pos hc] at id
  rw [List.getElem_map, List.getElem_range, byte_saved_content st n x hname k (by omega), ← id, List.getD_eq_getElem]

/-- The sector holds a whole table of the save's kind (R141, R182). -/
theorem holdsTable_saved : (saveActs n j x j.acts st).holdsTable n j.kind := by
  have bytes := fun k hk => byte_saveActs_whole st n j x k hk hname
  exact ⟨bytes 254 (by omega), bytes 255 (by omega), byte_saved_header st n x hname (k := 0) (by omega),
    byte_saved_pages st n x hname, fun q hq => mismatched_saveActs_whole st n j x q hq⟩

end

/-! ## The end of a save in the controller, the directory and the slot (R135, R147) -/

/-- With a save in progress its completion ends it. -/
theorem saveCompletes_of_programming {s : State} {j : SaveJob} {n : Fin 64} (failed : Option Nat)
    (hj : s.controller.state = .programming j) (hn : s.controller.sector = some n) :
    saveCompletes failed s = endSave j n failed s := by
  simp [saveCompletes, hj, hn]

/-- With no save in progress nothing ends (assumption log 10). -/
theorem saveCompletes_of_not_programming {s : State} (failed : Option Nat) (h : ∀ j, s.controller.state ≠ .programming j) :
    saveCompletes failed s = s := by
  unfold saveCompletes
  split
  · next j n hj _ => exact absurd hj (h j)
  · rfl

/-- A save that has ended on a store whose other sectors stand: the controller IDLE, the saving mark clear, and no other slot,
entry or sector touched. -/
theorem finishSave_spec {s : State} {j : SaveJob} {n : Fin 64} (e : SectorEntry) (o : StoreOutcome) {st : Store} (free : Nat)
    (hn : s.controller.sector = some n) (hd : s.directory.isSome = true)
    (hbytes : ∀ m k, m ≠ n → k < 32768 → st.byte m k = s.store.byte m k) :
    let t := finishSave j n e o { s with store := st, freeIndex := free }
    (t.controller = { state := .idle, sector := some n, outcome := some o } ∧
      t.slot j.slot = { s.slot j.slot with saving := false } ∧ (∀ i, i ≠ j.slot → t.slot i = s.slot i) ∧
      (∀ m, m ≠ n → t.sectorEntry m = s.sectorEntry m) ∧
      ∀ m k, m ≠ n → k < 32768 → t.store.byte m k = s.store.byte m k) ∧
    t.sectorEntry n = e := by
  intro t
  have slot : ∀ i, t.slot i = if j.slot = i then { s.slot j.slot with saving := false } else s.slot i := fun i =>
    State.slot_setSlot { s with store := st, freeIndex := free } j.slot i _
  have entry : ∀ m, t.sectorEntry m = if n = m then e else s.sectorEntry m := fun m =>
    sectorEntry_of_directory (s := s) n m e hd rfl
  refine ⟨⟨?_, (slot j.slot).trans (if_pos rfl), fun i hi => (slot i).trans (if_neg hi.symm),
    fun m hm => (entry m).trans (if_neg hm.symm), hbytes⟩, (entry n).trans (if_pos rfl)⟩
  simp [t, finishSave, hn]

/-- An act of a save writes the header page or a content page (R147). -/
theorem savePageOfAct_lt (j : SaveJob) (act : Nat) : savePageOfAct j act < 128 := by
  have fits := j.kind.pages_le
  unfold savePageOfAct
  split
  · omega
  · next h =>
    rw [not_or, SaveJob.acts] at h
    omega

/-- Settles O47: the sector by the bytes that all acts of the save leave, the rest by `finishSave_spec`. -/
theorem saveCompleted : Obligations.SaveCompleted := by
  intro s
  refine ⟨fun j n hj hn hname hd => ?_, fun h failed =>
    congrArg Host.Outcome.next (saveCompletes_of_not_programming failed h)⟩
  intro x kind size ends
  have hkind : j.kind = kind := j.kind_eq
  have hsize : (j.content x).length = size := j.length_content_eq x
  have command : ∀ failed, exec (.saveCompletion failed) s = .next (endSave j n failed s) := fun failed =>
    congrArg Host.Outcome.next (saveCompletes_of_programming failed hj hn)
  have others : ∀ acts m k, m ≠ n → k < 32768 → (saveActs n j x acts s.store).byte m k = s.store.byte m k :=
    fun acts m k hm hk => byte_saveActs_of_ne s.store j x acts k hm.symm hk hname.le
  refine ⟨?_, fun act => ?_⟩
  · obtain ⟨ended, entry⟩ := finishSave_spec (.valid (j.info x)) .completed s.freeIndex hn hd (others j.acts)
    have bytes := fun k hk => byte_saveActs_whole s.store n j x k hk hname
    have content := byte_saved_content s.store n x hname
    have table := holdsTable_saved s.store n x hname
    rw [hsize] at content
    rw [hkind] at table
    obtain ⟨marker, marker', code, pages, -⟩ := id table
    refine ⟨_, command none, ended, ⟨bytes 0 (by omega), bytes 1 (by omega), code, pages, byte_saved_name s.store n x hname,
      fun k hk => ?_, marker, marker'⟩, fun hc k hk => ?_, fun hc k hk => ?_,
      fun k hk hrest => byte_saved_rest s.store n x hname k hk (hsize ▸ hrest), table,
      ⟨j.info x, entry, hkind, congrArg SectorKind.pages hkind, rfl, fun hc => ?_, fun hc => ?_⟩, ?_⟩
    · refine (byte_saved_id s.store n x hname k hk).trans ((j.idBytes_getD x hk).trans ?_)
      split
      · next hc =>
        have hlen : size = 192 := if_pos hc
        exact (content k (by omega)).symm
      · rfl
    · have hlen : slotByteCount j.slot = size := by rw [← hsize, SaveJob.length_content, if_neg (by simp [hc])]
      exact (content k hk).trans (SaveJob.content_of_table hc x (hlen ▸ hk))
    · have hlen : size = 192 := if_pos hc
      obtain ⟨first, second, third⟩ := byte_calibrationPage x.content k hk
      rw [← SaveJob.content_of_calibration hc x] at first second third
      refine ⟨(content (3 * k) (by omega)).trans first, ?_, ?_⟩
      · rw [show 257 + 3 * k = 256 + (3 * k + 1) by omega]
        exact (content _ (by omega)).trans second
      · rw [show 258 + 3 * k = 256 + (3 * k + 2) by omega]
        exact (content _ (by omega)).trans third
    · simp [SaveJob.info, hc]
    · refine (j.info_calibrationId x).trans ?_
      rw [if_pos hc, idBytes_saved s.store n x hname hc]
      rfl
    · exact State.unchangedBut_trans (unchangedBut_store s _) (unchangedBut_finishSave _ _ _ _ _) (by simp) (by simp)
  · have spoiled : ∀ m k, m ≠ n → k < 32768 →
        ((saveActs n j x (clampNat 1 j.acts act - 1) s.store).spoilPage s.freeIndex n
          (savePageOfAct j (clampNat 1 j.acts act))).byte m k = s.store.byte m k := fun m k hm hk =>
      (byte_spoilPage_of_ne _ _ _ k hm.symm hk (savePageOfAct_lt j _)).trans (others _ m k hm hk)
    obtain ⟨ended, entry⟩ := finishSave_spec .torn .failed (s.freeIndex + 1) hn hd spoiled
    exact ⟨_, command (some act), ended, entry, State.unchangedBut_trans (unchangedBut_storeFree s _ _)
      (unchangedBut_finishSave _ _ _ _ _) (by simp) (by simp)⟩

end Sys2Proof.Machine
end

section
/-! O44, O46 and O48: RECALL, SAVE and ERASE as they are judged, and what acceptance begins (R143, R145, R146, R148). -/

namespace Sys2Proof.Machine

/-! ## What a command leaves of the parts of the store -/

/-- The parts of the store's operations are those that the command's body leaves: its answer touches a port and the timer. -/
theorem storeParts_of_answer {u t : State} {p : Port} (h : u.unchangedBut t [.port p, .inactivityTimer]) :
    t.recallEngine = u.recallEngine ∧ t.controller = u.controller ∧ t.directory = u.directory ∧
      (∀ i, t.slot i = u.slot i) ∧ ∀ n, t.sectorEntry n = u.sectorEntry n := by
  obtain ⟨-, same⟩ := h
  have slots : t.slots = u.slots := same .slots (by simp)
  have directory : t.directory = u.directory := same .directory (by simp)
  exact ⟨same .recallEngine (by simp), same .controller (by simp), directory, fun i => congrArg (Tab.get · i) slots,
    fun n => by rw [State.sectorEntry, directory]; rfl⟩

/-- A sector known not to be TORN has its entry in a directory (R140). -/
theorem directory_isSome_of_sectorEntry {s : State} {n : Fin 64} (h : s.sectorEntry n ≠ .torn) : s.directory.isSome = true := by
  unfold State.sectorEntry at h
  split at h
  · next hd => rw [hd]; rfl
  · exact absurd rfl h

theorem sectorEntry_setSlot (s : State) (i : Fin 8) (x : Slot) (n : Fin 64) :
    (s.setSlot i x).sectorEntry n = s.sectorEntry n := rfl

/-! ## Recall (R143, R145) -/

/-- The state in which a recall has begun: its slot LOADING, an erase running in its bank suspended, the engine reading. -/
def recallBegun (i : Fin 8) (n : Fin 64) (s : State) : State :=
  { suspendErase n (s.setSlot i { s.slot i with state := .loading }) with
    recallEngine := { s.recallEngine with state := .recalling (s.slot i).state, slot := some i, sector := some n } }

theorem recallRequest_refused {number id : Byte} {s : State} {r : Result} (h : judgeRecall number id s = .error r) :
    recallRequest number id s = (r, s) := by
  simp [recallRequest, h]

theorem recallRequest_accepted {number id : Byte} {s : State} {i : Fin 8} {n : Fin 64}
    (h : judgeRecall number id s = .ok (i, n)) : recallRequest number id s = (.started, recallBegun i n s) := by
  simp [recallRequest, h, recallBegun]

theorem unchangedBut_recallBegun (i : Fin 8) (n : Fin 64) (s : State) :
    s.unchangedBut (recallBegun i n s) [.slots, .recallEngine, .controller, .directory] :=
  State.unchangedBut_trans (State.unchangedBut_setSlot s i _)
    (State.unchangedBut_trans (c := [.controller, .directory, .recallEngine]) (unchangedBut_suspendErase _ n)
      (unchangedBut_recallEngine _ _) (by simp) (by simp)) (by simp) (by simp)

theorem recallBegun_slot (i j : Fin 8) (n : Fin 64) (s : State) :
    (recallBegun i n s).slot j = if i = j then { s.slot i with state := .loading } else s.slot j :=
  (congrArg (Tab.get · j) (suspendErase_slots n _)).trans (State.slot_setSlot s i j _)

/-- An erase running in the bank of a sector is suspended; no other erase, and no save, is touched (R145). -/
theorem suspendErase_spec (n : Fin 64) {s : State} (hd : s.directory.isSome = true) :
    let t := suspendErase n s
    (∀ m, s.controller.state = .erasing → s.controller.sector = some m → m.val / 16 = n.val / 16 →
      t.controller = { s.controller with state := .eraseSuspended true } ∧
        ∀ k, t.sectorEntry k = if m = k then .eraseSuspended else s.sectorEntry k) ∧
    ((s.controller.state = .erasing → ∀ m, s.controller.sector = some m → m.val / 16 ≠ n.val / 16) →
      t.controller = s.controller ∧ t.directory = s.directory) := by
  intro t
  rcases suspendErase_cases n s with ⟨m, hstate, hm, hbank, suspends⟩ | ⟨keeps, apart⟩
  · refine ⟨fun k _ hk _ => ?_, fun elsewhere => absurd hbank (elsewhere hstate m hm)⟩
    obtain rfl : m = k := Option.some.inj (hm.symm.trans hk)
    have directory : t.directory = (s.setSectorEntry m .eraseSuspended).directory := by
      rw [show t = _ from suspends]
    exact ⟨congrArg State.controller suspends, fun k => sectorEntry_of_directory m k .eraseSuspended hd directory⟩
  · exact ⟨fun m hstate hm hbank => absurd hbank (apart m hstate hm),
      fun _ => ⟨congrArg State.controller keeps, congrArg State.directory keeps⟩⟩

/-- A RECALL accepted in an operating state. -/
theorem recall_begins {p : Port} {number id : Byte} {s : State} {i : Fin 8} {n : Fin 64} (ho : s.operating)
    (hb : recallRequest number id (s.closeSelection p) = (.started, recallBegun i n (s.closeSelection p))) :
    let t := portCommand p (recallRequest number id) s
    s.answers t p .started [.slots, .recallEngine, .controller, .directory] ∧
      t.recallEngine = { state := .recalling (s.slot i).state, slot := some i, sector := some n,
                         outcome := s.recallEngine.outcome } ∧
      (∀ j, t.slot j = if i = j then { s.slot i with state := .loading } else s.slot j) ∧
      t.controller = (recallBegun i n (s.closeSelection p)).controller ∧
      t.directory = (recallBegun i n (s.closeSelection p)).directory ∧
      ∀ m, t.sectorEntry m = (recallBegun i n (s.closeSelection p)).sectorEntry m := by
  intro t
  have changes := unchangedBut_recallBegun i n (s.closeSelection p)
  have owner : (recallBegun i n (s.closeSelection p)).ca.owner = s.ca.owner :=
    (changes.2 .group (by simp)).1.trans (State.closeSelection_ca_owner s p)
  obtain ⟨-, -, answer, -⟩ := portCommand_answered ho hb changes (by simp)
  obtain ⟨engine, controller, directory, slot, entry⟩ := storeParts_of_answer answer
  refine ⟨portCommand_answers ho hb changes (by simp) (by simp) owner, ?_, fun j => ?_, controller, directory, entry⟩
  · rw [engine]
    simp [recallBegun, closeSelection_slot]
  · rw [slot j, recallBegun_slot, closeSelection_slot, closeSelection_slot]

/-- Settles O44: the tests by `judgeRecall_spec`, then the recall that begins, and the erase by `suspendErase_spec`. -/
theorem recallJudged : Obligations.RecallJudged := by
  intro p number id s ho i n x tests
  obtain ⟨fails, passes⟩ := judgeRecall_spec number id (s.closeSelection p)
  rw [closeSelection_recallTests] at fails passes
  refine ⟨fun r hr => ⟨_, rfl, portCommand_answers ho (recallRequest_refused (fails r hr)) (State.unchangedBut_refl _ _)
    (by simp) (by simp) (by simp)⟩, fun hp => ?_⟩
  have hd : (s.closeSelection p).directory.isSome = true := by
    obtain ⟨-, -, ⟨info, hvalid⟩, -⟩ := hp
    rw [State.closeSelection_directory]
    exact directory_isSome_of_sectorEntry (ne_of_eq_of_ne hvalid (by simp))
  obtain ⟨answered, engine, slot, controller, directory, entry⟩ := recall_begins ho (recallRequest_accepted (passes hp))
  obtain ⟨suspends, keeps⟩ := suspendErase_spec n
    (s := (s.closeSelection p).setSlot i { (s.closeSelection p).slot i with state := .loading }) hd
  simp only [State.setSlot_controller, State.setSlot_directory, sectorEntry_setSlot, State.closeSelection_controller,
    State.closeSelection_directory, closeSelection_sectorEntry] at suspends keeps
  refine ⟨_, rfl, answered, engine, (slot i).trans (if_pos rfl), fun j hj => (slot j).trans (if_neg hj.symm),
    fun m hstate hm hbank => ?_, fun elsewhere => ?_⟩
  · obtain ⟨suspended, entries⟩ := suspends m hstate hm hbank
    exact ⟨controller.trans suspended, (entry m).trans ((entries m).trans (if_pos rfl)),
      fun k hk => (entry k).trans ((entries k).trans (if_neg hk.symm))⟩
  · obtain ⟨same, entries⟩ := keeps elsewhere
    exact ⟨controller.trans same, directory.trans entries⟩

/-! ## Judged with the latch cleared (R146, R148, R173) -/

section

variable {p : Port} {body : State → Result × State} {s : State} {r : Result}

theorem latched_slot (i : Fin 8) : ((s.closeSelection p).setWriteEnable p false).slot i = s.slot i := by simp [State.slot]

theorem latched_sectorEntry (n : Fin 64) :
    ((s.closeSelection p).setWriteEnable p false).sectorEntry n = s.sectorEntry n := by
  simp [State.sectorEntry]

/-- A refusal clears the latch and changes nothing else. -/
theorem judged_of_refused (ho : s.operating)
    (hb : body (s.closeSelection p) = (r, (s.closeSelection p).setWriteEnable p false)) :
    s.judged (portCommand p body s) p r [] :=
  (judged_of_body ho hb (State.unchangedBut_refl _ _) (by simp) (by simp) (by simp)).1

/-- An acceptance clears the latch and leaves of the store's operations what its body began. -/
theorem judged_of_accepted {u : State} {changed : List Part} (ho : s.operating) (hb : body (s.closeSelection p) = (r, u))
    (hu : ((s.closeSelection p).setWriteEnable p false).unchangedBut u changed) (hp : .port p ∉ changed)
    (ht : .inactivityTimer ∉ changed) (hg : .group ∉ changed) :
    let t := portCommand p body s
    s.judged t p r changed ∧ t.recallEngine = u.recallEngine ∧ t.controller = u.controller ∧ t.directory = u.directory ∧
      (∀ i, t.slot i = u.slot i) ∧ ∀ n, t.sectorEntry n = u.sectorEntry n := by
  have owner : u.ca.owner = s.ca.owner := (hu.2 .group hg).1.trans (by simp)
  obtain ⟨judged, answer⟩ := judged_of_body ho hb hu hp ht owner
  exact ⟨judged, storeParts_of_answer answer⟩

end

/-! ## Save (R146) -/

theorem saveRequest_refused {p : Port} {id number selector : Byte} (name : List Byte) {s : State} {r : Result}
    (h : judgeSave (s.port p).writeEnable (decide (selector = 1)) id number s = .error r) :
    saveRequest p id number name selector s = (r, s.setWriteEnable p false) := by
  simp only [saveRequest, h]

theorem saveRequest_accepted {p : Port} {id number selector : Byte} (name : List Byte) {s : State} {i : Fin 8} {n : Fin 64}
    (h : judgeSave (s.port p).writeEnable (decide (selector = 1)) id number s = .ok (i, n)) :
    saveRequest p id number name selector s =
      (.started, saveBegun i n (decide (selector = 1)) name (s.setWriteEnable p false)) := by
  simp only [saveRequest, h]
  cases p <;> rfl

theorem unchangedBut_saveBegun (i : Fin 8) (n : Fin 64) (calibration : Bool) (name : List Byte) (s : State) :
    s.unchangedBut (saveBegun i n calibration name s) [.slots, .controller, .directory] :=
  State.unchangedBut_trans (State.unchangedBut_setSlot s i _)
    (State.unchangedBut_trans (c := [.directory, .controller]) (State.unchangedBut_setSectorEntry _ n .programming)
      (unchangedBut_controller _ _) (by simp) (by simp)) (by simp) (by simp)

theorem saveBegun_slot (i j : Fin 8) (n : Fin 64) (calibration : Bool) (name : List Byte) (s : State) :
    (saveBegun i n calibration name s).slot j = if i = j then { s.slot i with saving := true } else s.slot j :=
  State.slot_setSlot s i j _

theorem saveBegun_sectorEntry (i : Fin 8) (n m : Fin 64) (calibration : Bool) (name : List Byte) {s : State}
    (hd : s.directory.isSome = true) :
    (saveBegun i n calibration name s).sectorEntry m = if n = m then .programming else s.sectorEntry m :=
  sectorEntry_of_directory (s := s) n m .programming hd rfl

/-- A SAVE accepted in an operating state. -/
theorem save_begins {p : Port} {id number selector : Byte} {name : List Byte} {s : State} {i : Fin 8} {n : Fin 64}
    {calibration : Bool} (ho : s.operating) (hd : s.directory.isSome = true)
    (hb : saveRequest p id number name selector (s.closeSelection p) =
      (.started, saveBegun i n calibration name ((s.closeSelection p).setWriteEnable p false))) :
    let t := portCommand p (saveRequest p id number name selector) s
    s.judged t p .started [.slots, .controller, .directory] ∧
      t.controller = { state := .programming ⟨i, calibration, name⟩, sector := some n, outcome := s.controller.outcome } ∧
      (∀ m, t.sectorEntry m = if n = m then .programming else s.sectorEntry m) ∧
      ∀ j, t.slot j = if i = j then { s.slot i with saving := true } else s.slot j := by
  intro t
  obtain ⟨judged, -, controller, -, slot, entry⟩ :=
    judged_of_accepted ho hb (unchangedBut_saveBegun i n calibration name _) (by simp) (by simp) (by simp)
  refine ⟨judged, ?_, fun m => ?_, fun j => ?_⟩
  · rw [controller]
    simp [saveBegun]
  · rw [entry m, saveBegun_sectorEntry i n m calibration name (by simpa using hd), latched_sectorEntry]
  · rw [slot j, saveBegun_slot, latched_slot, latched_slot]

/-- Settles O46: the tests by `judgeSave_spec`, then the save that begins. -/
theorem saveJudged : Obligations.SaveJudged := by
  intro p id number selector name s ho hname i n calibration tests
  have command : exec (.save p id number name selector) s =
      .next (portCommand p (saveRequest p id number name selector) s) := congrArg Host.Outcome.next (if_pos hname)
  obtain ⟨fails, passes⟩ := judgeSave_spec p calibration number id (s.closeSelection p)
  rw [closeSelection_saveTests] at fails passes
  refine ⟨fun r hr => ⟨_, command, judged_of_refused ho (saveRequest_refused name (fails r hr))⟩, fun hp => ?_⟩
  have hd : s.directory.isSome = true := by
    obtain ⟨-, -, -, -, -, -, -, -, hblank, -⟩ := hp
    exact directory_isSome_of_sectorEntry (ne_of_eq_of_ne hblank (by simp))
  obtain ⟨judged, controller, entry, slot⟩ := save_begins ho hd (saveRequest_accepted name (passes hp))
  exact ⟨_, command, judged, controller, (entry n).trans (if_pos rfl), fun m hm => (entry m).trans (if_neg hm.symm),
    (slot i).trans (if_pos rfl), fun j hj => (slot j).trans (if_neg hj.symm)⟩

/-! ## Erase (R145, R148) -/

theorem eraseRequest_refused {p : Port} {number complement : Byte} {s : State} {r : Result}
    (h : judgeErase (s.port p).writeEnable number complement s = .error r) :
    eraseRequest p number complement s = (r, s.setWriteEnable p false) := by
  simp only [eraseRequest, h]

/-- An erase begins suspended exactly when a recall reads in its bank (R145, R148). -/
theorem eraseRequest_accepted {p : Port} {number complement : Byte} {s : State} {n : Fin 64}
    (h : judgeErase (s.port p).writeEnable number complement s = .ok n) :
    eraseRequest p number complement s = (.started,
      (if readsBank s n then eraseBegun n .eraseSuspended (.eraseSuspended false) else eraseBegun n .erasing .erasing)
        (s.setWriteEnable p false)) := by
  simp only [eraseRequest, h]
  split <;> cases p <;> rfl

theorem unchangedBut_eraseBegun (n : Fin 64) (e : SectorEntry) (c : ControllerState) (s : State) :
    s.unchangedBut (eraseBegun n e c s) [.controller, .directory] :=
  State.unchangedBut_trans (State.unchangedBut_setSectorEntry s n e) (unchangedBut_controller _ _) (by simp) (by simp)

theorem eraseBegun_sectorEntry (n m : Fin 64) (e : SectorEntry) (c : ControllerState) {s : State}
    (hd : s.directory.isSome = true) : (eraseBegun n e c s).sectorEntry m = if n = m then e else s.sectorEntry m :=
  sectorEntry_of_directory (s := s) n m e hd rfl

/-- An ERASE accepted in an operating state, running or suspended. -/
theorem erase_begins {p : Port} {number complement : Byte} {s : State} {n : Fin 64} {e : SectorEntry} {c : ControllerState}
    (ho : s.operating) (hd : s.directory.isSome = true)
    (hb : eraseRequest p number complement (s.closeSelection p) =
      (.started, eraseBegun n e c ((s.closeSelection p).setWriteEnable p false))) :
    let t := portCommand p (eraseRequest p number complement) s
    s.judged t p .started [.controller, .directory] ∧
      t.controller = { state := c, sector := some n, outcome := s.controller.outcome } ∧
      ∀ m, t.sectorEntry m = if n = m then e else s.sectorEntry m := by
  intro t
  obtain ⟨judged, -, controller, -, -, entry⟩ :=
    judged_of_accepted ho hb (unchangedBut_eraseBegun n e c _) (by simp) (by simp) (by simp)
  refine ⟨judged, ?_, fun m => ?_⟩
  · rw [controller]
    simp [eraseBegun]
  · rw [entry m, eraseBegun_sectorEntry n m e c (by simpa using hd), latched_sectorEntry]

/-- Settles O48: the tests by `judgeErase_spec`, then the erase that begins. -/
theorem eraseJudged : Obligations.EraseJudged := by
  intro p number complement s ho hd n reading tests
  obtain ⟨fails, passes⟩ := judgeErase_spec p number complement (s.closeSelection p)
  rw [closeSelection_eraseTests] at fails passes
  refine ⟨fun r hr => ⟨_, rfl, judged_of_refused ho (eraseRequest_refused (fails r hr))⟩, fun hp => ?_⟩
  have begins := eraseRequest_accepted (passes hp)
  rw [closeSelection_readsBank] at begins
  have reads : readsBank s n = true ↔ reading := readsBank_iff s n
  split at begins
  · next h =>
    obtain ⟨judged, controller, entry⟩ := erase_begins ho hd begins
    exact ⟨_, rfl, judged, fun m hm => (entry m).trans (if_neg hm.symm),
      fun _ => ⟨controller, (entry n).trans (if_pos rfl)⟩, fun unread => absurd (reads.1 h) unread⟩
  · next h =>
    obtain ⟨judged, controller, entry⟩ := erase_begins ho hd begins
    exact ⟨_, rfl, judged, fun m hm => (entry m).trans (if_neg hm.symm), fun hr => absurd (reads.2 hr) h,
      fun _ => ⟨controller, (entry n).trans (if_pos rfl)⟩⟩

end Sys2Proof.Machine
end

section
/-! O49: the end of a running erase (R138, R145, R149). -/

namespace Sys2Proof.Machine

/-- With an erase running its completion ends it. -/
theorem eraseCompletes_of_erasing {s : State} {n : Fin 64} (failed : Option Nat) (hc : s.controller.state = .erasing)
    (hn : s.controller.sector = some n) : eraseCompletes failed s = endErase n failed s := by
  simp [eraseCompletes, hc, hn]

/-- A suspended erase, or none, does not end (assumption log 10). -/
theorem eraseCompletes_of_not_erasing {s : State} (failed : Option Nat) (h : s.controller.state ≠ .erasing) :
    eraseCompletes failed s = s := by
  unfold eraseCompletes
  split
  · next hc _ => exact absurd hc h
  · rfl

/-- An act of an erase writes or reads back a page of its sector (R149). -/
theorem erasePageOfAct_lt {act : Nat} (h : act ≤ eraseActCount + 128) : erasePageOfAct act < 128 := by
  unfold erasePageOfAct
  unfold eraseActCount at h ⊢
  split
  · omega
  · split <;> omega

/-- An erase that has ended on a store whose other sectors stand: the controller IDLE, and no other entry or sector touched. -/
theorem finishErase_spec {s : State} {n : Fin 64} (e : SectorEntry) (o : StoreOutcome) {st : Store} (free : Nat)
    (hn : s.controller.sector = some n) (hd : s.directory.isSome = true)
    (hbytes : ∀ m k, m ≠ n → k < 32768 → st.byte m k = s.store.byte m k) :
    let t := finishErase n e o { s with store := st, freeIndex := free }
    (t.controller = { state := .idle, sector := some n, outcome := some o } ∧
      (∀ m, m ≠ n → t.sectorEntry m = s.sectorEntry m) ∧
      ∀ m k, m ≠ n → k < 32768 → t.store.byte m k = s.store.byte m k) ∧
    t.sectorEntry n = e := by
  intro t
  have entry : ∀ m, t.sectorEntry m = if n = m then e else s.sectorEntry m := fun m =>
    sectorEntry_of_directory (s := s) n m e hd rfl
  refine ⟨⟨?_, fun m hm => (entry m).trans (if_neg hm.symm), hbytes⟩, (entry n).trans (if_pos rfl)⟩
  simp [t, finishErase, hn]

/-- Settles O49: the sector by the bytes that all acts of the erase leave, the rest by `finishErase_spec`. -/
theorem eraseCompleted : Obligations.EraseCompleted := by
  intro s
  refine ⟨fun n hc hn hd => ?_, fun h failed => congrArg Host.Outcome.next (eraseCompletes_of_not_erasing failed h)⟩
  intro ends
  have command : ∀ failed, exec (.eraseCompletion failed) s = .next (endErase n failed s) := fun failed =>
    congrArg Host.Outcome.next (eraseCompletes_of_erasing failed hc hn)
  have others : ∀ acts m k, m ≠ n → k < 32768 → (eraseActs n acts s.store).byte m k = s.store.byte m k :=
    fun acts m k hm hk => byte_eraseActs_of_ne s.store acts k hm.symm hk
  refine ⟨?_, fun act => ?_⟩
  · obtain ⟨ended, entry⟩ := finishErase_spec .blank .completed s.freeIndex hn hd (others eraseActCount)
    exact ⟨_, command none, ended, fun k hk => byte_eraseActs_whole s.store n eraseActCount k le_rfl hk, entry,
      fun q hq => mismatched_eraseActs_whole s.store n q hq,
      State.unchangedBut_trans (unchangedBut_store s _) (unchangedBut_finishErase _ _ _ _) (by simp) (by simp)⟩
  · obtain ⟨-, hact⟩ := clampNat_mem 1 (eraseActCount + 128) act (by decide)
    have spoiled : ∀ m k, m ≠ n → k < 32768 →
        ((eraseActs n (clampNat 1 (eraseActCount + 128) act - 1) s.store).spoilPage s.freeIndex n
          (erasePageOfAct (clampNat 1 (eraseActCount + 128) act))).byte m k = s.store.byte m k := fun m k hm hk =>
      (byte_spoilPage_of_ne _ _ _ k hm.symm hk (erasePageOfAct_lt hact)).trans (others _ m k hm hk)
    obtain ⟨ended, entry⟩ := finishErase_spec .torn .failed (s.freeIndex + 1) hn hd spoiled
    exact ⟨_, command (some act), ended, entry, State.unchangedBut_trans (unchangedBut_storeFree s _ _)
      (unchangedBut_finishErase _ _ _ _) (by simp) (by simp)⟩

end Sys2Proof.Machine
end

section
/-! O5: the scan at the release of the reset line (R138, R140, R141, R182). -/

namespace Sys2Proof.Machine

/-! ## The three rows of the scan (R141) -/

theorem Store.scanSector_of_table {st : Store} {n : Fin 64} {kind : SectorKind} (h : st.holdsTable n kind) :
    st.scanSector n = .valid (st.headerInfo n kind) := by
  have found : st.validEntry n = some (st.headerInfo n kind) := (Store.validEntry_iff _).2 ⟨kind, h, rfl⟩
  rw [Store.scanSector, found]

/-- A sector without a whole table is BLANK when erased, else TORN. -/
theorem Store.scanSector_of_no_table {st : Store} {n : Fin 64} (h : ∀ kind, ¬ st.holdsTable n kind) :
    st.scanSector n = if st.sectorErased n then .blank else .torn := by
  have absent : st.validEntry n = none := by
    cases found : st.validEntry n with
    | none => rfl
    | some info =>
      obtain ⟨kind, holds, -⟩ := (Store.validEntry_iff info).1 found
      exact absurd holds (h kind)
  rw [Store.scanSector, absent]

/-! ## What the directory takes from a header (R140, R182) -/

theorem Store.headerInfo_name (st : Store) (n : Fin 64) (kind : SectorKind) :
    (st.headerInfo n kind).name = (List.range 16).map fun k => st.byte n (4 + k) := rfl

theorem Store.headerInfo_id_of_table (st : Store) (n : Fin 64) {kind : SectorKind} (h : kind ≠ .calibration) :
    (st.headerInfo n kind).calibrationId = none := if_neg h

/-- Four id bytes spell a number that a calibration id holds whole. -/
theorem Store.headerInfo_id_of_calibration (st : Store) (n : Fin 64) {kind : SectorKind} (h : kind = .calibration) :
    (st.headerInfo n kind).calibrationId.map BitVec.toNat =
      some (bytesNat ((List.range 4).map fun k => st.byte n (20 + k))) := by
  have small := bytesNat_lt (st.sectorBytes n 20 4)
  have length : (st.sectorBytes n 20 4).length = 4 := by simp [Store.sectorBytes]
  rw [length] at small
  subst h
  exact congrArg some (Nat.mod_eq_of_lt small)

/-! ## The release (R141; assumption logs 7, 10, 13) -/

/-- With the line asserted or no scan made, the release makes the scan of the store as it has decayed. -/
theorem releaseReset_scans (pages : List Nat) {s : State} (h : s.resetLine = true ∨ s.directory = none) :
    releaseReset pages s =
      { s with
        resetLine := false, store := s.store.decay pages, directory := some (s.store.decay pages).scan } :=
  if_pos (by simpa using h)

theorem releaseReset_of_scanned (pages : List Nat) {s : State} (hline : s.resetLine = false)
    (hd : s.directory.isSome = true) : releaseReset pages s = s :=
  if_neg (by simpa [hline, Option.isSome_iff_ne_none] using hd)

/-- Settles O5: each row of R141 by its lemma about `scanSector`. -/
theorem resetReleaseScans : Obligations.ResetReleaseScans := by
  intro decayed s hwf
  refine ⟨fun h => ?_, fun hline hd => congrArg Host.Outcome.next (releaseReset_of_scanned decayed hline hd)⟩
  have frame := unchangedBut_releaseReset decayed s
  rw [releaseReset_scans decayed h] at frame
  have entry : ∀ n, (s.store.decay decayed).scan.get n = (s.store.decay decayed).scanSector n := Tab.get_ofFn _
  have erased := Store.sectorErased_iff (st := s.store.decay decayed) hwf
  refine ⟨_, congrArg Host.Outcome.next (releaseReset_scans decayed h), rfl, rfl, mem_decay decayed s.store,
    fun n kind table => ?_, fun n tableless he => ?_, fun n tableless he => ?_, frame⟩
  · exact ⟨_, (entry n).trans (Store.scanSector_of_table table), rfl, rfl, Store.headerInfo_name _ n kind,
      Store.headerInfo_id_of_table _ n, Store.headerInfo_id_of_calibration _ n⟩
  · exact (entry n).trans ((Store.scanSector_of_no_table tableless).trans (if_pos ((erased n).2 he)))
  · exact (entry n).trans ((Store.scanSector_of_no_table tableless).trans (if_neg (he ∘ (erased n).1)))

end Sys2Proof.Machine
end

section
/-! Port R's acts, one rule each: how a selection ends and begins, what its first byte does, what goes out with each later byte
(R154, R159 to R166, R175; assumption logs 8, 11, 26). -/

namespace Sys2Proof.Machine

variable {s : State}

/-! ## Ends of selections (R160, R161, R166) -/

theorem closeSelectionR_of_idle (h : s.portR.selection = .idle) : s.closeSelectionR = s := if_pos h

theorem closeSelectionR_of_selected (h : s.portR.selection ≠ .idle) : s.closeSelectionR = s.endSelectionR := if_neg h

@[simp] theorem closeSelectionR_endSelectionR (s : State) : s.endSelectionR.closeSelectionR = s.endSelectionR :=
  closeSelectionR_of_idle rfl

/-! ## Moments as rows (assumption log 26) -/

theorem exec_fallR (hr : s.resetLine = false) :
    exec (.selectionEnd .r .fall) s = .next s.closeSelectionR.beginSelectionR := if_neg (by simp [hr])

theorem exec_clockedR (bits : List Bool) (hr : s.resetLine = false) :
    exec (.selectionEnd .r (.clocked bits)) s = bitsOnLine .r bits s := if_neg (by simp [hr])

theorem exec_riseR (hr : s.resetLine = false) : exec (.selectionEnd .r .rise) s = .next s.closeSelectionR :=
  if_neg (by simp [hr])

/-- A rise of a line that is high already is none, whether or not the reset line is asserted. -/
theorem exec_riseR_of_idle (h : s.portR.selection = .idle) : exec (.selectionEnd .r .rise) s = .next s := by
  change (if s.resetLine then _ else Host.Outcome.next s.closeSelectionR) = _
  rw [closeSelectionR_of_idle h, ite_self]

theorem exec_byteR {received : List Byte} (code : Byte) (hr : s.resetLine = false)
    (hsel : s.portR.selection = .selected received []) :
    exec (.selectionEnd .r (.clocked (byteBits code))) s = .next (byteOnR code received (transferBegins s)) :=
  (exec_clockedR _ hr).trans (bitsOnR_byte received code s hsel)

/-- Fewer than eight bits are a part byte and execute nothing (R166). -/
theorem exec_partByteR {received : List Byte} {part : List Bool} (hr : s.resetLine = false)
    (hsel : s.portR.selection = .selected received []) (due : transferDue s = false) (hl : part.length < 8) :
    exec (.selectionEnd .r (.clocked part)) s = .next (s.receivedR received part) := by
  rw [exec_clockedR _ hr]
  cases part with
  | nil => exact congrArg _ (s.receivedR_self hsel).symm
  | cons bit more =>
    rw [bitsOnR_first received bit more s hsel (Nat.lt_of_succ_lt_succ hl), transferBegins_of_not_due due]

/-! ## A selection by its first byte (R162, R175) -/

/-- A selection does the same before and after the rise that it implies (assumption log 8). -/
theorem selectionR_closeSelectionR (code : Byte) (begun : Bool) (hr : s.resetLine = false) :
    selectionR code begun s.closeSelectionR = selectionR code begun s := by
  by_cases hi : s.portR.selection = .idle
  · rw [closeSelectionR_of_idle hi]
  · unfold selectionR
    rw [closeSelectionR_of_selected hi, closeSelectionR_endSelectionR, show s.endSelectionR.resetLine = s.resetLine from rfl, hr]
    rfl

theorem selectionR_of_command (code : Byte) (begun : Bool) (hr : s.resetLine = false) (hi : s.portR.selection = .idle)
    (hm : s.rr.mode = .command) : selectionR code begun s = commandSelection code begun s := by
  unfold selectionR
  simp [hr, closeSelectionR_of_idle hi, hm]

theorem selectionR_of_stream {code : Byte} (begun : Bool) (hr : s.resetLine = false) (hi : s.portR.selection = .idle)
    (hm : s.rr.mode = .stream) (hcode : code ≠ streamExitCode) :
    selectionR code begun s = (shiftBytes 1 (recordSelection [] true s)).receivedR [code] [] := by
  unfold selectionR
  simp [hr, closeSelectionR_of_idle hi, hm, hcode]

theorem selectionR_exit_of_stream (begun : Bool) (hr : s.resetLine = false) (hi : s.portR.selection = .idle)
    (hm : s.rr.mode = .stream) : selectionR streamExitCode begun s = takeExit (recordSelection [] true s) := by
  unfold selectionR
  simp [hr, closeSelectionR_of_idle hi, hm]

/-- The command begins afresh: nothing of the port's state before it counts. -/
theorem commandSelection_withPortR (code : Byte) (begun : Bool) (x : PortRState) (s : State) :
    commandSelection code begun { s with portR := x } = commandSelection code begun s := by
  unfold commandSelection
  split <;> rfl

theorem commandSelection_of_unknown {code : Byte} (begun : Bool) (s : State) (hstatus : code ≠ 0x0C) (hread : code ≠ 0x61)
    (hstream : code ≠ 0x62) : commandSelection code begun s = silentSelection code s := by
  unfold commandSelection
  split
  · next h => exact absurd (BitVec.eq_of_toNat_eq h) hstatus
  · next h => exact absurd (BitVec.eq_of_toNat_eq h) hread
  · next h => exact absurd (BitVec.eq_of_toNat_eq h) hstream
  · rfl

/-- A first byte that is no command of Port R executes nothing, whether or not the next byte is due at once (R175). -/
theorem selectionR_of_unknown {code : Byte} (begun : Bool) (hr : s.resetLine = false) (hi : s.portR.selection = .idle)
    (hm : s.rr.mode = .command) (hstatus : code ≠ 0x0C) (hread : code ≠ 0x61) (hstream : code ≠ 0x62) :
    selectionR code begun s = silentSelection code s :=
  (selectionR_of_command code begun hr hi hm).trans (commandSelection_of_unknown begun s hstatus hread hstream)

/-! ## What begins with the next byte due (R160, R164) -/

theorem startReading_of_fill {rr : RecordRing} {fillAlone : Bool} (h : fillAlone = true ∨ rr.ring = []) :
    rr.startReading fillAlone = { rr with readBuffer := none, fill := true } := by
  unfold RecordRing.startReading RecordRing.startTransfer
  rcases h with h | h <;> simp [h]

theorem startReading_of_record {rr : RecordRing} {r : FrameRecord} {rest : List FrameRecord} (h : rr.ring = r :: rest) :
    rr.startReading false = { rr with readBuffer := some { record := r, position := 0 } } := by
  unfold RecordRing.startReading RecordRing.startTransfer
  simp [h]

@[simp] theorem startReading_ring (fillAlone : Bool) (rr : RecordRing) : (rr.startReading fillAlone).ring = rr.ring := by
  rw [startReading_eq]

@[simp] theorem startReading_mode (fillAlone : Bool) (rr : RecordRing) : (rr.startReading fillAlone).mode = rr.mode := by
  rw [startReading_eq]

@[simp] theorem recordSelection_ring (received : List Byte) (begun : Bool) (s : State) :
    (recordSelection received begun s).rr.ring = s.rr.ring := by
  cases begun <;> simp [recordSelection]

@[simp] theorem recordSelection_mode (received : List Byte) (begun : Bool) (s : State) :
    (recordSelection received begun s).rr.mode = s.rr.mode := by
  cases begun <;> simp [recordSelection]

theorem recordSelection_of_fill (received : List Byte) (h : s.isStarting = true ∨ s.rr.ring = []) :
    (recordSelection received true s).rr = { s.rr with readBuffer := none, fill := true } := startReading_of_fill h

theorem recordSelection_of_record (received : List Byte) {r : FrameRecord} {rest : List FrameRecord}
    (hs : s.isStarting = false) (h : s.rr.ring = r :: rest) :
    (recordSelection received true s).rr = { s.rr with readBuffer := some { record := r, position := 0 } } := by
  change s.rr.startReading s.isStarting = _
  rw [hs, startReading_of_record h]

/-- A transfer is due exactly in a record read with neither a transfer nor fill (R160). -/
theorem transferDue_iff : transferDue s = true ↔ s.portR.selection ≠ .idle ∧
    (s.portR.reading = some Reading.records ∨ s.portR.reading = some Reading.fillAlone) ∧
      s.rr.readBuffer = none ∧ s.rr.fill = false := by
  simp [transferDue, readsRecords, and_assoc]

theorem transferDue_of_transfer {b : ReadBuffer} (h : s.rr.readBuffer = some b) : transferDue s = false := by
  simp [transferDue, h]

theorem transferDue_of_fill (h : s.rr.fill = true) : transferDue s = false := by
  simp [transferDue, h]

/-- A selection that reads no records has no transfer due. -/
theorem transferDue_of_other_reading (hrecords : s.portR.reading ≠ some Reading.records)
    (hfill : s.portR.reading ≠ some Reading.fillAlone) : transferDue s = false := by
  simp [transferDue, readsRecords, hrecords, hfill]

/-- No record ends with its first byte. -/
theorem FrameRecord.one_lt_length (r : FrameRecord) : 1 < r.length := by unfold FrameRecord.length; omega

/-! ## A byte shifted out (R160, R163, R165) -/

theorem shiftOutR_of_byte_left {b : ReadBuffer} (hb : s.rr.readBuffer = some b) (h : b.position + 1 < b.record.length) :
    shiftOutR s = shiftBytes 1 s := by
  unfold shiftOutR
  simp [hb, h]

theorem shiftOutR_of_last_byte {b : ReadBuffer} (hb : s.rr.readBuffer = some b) (h : b.record.length ≤ b.position + 1) :
    shiftOutR s = transferEnds s := by
  unfold shiftOutR
  simp [hb, Nat.not_lt.2 h]

theorem shiftOutR_of_fill (hb : s.rr.readBuffer = none) (hf : s.rr.fill = true) : shiftOutR s = shiftBytes 1 s := by
  unfold shiftOutR
  simp [hb, hf]

theorem shiftOutR_of_no_record (hb : s.rr.readBuffer = none) (hf : s.rr.fill = false) :
    shiftOutR s = { s with
      portR := { s.portR with
        reading := s.portR.reading.map Reading.advance, firstByteTaken := true,
        shifted := s.portR.shifted ++ [(s.portR.reading.map Reading.out).getD 0] } } := by
  unfold shiftOutR
  simp [hb, hf]

/-- A byte after the first, with no transfer due, is not examined (R162, R175). -/
theorem exec_laterByteR {received : List Byte} (code : Byte) (hr : s.resetLine = false)
    (hsel : s.portR.selection = .selected received []) (hfirst : s.portR.firstByteTaken = true)
    (due : transferDue s = false) :
    exec (.selectionEnd .r (.clocked (byteBits code))) s = .next ((shiftOutR s).receivedR (received ++ [code]) []) := by
  rw [exec_byteR code hr hsel, transferBegins_of_not_due due]
  exact congrArg _ (if_pos hfirst)

/-! ## Ends of a transfer (R159 to R161) -/

theorem removeTransferred_of_oldest {r x : FrameRecord} {rest : List FrameRecord}
    (h : r.opening.frameNumber = x.opening.frameNumber) : removeTransferred (r :: rest) x = rest := if_pos h

theorem removeTransferred_of_overwritten {ring : List FrameRecord} {x : FrameRecord}
    (h : ∀ r rest, ring = r :: rest → r.opening.frameNumber ≠ x.opening.frameNumber) : removeTransferred ring x = ring := by
  cases ring with
  | nil => rfl
  | cons r rest => exact if_neg (h r rest rfl)

theorem transferEnds_of_none (h : s.rr.readBuffer = none) : transferEnds s = s := by
  unfold transferEnds
  rw [h]

theorem transferEnds_of_transfer {b : ReadBuffer} (h : s.rr.readBuffer = some b) :
    transferEnds s = { s with
      rr := { s.rr with ring := removeTransferred s.rr.ring b.record, readBuffer := none }
      portR := { s.portR with firstByteTaken := true, shifted := s.portR.shifted ++ b.record.bytes.drop b.position } } := by
  unfold transferEnds
  rw [h]

theorem transferCut_of_none (count : Nat) (h : s.rr.readBuffer = none) : transferCut count s = s := by
  unfold transferCut
  rw [h]

/-- The rise after so many bytes of the record: a rise, with those bytes shifted out (R161; assumption log 23). -/
theorem transferCut_of_transfer {b : ReadBuffer} (count : Nat) (h : s.rr.readBuffer = some b) :
    ∃ k, k < b.record.length ∧ (count < b.record.length → k = count) ∧
      transferCut count s = State.endSelectionR { s with
        portR := { s.portR with shifted := s.portR.shifted ++ (b.record.bytes.take k).drop b.position } } := by
  have := b.record.length_pos
  refine ⟨min count (b.record.length - 1), by omega, by omega, ?_⟩
  unfold transferCut
  rw [h]

end Sys2Proof.Machine
end

section
/-! O51: the first byte of a selection of Port R in COMMAND mode (R160, R162 to R164, R175; assumption logs 11, 15, 26). -/

namespace Sys2Proof.Machine

/-- A record read whose first byte alone has come: what it holds, and what has begun (R160, R164). -/
def State.recordRead (s t : State) (code : Byte) (begun : Bool) : Prop :=
  t.portR.selection = .selected [code] [] ∧
    t.portR.reading = (if s.pe.frameState = .starting then some { reply := [0], repeated := true, position := 0 }
      else some { reply := [], repeated := false, position := 0 }) ∧
    t.portR.shifted = [0] ∧ t.rr.ring = s.rr.ring ∧ s.unchangedBut t [.portR] ∧
    (begun = false → t.rr.fill = false ∧ t.rr.readBuffer = none) ∧
    (begun = true → s.pe.frameState = .starting ∨ s.rr.ring = [] → t.rr.fill = true ∧ t.rr.readBuffer = none) ∧
    (∀ r rest, begun = true → s.pe.frameState ≠ .starting → s.rr.ring = r :: rest →
      t.rr.readBuffer = some { record := r, position := 0 } ∧ t.rr.fill = s.rr.fill)

theorem recordRead_recordSelection (s : State) (code : Byte) (begun : Bool) :
    s.recordRead (recordSelection [code] begun s) code begun := by
  refine ⟨rfl, ?_, rfl, recordSelection_ring _ _ s, unchangedBut_recordSelection _ _ s, fun h => ?_, fun h hf => ?_,
    fun r rest h hs hring => ?_⟩
  · change some (Reading.ofRecordRead s.isStarting) = _
    by_cases hs : s.pe.frameState = .starting <;> simp [hs, Reading.ofRecordRead, State.isStarting, Reading.fillAlone,
      Reading.records, Reading.repeating, Reading.once]
  · subst h
    exact ⟨rfl, rfl⟩
  · subst h
    rw [recordSelection_of_fill [code] (hf.imp_left decide_eq_true)]
    exact ⟨rfl, rfl⟩
  · subst h
    rw [recordSelection_of_record [code] (decide_eq_false hs) hring]
    exact ⟨rfl, rfl⟩

/-- READ RECORDS STREAM is a record read, with the mode set outside STARTING (R162, R164). -/
theorem streamCommand_eq (begun : Bool) (s : State) :
    streamCommand begun s =
      { recordSelection [0x62] begun s with
        rr := { (recordSelection [0x62] begun s).rr with
          mode := if s.isStarting then (recordSelection [0x62] begun s).rr.mode else .stream } } := by
  unfold streamCommand
  split <;> rfl

theorem streamCommand_mode (begun : Bool) (s : State) :
    (streamCommand begun s).rr.mode = if s.pe.frameState = .starting then s.rr.mode else .stream := by
  simp [streamCommand_eq, State.isStarting]

theorem recordRead_streamCommand (s : State) (begun : Bool) : s.recordRead (streamCommand begun s) 0x62 begun := by
  have frame := unchangedBut_streamCommand begun s
  obtain ⟨hsel, hread, hshifted, hring, -, htransfer⟩ := recordRead_recordSelection s 0x62 begun
  rw [streamCommand_eq] at frame ⊢
  exact ⟨hsel, hread, hshifted, hring, frame, htransfer⟩

theorem beginSelectionR_of_command {s : State} (hm : s.rr.mode = .command) :
    s.beginSelectionR =
      { s with portR := { selection := .selected [] [], reading := none, firstByteTaken := false, shifted := [] } } := by
  unfold State.beginSelectionR
  rw [hm]

/-- In COMMAND mode the byte that the eighth bit completes is the command of its row, its next byte not yet due (R162, R175). -/
theorem exec_firstByte_of_command {s : State} (code : Byte) (hr : s.resetLine = false) (hm : s.rr.mode = .command) :
    exec (.selectionEnd .r (.clocked (byteBits code))) s.beginSelectionR = .next (commandSelection code false s) := by
  rw [beginSelectionR_of_command hm]
  refine Eq.trans (exec_byteR code hr rfl) (congrArg Host.Outcome.next ?_)
  rw [transferBegins_of_not_due (transferDue_of_other_reading (by simp) (by simp))]
  unfold byteOnR
  simp [hm, commandSelection_withPortR]

/-- Before the eighth bit of the first byte nothing is executed (R166, R175). -/
theorem exec_partByte_of_command {s : State} {part : List Bool} (hr : s.resetLine = false) (hm : s.rr.mode = .command)
    (hl : part.length < 8) :
    exec (.selectionEnd .r (.clocked part)) s.beginSelectionR = .next (s.beginSelectionR.receivedR [] part) := by
  rw [beginSelectionR_of_command hm]
  exact exec_partByteR hr rfl (transferDue_of_other_reading (by simp) (by simp)) hl

theorem statusBytesR_of_command {s : State} (hm : s.rr.mode = .command) :
    s.statusBytesR =
      [BitVec.ofNat 8 s.rr.ring.length, BitVec.ofNat 8 ((s.rr.ring.head?.map fun r => r.opening.frameNumber.toNat).getD 0),
        0, if s.pe.frameState = .starting then 1 else 0] := by
  simp [State.statusBytesR, hm, PortRMode.code, boolByte, State.isStarting]

/-- The exit code given as a row leaves COMMAND mode as it is: a byte that executes nothing (assumption log 15). -/
theorem exec_streamExit_of_command {s : State} (hm : s.rr.mode = .command) :
    exec .streamExit s = .next (selectionR streamExitCode true s) :=
  congrArg Host.Outcome.next (if_neg (by simp [hm]))

theorem exec_streamSelection_of_command {s : State} (hm : s.rr.mode = .command) : exec .streamSelection s = .next s :=
  congrArg Host.Outcome.next (if_pos (by simp [hm]))

/-- Settles O51: each row by its first byte, then the same bytes by their bits after the fall of select. -/
theorem portRCommands : Obligations.PortRCommands := by
  intro s hr hm hi reads silent
  have row : ∀ code begun, selectionR code begun s = commandSelection code begun s := fun code begun =>
    selectionR_of_command code begun hr hi hm
  have unknown : ∀ {code} begun, code ≠ 0x0C → code ≠ 0x61 → code ≠ 0x62 →
      selectionR code begun s = silentSelection code s := fun begun =>
    selectionR_of_unknown begun hr hi hm
  have silence : ∀ c code, exec c s = .next (selectionR code true s) → code ≠ 0x0C → code ≠ 0x61 → code ≠ 0x62 →
      silent c code := fun c code h hstatus hread hstream =>
    ⟨_, h.trans (congrArg _ (unknown true hstatus hread hstream)), rfl, rfl, rfl, rfl, unchangedBut_portR rfl⟩
  refine ⟨⟨commandSelection 0x0C true s, congrArg _ (row 0x0C true), rfl, rfl,
      congrArg (fun bytes => some (Reading.repeating bytes)) (statusBytesR_of_command hm), rfl,
      unchangedBut_commandSelection _ _ s⟩,
    fun b => ⟨commandSelection 0x61 b s, congrArg _ (row 0x61 b), recordRead_recordSelection s _ b,
      (recordSelection_mode _ _ s).trans hm⟩,
    fun b => ⟨commandSelection 0x62 b s, congrArg _ (row 0x62 b), recordRead_streamCommand s b,
      (streamCommand_mode b s).trans (by rw [hm])⟩,
    fun code => silence _ code rfl, rfl, rfl, rfl,
    silence _ _ (exec_streamExit_of_command hm) (by decide) (by decide) (by decide), exec_streamSelection_of_command hm, ?_⟩
  have fall : exec (.selectionEnd .r .fall) s = .next s.beginSelectionR := by
    rw [exec_fallR hr, closeSelectionR_of_idle hi]
  have bits : ∀ code, exec (.selectionEnd .r (.clocked (byteBits code))) s.beginSelectionR =
      .next (selectionR code false s) := fun code => by
    rw [exec_firstByte_of_command code hr hm, row]
  have part := fun part => exec_partByte_of_command (part := part) hr hm
  have frame := unchangedBut_beginSelectionR s
  rw [beginSelectionR_of_command hm] at fall bits part frame
  exact ⟨_, fall, rfl, rfl, rfl, rfl, frame, part, bits 0x0C, bits 0x61, bits 0x62,
    fun code hstatus hread hstream => (bits code).trans
      (congrArg _ ((unknown false hstatus hread hstream).trans (unknown true hstatus hread hstream).symm))⟩

end Sys2Proof.Machine
end

section
/-! O52: the selections of Port R in STREAM mode (R161, R162; assumption logs 15, 26). -/

namespace Sys2Proof.Machine

variable {s : State}

/-- A read in STREAM mode, so many of its bytes out: of the oldest record, or zeros of fill (R160, R162). -/
def State.streamRead (s t : State) (received : List Byte) : Prop :=
  t.rr.mode = .stream ∧ t.portR.selection = .selected received [] ∧ t.portR.reading.isSome = true ∧
    t.rr.ring = s.rr.ring ∧ s.unchangedBut t [.portR] ∧
    (s.rr.ring = [] → t.rr.fill = true ∧ t.rr.readBuffer = none ∧ t.portR.shifted = List.replicate received.length 0) ∧
    ∀ r rest, s.rr.ring = r :: rest → t.rr.readBuffer = some { record := r, position := received.length } ∧
      t.portR.shifted = r.bytes.take received.length

/-- The exit from STREAM mode, with what the read buffer held when the code had come (R162). -/
def State.streamExited (s t : State) (b : Option ReadBuffer) : Prop :=
  t.rr.mode = .command ∧ t.rr.readBuffer = none ∧ t.rr.ring = s.rr.ring ∧ t.portR.reading = none ∧
    t.portR.selection = .selected [0xE5] [] ∧ (∀ x, b = some x → t.portR.shifted = x.record.bytes.take 1) ∧
    (b = none → t.portR.shifted = [0]) ∧ s.unchangedBut t [.portR]

theorem streamExited_takeExit (s : State) : s.streamExited (takeExit s) s.rr.readBuffer := by
  refine ⟨rfl, rfl, rfl, rfl, rfl, fun x h => ?_, fun h => ?_, unchangedBut_takeExit s⟩ <;> simp [takeExit, h]

/-- Outside STARTING a read begun with the selection has the oldest record in the read buffer, or none and fill (R160). -/
theorem recordSelection_readBuffer (received : List Byte) (hs : s.isStarting = false) :
    (recordSelection received true s).rr.readBuffer = s.rr.ring.head?.map fun r => { record := r, position := 0 } := by
  cases hring : s.rr.ring with
  | nil => rw [recordSelection_of_fill received (.inr hring)]; rfl
  | cons r rest => rw [recordSelection_of_record received hs hring]; rfl

/-- The fall of select begins the read, before any byte (R162). -/
theorem streamRead_recordSelection (hm : s.rr.mode = .stream) (hs : s.isStarting = false) :
    s.streamRead (recordSelection [] true s) [] := by
  refine ⟨(recordSelection_mode _ _ s).trans hm, rfl, rfl, recordSelection_ring _ _ s, unchangedBut_recordSelection _ _ s,
    fun hring => ?_, fun r rest hring => ?_⟩
  · rw [recordSelection_of_fill [] (.inr hring)]
    exact ⟨rfl, rfl, rfl⟩
  · rw [recordSelection_of_record [] hs hring]
    exact ⟨rfl, rfl⟩

/-- The first byte of a read in STREAM mode moves one byte of the record, or a zero of fill (R160, R162). -/
theorem streamRead_firstByte {t : State} (code : Byte) (h : s.streamRead t []) (hshifted : t.portR.shifted = []) :
    s.streamRead ((shiftBytes 1 t).receivedR [code] []) [code] := by
  obtain ⟨hmode, -, hreading, hring, framed, hfill, hrecord⟩ := h
  have frame := State.unchangedBut_trans framed (State.unchangedBut_trans (unchangedBut_shiftBytes 1 t)
    (unchangedBut_receivedR (shiftBytes 1 t) [code] []) (fun _ h => h) (fun _ h => h)) (fun _ h => h) (fun _ h => h)
  cases hs : s.rr.ring with
  | nil =>
    obtain ⟨hf, hb, -⟩ := hfill hs
    rw [shiftBytes_of_none hb, if_pos hf] at frame ⊢
    refine ⟨hmode, rfl, hreading, hring, frame, fun _ => ⟨hf, hb, ?_⟩, by simp [hs]⟩
    simp [State.receivedR, hshifted]
  | cons r rest =>
    obtain ⟨hb, -⟩ := hrecord r rest hs
    obtain ⟨k, hbelow, -, he⟩ := shiftBytes_of_transfer hb 1
    have hk : k = 1 := hbelow r.one_lt_length
    rw [he, hk] at frame ⊢
    refine ⟨hmode, rfl, hreading, hring, frame, by simp [hs], fun r' rest' h => ?_⟩
    obtain ⟨rfl, rfl⟩ := List.cons.inj (hs.symm.trans h)
    simp [State.receivedR, hshifted]

/-- With the fall the read has begun, and a byte of the record, or of fill, goes out with the first byte (R160, R162). -/
theorem recordSelection_begun (hm : s.rr.mode = .stream) (hs : s.isStarting = false) :
    transferDue (recordSelection [] true s) = false ∧
      shiftOutR (recordSelection [] true s) = shiftBytes 1 (recordSelection [] true s) := by
  obtain ⟨-, -, -, -, -, hfill, hrecord⟩ := streamRead_recordSelection hm hs
  cases hring : s.rr.ring with
  | nil =>
    obtain ⟨hf, hb, -⟩ := hfill hring
    exact ⟨transferDue_of_fill hf, shiftOutR_of_fill hb hf⟩
  | cons r rest =>
    obtain ⟨hb, -⟩ := hrecord r rest hring
    exact ⟨transferDue_of_transfer hb, shiftOutR_of_byte_left hb r.one_lt_length⟩

/-- In STREAM mode the byte that the eighth bit completes, in the read that the fall has begun, does what its row does (R162). -/
theorem exec_firstByte_of_stream (code : Byte) (hr : s.resetLine = false) (hm : s.rr.mode = .stream)
    (hs : s.isStarting = false) (hi : s.portR.selection = .idle) :
    exec (.selectionEnd .r (.clocked (byteBits code))) (recordSelection [] true s) = .next (selectionR code true s) := by
  obtain ⟨due, out⟩ := recordSelection_begun hm hs
  refine Eq.trans (exec_byteR code hr rfl) (congrArg Host.Outcome.next ?_)
  rw [transferBegins_of_not_due due]
  unfold byteOnR
  by_cases hcode : code = streamExitCode
  · subst hcode
    simp [hm, selectionR_exit_of_stream true hr hi hm, show (recordSelection [] true s).portR.firstByteTaken = false from rfl]
  · simp [hm, selectionR_of_stream true hr hi hm hcode, out, hcode,
      show (recordSelection [] true s).portR.firstByteTaken = false from rfl]

theorem exec_streamSelection_of_stream (hr : s.resetLine = false) (hm : s.rr.mode = .stream) (hi : s.portR.selection = .idle) :
    exec .streamSelection s = .next (recordSelection [] true s) := by
  refine congrArg Host.Outcome.next ((if_neg (by simp [hr, hm])).trans ?_)
  rw [closeSelectionR_of_idle hi]

/-- The exit code of a selection whose first byte is still due is taken in that selection (R162; assumption log 15). -/
theorem exec_streamExit_of_firstByteDue (hr : s.resetLine = false) (hm : s.rr.mode = .stream)
    (hi : s.portR.selection ≠ .idle) (hf : s.portR.firstByteTaken = false) :
    exec .streamExit s = .next (takeExit s) :=
  congrArg Host.Outcome.next (if_pos (by simp [hr, hm, hi, hf]))

/-- The exit code as a selection of its own is that first byte (R162; assumption log 15). -/
theorem exec_streamExit_of_idle (hi : s.portR.selection = .idle) :
    exec .streamExit s = .next (selectionR streamExitCode true s) := congrArg Host.Outcome.next (if_neg (by simp [hi]))

/-- A selection left with its first byte keeps the oldest record in the ring, one of its bytes out (R162). -/
theorem streamExited_selectionR (hr : s.resetLine = false) (hm : s.rr.mode = .stream) (hs : s.isStarting = false)
    (hi : s.portR.selection = .idle) :
    s.streamExited (selectionR streamExitCode true s) (s.rr.ring.head?.map fun r => { record := r, position := 0 }) := by
  obtain ⟨hmode, hbuffer, hring, hread, hsel, hbyte, hzero, frame⟩ := streamExited_takeExit (recordSelection [] true s)
  rw [recordSelection_readBuffer [] hs] at hbyte hzero
  rw [selectionR_exit_of_stream true hr hi hm]
  exact ⟨hmode, hbuffer, hring.trans (recordSelection_ring _ _ s), hread, hsel, hbyte, hzero,
    State.unchangedBut_trans (unchangedBut_recordSelection _ _ s) frame (fun _ h => h) (fun _ h => h)⟩

theorem beginSelectionR_of_stream (hm : s.rr.mode = .stream) : s.beginSelectionR = recordSelection [] true s := by
  unfold State.beginSelectionR
  rw [hm]

/-- Settles O52: the selection begun, its first byte by row and by bits, and the exit in a new selection and in one begun. -/
theorem portRStreamMode : Obligations.PortRStreamMode := by
  intro s hr hm starting exits
  have hs : s.isStarting = false := decide_eq_false starting
  refine ⟨fun hi => ?_, fun hi hf =>
    ⟨_, exec_streamExit_of_firstByteDue hr hm hi hf, streamExited_takeExit s⟩⟩
  have begun := streamRead_recordSelection hm hs
  have bits := fun code => exec_firstByte_of_stream code hr hm hs hi
  have first : ∀ code begun, code ≠ 0xE5 →
      s.streamRead (selectionR code begun s) [code] := fun code b hcode => by
    rw [selectionR_of_stream b hr hi hm hcode]
    exact streamRead_firstByte code begun rfl
  refine ⟨fun c received h => ?_, ⟨_, exec_streamExit_of_idle hi, streamExited_selectionR hr hm hs hi⟩, ?_, _,
    exec_streamSelection_of_stream hr hm hi, (bits _).trans (exec_streamExit_of_idle hi).symm, fun code _ => bits code⟩
  · rcases h with ⟨rfl, rfl⟩ | ⟨rfl, rfl⟩ | ⟨b, rfl, rfl⟩ | ⟨b, rfl, rfl⟩ | ⟨code, hcode, rfl, rfl⟩
    · exact ⟨_, exec_streamSelection_of_stream hr hm hi, begun⟩
    · exact ⟨_, rfl, first 0x0C true (by decide)⟩
    · exact ⟨_, rfl, first 0x61 b (by decide)⟩
    · exact ⟨_, rfl, first 0x62 b (by decide)⟩
    · exact ⟨_, rfl, first code true hcode⟩
  · rw [exec_fallR hr, closeSelectionR_of_idle hi, beginSelectionR_of_stream hm, exec_streamSelection_of_stream hr hm hi]

end Sys2Proof.Machine
end

section
/-! O53: the bytes of a transfer, its ends, the rise of select, and the bytes after the first (R154, R159 to R161, R164, R166;
assumption logs 8, 10, 11, 26). -/

namespace Sys2Proof.Machine

variable {s : State}

/-! ## Between transfers (R160, R164) -/

theorem transferBegins_of_fill (due : transferDue s = true)
    (h : s.portR.reading = some Reading.fillAlone ∨ s.rr.ring = []) :
    transferBegins s = { s with rr := { s.rr with readBuffer := none, fill := true } } := by
  unfold transferBegins
  rw [if_pos due, startReading_of_fill (h.imp_left decide_eq_true)]

theorem transferBegins_of_record {r : FrameRecord} {rest : List FrameRecord} (due : transferDue s = true)
    (h : s.portR.reading = some Reading.records) (hring : s.rr.ring = r :: rest) :
    transferBegins s = { s with rr := { s.rr with readBuffer := some { record := r, position := 0 } } } := by
  have notFill : decide (s.portR.reading = some Reading.fillAlone) = false := by rw [h]; decide
  unfold transferBegins
  rw [if_pos due, notFill, startReading_of_record hring]

theorem transferBegins_keeps (s : State) :
    (transferBegins s).portR = s.portR ∧ (transferBegins s).rr.mode = s.rr.mode ∧
      (transferBegins s).rr.ring = s.rr.ring := by
  unfold transferBegins
  split
  · exact ⟨rfl, startReading_mode _ _, startReading_ring _ _⟩
  · exact ⟨rfl, rfl, rfl⟩

/-- The moment at which the next byte is due is that of its first bit: given as a row before, it changes nothing (assumption
log 11). -/
theorem exec_byteR_transferBegins {received : List Byte} (code : Byte) (hr : s.resetLine = false)
    (hsel : s.portR.selection = .selected received []) :
    exec (.selectionEnd .r (.clocked (byteBits code))) (transferBegins s) =
      exec (.selectionEnd .r (.clocked (byteBits code))) s := by
  obtain ⟨hport, -, -⟩ := transferBegins_keeps s
  have line := (unchangedBut_transferBegins s).2 .resetLine (by simp)
  rw [exec_byteR code (line.trans hr) ((congrArg PortRState.selection hport).trans hsel), transferBegins_transferBegins,
    exec_byteR code hr hsel]

/-! ## The rise implied by a new command (assumption log 8) -/

/-- A command of Port R does the same from the state that the rise before it leaves. -/
theorem exec_closeSelectionR {c : Instr} (hr : s.resetLine = false)
    (hc : c = .portRReadStatus ∨ (∃ begun, c = .readRecords begun) ∨ (∃ begun, c = .readRecordsStream begun) ∨
      ∃ code, c = .portRUnknownByte code) : exec c s = exec c s.closeSelectionR := by
  have same := fun code begun => congrArg (Host.Outcome.next (φ := Fault) (ρ := Refusal))
    (selectionR_closeSelectionR code begun hr).symm
  rcases hc with rfl | ⟨begun, rfl⟩ | ⟨begun, rfl⟩ | ⟨code, rfl⟩
  · exact same 0x0C true
  · exact same 0x61 begun
  · exact same 0x62 begun
  · exact same code true

/-! ## A byte of a status, or of silence (R163, R175) -/

/-- A reply in progress other than a record read goes on by one byte. -/
theorem shiftOutR_of_reply {r : Reading} (hb : s.rr.readBuffer = none) (hf : s.rr.fill = false)
    (hfirst : s.portR.firstByteTaken = true) (hread : s.portR.reading = some r) :
    shiftOutR s =
      { s with portR := { s.portR with reading := some r.advance, shifted := s.portR.shifted ++ [r.out] } } := by
  rw [shiftOutR_of_no_record hb hf, hread, ← hfirst]
  rfl

theorem shiftOutR_of_silence (hb : s.rr.readBuffer = none) (hf : s.rr.fill = false)
    (hfirst : s.portR.firstByteTaken = true) (hread : s.portR.reading = none) :
    shiftOutR s = { s with portR := { s.portR with shifted := s.portR.shifted ++ [0] } } := by
  rw [shiftOutR_of_no_record hb hf, ← hfirst]
  simp [hread]

/-- A byte that comes on Port R after the first: what goes out leaves `u`, and the byte is received (R165). -/
def State.takesByte (s u : State) (received : List Byte) (x : Byte) : Prop :=
  exec (.selectionEnd .r (.clocked (byteBits x))) s = .next (u.receivedR (received ++ [x]) [])

section LaterByte

variable {received : List Byte} (x : Byte) (hr : s.resetLine = false) (hfirst : s.portR.firstByteTaken = true)
  (hsel : s.portR.selection = .selected received [])
include hr hfirst hsel

theorem takesByte_of_byte_left {b : ReadBuffer} (hb : s.rr.readBuffer = some b) (h : b.position + 1 < b.record.length) :
    s.takesByte (shiftBytes 1 s) received x :=
  shiftOutR_of_byte_left hb h ▸ exec_laterByteR x hr hsel hfirst (transferDue_of_transfer hb)

theorem takesByte_of_last_byte {b : ReadBuffer} (hb : s.rr.readBuffer = some b) (h : b.record.length ≤ b.position + 1) :
    s.takesByte (transferEnds s) received x :=
  shiftOutR_of_last_byte hb h ▸ exec_laterByteR x hr hsel hfirst (transferDue_of_transfer hb)

theorem takesByte_of_fill (hb : s.rr.readBuffer = none) (hf : s.rr.fill = true) :
    s.takesByte (shiftBytes 1 s) received x :=
  shiftOutR_of_fill hb hf ▸ exec_laterByteR x hr hsel hfirst (transferDue_of_fill hf)

theorem takesByte_of_silence (hb : s.rr.readBuffer = none) (hf : s.rr.fill = false) (hread : s.portR.reading = none) :
    s.takesByte { s with portR := { s.portR with shifted := s.portR.shifted ++ [0] } } received x :=
  shiftOutR_of_silence hb hf hfirst hread ▸
    exec_laterByteR x hr hsel hfirst (transferDue_of_other_reading (by simp [hread]) (by simp [hread]))

/-- A status goes on from its first byte again (R163). -/
theorem takesByte_of_repeating {reply : List Byte} {k : Nat} (hb : s.rr.readBuffer = none) (hf : s.rr.fill = false)
    (hreply : reply ≠ [0]) (hread : s.portR.reading = some { reply := reply, repeated := true, position := k }) :
    s.takesByte { s with portR := { s.portR with
      reading := some { reply := reply, repeated := true, position := (k + 1) % reply.length },
      shifted := s.portR.shifted ++ [reply.getD (k % reply.length) 0] } } received x := by
  have due : transferDue s = false := transferDue_of_other_reading (by simp [hread, Reading.records, Reading.once])
    fun h => hreply (congrArg Reading.reply (Option.some.inj (hread.symm.trans h)))
  have taken := exec_laterByteR x hr hsel hfirst due
  rwa [shiftOutR_of_reply hb hf hfirst hread] at taken

end LaterByte

/-- Settles O53: the moments in a transfer, those between transfers, the rise, and the bytes after the first. -/
theorem transfersEnd : Obligations.TransfersEnd := by
  intro s
  refine ⟨fun b hb => ⟨?_, ?_, fun count => ?_, fun count => ?_⟩, fun hb => ?_, fun hr hi => ?_, exec_riseR_of_idle,
    fun hr hfirst received x hsel => ?_⟩
  · have frame := unchangedBut_transferEnds s
    have ends := transferEnds_of_transfer hb
    rw [ends] at frame
    refine ⟨_, congrArg Host.Outcome.next ends, rfl, rfl, rfl, rfl, frame, rfl, fun r rest hring h => ?_,
      removeTransferred_of_overwritten, rfl, rfl, ?_⟩
    · rw [hring]
      exact removeTransferred_of_oldest h
    · rw [← ends]
      rfl
  · exact congrArg Host.Outcome.next (transferBegins_of_not_due (transferDue_of_transfer hb))
  · obtain ⟨k, hbelow, habove, he⟩ := shiftBytes_of_transfer hb count
    have frame := unchangedBut_shiftBytes count s
    rw [he] at frame
    exact ⟨_, k, congrArg Host.Outcome.next he, hbelow, habove, rfl, rfl, rfl, rfl, by simp, rfl, rfl, rfl, frame⟩
  · obtain ⟨k, hlt, hcount, he⟩ := transferCut_of_transfer count hb
    have frame := unchangedBut_transferCut count s
    rw [he] at frame
    exact ⟨_, congrArg Host.Outcome.next he, rfl, rfl, rfl, rfl, rfl, rfl, ⟨k, hlt, hcount, rfl⟩, frame⟩
  · intro records fillAlone due
    have isDue : due ↔ transferDue s = true := by
      rw [transferDue_iff]
      exact ⟨fun ⟨hi, hread, hf⟩ => ⟨hi, hread, hb, hf⟩, fun ⟨hi, hread, _, hf⟩ => ⟨hi, hread, hf⟩⟩
    refine ⟨fun hf count => ?_, fun hf count => ?_, congrArg Host.Outcome.next (transferEnds_of_none hb), ?_,
      fun count => congrArg Host.Outcome.next (transferCut_of_none count hb), fun h => ?_, fun h => ?_⟩
    · exact congrArg Host.Outcome.next ((shiftBytes_of_none hb count).trans (if_neg (by simp [hf])))
    · exact congrArg Host.Outcome.next ((shiftBytes_of_none hb count).trans (if_pos hf))
    · exact congrArg (fun u => Host.Outcome.next (transferBegins u)) (transferEnds_of_none hb)
    · obtain ⟨hport, hmode, hring⟩ := transferBegins_keeps s
      have begins := isDue.1 h
      obtain ⟨-, -, hf⟩ := h
      refine ⟨transferBegins s, rfl, hport, hmode, hring, unchangedBut_transferBegins s, fun hfill => ?_,
        fun r rest hrecords hring => ?_⟩
      · rw [transferBegins_of_fill begins hfill]
        exact ⟨rfl, rfl⟩
      · rw [transferBegins_of_record begins hrecords hring]
        exact ⟨hf, rfl⟩
    · exact congrArg Host.Outcome.next (transferBegins_of_not_due (by simpa using mt isDue.2 h))
  · have frame := unchangedBut_closeSelectionR s
    have same := fun c => exec_closeSelectionR (c := c) hr
    have rise := exec_riseR hr
    rw [closeSelectionR_of_selected hi] at frame same rise
    exact ⟨_, rise, rfl, rfl, rfl, rfl, rfl, rfl, rfl, rfl, frame, same⟩
  · intro clock takes
    exact ⟨fun b hb => ⟨fun h => ⟨_, rfl, takesByte_of_byte_left x hr hfirst hsel hb h⟩,
        fun h => ⟨_, rfl, takesByte_of_last_byte x hr hfirst hsel hb h⟩⟩,
      fun hb hf => ⟨_, rfl, takesByte_of_fill x hr hfirst hsel hb hf⟩,
      fun hb hf => ⟨fun _ => ⟨_, rfl, (exec_byteR_transferBegins x hr hsel).symm⟩,
        takesByte_of_silence x hr hfirst hsel hb hf,
        fun reply k => takesByte_of_repeating x hr hfirst hsel hb hf⟩⟩

end Sys2Proof.Machine
end

section
/-! O1: a step runs the command at the front of the queue. -/

namespace Sys2Proof.Machine

/-- Settles O1: with a command waiting a step is its execution on the queue's rest, by the equation of `step`. -/
theorem stepRunsFrontCommand : Obligations.StepRunsFrontCommand := fun _ _ _ => rfl

end Sys2Proof.Machine
end

section
/-! O40: selections that reach no block: the frames that are discarded, the refusals in STARTING, and the asserted reset line
(R167 to R171, R174, R176; assumption logs 12, 17). -/

namespace Sys2Proof.Machine

section

variable {p : Port} {c : Instr} {s : State}

/-! ## A command as its port takes it (R166 to R168) -/

/-- A command that waits for the rise is answered as its port's command, or is a frame of another length and is discarded (R167;
assumption log 17). -/
theorem exec_commandPort_cases (hc : commandPort c = some p) (s : State) :
    (∃ body, exec c s = .next (portCommand p body s)) ∨
      (c.wellFormed = false ∧ exec c s = .next (discardSelection p .framing s)) := by
  rcases commandPort_cases hc with ⟨r, rfl⟩ | ⟨hport, hedit⟩
  · exact .inl ⟨_, exec_requestCommand p r s⟩
  · cases c <;> simp [isPortCommand, isEdit] at hport hedit <;> obtain rfl := Option.some.inj hc
    case slotWrite q slot page offset data =>
      cases data with
      | nil => exact .inr ⟨rfl, rfl⟩
      | cons b rest => exact .inl ⟨_, rfl⟩
    case save q slot sector name selector =>
      by_cases hname : name.length = 16
      · exact .inl ⟨_, congrArg Host.Outcome.next (if_pos hname)⟩
      · exact .inr ⟨by simpa [Instr.wellFormed] using hname, congrArg Host.Outcome.next (if_neg hname)⟩
    all_goals exact .inl ⟨_, rfl⟩

theorem exec_readPort {received : List Byte} (hc : readPort c = some (p, received)) (s : State) :
    ∃ body, exec c s = .next (portRead p received body s) := by
  cases c <;> simp [readPort] at hc <;> obtain ⟨rfl, rfl⟩ := hc
  all_goals exact ⟨_, rfl⟩

/-! ## Discarded frames (R167, R169) -/

/-- A selection that the tests of R167 find FRAMING is discarded. -/
theorem takeSelection_framing_answers {received : List Byte} {part : List Bool} (hr : s.resetLine = false)
    (hj : judgeFrame p received part = .framing) :
    ∃ t, takeSelection p (judgeFrame p received part) s = .next t ∧ s.answers t p .framing [] := by
  rw [hj]
  exact ⟨_, rfl, discardSelection_answers hr⟩

/-- A selection that the tests of R167 find UNKNOWN is discarded. -/
theorem takeSelection_unknown_answers {received : List Byte} {part : List Bool} (hr : s.resetLine = false)
    (hj : judgeFrame p received part = .unknown) :
    ∃ t, takeSelection p (judgeFrame p received part) s = .next t ∧ s.answers t p .unknown [] := by
  rw [hj]
  exact ⟨_, rfl, discardSelection_answers hr⟩

/-- A SAVE with a name of another length is discarded (R167, R178; assumption log 17). -/
theorem exec_save_framing_answers (slot sector selector : Byte) {name : List Byte} (hr : s.resetLine = false)
    (hname : name.length ≠ 16) :
    ∃ t, exec (.save p slot sector name selector) s = .next t ∧ s.answers t p .framing [] :=
  ⟨_, congrArg Host.Outcome.next (if_neg hname), discardSelection_answers hr⟩

/-! ## STARTING (R174) -/

theorem exec_commandPort_starting (hr : s.resetLine = false) (hs : s.pe.frameState = .starting) (hw : c.wellFormed = true)
    (hc : commandPort c = some p) : ∃ t, exec c s = .next t ∧ s.answers t p .starting [] := by
  rcases exec_commandPort_cases hc s with ⟨body, he⟩ | ⟨hmalformed, -⟩
  · rw [portCommand_starting hr hs] at he
    exact ⟨_, he, discardSelection_answers hr⟩
  · rw [hw] at hmalformed
    cases hmalformed

theorem exec_readPort_starting {received : List Byte} (hr : s.resetLine = false) (hs : s.pe.frameState = .starting)
    (hc : readPort c = some (p, received)) :
    ∃ t, exec c s = .next t ∧ s.readAnswered t p received (some (Reading.once [])) .starting := by
  obtain ⟨body, he⟩ := exec_readPort hc s
  exact ⟨_, he, portRead_starting hr hs⟩

/-! ## The asserted reset line (R176; assumption log 12) -/

theorem exec_commandPort_reset (hr : s.resetLine = true) (hc : commandPort c = some p) : exec c s = .next s := by
  rcases exec_commandPort_cases hc s with ⟨body, he⟩ | ⟨-, he⟩
  · rw [he, portCommand_reset hr]
  · rw [he, discardSelection_reset hr]

theorem exec_read_reset (hr : s.resetLine = true) (hc : (∃ received, readPort c = some (p, received)) ∨ c = .readStatus p) :
    exec c s = .next s := by
  rcases hc with ⟨received, hc⟩ | rfl
  · obtain ⟨body, he⟩ := exec_readPort hc s
    rw [he, portRead_reset hr]
  · exact congrArg Host.Outcome.next (if_pos hr)

theorem exec_twoRequests_reset (hr : s.resetLine = true) (r o : Request) : exec (requestCommand p r (some o)) s = .next s := by
  have alone : ∀ q (x : Request), portRequest q x s = s := fun _ _ => portCommand_reset hr
  have both : portRequests p r (some o) s = s := by simp [portRequests, alone]
  calc exec (requestCommand p r (some o)) s = .next (portRequests p r (some o) s) := by cases r <;> rfl
    _ = .next s := by rw [both]

/-- A selection given by its bytes is not taken, whatever the tests of R167 find it to be. -/
theorem takeSelection_reset (hr : s.resetLine = true) (received : List Byte) (part : List Bool) :
    takeSelection p (judgeFrame p received part) s = .next s := by
  cases hj : judgeFrame p received part with
  | framing => exact congrArg Host.Outcome.next (discardSelection_reset hr)
  | unknown => exact congrArg Host.Outcome.next (discardSelection_reset hr)
  | command c =>
    have ignored : exec c s = .next s := (judgeFrame_command hj).elim (exec_commandPort_reset hr) (exec_read_reset hr)
    have rise : riseAfterCommand p s = s := if_pos (by simp [hr])
    simp only [takeSelection, frameMeaning_of_judged hj, ignored, rise]

theorem exec_selectionEnd_reset (hr : s.resetLine = true) (line : SelectLine) (moment : SelectionMoment) :
    exec (.selectionEnd line moment) s = .next s := if_pos hr

end

/-- Settles O40: the discarded frames, STARTING, and the asserted reset line command by command. -/
theorem selectionsWithoutEffect : Obligations.SelectionsWithoutEffect := by
  refine fun s p => ⟨fun hr => ⟨fun received part => takeSelection_framing_answers hr,
    fun received => takeSelection_unknown_answers hr, fun slot page offset => ⟨_, rfl, discardSelection_answers hr⟩,
    fun slot sector name selector => exec_save_framing_answers slot sector selector hr,
    fun c hs => exec_commandPort_starting hr hs, fun c received hs => exec_readPort_starting hr hs⟩, fun hr c hc => ?_⟩
  rcases hc with hc | hc | hc | ⟨r, o, rfl⟩ | ⟨received, part, rfl⟩ | ⟨received, rfl⟩ | ⟨line, moment, rfl⟩
  · exact exec_commandPort_reset hr hc
  · exact exec_read_reset hr (.inl hc)
  · exact exec_read_reset hr (.inr hc)
  · exact exec_twoRequests_reset hr r o
  · exact takeSelection_reset hr received part
  · exact takeSelection_reset hr received []
  · exact exec_selectionEnd_reset hr line moment

end Sys2Proof.Machine
end

section
/-! O43: the write enable latch (R171, R173). -/

namespace Sys2Proof.Machine

/-! ## WRITE ENABLE and WRITE DISABLE (R173) -/

/-- A latch set or cleared by its own command: DONE, and of the rest the end of the selection alone. -/
theorem portCommand_setLatch {p : Port} {s : State} (set : Bool) (h : s.operating) :
    let t := portCommand p (setLatch p set) s
    (t.port p).writeEnable = set ∧ (t.port p).lastResult = .done ∧ (t.port p).selection = .idle ∧
      t.ca.inactivityTimer = s.timerAfter p := by
  intro t
  obtain ⟨a, rfl, answered⟩ := portCommand_spec p (setLatch p set) s h
  have port : t.port p =
      { (s.closeSelection p).port p with writeEnable := set, lastResult := .done } := by
    simp [t, answered, setLatch, State.setWriteEnable, State.setLastResult]
  refine ⟨by rw [port], by rw [port], by rw [port]; exact State.closeSelection_selection s p, ?_⟩
  calc t.ca.inactivityTimer = (s.closeSelection p).timerAfter p := by
        simp [t, answered, setLatch, restartInactivity_timer, State.timerAfter]
    _ = s.timerAfter p := closeSelection_timerAfter s p

theorem exec_setLatch {p : Port} {s : State} (set : Bool) :
    exec (if set then .writeEnable p else .writeDisable p) s = .next (portCommand p (setLatch p set) s) := by
  cases set <;> rfl

theorem unchangedBut_setLatch (p : Port) (set : Bool) (s : State) :
    s.unchangedBut (portCommand p (setLatch p set) s) [.port p, .inactivityTimer] :=
  State.unchangedBut_mono (unchangedBut_portCommand p _ [.port p] (fun u => unchangedBut_setWriteEnable u p set) s) (by simp)

/-! ## What leaves both latches as they stood -/

/-- The write enable latches of both ports stand. -/
def State.sameLatches (s t : State) : Prop := ∀ p, (t.port p).writeEnable = (s.port p).writeEnable

theorem State.sameLatches_refl (s : State) : s.sameLatches s := fun _ => rfl

theorem State.sameLatches.trans {s t u : State} (h : s.sameLatches t) (k : t.sameLatches u) : s.sameLatches u :=
  fun p => (k p).trans (h p)

theorem sameLatches_of_unchangedBut {s t : State} {l : List Part} (h : s.unchangedBut t l) (hl : ∀ p, .port p ∉ l) :
    s.sameLatches t := fun p => congrArg PortState.writeEnable (h.2 (.port p) (hl p))

theorem sameLatches_setPort {s : State} {p : Port} {x : PortState} (hx : x.writeEnable = (s.port p).writeEnable) :
    s.sameLatches (s.setPort p x) := fun q => by
  rw [State.port_setPort]
  split
  · next hq => rw [hx, hq]
  · rfl

theorem sameLatches_restartInactivity (s : State) (p : Port) : s.sameLatches (s.restartInactivity p) :=
  fun q => by rw [State.restartInactivity_port]

theorem sameLatches_closeSelection (s : State) (p : Port) : s.sameLatches (s.closeSelection p) :=
  State.closeSelection_writeEnable s p

theorem sameLatches_deselect (s : State) (p : Port) : s.sameLatches (s.deselect p) := sameLatches_setPort rfl

theorem sameLatches_endSelection (s : State) (p : Port) : s.sameLatches (s.endSelection p) :=
  (sameLatches_deselect s p).trans (sameLatches_restartInactivity _ p)

theorem sameLatches_setLastResult (s : State) (p : Port) (r : Result) : s.sameLatches (s.setLastResult p r) :=
  sameLatches_setPort rfl

/-- The result of a command and the restart of the timer leave the latches (R114, R171). -/
theorem sameLatches_answer (s : State) (p : Port) (r : Result) : s.sameLatches ((s.setLastResult p r).restartInactivity p) :=
  (sameLatches_setLastResult s p r).trans (sameLatches_restartInactivity _ p)

theorem sameLatches_discardSelection (p : Port) (r : Result) (s : State) : s.sameLatches (discardSelection p r s) := by
  unfold discardSelection
  split
  · exact s.sameLatches_refl
  · exact (sameLatches_closeSelection s p).trans (sameLatches_answer _ p r)

/-- A command whose body touches no port leaves the latches (R173). -/
theorem sameLatches_portCommand {p : Port} {body : State → Result × State} {l : List Part} (hl : ∀ q, .port q ∉ l)
    (hbody : ∀ u : State, u.unchangedBut (body u).2 l) (s : State) : s.sameLatches (portCommand p body s) := by
  have begun := sameLatches_closeSelection s p
  unfold portCommand
  split
  · exact s.sameLatches_refl
  simp only
  split
  · exact begun.trans (sameLatches_answer _ p _)
  · exact (begun.trans (sameLatches_of_unchangedBut (hbody _) hl)).trans (sameLatches_answer _ p _)

theorem sameLatches_portRead (p : Port) (received : List Byte) (body : State → Except Result (List Byte)) (s : State) :
    s.sameLatches (portRead p received body s) := by
  unfold portRead
  split
  · exact s.sameLatches_refl
  simp only
  split
  all_goals exact (sameLatches_closeSelection s p).trans (sameLatches_setPort rfl)

theorem sameLatches_portStatus (p : Port) (s : State) : s.sameLatches (portStatus p s) := by
  unfold portStatus
  split
  · exact s.sameLatches_refl
  · exact (sameLatches_closeSelection s p).trans (sameLatches_setPort rfl)

theorem sameLatches_portRequest (p : Port) (r : Request) (s : State) : s.sameLatches (portRequest p r s) :=
  sameLatches_portCommand (by simp) (unchangedBut_takeRequest p _ (unchangedBut_answerRequest p r)) s

/-- Requests, alone or two together, leave the latches of both ports (R106, R173). -/
theorem sameLatches_portRequests (p : Port) (r : Request) (beside : Option Request) (s : State) :
    s.sameLatches (portRequests p r beside s) := by
  unfold portRequests
  split
  · exact sameLatches_portRequest p r s
  split
  · exact (sameLatches_portRequest _ _ s).trans (sameLatches_portRequest p r _)
  · exact (sameLatches_portRequest p r s).trans (sameLatches_portRequest _ _ _)

theorem sameLatches_read {p : Port} {c : Instr} {s t : State}
    (hc : (∃ received, readPort c = some (p, received)) ∨ c = .readStatus p) (h : exec c s = .next t) : s.sameLatches t := by
  rcases hc with ⟨received, hc⟩ | rfl
  · obtain ⟨body, he⟩ := exec_readPort hc s
    obtain rfl := Host.Outcome.next.inj (he.symm.trans h)
    exact sameLatches_portRead p received body s
  · obtain rfl := Host.Outcome.next.inj h
    exact sameLatches_portStatus p s

/-! ## The moments of a selection (R165 to R168) -/

theorem sameLatches_byteOnPort {p : Port} {received : List Byte} {s t : State} (h : byteOnPort p received s = .next t) :
    s.sameLatches t := by
  have taken : s.sameLatches (s.setPort p ((s.port p).takeByte received)) := sameLatches_setPort rfl
  unfold byteOnPort at h
  simp only at h
  split at h
  · obtain rfl := Host.Outcome.next.inj h
    exact taken
  split at h
  · next c hc =>
    have read := completedRead_read hc
    rw [frameMeaning_of_read read] at h
    exact taken.trans (sameLatches_read read h)
  · obtain rfl := Host.Outcome.next.inj h
    exact taken

theorem sameLatches_bitOnPort {p : Port} {bit : Bool} {s t : State} (h : bitOnPort p bit s = .next t) : s.sameLatches t := by
  unfold bitOnPort at h
  split at h
  · obtain rfl := Host.Outcome.next.inj h
    exact s.sameLatches_refl
  split at h
  · obtain rfl := Host.Outcome.next.inj h
    exact sameLatches_setPort rfl
  · exact sameLatches_byteOnPort h

/-- Bits leave the latches: a read is all that they can execute (R168). -/
theorem sameLatches_bitsOnLine {p : Port} {bits : List Bool} {s t : State} (h : bitsOnLine (portLine p) bits s = .next t) :
    s.sameLatches t := by
  induction bits generalizing s with
  | nil =>
    obtain rfl := Host.Outcome.next.inj h
    exact s.sameLatches_refl
  | cons bit rest ih =>
    simp only [bitsOnLine, bitOnLine_port] at h
    obtain ⟨u, hu, -⟩ := bitOnPort_parts p bit s
    rw [hu] at h
    exact (sameLatches_bitOnPort hu).trans (ih h)

/-- The rise on an idle port, or after a read, judges no selection (R166, R168). -/
theorem sameLatches_riseOnPort {p : Port} {s t : State} (hsel : (s.port p).selection = .idle ∨ (s.port p).reading ≠ none)
    (h : riseOnPort p s = .next t) : s.sameLatches t := by
  unfold riseOnPort at h
  split at h
  · obtain rfl := Host.Outcome.next.inj h
    exact s.sameLatches_refl
  · next received part hselected =>
    have read : (s.port p).reading.isSome = true :=
      Option.isSome_iff_ne_none.2 (hsel.resolve_left (by simp [hselected]))
    rw [if_pos read] at h
    obtain rfl := Host.Outcome.next.inj h
    exact sameLatches_endSelection s p

/-- The moments of a selection leave the latches, but a rise or a fall that has a selection still being received judged. -/
theorem sameLatches_moment {p : Port} {moment : SelectionMoment} {s t : State}
    (hmoment : (∃ bits, moment = .clocked bits) ∨ (s.port p).selection = .idle ∨ (s.port p).reading ≠ none)
    (h : exec (.selectionEnd (portLine p) moment) s = .next t) : s.sameLatches t := by
  cases hr : s.resetLine with
  | true =>
    obtain rfl := Host.Outcome.next.inj ((exec_selectionEnd_reset hr _ moment).symm.trans h)
    exact s.sameLatches_refl
  | false =>
  cases moment with
  | clocked bits =>
    rw [exec_clocked hr] at h
    exact sameLatches_bitsOnLine h
  | rise =>
    rw [exec_rise hr] at h
    exact sameLatches_riseOnPort (hmoment.resolve_left (by simp)) h
  | fall =>
    obtain ⟨u, hu, -⟩ := riseOnPort_parts p s
    obtain rfl := Host.Outcome.next.inj ((exec_fall hr hu).symm.trans h)
    exact (sameLatches_riseOnPort (hmoment.resolve_left (by simp)) hu).trans (sameLatches_setPort rfl)

/-! ## Every command -/

/-- The port of a command that sets or clears a latch (R146, R148, R173). -/
def latchPort : Instr → Option Port
  | .writeEnable p | .writeDisable p | .save p _ _ _ _ | .erase p _ _ => some p
  | _ => none

/-- A command that sets or clears a latch changes no other port. -/
theorem not_mem_changes_of_latchPort {p q : Port} {c : Instr} (hc : latchPort c = some q) (hq : q ≠ p) :
    .port p ∉ Changes c := by
  cases c <;> simp [latchPort] at hc <;> subst hc
  all_goals simp [Changes, commandParts, hq.symm]

/-- The commands of the arbiter leave the latches (R106). -/
theorem sameLatches_edit {c : Instr} {s t : State} (hc : isEdit c = true) (h : exec c s = .next t) : s.sameLatches t := by
  cases c <;> simp [isEdit] at hc
  case trackerSubmission => exact sameLatches_of_unchangedBut (exec_unchangedBut h) (by simp [Changes, commandParts])
  case groupExpiry ms => exact sameLatches_of_unchangedBut (exec_unchangedBut h) (by simp [Changes, commandParts])
  all_goals
    obtain rfl := Host.Outcome.next.inj h
    exact sameLatches_portRequests _ _ _ s

/-- SLOT OPEN, WRITE, FINISH and DISCARD, and RECALL, leave the latches (R127 to R130, R143). -/
theorem sameLatches_slotCommand {c : Instr} {s t : State} (hc : isPortCommand c = true) (he : isEdit c = false)
    (hl : latchPort c = none) (h : exec c s = .next t) : s.sameLatches t := by
  have onSlots : ∀ (p : Port) (id : Byte) {body : Fin 8 → State → Result × State},
      (∀ i (u : State), u.unchangedBut (body i u).2 [.slots]) → s.sameLatches (portCommand p (onSlot id body) s) :=
    fun _ id _ hbody => sameLatches_portCommand (by simp) (unchangedBut_onSlot id _ hbody) s
  cases c <;> simp [isPortCommand, isEdit, latchPort] at hc he hl <;> obtain rfl := Host.Outcome.next.inj h
  case slotOpen p id => exact onSlots p id (unchangedBut_openSlot p)
  case slotWrite p id page offset data =>
    split
    · exact sameLatches_discardSelection p .framing s
    · exact onSlots p id (unchangedBut_writeSlot p page offset data)
  case slotFinish p id => exact onSlots p id (unchangedBut_finishSlot p)
  case slotDiscard p id => exact onSlots p id unchangedBut_discardSlot
  -- RECALL, whose name is a keyword of Mathlib, so that `case` cannot take it.
  next p number id => exact sameLatches_portCommand (by simp) (unchangedBut_recallRequest number id) s

/-- A selection that the tests of R167 find to be no command leaves the latches. -/
theorem sameLatches_takeSelection {p : Port} {f : Frame} {s t : State} (hf : f = .framing ∨ f = .unknown)
    (h : takeSelection p f s = .next t) : s.sameLatches t := by
  rcases hf with rfl | rfl <;> obtain rfl := Host.Outcome.next.inj h
  · exact sameLatches_discardSelection p .framing s
  · exact sameLatches_discardSelection p .unknown s

/-- A latch is changed by the commands that set or clear it, by a reset, and by a selection judged at its end, and by no other
well-formed command. -/
theorem writeEnable_exec {p : Port} {s t : State} {c : Instr} (hw : c.wellFormed = true) (hlatch : latchPort c ≠ some p)
    (hreset : ∀ acts, c ≠ .resetAssert acts)
    (hmoment : ∀ moment, c = .selectionEnd (portLine p) moment →
      (∃ bits, moment = .clocked bits) ∨ (s.port p).selection = .idle ∨ (s.port p).reading ≠ none)
    (h : exec c s = .next t) : (t.port p).writeEnable = (s.port p).writeEnable := by
  by_cases quiet : .port p ∉ Changes c
  · exact congrArg PortState.writeEnable (exec_agrees h quiet)
  by_cases hread : ∃ q, (∃ received, readPort c = some (q, received)) ∨ c = .readStatus q
  · obtain ⟨q, hread⟩ := hread
    exact sameLatches_read hread h p
  cases he : isEdit c with
  | true => exact sameLatches_edit he h p
  | false =>
  cases hport : isPortCommand c with
  | true =>
    have hnone : latchPort c = none := Option.eq_none_iff_forall_ne_some.2 fun q hq =>
      quiet (not_mem_changes_of_latchPort hq fun hqp => hlatch (hqp ▸ hq))
    exact sameLatches_slotCommand hport he hnone h p
  | false =>
  cases c
  case resetAssert acts => exact absurd rfl (hreset acts)
  case framing q received part =>
    have judged : part.length < 8 ∧ judgeFrame q received part = .framing := by simpa [Instr.wellFormed] using hw
    exact sameLatches_takeSelection (.inl judged.2) h p
  case unknown q received =>
    have judged : judgeFrame q received [] = .unknown := by simpa [Instr.wellFormed] using hw
    exact sameLatches_takeSelection (.inr judged) h p
  case selectionEnd line moment =>
    have own : line = portLine p := by
      cases line <;> cases p <;> simp [Changes, lineParts] at quiet <;> rfl
    subst own
    exact sameLatches_moment (hmoment moment rfl) h p
  all_goals simp [Changes, commandParts, isEdit, isPortCommand, readPort] at quiet he hport hread

/-- Settles O43: the latch's own commands by `portCommand_setLatch`, every other command by `writeEnable_exec`. -/
theorem writeEnableLatch : Obligations.WriteEnableLatch := by
  refine ⟨fun p s set h => ?_, fun p s t c hw h henable hdisable hsave herase hreset hmoment => ?_⟩
  · obtain ⟨latch, result, selection, timer⟩ := portCommand_setLatch (p := p) set h
    exact ⟨_, exec_setLatch set, latch, result, selection, timer, unchangedBut_setLatch p set s⟩
  · have other : latchPort c ≠ some p := fun hc => by
      cases c <;> simp [latchPort] at hc <;> subst hc
      case writeEnable => exact henable rfl
      case writeDisable => exact hdisable rfl
      case save => exact hsave _ _ _ _ rfl
      case erase => exact herase _ _ rfl
    exact writeEnable_exec hw other hreset hmoment h

end Sys2Proof.Machine
end

section
/-! O54: the byte layout of a frame colour record (R155, R177, R181; assumption log 27). -/

namespace Sys2Proof.Machine

/-! ## Bytes of numbers and of flags (R177, R181) -/

/-- The last byte is the lowest (R177). -/
theorem natBytes_succ (k n : Nat) : natBytes (k + 1) n = natBytes k (n / 256) ++ [BitVec.ofNat 8 n] := by
  have higher : ∀ i ∈ List.range k,
      BitVec.ofNat 8 (n / 256 ^ (k + 1 - 1 - i)) = BitVec.ofNat 8 (n / 256 / 256 ^ (k - 1 - i)) := by
    intro i hi
    have exponent : k + 1 - 1 - i = k - 1 - i + 1 := by have := List.mem_range.1 hi; omega
    rw [exponent, Nat.pow_succ', Nat.div_div_eq_div_mul]
  unfold natBytes
  rw [List.range_succ, List.map_append, List.map_congr_left higher]
  simp

theorem bytesNat_concat (bytes : List Byte) (b : Byte) : bytesNat (bytes ++ [b]) = 256 * bytesNat bytes + b.toNat := by
  simp [bytesNat]

/-- A number that its bytes can hold is read back from them (R177). -/
theorem bytesNat_natBytes {k n : Nat} (h : n < 256 ^ k) : bytesNat (natBytes k n) = n := by
  induction k generalizing n with
  | zero => simpa [bytesNat, natBytes, eq_comm] using h
  | succ k ih =>
    have high : n / 256 < 256 ^ k := Nat.div_lt_of_lt_mul (by rwa [← Nat.pow_succ'])
    rw [natBytes_succ, bytesNat_concat, ih high, BitVec.toNat_ofNat]
    exact Nat.div_add_mod n 256

theorem length_mat3Bytes (m : Mat3) : m.bytes.length = 18 := by
  simp [Mat3.bytes, length_intBytes]

/-- A byte from one more low bit: the others stand one place higher. -/
theorem bitsByte_cons (b : Bool) (bits : List Bool) : bitsByte (b :: bits) = (if b then 1 else 0) + 2 * bitsByte bits := by
  cases b <;> simp [bitsByte, BitVec.ofNat_add, BitVec.ofNat_mul, BitVec.add_comm]

/-- A byte of six flags, as a sum. -/
theorem bitsByte_six (a b c d e f : Bool) :
    bitsByte [a, b, c, d, e, f] = (if a then 1 else 0) + 2 * (if b then 1 else 0) + 4 * (if c then 1 else 0) +
      8 * (if d then 1 else 0) + 16 * (if e then 1 else 0) + 32 * (if f then 1 else 0 : Byte) := by
  have empty : bitsByte [] = 0 := rfl
  simp only [bitsByte_cons, empty]
  ring

/-! ## The items at fixed positions (R181) -/

/-- Of lists joined, each stands behind the ones before it. -/
theorem take_drop_flatten {α : Type} {parts : List (List α)} {k : Nat} {part : List α} (h : parts[k]? = some part) :
    (parts.flatten.drop ((parts.map List.length).take k).sum).take part.length = part := by
  obtain ⟨hk, rfl⟩ := List.getElem?_eq_some_iff.1 h
  have place := List.drop_take_succ_flatten_eq_getElem parts k hk
  rw [List.drop_take] at place
  simpa [List.sum_take_succ, hk] using place

/-- The items of a record at fixed positions, in the order of R181. -/
def FrameRecord.fixedItems (r : FrameRecord) : List (List Byte) :=
  let o := r.opening
  [natBytes 2 r.length, natBytes 4 o.frameNumber.toNat, [r.flagsByte], [r.presenceByte],
    natBytes 2 o.width.toNat, natBytes 2 o.height.toNat,
    natBytes 2 o.blackR ++ natBytes 2 o.blackG ++ natBytes 2 o.blackB, natBytes 4 o.highlight, natBytes 2 o.mired,
    intBytes 1 o.tint ++ intBytes 1 o.exposure, natBytes 2 o.gainR ++ natBytes 2 o.gainG ++ natBytes 2 o.gainB,
    o.effective.bytes, [BitVec.ofNat 8 r.trackerMode.code, r.substate.code], natBytes 2 r.target,
    [BitVec.ofNat 8 r.votes], o.trim.bytes]

/-- The bytes that each of these items takes. -/
def fixedItemLengths : List Nat := [2, 4, 1, 1, 2, 2, 6, 4, 2, 2, 6, 18, 2, 2, 1, 18]

theorem FrameRecord.fixedBytes_eq (r : FrameRecord) : r.fixedBytes = r.fixedItems.flatten := by
  unfold FrameRecord.fixedBytes FrameRecord.fixedItems
  simp only [List.flatten_cons, List.flatten_nil, List.append_nil, List.append_assoc, List.cons_append, List.nil_append]

theorem FrameRecord.lengths_fixedItems (r : FrameRecord) : r.fixedItems.map List.length = fixedItemLengths := by
  simp [FrameRecord.fixedItems, fixedItemLengths, natBytes_length, length_intBytes, length_mat3Bytes]

theorem FrameRecord.length_fixedBytes (r : FrameRecord) : r.fixedBytes.length = 73 := by
  rw [r.fixedBytes_eq, List.length_flatten, r.lengths_fixedItems]
  rfl

/-- An item stands at the sum of the lengths before it. -/
theorem FrameRecord.bytes_fixedItem (r : FrameRecord) {k position count : Nat} {item : List Byte}
    (hitem : r.fixedItems[k]? = some item) (hposition : (fixedItemLengths.take k).sum = position)
    (hcount : fixedItemLengths[k]? = some count) : (r.bytes.drop position).take count = item := by
  have parts : (r.fixedItems ++ [r.variableBytes])[k]? = some item :=
    List.getElem?_append_left (List.getElem?_eq_some_iff.1 hitem).1 ▸ hitem
  have joined : r.bytes = (r.fixedItems ++ [r.variableBytes]).flatten := by
    simp [FrameRecord.bytes, r.fixedBytes_eq]
  have length : item.length = count := by
    rw [← r.lengths_fixedItems, List.getElem?_map, hitem] at hcount
    exact Option.some.inj hcount
  have before : (((r.fixedItems ++ [r.variableBytes]).map List.length).take k).sum = position := by
    have hk : k ≤ fixedItemLengths.length := (List.getElem?_eq_some_iff.1 hcount).1.le
    rw [List.map_append, r.lengths_fixedItems, List.take_append_of_le_length hk, hposition]
  simpa only [← joined, before, length] using take_drop_flatten parts

/-! ## The variable parts (R181) -/

/-- The bytes of a part that a record may lack. -/
theorem length_optionalPart {α : Type} {f : α → List Byte} {n : Nat} (hf : ∀ a, (f a).length = n) (x : Option α) :
    ((x.map f).getD []).length = if x.isSome then n else 0 := by
  cases x with
  | none => rfl
  | some a => exact hf a

theorem FrameRecord.variableBytes_eq (r : FrameRecord) :
    r.variableBytes = (r.estimate.map (natBytes 2)).getD [] ++ r.opening.programmeTone.bytes ++ r.opening.monitorTone.bytes ++
      (r.opening.monitorLattice.map RecordBinding.bytes).getD [] ++ [BitVec.ofNat 8 r.opening.appliedChanges.length] ++
      r.opening.appliedChanges.flatMap AppliedItem.bytes ++ (r.counts.map CountsBlock.bytes).getD [] ++
      natBytes 4 r.opening.calibrationId.toNat := by
  simp only [FrameRecord.variableBytes]
  cases r.estimate <;> cases r.opening.monitorLattice <;> cases r.counts <;> rfl

theorem length_bindingBytes (b : RecordBinding) : b.bytes.length = 4 := by
  simp [RecordBinding.bytes, natBytes_length]

theorem length_countsBytes (c : CountsBlock) : c.bytes.length = 16 := by
  simp [CountsBlock.bytes, natBytes_length]

theorem length_appliedBytes (changes : List AppliedItem) : (changes.flatMap AppliedItem.bytes).length = 3 * changes.length := by
  simp [List.length_flatMap, AppliedItem.bytes, Nat.mul_comm]

/-- A record's bytes number its length: 73 at fixed positions, 13 in the parts that every record has, and the others. -/
theorem FrameRecord.length_bytes (r : FrameRecord) : r.bytes.length = r.length := by
  have estimate := length_optionalPart (natBytes_length 2) r.estimate
  have lattice := length_optionalPart length_bindingBytes r.opening.monitorLattice
  have counts := length_optionalPart length_countsBytes r.counts
  simp only [FrameRecord.bytes, r.variableBytes_eq, FrameRecord.length, List.length_append, r.length_fixedBytes, estimate,
    lattice, counts, length_bindingBytes, length_appliedBytes, natBytes_length, List.length_singleton]
  omega

/-- With at most 32 applied changes a record has 86 to 204 bytes (R181). -/
theorem FrameRecord.length_mem (r : FrameRecord) (h : r.opening.appliedChanges.length ≤ 32) :
    86 ≤ r.length ∧ r.length ≤ 204 := by
  unfold FrameRecord.length
  split_ifs <;> omega

/-! ## The layout -/

/-- Settles O54: the fixed items by `FrameRecord.bytes_fixedItem`, each by its place in the order of R181, and the parts behind
them by `FrameRecord.variableBytes_eq`. -/
theorem recordLayout : Obligations.RecordLayout := by
  intro r o at_ flag part binding
  have binding_eq : binding = RecordBinding.bytes := by
    funext ⟨slot, generation, origin⟩
    cases origin with
    | port p => cases p <;> rfl
    | _ => rfl
  have size : at_ 0 2 = natBytes 2 r.length := r.bytes_fixedItem (k := 0) rfl rfl rfl
  have flags : at_ 6 1 = [r.flagsByte] := r.bytes_fixedItem (k := 2) rfl rfl rfl
  have presence : at_ 7 1 = [r.presenceByte] := r.bytes_fixedItem (k := 3) rfl rfl rfl
  refine ⟨r.length_bytes, rfl, fun few => ?_, r.bytes_fixedItem (k := 1) rfl rfl rfl, ?_, ?_,
    r.bytes_fixedItem (k := 4) rfl rfl rfl, r.bytes_fixedItem (k := 5) rfl rfl rfl, r.bytes_fixedItem (k := 6) rfl rfl rfl,
    r.bytes_fixedItem (k := 7) rfl rfl rfl, r.bytes_fixedItem (k := 8) rfl rfl rfl, r.bytes_fixedItem (k := 9) rfl rfl rfl,
    r.bytes_fixedItem (k := 10) rfl rfl rfl, r.bytes_fixedItem (k := 11) rfl rfl rfl, r.bytes_fixedItem (k := 12) rfl rfl rfl,
    r.bytes_fixedItem (k := 13) rfl rfl rfl, r.bytes_fixedItem (k := 14) rfl rfl rfl, r.bytes_fixedItem (k := 15) rfl rfl rfl,
    ?_⟩
  · obtain ⟨least, most⟩ := r.length_mem few
    exact ⟨least, most, size ▸ bytesNat_natBytes (by omega)⟩
  · rw [flags]
    exact congrArg (fun x => [x]) (bitsByte_six _ _ _ _ _ _)
  · rw [presence]
    exact congrArg (fun x => [x]) (bitsByte_two _ _)
  · rw [binding_eq, FrameRecord.bytes, List.drop_left' r.length_fixedBytes]
    exact r.variableBytes_eq

end Sys2Proof.Machine
end
